-- ==== Sys2Proof/Word.lean ====
section
/-! DEFINITION. The smallest words of the model: a link byte, two of them, a string number, and one value per string. -/

namespace Sys2Proof

/-- One byte on the Control Link (spec/00_scope.md, "Link byte order"). -/
abbrev Byte := BitVec 8

/-- Two bytes in their order on the Control Link. -/
abbrev BytePair := Byte × Byte

/-- A string channel. The spec numbers strings 1 to 8; string `k` of the spec is `k - 1` here. -/
abbrev Str := Fin 8

/-- One value for each of the eight strings. -/
abbrev Bank (α : Type) := Vector α 8

end Sys2Proof
end

