-- ==== Sys2Proof/Syntax.lean ====
section
/-! DEFINITION. The commands of the part: one constructor per row of spec/opcode_table.json.

A row that takes something another block has handed over (an event, a result, a request, an answer, a message,
a posted command) carries only WHICH string's it takes, or nothing: the contents stand in the state that holds it
(assumption log 1). A row that takes something from outside the part carries it. -/

namespace Sys2Proof

/-- The commands, one constructor per row of spec/opcode_table.json, in the table's order. -/
inductive Instr where
  /-- HARD_RESET (R186): RESETN low, power-up, or a supply fall below 2.7 V. -/
  | hardReset
  /-- HARD_RESET_END (R186): RESETN rises or the power-up wait ends. -/
  | hardResetEnd
  /-- SAMPLE (R2): one sample of string `s` on the envelope scale. -/
  | sample (s : Str) (value : Int)
  /-- MILLISECOND_TICK (R5, R1). -/
  | millisecondTick
  /-- STALE_TIMER_EXPIRY (R74) of string `s`. -/
  | staleTimerExpiry (s : Str)
  /-- LINGER_TIMER_EXPIRY (R117) of the record that holds `handle`. -/
  | lingerTimerExpiry (handle : Nat)
  /-- COMPUTATION_COMPLETE (R29, R30). -/
  | computationComplete
  /-- TRACKER_RESULT (R54, R59): the Tracker of `s` takes the result of the computation in flight. -/
  | trackerResult (s : Str)
  /-- TRACKER_ONSET (R53). -/
  | trackerOnset (s : Str)
  /-- TRACKER_RELEASE_EVENT (R70). -/
  | trackerReleaseEvent (s : Str)
  /-- TRACKER_RESTRIKE (R71). -/
  | trackerRestrike (s : Str)
  /-- TRACKER_ANSWER (R48, R49). -/
  | trackerAnswer (s : Str)
  /-- FORCED_RELEASE_MESSAGE (R77). -/
  | forcedReleaseMessage (s : Str)
  /-- TRACKER_ENABLE (R52). -/
  | trackerEnable (s : Str)
  /-- TRACKER_DISABLE (R78). -/
  | trackerDisable (s : Str)
  /-- CREATE (R98), as the Tracker of `s` sent it. -/
  | create (s : Str)
  /-- UPDATE (R101), as the Tracker of `s` sent it. -/
  | update (s : Str)
  /-- CONFIRM (R103), as the Tracker of `s` sent it. -/
  | confirm (s : Str)
  /-- RELEASE (R104), as the Tracker of `s` sent it. -/
  | release (s : Str)
  /-- SUCCEED (R105), as the Tracker of `s` sent it. -/
  | succeed (s : Str)
  /-- PROBE_PITCH (R147): the probe takes the next pitch the Tracker of `s` passed. -/
  | probePitch (s : Str)
  /-- FRAME_START (R159): CSN falls. -/
  | frameStart
  /-- COMMAND_BYTE (R160): byte 0 of the frame is complete. -/
  | commandByte (byte : Byte)
  /-- POSTED_COMMAND_ARRIVAL (R162): the last parameter byte of a posted command is complete. -/
  | postedCommandArrival (params : List Byte)
  /-- POSTED_APPLICATION_COMPLETE (R163). -/
  | postedApplicationComplete
  /-- TURNAROUND_BUSY (R165): the turnaround byte is complete. -/
  | turnaroundBusy
  /-- NOTICE_ENTRY_DELIVERED (R170): the fourth byte of an entry is complete. -/
  | noticeEntryDelivered
  /-- FRAME_END (R158, R166): CSN rises after `bytes` complete bytes, byte 0 among them. -/
  | frameEnd (bytes : Nat)
  /-- GET_NOTE (R167) with its handle byte. -/
  | getNote (handle : Byte)
  /-- GET_STRING (R167) with its string byte. -/
  | getString (string : Byte)
  /-- GET_CHANGED (R168). -/
  | getChanged
  /-- LIST_NOTES (R169). -/
  | listNotes
  /-- TAKE_NOTICES (R170) with its maximum. -/
  | takeNotices (max : Byte)
  /-- GET_STATUS (R169). -/
  | getStatus
  /-- GET_SETTING (R130) with its setting number. -/
  | getSetting (number : Byte)
  /-- PROBE_START (R145) with its nine parameter bytes in their order on the link (R171): the string, the start slot,
  the two bytes of SIZE0, of SIZE1 and of the size-select mask, and the auto-apply option. -/
  | probeStart (string slot : Byte) (size0 size1 mask : BytePair) (auto : Byte)
  /-- PROBE_RESULTS (R156). -/
  | probeResults
  /-- TAG_NOTE (R108), at the head of the posted buffer. -/
  | tagNote
  /-- UNTAG_NOTE (R108), at the head of the posted buffer. -/
  | untagNote
  /-- HOLD_NOTE (R109), at the head of the posted buffer. -/
  | holdNote
  /-- RELEASE_NOTE (R110), at the head of the posted buffer. -/
  | releaseNote
  /-- RETIRE_NOTE (R112), at the head of the posted buffer. -/
  | retireNote
  /-- ALL_RELEASE (R111), at the head of the posted buffer. -/
  | allRelease
  /-- SET (R128) of any setting number, at the head of the posted buffer. -/
  | set
  /-- SET_ENABLE_MASK (R134): a SET of setting 0x00, at the head of the posted buffer. -/
  | setEnableMask
  /-- SET_REFERENCE (R136): a SET of setting 0x01, at the head of the posted buffer. -/
  | setReference
  /-- SELECT_PROFILE (R137), at the head of the posted buffer. -/
  | selectProfile
  /-- PROBE_STOP (R152), at the head of the posted buffer. -/
  | probeStop
  /-- CLEAR_FAULTS (R183), at the head of the posted buffer. -/
  | clearFaults
  /-- RESTART (R173), at the head of the posted buffer. -/
  | restart
  deriving DecidableEq, Repr

end Sys2Proof
end

