-- ==== Sys2Proof/Decode.lean ====
section
/-! DEFINITION. The commands that spec/opcode_table.json spells by bits: none of its rows gives any. -/

namespace Sys2Proof

/-- The command a table word spells. Every row of spec/opcode_table.json has an empty list of fields and no fixed
bits, so no word spells a command (assumption log 5). -/
def decodeTableWord (_nbits _w : Nat) : Option Instr := none

end Sys2Proof
end

