-- ==== Sys2Proof/Config.lean ====
section
/-! DEFINITION. What this part fixes: the capacities of its queues and its table; and the one value that the spec
leaves open. -/

namespace Sys2Proof.Config

/-- Waiting reports one cycle queue holds (R16). -/
abbrev cycleQueueDepth : Nat := 4

/-- Posted commands the posted buffer holds (R162). -/
abbrev postedDepth : Nat := 8

/-- Notices the notice queue holds (R179). -/
abbrev noticeDepth : Nat := 32

/-- Record slots of the Note Table (R90). -/
abbrev slots : Nat := 16

/-- The elapsed count of cycle timing stops and holds here (R13). -/
abbrev elapsedStop : Nat := 196608

/-- The shortest period a cycle report carries (R14). -/
abbrev shortestPeriod : Nat := 2048

/-- The magnitude of a full-scale sample (R2). -/
abbrev fullScale : Nat := 4095

/-- A record's age holds at this value (R92). -/
abbrev ageStop : Nat := 65535

/-- FREE VALUE (assumption log 34). Strings form consistent pairs in ATTACK at about the same moment: which of the others'
entries to FORMING come before the test that string `s` runs? Those numbered below this. R86 allows either order. It is
the test that `s` runs as number `test` after `resets` resets. -/
opaque entriesSeen (resets test : Nat) (s : Str) : Nat

end Sys2Proof.Config
end

