-- ==== Sys2Proof/Machine/State.lean ====
section
/-! DEFINITION. The state of the part as plain data, block by block, and the state after reset.

A field marked MODEL is the model's own; every other field is named by the rule its docstring cites. -/

namespace Sys2Proof.Machine

/-! ## Names shared by all chapters (spec/00_scope.md) -/

/-- One of the two profiles (R123). -/
inductive Profile | A | B
  deriving DecidableEq, Repr

/-- The seven channel states of a String Tracker (R47). -/
inductive ChannelState | off | quiet | attack | bleed | forming | tracking | muted
  deriving DecidableEq, Repr

/-- The states of an occupied record (R90). -/
inductive RecordState | provisional | sounding | released
  deriving DecidableEq, Repr

/-- The release reasons (R91). -/
inductive ReleaseReason | decay | restrike | legato | overbend | stale | forced | disabled
  deriving DecidableEq, Repr

/-- The fault causes (R181). -/
inductive FaultCause | overload | overrun | noticeLoss | refused | frame
  deriving DecidableEq, Repr

/-- The results of a non-posted command (R175). -/
inductive ResultCode | ok | notFound | badValue | busy | disabled
  deriving DecidableEq, Repr

/-- The reasons a posted command is refused for (R175). -/
inductive RefusalReason | notFound | live | badValue | badSetting | bufferFull
  deriving DecidableEq, Repr

/-- The reasons a probe run is aborted for (R155). -/
inductive AbortReason | stopped | disabled | reference
  deriving DecidableEq, Repr

/-- The legato policies (R127). -/
inductive Legato | newNote | bend
  deriving DecidableEq, Repr

/-- The overflow policies (R127). -/
inductive Overflow | clamp | renote
  deriving DecidableEq, Repr

/-- A millisecond timer. `running 0` has reached its expiry, and the expiry has not been taken yet (R116). -/
inductive Timer | stopped | running (left : Nat)
  deriving DecidableEq, Repr

/-! ## String Front End (spec/01_string_channels.md) -/

/-- The gate (R6, R7). -/
inductive Gate | closed | opened
  deriving DecidableEq, Repr

/-- The events a Front End emits (R11). -/
inductive FrontEndEvent | onset | release | restrike
  deriving DecidableEq, Repr

/-- A cycle report (R15). -/
structure CycleReport where
  period : Nat
  peak : Nat
  overload : Bool
  deriving DecidableEq, Repr

/-- Cycle timing (R13). The start instant is held as the timing ticks from it to the latest sample, which is the
elapsed count (assumption log 15). -/
inductive CycleTiming
  | waiting
  | timing (elapsed : Nat) (peak : Nat) (overload : Bool)
  deriving DecidableEq, Repr

/-- A String Front End (R22). -/
structure FrontEnd where
  /-- env (R4). -/
  env : Nat := 0
  /-- The gate (R6, R7). -/
  gate : Gate := .closed
  /-- The onset count (R6). -/
  onsetCount : Nat := 0
  /-- The release count (R7). -/
  releaseCount : Nat := 0
  /-- env_hi (R9). -/
  envHi : Nat := 0
  /-- env_lo (R9). -/
  envLo : Nat := 0
  /-- The crossing level L (R12). -/
  level : Nat := 0
  /-- The crossing detector is armed (R12). -/
  armed : Bool := false
  /-- The previous sample p (R12). -/
  previous : Int := 0
  /-- The largest magnitude among this millisecond's samples so far, the pk of R4. -/
  peak : Nat := 0
  /-- Cycle timing (R13). -/
  timing : CycleTiming := .waiting
  /-- The cycle queue, oldest first (R16). -/
  queue : List CycleReport := []
  /-- The overload mark (R3). -/
  overloadMark : Bool := false
  /-- The overrun mark (R17). -/
  overrunMark : Bool := false
  deriving DecidableEq, Repr

/-! ## Pitch Unit (spec/02_the_pitch_unit.md) -/

/-- A computation in flight with the inputs fixed at its start (R28). -/
structure Computation where
  /-- Its string, the holder (R24). -/
  string : Str
  /-- The report taken (R27). -/
  report : CycleReport
  /-- The reference term as it stood at the start. -/
  refTerm : Int
  /-- The string's sensitivity gain. -/
  gain : Nat
  /-- The string's tuning offset. -/
  offset : Int
  /-- The committed smoothed period, where one is used. -/
  committed : Option Nat
  /-- The smoothing shift k. -/
  shift : Nat
  /-- MODEL: the result has been handed to the Tracker and the decision of R30 is still to come
  (assumption log 10). -/
  handed : Bool := false
  deriving DecidableEq, Repr

/-- A result (R29). -/
structure PitchResult where
  period : Nat
  peak : Nat
  overload : Bool
  rawPitch : Int
  candidatePeriod : Nat
  smoothedPitch : Int
  level : Nat
  offset : Int
  deriving DecidableEq, Repr

/-- The Pitch Unit (R24). Condition and holder are read off the computation in flight. -/
structure PitchUnit where
  /-- The computation in flight, present exactly while BUSY. -/
  computation : Option Computation := none
  /-- Tenure used. -/
  tenureUsed : Nat := 0
  /-- The last-granted string; string 8 after reset (R32). -/
  lastGranted : Str := 7
  /-- The reference term R (R36); 18,063 for the default reference. -/
  refTerm : Int := 18063
  deriving DecidableEq, Repr

/-! ## Settings Store (spec/06_settings_profiles_and_zones.md) -/

/-- One zone (R125). -/
structure Zone where
  base : Nat
  limit : Nat
  strings : BitVec 8
  deriving DecidableEq, Repr

/-- The physical settings of one string (R126). -/
structure Physical where
  onset : Nat := 256
  release : Nat := 96
  gain : Nat := 32
  offset : Int := 0
  deriving DecidableEq, Repr

/-- The musical settings of one string in one profile (R127). -/
structure Musical where
  transpose : Int := 0
  bendRange : Nat := 2
  legato : Legato := .newNote
  overflow : Overflow := .clamp
  deriving DecidableEq, Repr

/-- The Settings Store with its defaults (R124 to R127, R141). -/
structure Settings where
  enableMask : BitVec 8 := 0x3F#8
  reference : Nat := 4400
  linger : Nat := 100
  stale : Nat := 20
  tenure : Nat := 2
  confirmCount : Nat := 2
  onsetTolerance : Nat := 24
  stepThreshold : Nat := 40
  smoothingShift : Nat := 2
  onsetConfirm : Nat := 2
  releaseConfirm : Nat := 8
  restrikeRatio : Nat := 12
  bleedThreshold : Nat := 16
  bleedRatio : Nat := 4
  bleedDistance : Nat := 1
  noticeEnables : BitVec 9 := 0x1FF#9
  attention : BitVec 3 := 5#3
  zones : Vector Zone 4 := #v[⟨0, 127, 0xFF#8⟩, ⟨127, 0, 0xFF#8⟩, ⟨127, 0, 0xFF#8⟩, ⟨127, 0, 0xFF#8⟩]
  physical : Bank Physical := Vector.replicate 8 {}
  profileA : Bank Musical := Vector.replicate 8 {}
  profileB : Bank Musical := Vector.replicate 8 {}
  selected : Profile := .A
  deriving DecidableEq, Repr

/-! ## String Tracker (spec/03_tracking_a_string.md) -/

/-- The stale timer (R73). `running 0` has reached its expiry; `taken` is after the Tracker was told of it and
before the timer is stopped or started again. -/
inductive StaleTimer | stopped | running (left : Nat) | taken
  deriving DecidableEq, Repr

/-- The last-sent values (R47), with the transpose and bend range the live record captured at its creation
(R50, R132; assumption log 19). -/
structure LastSent where
  note : Nat
  bend : Int
  level : Nat
  saturated : Bool
  transpose : Int
  bendRange : Nat
  deriving DecidableEq, Repr

/-- The committed smoothed period and pitch, present together (R47). -/
structure Committed where
  period : Nat
  pitch : Int
  deriving DecidableEq, Repr

/-- The contents of CREATE (R48). -/
structure CreateRequest where
  note : Nat
  bend : Int
  velocity : Nat
  level : Nat
  profile : Profile
  transpose : Int
  bendRange : Nat
  predecessor : Option Nat
  deriving DecidableEq, Repr

/-- The contents of UPDATE (R48). -/
structure UpdateRequest where
  handle : Nat
  note : Nat
  bend : Int
  level : Nat
  stale : Bool
  saturated : Bool
  deriving DecidableEq, Repr

/-- The contents of SUCCEED (R48). -/
structure SucceedRequest where
  handle : Nat
  reason : ReleaseReason
  note : Nat
  bend : Int
  velocity : Nat
  level : Nat
  deriving DecidableEq, Repr

/-- The requests a Tracker sends the Note Table (R48). -/
inductive Request
  | create (r : CreateRequest)
  | update (r : UpdateRequest)
  | confirm (handle : Nat)
  | release (handle : Nat) (reason : ReleaseReason)
  | succeed (r : SucceedRequest)
  deriving DecidableEq, Repr

/-- The Note Table's answers (R48). -/
inductive Answer | ok | notLive | handle (h : Nat)
  deriving DecidableEq, Repr

/-- The awaited answer (R47): the request sent, the raw pitch of the counted cycle that caused it (R79), and the
answer once the Note Table has given it. -/
structure Awaited where
  request : Request
  counted : Option Int
  answer : Option Answer
  deriving DecidableEq, Repr

/-- The inputs a Tracker takes or defers (R49). -/
inductive TrackerInput
  | frontEnd (e : FrontEndEvent)
  | result (r : PitchResult)
  | staleExpiry (run : Nat)
  | forcedRelease (handle : Nat)
  | enable
  | disable
  deriving DecidableEq, Repr

/-- MODEL: what a scene holds of a Tracker. Each input that a Tracker takes or defers and that could bear on a bleed test
changes one of these (assumption log 34). -/
structure Glance where
  state : ChannelState
  committed : Option Committed
  firstPair : Option Int
  staleRun : Nat
  tests : Nat
  awaited : Option Awaited
  deferred : List TrackerInput
  deriving DecidableEq, Repr

/-- MODEL: what stands when a bleed test is run (R81; assumption log 34). -/
structure Scene where
  /-- The Front Ends, their cycle queues aside. -/
  frontEnds : Bank FrontEnd
  /-- The Pitch Unit, the handing over of its present result aside. -/
  pitchUnit : PitchUnit
  settings : Settings
  trackers : Bank Glance
  deriving DecidableEq, Repr

/-- MODEL: an entry to FORMING from ATTACK (R86; assumption log 34). -/
structure Entry where
  /-- The entries' order. -/
  number : Nat
  /-- What stood as the entry was made. -/
  scene : Scene
  deriving DecidableEq, Repr

/-- A String Tracker (R47). -/
structure Tracker where
  /-- The channel state. -/
  state : ChannelState := .quiet
  /-- The live handle. -/
  live : Option Nat := none
  /-- The last-sent values. -/
  lastSent : Option LastSent := none
  /-- The committed smoothed period Tf16 and pitch pf. -/
  committed : Option Committed := none
  /-- The first-pair raw pitch. -/
  firstPair : Option Int := none
  /-- The attack peak maximum A. -/
  peakMax : Nat := 0
  /-- The held step candidate. -/
  held : Option Int := none
  /-- The confirm count. -/
  confirmCount : Nat := 0
  /-- The stale timer. -/
  staleTimer : StaleTimer := .stopped
  /-- MODEL: the number of the timer's present running (R73; assumption log 20). -/
  staleRun : Nat := 0
  /-- The stale-expiry count. -/
  staleExpiries : Nat := 0
  /-- The adopted profile. -/
  adopted : Profile := .A
  /-- The pending predecessor. -/
  predecessor : Option Nat := none
  /-- The awaited answer. -/
  awaited : Option Awaited := none
  /-- The deferred inputs, in the order they reached the Tracker (R49). -/
  deferred : List TrackerInput := []
  /-- Front End events on their way, oldest first (R11, R53). -/
  events : List FrontEndEvent := []
  /-- Forced-release messages on their way, oldest first (R113). -/
  forced : List Nat := []
  /-- Enable (true) and disable (false) messages on their way, oldest first (R134, R135). -/
  enables : List Bool := []
  /-- Raw pitches passed and on their way to the probe, oldest first (R79, R147). -/
  passed : List Int := []
  /-- MODEL: how many bleed tests it has run since the latest reset, the index of a free value (assumption log 35). -/
  tests : Nat := 0
  /-- MODEL: its latest entry to FORMING, where that was from ATTACK (R86; assumption log 34). It is read only until the
  CREATE sent then is applied. -/
  entry : Option Entry := none
  deriving DecidableEq, Repr

/-! ## Note Table (spec/05_the_note_table.md) -/

/-- The image of a record: the fields the controller can read (R91). -/
structure Image where
  handle : Nat
  state : RecordState
  string : Str
  note : Nat
  bend : Int
  velocity : Nat
  level : Nat
  zone : Option (Fin 4)
  tag : Option Byte
  hold : Bool
  stale : Bool
  corrected : Bool
  saturated : Bool
  profile : Profile
  transpose : Int
  bendRange : Nat
  predecessor : Option Nat
  successor : Option Nat
  reason : Option ReleaseReason
  age : Nat
  deriving DecidableEq, Repr

/-- An occupied record: its image, its changed flag (R96), its linger timer (R116), and a serial number. -/
structure Record where
  image : Image
  changed : Bool
  linger : Timer
  /-- MODEL: the record's number in order of creation (R121's "the same record"; assumption log 8). -/
  serial : Nat
  deriving DecidableEq, Repr

/-- The Note Table (R90 to R94). Its occupied slots are held as the list of their records in creation order; the
FREE slots are the rest of the sixteen (assumption log 7). -/
structure NoteTable where
  /-- The occupied records, in the order of the creation-order list (R94). -/
  records : List Record := []
  /-- The recency list, least recently used first (R94). -/
  recency : List Nat := []
  /-- The next-handle counter (R93). -/
  nextHandle : Nat := 1
  /-- MODEL: records created so far (assumption log 8). -/
  created : Nat := 0
  deriving DecidableEq, Repr

/-! ## Intonation Probe (spec/07_the_intonation_probe.md) -/

/-- The plan of a run (R143, R144). -/
structure Plan where
  size0 : Nat
  size1 : Nat
  select : BitVec 9
  auto : Bool
  deriving DecidableEq, Repr

/-- A valid result slot (R149). -/
structure SlotResult where
  mean16 : Int
  least : Int
  greatest : Int
  count : Nat
  deriving DecidableEq, Repr

/-- The measurement context (R143, R157). -/
structure Probe where
  /-- RUNNING (true) or IDLE. -/
  running : Bool := false
  /-- The bound string. -/
  string : Option Str := none
  /-- The start slot. -/
  start : Nat := 9
  /-- The pointer. -/
  pointer : Nat := 9
  /-- SIZE0, SIZE1, the size-select mask and auto-apply; no plan after a reset. -/
  plan : Option Plan := none
  /-- The slot accumulator S. -/
  sum : Int := 0
  /-- The slot accumulator N. -/
  count : Nat := 0
  /-- The slot accumulators mn and mx, both empty or both held. -/
  least : Option Int := none
  greatest : Option Int := none
  /-- The run total of S. -/
  totalSum : Int := 0
  /-- The run total of N. -/
  totalCount : Nat := 0
  /-- Result slots 0 to 8. -/
  slots : Vector (Option SlotResult) 9 := Vector.replicate 9 none
  deriving DecidableEq, Repr

/-! ## Control Link (spec/08_the_control_link.md) -/

/-- The twenty defined command codes (R160). -/
inductive CommandCode
  | getNote | getString | getChanged | listNotes | takeNotices | getStatus | getSetting | probeStart | probeResults
  | tagNote | untagNote | holdNote | releaseNote | retireNote | allRelease | set | selectProfile | probeStop
  | clearFaults | restart
  deriving DecidableEq, Repr

/-- A posted command with its parameters (R162, R172, R173). -/
inductive Posted
  | tagNote (handle tag : Byte)
  | untagNote (handle : Byte)
  | holdNote (handle setting : Byte)
  | releaseNote (handle : Byte)
  | retireNote (handle : Byte)
  | allRelease
  | set (number : Byte) (value : BitVec 16)
  | selectProfile (value : Byte)
  | probeStop
  | clearFaults (mask : Byte)
  | restart
  deriving DecidableEq, Repr

/-- The parameters of PROBE START (R171). -/
structure ProbeStart where
  string : Byte
  slot : Byte
  size0 : BitVec 16
  size1 : BitVec 16
  mask : BitVec 16
  auto : Byte
  deriving DecidableEq, Repr

/-- A non-posted command with its parameters (R160). -/
inductive Query
  | getNote (handle : Byte)
  | getString (string : Byte)
  | getChanged
  | listNotes
  | takeNotices (max : Byte)
  | getStatus
  | getSetting (number : Byte)
  | probeStart (p : ProbeStart)
  | probeResults
  deriving DecidableEq, Repr

/-- A record whose image a response holds (R166). -/
structure Included where
  handle : Nat
  serial : Nat
  deriving DecidableEq, Repr

/-- What a snapshot fixed for the rest of its frame (R165, R166). -/
structure Response where
  /-- Parameter bytes of the command, which stand before the turnaround byte. -/
  params : Nat
  /-- The result code byte. -/
  result : ResultCode
  /-- The bytes after the result code. -/
  data : List Byte := []
  /-- The included images, in the order of the response (R121). -/
  images : List Included := []
  /-- Included notice entries not yet delivered (R170). -/
  entries : Nat := 0
  deriving DecidableEq, Repr

/-- Where the Control Link stands in a frame. -/
inductive Phase
  /-- No frame: CSN is high. -/
  | idle
  /-- After a hard reset, CSN has not been seen high (R174). -/
  | awaitHigh
  /-- CSN has fallen and byte 0 is not complete. -/
  | begun
  /-- The command byte is complete and the command is not (R161); or, for a posted command without parameters, it
  has just become complete and arrives. -/
  | params (c : CommandCode)
  /-- A non-posted command is complete and its snapshot is not taken (R165). -/
  | waiting (q : Query)
  /-- The response is fixed. -/
  | responding (r : Response)
  /-- The rest of the frame is ignored and reads 0x00 (R160, R161). -/
  | ignoring
  deriving DecidableEq, Repr

/-- The Control Link. -/
structure Link where
  /-- The level of CSN: low (true) or high. -/
  csnLow : Bool := false
  /-- Where the frame stands. -/
  phase : Phase := .idle
  /-- The status byte captured at the frame's start (R159). -/
  status : Byte := 0#8
  /-- The posted buffer, oldest first (R162). -/
  buffer : List Posted := []
  /-- MODEL: the effects of the oldest command are in place and its completion is to come (assumption log 11). -/
  applied : Bool := false
  deriving DecidableEq, Repr

/-! ## Notice and Fault Unit (spec/09_notices_faults_and_attention.md) -/

/-- A notice (R177). -/
inductive Notice
  | new (handle : Nat) (state : RecordState) (string : Str) (note : Nat)
  | confirmed (handle : Nat) (string : Str) (note : Nat)
  | corrected (handle : Nat) (note : Nat)
  | released (handle : Nat) (reason : ReleaseReason) (successor : Nat)
  | expired (handle : Nat)
  | evicted (handle : Nat)
  | probeDone (string : Str) (slots : Nat)
  | probeAborted (string : Str) (reason : AbortReason)
  | fault (cause : FaultCause) (detail : Byte)
  deriving DecidableEq, Repr

/-- The last-refusal record (R182). -/
structure LastRefusal where
  code : Byte
  param : Byte
  reason : RefusalReason
  deriving DecidableEq, Repr

/-- The Notice and Fault Unit (R185). The overload and overrun masks are the Front Ends' marks (R182), and ATTN is
computed (R184). -/
structure NoticeUnit where
  /-- The notice queue, oldest first (R179). -/
  queue : List Notice := []
  /-- The five fault flags (R181). -/
  overload : Bool := false
  overrun : Bool := false
  noticeLoss : Bool := false
  refused : Bool := false
  frame : Bool := false
  /-- The last-refusal record (R182). -/
  lastRefusal : Option LastRefusal := none
  /-- MODEL: a PROBE ABORTED of the SET in application, on its way to the unit (R134, R163; assumption log 31). -/
  coming : List Notice := []
  deriving DecidableEq, Repr

/-! ## The part -/

/-- Why a step faults. The spec gives the part no behaviour that stops it (its five fault flags are state, R181), so
no command raises a fault and there is no constructor. -/
inductive Fault
  deriving DecidableEq, Repr

/-- Why a step is refused. -/
inductive Refusal
  /-- Raised by exec alone, for a command that has no meaning yet. Safe: the step stops. No arm raises it. -/
  | notModelled (mnemonic : String)
  deriving DecidableEq, Repr

/-- The whole part and the queue of commands waiting for it. -/
structure State where
  frontEnds : Bank FrontEnd
  pitchUnit : PitchUnit
  trackers : Bank Tracker
  table : NoteTable
  settings : Settings
  probe : Probe
  link : Link
  notices : NoticeUnit
  /-- The part is held in hard reset (R186). -/
  inReset : Bool
  /-- MODEL: how many hard resets and restarts there have been, the index of a free value (assumption log 35). -/
  resets : Nat
  /-- MODEL: the commands waiting, first in, first out. -/
  pending : List Instr
  deriving DecidableEq, Repr

/-- The Trackers after a hard reset: QUIET on strings 1 to 6, which the default enable mask enables, and OFF on
strings 7 and 8 (R80). -/
def resetTrackers : Bank Tracker :=
  Vector.ofFn fun s => if s.val < 6 then { state := .quiet } else { state := .off }

/-- The part right after a hard reset has ended, with CSN high (R186; assumption log 4). -/
def State.reset : State where
  frontEnds := Vector.replicate 8 {}
  pitchUnit := {}
  trackers := resetTrackers
  table := {}
  settings := {}
  probe := {}
  link := {}
  notices := {}
  inReset := false
  resets := 0
  pending := []

end Sys2Proof.Machine
end

