-- ==== Sys2Proof/Machine/Operands.lean ====
section
/-! DEFINITION. What the bytes of a command name: strings, setting numbers (R123 to R127) with their kinds and
ranges, command codes (R160) and the parameters that follow them. -/

namespace Sys2Proof.Machine

/-! ## Strings -/

/-- The spec's number of a string, 1 to 8 (spec/00_scope.md, "Strings"). -/
def stringNumber (s : Str) : Nat := s.val + 1

/-- The string a number names, if it is 1 to 8. -/
def stringOfNumber (n : Nat) : Option Str := if 1 ≤ n ∧ n ≤ 8 then some (Fin.ofNat 8 (n - 1)) else none

/-- The eight strings in order. -/
def allStrings : List Str := [0, 1, 2, 3, 4, 5, 6, 7]

/-- A mask whose bit s − 1 stands for string s includes the string (R124, R125). -/
def maskHas (mask : BitVec 8) (s : Str) : Bool := mask.getLsbD s.val

/-- The string is enabled in the settings' enable mask (R124). -/
def Settings.enabled (k : Settings) (s : Str) : Bool := maskHas k.enableMask s

/-! ## Settings -/

/-- The global settings, in the order of their numbers 0x00 to 0x10 (R124). -/
inductive GlobalItem
  | enableMask | reference | linger | stale | tenure | confirmCount | onsetTolerance | stepThreshold | smoothingShift
  | onsetConfirm | releaseConfirm | restrikeRatio | bleedThreshold | bleedRatio | bleedDistance | noticeEnables
  | attention
  deriving DecidableEq, Repr

/-- The items of a zone (R125). -/
inductive ZoneItem | base | limit | strings
  deriving DecidableEq, Repr

/-- The items of a string's physical settings (R126). -/
inductive PhysicalItem | onset | release | gain | offset
  deriving DecidableEq, Repr

/-- The items of a string's musical settings in a profile (R127). -/
inductive MusicalItem | transpose | bendRange | legato | overflow
  deriving DecidableEq, Repr

/-- A defined setting (R123). -/
inductive SettingId
  | global (i : GlobalItem)
  | zone (z : Fin 4) (i : ZoneItem)
  | physical (s : Str) (i : PhysicalItem)
  | musical (p : Profile) (s : Str) (i : MusicalItem)
  deriving DecidableEq, Repr

/-- The global items by number (R124). -/
def globalItems : List GlobalItem :=
  [.enableMask, .reference, .linger, .stale, .tenure, .confirmCount, .onsetTolerance, .stepThreshold, .smoothingShift,
   .onsetConfirm, .releaseConfirm, .restrikeRatio, .bleedThreshold, .bleedRatio, .bleedDistance, .noticeEnables,
   .attention]

/-- The zone item at a place modulo 3 (R125). -/
def zoneItemAt (k : Nat) : ZoneItem :=
  match k % 3 with
  | 0 => .base
  | 1 => .limit
  | _ => .strings

/-- The physical item at a place modulo 4 (R126). -/
def physicalItemAt (k : Nat) : PhysicalItem :=
  match k % 4 with
  | 0 => .onset
  | 1 => .release
  | 2 => .gain
  | _ => .offset

/-- The musical item at a place modulo 4 (R127). -/
def musicalItemAt (k : Nat) : MusicalItem :=
  match k % 4 with
  | 0 => .transpose
  | 1 => .bendRange
  | 2 => .legato
  | _ => .overflow

/-- The setting a number names; none for an undefined number (R123). -/
def SettingId.ofNumber (number : Byte) : Option SettingId :=
  let n := number.toNat
  if n ≤ 0x10 then (globalItems[n]?).map .global
  else if n < 0x20 then none
  else if n ≤ 0x2B then some (.zone (Fin.ofNat 4 ((n - 0x20) / 3)) (zoneItemAt (n - 0x20)))
  else if n < 0x40 then none
  else if n ≤ 0x5F then some (.physical (Fin.ofNat 8 ((n - 0x40) / 4)) (physicalItemAt (n - 0x40)))
  else if n < 0x80 then none
  else if n ≤ 0x9F then some (.musical .A (Fin.ofNat 8 ((n - 0x80) / 4)) (musicalItemAt (n - 0x80)))
  else if n ≤ 0xBF then some (.musical .B (Fin.ofNat 8 ((n - 0xA0) / 4)) (musicalItemAt (n - 0xA0)))
  else none

/-- The three kinds of setting (R123): a numeric range, signed or not; a mask of so many bits; an enumeration of so
many codes, counted from 0. -/
inductive SettingKind
  | numeric (lo hi : Nat)
  | signed (lo hi : Int)
  | mask (bits : Nat)
  | enumeration (codes : Nat)
  deriving DecidableEq, Repr

/-- The kind and range of each setting (R124 to R127). -/
def SettingId.kind : SettingId → SettingKind
  | .global .enableMask => .mask 8
  | .global .reference => .numeric 4000 4800
  | .global .linger => .numeric 0 255
  | .global .stale => .numeric 4 255
  | .global .tenure => .numeric 1 4
  | .global .confirmCount => .numeric 1 7
  | .global .onsetTolerance => .numeric 4 64
  | .global .stepThreshold => .numeric 16 192
  | .global .smoothingShift => .numeric 0 3
  | .global .onsetConfirm => .numeric 1 8
  | .global .releaseConfirm => .numeric 1 32
  | .global .restrikeRatio => .numeric 9 32
  | .global .bleedThreshold => .numeric 0 64
  | .global .bleedRatio => .numeric 1 15
  | .global .bleedDistance => .numeric 1 7
  | .global .noticeEnables => .mask 9
  | .global .attention => .mask 3
  | .zone _ .base => .numeric 0 127
  | .zone _ .limit => .numeric 0 127
  | .zone _ .strings => .mask 8
  | .physical _ .onset => .numeric 16 4095
  | .physical _ .release => .numeric 8 4094
  | .physical _ .gain => .numeric 1 255
  | .physical _ .offset => .signed (-64) 63
  | .musical _ _ .transpose => .signed (-24) 24
  | .musical _ _ .bendRange => .numeric 1 24
  | .musical _ _ .legato => .enumeration 2
  | .musical _ _ .overflow => .enumeration 2

/-- Legato policy codes (R127). -/
def Legato.ofCode (c : Int) : Legato := if c = 0 then .newNote else .bend
/-- Legato policy codes (R127). -/
def Legato.code : Legato → Int
  | .newNote => 0
  | .bend => 1

/-- Overflow policy codes (R127). -/
def Overflow.ofCode (c : Int) : Overflow := if c = 0 then .clamp else .renote
/-- Overflow policy codes (R127). -/
def Overflow.code : Overflow → Int
  | .clamp => 0
  | .renote => 1

/-- The profile's musical settings of all strings (R127). -/
def Settings.profile (k : Settings) : Profile → Bank Musical
  | .A => k.profileA
  | .B => k.profileB

/-- The musical settings a profile gives a string (R127). -/
def Settings.musical (k : Settings) (p : Profile) (s : Str) : Musical := (k.profile p)[s]

/-- Replace a global setting by a fitted value (R128). -/
def Settings.writeGlobal (k : Settings) (v : Int) : GlobalItem → Settings
  | .enableMask => { k with enableMask := BitVec.ofInt 8 v }
  | .reference => { k with reference := v.toNat }
  | .linger => { k with linger := v.toNat }
  | .stale => { k with stale := v.toNat }
  | .tenure => { k with tenure := v.toNat }
  | .confirmCount => { k with confirmCount := v.toNat }
  | .onsetTolerance => { k with onsetTolerance := v.toNat }
  | .stepThreshold => { k with stepThreshold := v.toNat }
  | .smoothingShift => { k with smoothingShift := v.toNat }
  | .onsetConfirm => { k with onsetConfirm := v.toNat }
  | .releaseConfirm => { k with releaseConfirm := v.toNat }
  | .restrikeRatio => { k with restrikeRatio := v.toNat }
  | .bleedThreshold => { k with bleedThreshold := v.toNat }
  | .bleedRatio => { k with bleedRatio := v.toNat }
  | .bleedDistance => { k with bleedDistance := v.toNat }
  | .noticeEnables => { k with noticeEnables := BitVec.ofInt 9 v }
  | .attention => { k with attention := BitVec.ofInt 3 v }

/-- Replace a zone item (R125). -/
def Zone.write (z : Zone) (v : Int) : ZoneItem → Zone
  | .base => { z with base := v.toNat }
  | .limit => { z with limit := v.toNat }
  | .strings => { z with strings := BitVec.ofInt 8 v }

/-- Replace a physical item (R126). -/
def Physical.write (p : Physical) (v : Int) : PhysicalItem → Physical
  | .onset => { p with onset := v.toNat }
  | .release => { p with release := v.toNat }
  | .gain => { p with gain := v.toNat }
  | .offset => { p with offset := v }

/-- Replace a musical item (R127). -/
def Musical.write (m : Musical) (v : Int) : MusicalItem → Musical
  | .transpose => { m with transpose := v }
  | .bendRange => { m with bendRange := v.toNat }
  | .legato => { m with legato := .ofCode v }
  | .overflow => { m with overflow := .ofCode v }

/-- Replace one string's musical settings in one profile; the other profile is untouched (R127). -/
def Settings.setMusical (k : Settings) (p : Profile) (s : Str) (m : Musical) : Settings :=
  match p with
  | .A => { k with profileA := k.profileA.set s m }
  | .B => { k with profileB := k.profileB.set s m }

/-- Store a fitted value in place of a setting's old one (R128, step 4). -/
def Settings.write (k : Settings) (v : Int) : SettingId → Settings
  | .global i => k.writeGlobal v i
  | .zone z i => { k with zones := k.zones.set z ((k.zones[z]).write v i) }
  | .physical s i => { k with physical := k.physical.set s ((k.physical[s]).write v i) }
  | .musical p s i => k.setMusical p s ((k.musical p s).write v i)

/-- The stored value of a global setting (R130). -/
def Settings.readGlobal (k : Settings) : GlobalItem → Int
  | .enableMask => k.enableMask.toNat
  | .reference => k.reference
  | .linger => k.linger
  | .stale => k.stale
  | .tenure => k.tenure
  | .confirmCount => k.confirmCount
  | .onsetTolerance => k.onsetTolerance
  | .stepThreshold => k.stepThreshold
  | .smoothingShift => k.smoothingShift
  | .onsetConfirm => k.onsetConfirm
  | .releaseConfirm => k.releaseConfirm
  | .restrikeRatio => k.restrikeRatio
  | .bleedThreshold => k.bleedThreshold
  | .bleedRatio => k.bleedRatio
  | .bleedDistance => k.bleedDistance
  | .noticeEnables => k.noticeEnables.toNat
  | .attention => k.attention.toNat

/-- The stored value of a zone item. -/
def Zone.read (z : Zone) : ZoneItem → Int
  | .base => z.base
  | .limit => z.limit
  | .strings => z.strings.toNat

/-- The stored value of a physical item. -/
def Physical.read (p : Physical) : PhysicalItem → Int
  | .onset => p.onset
  | .release => p.release
  | .gain => p.gain
  | .offset => p.offset

/-- The stored value of a musical item. -/
def Musical.read (m : Musical) : MusicalItem → Int
  | .transpose => m.transpose
  | .bendRange => m.bendRange
  | .legato => m.legato.code
  | .overflow => m.overflow.code

/-- The stored value of a setting (R130). -/
def Settings.read (k : Settings) : SettingId → Int
  | .global i => k.readGlobal i
  | .zone z i => (k.zones[z]).read i
  | .physical s i => (k.physical[s]).read i
  | .musical p s i => (k.musical p s).read i

/-- Fit a sixteen-bit value to a setting's kind (R128, steps 2 and 3): a numeric value is clamped, a mask keeps its
defined bits, and an enumeration value that is no code has no fit. -/
def fitValue (v : BitVec 16) : SettingKind → Option Int
  | .numeric lo hi => some (if v.toNat < lo then lo else if hi < v.toNat then hi else v.toNat)
  | .signed lo hi => some (if v.toInt < lo then lo else if hi < v.toInt then hi else v.toInt)
  | .mask bits => some (v.toNat % 2 ^ bits : Nat)
  | .enumeration codes => if v.toNat < codes then some v.toNat else none

/-! ## Commands on the link -/

/-- The defined command bytes (R167 to R173). -/
def CommandCode.ofByte (b : Byte) : Option CommandCode :=
  match b.toNat with
  | 0x10 => some .getNote
  | 0x11 => some .getString
  | 0x12 => some .getChanged
  | 0x13 => some .listNotes
  | 0x14 => some .takeNotices
  | 0x15 => some .getStatus
  | 0x16 => some .getSetting
  | 0x17 => some .probeStart
  | 0x18 => some .probeResults
  | 0x20 => some .tagNote
  | 0x21 => some .untagNote
  | 0x22 => some .holdNote
  | 0x23 => some .releaseNote
  | 0x24 => some .retireNote
  | 0x25 => some .allRelease
  | 0x26 => some .set
  | 0x27 => some .selectProfile
  | 0x28 => some .probeStop
  | 0x29 => some .clearFaults
  | 0x2A => some .restart
  | _ => none

/-- The byte of each command (R167 to R173). -/
def CommandCode.byte : CommandCode → Byte
  | .getNote => 0x10#8
  | .getString => 0x11#8
  | .getChanged => 0x12#8
  | .listNotes => 0x13#8
  | .takeNotices => 0x14#8
  | .getStatus => 0x15#8
  | .getSetting => 0x16#8
  | .probeStart => 0x17#8
  | .probeResults => 0x18#8
  | .tagNote => 0x20#8
  | .untagNote => 0x21#8
  | .holdNote => 0x22#8
  | .releaseNote => 0x23#8
  | .retireNote => 0x24#8
  | .allRelease => 0x25#8
  | .set => 0x26#8
  | .selectProfile => 0x27#8
  | .probeStop => 0x28#8
  | .clearFaults => 0x29#8
  | .restart => 0x2A#8

/-- The number of parameter bytes of each command (R160). -/
def CommandCode.params : CommandCode → Nat
  | .getNote | .getString | .takeNotices | .getSetting => 1
  | .getChanged | .listNotes | .getStatus | .probeResults => 0
  | .probeStart => 9
  | .tagNote | .holdNote => 2
  | .untagNote | .releaseNote | .retireNote | .selectProfile | .clearFaults => 1
  | .set => 3
  | .allRelease | .probeStop | .restart => 0

/-- The command is posted (R160). -/
def CommandCode.posted : CommandCode → Bool
  | .getNote | .getString | .getChanged | .listNotes | .takeNotices | .getStatus | .getSetting | .probeStart
  | .probeResults => false
  | .tagNote | .untagNote | .holdNote | .releaseNote | .retireNote | .allRelease | .set | .selectProfile | .probeStop
  | .clearFaults | .restart => true

/-- The non-posted command without parameters that a code names, complete at its command byte (R161). -/
def CommandCode.bareQuery : CommandCode → Option Query
  | .getChanged => some .getChanged
  | .listNotes => some .listNotes
  | .getStatus => some .getStatus
  | .probeResults => some .probeResults
  | .getNote | .getString | .takeNotices | .getSetting | .probeStart | .tagNote | .untagNote | .holdNote | .releaseNote
  | .retireNote | .allRelease | .set | .selectProfile | .probeStop | .clearFaults | .restart => none

/-- Two parameter bytes read as sixteen bits: the most significant byte comes first (R171, R173). -/
def wordOfBytes (p : BytePair) : BitVec 16 := p.1 ++ p.2

/-- Sixteen bits as the two bytes that spell them on the link, the most significant first (R175). -/
def bytesOfWord (w : BitVec 16) : BytePair := (w.extractLsb' 8 8, w.extractLsb' 0 8)

/-- The posted command a code and its parameter bytes spell (R172, R173); bytes after the last parameter are ignored
(R161), and with a parameter byte missing the command is not complete. -/
def Posted.ofBytes : CommandCode → List Byte → Option Posted
  | .tagNote, h :: t :: _ => some (.tagNote h t)
  | .untagNote, h :: _ => some (.untagNote h)
  | .holdNote, h :: v :: _ => some (.holdNote h v)
  | .releaseNote, h :: _ => some (.releaseNote h)
  | .retireNote, h :: _ => some (.retireNote h)
  | .allRelease, _ => some .allRelease
  | .set, n :: hi :: lo :: _ => some (.set n (wordOfBytes (hi, lo)))
  | .selectProfile, v :: _ => some (.selectProfile v)
  | .probeStop, _ => some .probeStop
  | .clearFaults, m :: _ => some (.clearFaults m)
  | .restart, _ => some .restart
  | _, _ => none

/-- The parameters that the nine bytes of PROBE START spell (R171). -/
def ProbeStart.ofBytes (string slot : Byte) (size0 size1 mask : BytePair) (auto : Byte) : ProbeStart :=
  { string := string, slot := slot, size0 := wordOfBytes size0, size1 := wordOfBytes size1, mask := wordOfBytes mask
    auto := auto }

/-- The command code of a posted command. -/
def Posted.code : Posted → CommandCode
  | .tagNote _ _ => .tagNote
  | .untagNote _ => .untagNote
  | .holdNote _ _ => .holdNote
  | .releaseNote _ => .releaseNote
  | .retireNote _ => .retireNote
  | .allRelease => .allRelease
  | .set _ _ => .set
  | .selectProfile _ => .selectProfile
  | .probeStop => .probeStop
  | .clearFaults _ => .clearFaults
  | .restart => .restart

/-- The first parameter byte of a posted command, 0 where it has none (R162). -/
def Posted.firstParam : Posted → Byte
  | .tagNote h _ => h
  | .untagNote h => h
  | .holdNote h _ => h
  | .releaseNote h => h
  | .retireNote h => h
  | .set n _ => n
  | .selectProfile v => v
  | .clearFaults m => m
  | .allRelease | .probeStop | .restart => 0#8

/-- The command code of a non-posted command. -/
def Query.code : Query → CommandCode
  | .getNote _ => .getNote
  | .getString _ => .getString
  | .getChanged => .getChanged
  | .listNotes => .listNotes
  | .takeNotices _ => .takeNotices
  | .getStatus => .getStatus
  | .getSetting _ => .getSetting
  | .probeStart _ => .probeStart
  | .probeResults => .probeResults

end Sys2Proof.Machine
end

