-- ==== Sys2Proof/Machine/Flags.lean ====
section
/-! DEFINITION. The notice queue, the five fault flags, the last-refusal record and ATTN
(spec/09_notices_faults_and_attention.md), the codes of named values (R175), and the status byte. -/

namespace Sys2Proof.Machine

/-! ## Codes (R175) -/

/-- Result codes. -/
def ResultCode.byte : ResultCode → Byte
  | .ok => 1#8
  | .notFound => 2#8
  | .badValue => 3#8
  | .busy => 4#8
  | .disabled => 5#8

/-- Refusal reason codes. -/
def RefusalReason.byte : RefusalReason → Byte
  | .notFound => 1#8
  | .live => 2#8
  | .badValue => 3#8
  | .badSetting => 4#8
  | .bufferFull => 5#8

/-- Record state codes. -/
def RecordState.code : RecordState → Nat
  | .provisional => 1
  | .sounding => 2
  | .released => 3

/-- Release reason codes; none is 0. -/
def ReleaseReason.byte : ReleaseReason → Byte
  | .decay => 1#8
  | .restrike => 2#8
  | .legato => 3#8
  | .overbend => 4#8
  | .stale => 5#8
  | .forced => 6#8
  | .disabled => 7#8

/-- Fault cause codes. -/
def FaultCause.byte : FaultCause → Byte
  | .overload => 1#8
  | .overrun => 2#8
  | .noticeLoss => 3#8
  | .refused => 4#8
  | .frame => 5#8

/-- Probe abort reason codes. -/
def AbortReason.byte : AbortReason → Byte
  | .stopped => 1#8
  | .disabled => 2#8
  | .reference => 3#8

/-- Profile codes. -/
def Profile.byte : Profile → Byte
  | .A => 0#8
  | .B => 1#8

/-- The bit of a notice's kind in the notice enable mask (R124). -/
def Notice.enableBit : Notice → Nat
  | .new _ _ _ _ => 0
  | .confirmed _ _ _ => 1
  | .corrected _ _ => 2
  | .released _ _ _ => 3
  | .expired _ => 4
  | .evicted _ => 5
  | .probeDone _ _ => 6
  | .probeAborted _ _ => 7
  | .fault _ _ => 8

/-! ## Notices (R179) -/

/-- A notice handed to the unit: dropped if its kind is disabled, queued if there is room, and otherwise lost with
NOTICE LOSS (R179). -/
def NoticeUnit.hand (enables : BitVec 9) (n : Notice) (u : NoticeUnit) : NoticeUnit :=
  if enables.getLsbD n.enableBit then
    if u.queue.length < Config.noticeDepth then { u with queue := u.queue ++ [n] } else { u with noticeLoss := true }
  else u

/-- Notices handed on in order (R120). -/
def NoticeUnit.handAll (enables : BitVec 9) (ns : List Notice) (u : NoticeUnit) : NoticeUnit :=
  ns.foldl (fun v n => v.hand enables n) u

/-- A notice sets out for the unit (R134; assumption log 31). -/
def NoticeUnit.send (n : Notice) (u : NoticeUnit) : NoticeUnit := { u with coming := u.coming ++ [n] }

/-- The notices on their way are handed on (R134, R179). -/
def NoticeUnit.arrive (enables : BitVec 9) (u : NoticeUnit) : NoticeUnit :=
  { u with coming := [] }.handAll enables u.coming

/-! ## Fault flags (R181) -/

/-- The flag of a cause. -/
def NoticeUnit.flag (u : NoticeUnit) : FaultCause → Bool
  | .overload => u.overload
  | .overrun => u.overrun
  | .noticeLoss => u.noticeLoss
  | .refused => u.refused
  | .frame => u.frame

/-- Set or clear the flag of a cause. -/
def NoticeUnit.setFlag (u : NoticeUnit) (v : Bool) : FaultCause → NoticeUnit
  | .overload => { u with overload := v }
  | .overrun => { u with overrun := v }
  | .noticeLoss => { u with noticeLoss := v }
  | .refused => { u with refused := v }
  | .frame => { u with frame := v }

/-- A cause reported with its detail: the flag is set, and if it was clear and the cause is not NOTICE LOSS a FAULT
notice is handed on (R181). -/
def NoticeUnit.report (enables : BitVec 9) (c : FaultCause) (detail : Byte) (u : NoticeUnit) : NoticeUnit :=
  if u.flag c then u
  else if c = .noticeLoss then u.setFlag true c
  else (u.setFlag true c).hand enables (.fault c detail)

/-- A refusal handed to the unit: REFUSED is reported and the last-refusal record is overwritten (R164, R182). -/
def NoticeUnit.refuse (enables : BitVec 9) (code param : Byte) (reason : RefusalReason) (u : NoticeUnit) :
    NoticeUnit :=
  { u.report enables .refused reason.byte with lastRefusal := some ⟨code, param, reason⟩ }

/-- CLEAR FAULTS on the unit's own flags and record (R183). -/
def NoticeUnit.clear (mask : Byte) (u : NoticeUnit) : NoticeUnit :=
  { u with
    overload := u.overload && !mask.getLsbD 0
    overrun := u.overrun && !mask.getLsbD 1
    noticeLoss := u.noticeLoss && !mask.getLsbD 2
    refused := u.refused && !mask.getLsbD 3
    frame := u.frame && !mask.getLsbD 4
    lastRefusal := if mask.getLsbD 3 then none else u.lastRefusal }

/-- At least one fault flag is set (R159). -/
def NoticeUnit.anyFault (u : NoticeUnit) : Bool := u.overload || u.overrun || u.noticeLoss || u.refused || u.frame

/-! ## Bits put together -/

/-- Eight bits as a byte, bit 7 first. -/
def byteOfBits (b7 b6 b5 b4 b3 b2 b1 b0 : Bool) : Byte :=
  BitVec.ofNat 8 (128 * b7.toNat + 64 * b6.toNat + 32 * b5.toNat + 16 * b4.toNat + 8 * b3.toNat + 4 * b2.toNat
    + 2 * b1.toNat + b0.toNat)

/-- The fault-flag byte (R178). -/
def NoticeUnit.flagByte (u : NoticeUnit) : Byte :=
  byteOfBits false false false u.frame u.refused u.noticeLoss u.overrun u.overload

/-- A mask of the strings that satisfy a test, bit s − 1 for string s (R178). -/
def stringMask (p : Str → Bool) : Byte := byteOfBits (p 7) (p 6) (p 5) (p 4) (p 3) (p 2) (p 1) (p 0)

/-- The overload mask (R182). -/
def State.overloadMask (σ : State) : Byte := stringMask fun s => (σ.frontEnds[s]).overloadMark

/-- The overrun mask (R182). -/
def State.overrunMask (σ : State) : Byte := stringMask fun s => (σ.frontEnds[s]).overrunMark

/-! ## Attention (R184) and the status byte (R159, R175) -/

/-- At least one occupied record has its changed flag set. -/
def NoteTable.anyChanged (t : NoteTable) : Bool := t.records.any (·.changed)

/-- ATTN is asserted (R184). -/
def State.attn (σ : State) : Bool :=
  (σ.settings.attention.getLsbD 0 && !σ.notices.queue.isEmpty)
    || (σ.settings.attention.getLsbD 1 && σ.table.anyChanged)
    || (σ.settings.attention.getLsbD 2 && σ.notices.anyFault)

/-- The status byte as it stands (R159, R175). -/
def State.statusByte (σ : State) : Byte :=
  byteOfBits σ.attn (!σ.notices.queue.isEmpty) σ.table.anyChanged σ.notices.anyFault σ.link.buffer.isEmpty
    (decide (σ.link.buffer.length = Config.postedDepth)) σ.probe.running (decide (σ.settings.selected = .B))

end Sys2Proof.Machine
end

