-- ==== Sys2Proof/Machine/Ops.lean ====
section
/-! DEFINITION. The operations every block's steps are written with: replacing one block or one string's part of the
state, handing on notices, reporting causes, refusing posted commands, and running a step only outside hard reset. -/

namespace Sys2Proof.Machine

/-! ## Replacing one part of the state -/

/-- Replace the Front End of one string. -/
def State.setFrontEnd (σ : State) (s : Str) (f : FrontEnd) : State := { σ with frontEnds := σ.frontEnds.set s f }

/-- Replace the Tracker of one string. -/
def State.setTracker (σ : State) (s : Str) (t : Tracker) : State := { σ with trackers := σ.trackers.set s t }

/-- Replace the Pitch Unit. -/
def State.setPitchUnit (σ : State) (p : PitchUnit) : State := { σ with pitchUnit := p }

/-- Replace the Note Table. -/
def State.setTable (σ : State) (t : NoteTable) : State := { σ with table := t }

/-- Replace the settings. -/
def State.setSettings (σ : State) (k : Settings) : State := { σ with settings := k }

/-- Replace the probe. -/
def State.setProbe (σ : State) (p : Probe) : State := { σ with probe := p }

/-- Replace the Control Link. -/
def State.setLink (σ : State) (l : Link) : State := { σ with link := l }

/-- Replace the Notice and Fault Unit. -/
def State.setNotices (σ : State) (u : NoticeUnit) : State := { σ with notices := u }

/-- Move the Control Link to a phase. -/
def State.setPhase (σ : State) (p : Phase) : State := σ.setLink { σ.link with phase := p }

/-! ## Notices, causes, refusals -/

/-- Hand a notice to the Notice and Fault Unit (R179). -/
def State.hand (σ : State) (n : Notice) : State := σ.setNotices (σ.notices.hand σ.settings.noticeEnables n)

/-- Hand notices on in order (R120). -/
def State.handAll (σ : State) (ns : List Notice) : State :=
  σ.setNotices (σ.notices.handAll σ.settings.noticeEnables ns)

/-- The notices on their way reach the unit (R179). -/
def State.noticesArrive (σ : State) : State := σ.setNotices (σ.notices.arrive σ.settings.noticeEnables)

/-- Report a fault cause (R181). -/
def State.report (σ : State) (c : FaultCause) (detail : Byte) : State :=
  σ.setNotices (σ.notices.report σ.settings.noticeEnables c detail)

/-- Hand a refusal of a posted command to the Notice and Fault Unit (R164). -/
def State.refuse (σ : State) (code : CommandCode) (param : Byte) (reason : RefusalReason) : State :=
  σ.setNotices (σ.notices.refuse σ.settings.noticeEnables code.byte param reason)

/-! ## Messages to Trackers -/

/-- Send a forced-release message to a Tracker (R113). -/
def State.sendForced (σ : State) (s : Str) (handle : Nat) : State :=
  σ.setTracker s { σ.trackers[s] with forced := (σ.trackers[s]).forced ++ [handle] }

/-- Tell a Tracker that its string was enabled (true) or disabled (R134). -/
def State.sendEnable (σ : State) (s : Str) (on : Bool) : State :=
  σ.setTracker s { σ.trackers[s] with enables := (σ.trackers[s]).enables ++ [on] }

/-! ## Running a step -/

/-- A step of the part, which nothing takes while the part is held in hard reset (R186). -/
def whenRunning (f : State → State) (σ : State) : Host.Outcome State Fault Refusal :=
  .next (if σ.inReset then σ else f σ)

end Sys2Proof.Machine
end

