-- ==== Sys2Proof/Machine/NoteTable.lean ====
section
/-! DEFINITION. The Note Table (spec/05_the_note_table.md): records, handles, the two lists, changed flags, the
Trackers' requests, the controller's commands, linger, eviction and freeing. -/

namespace Sys2Proof.Machine

/-! ## Records -/

/-- The record is PROVISIONAL or SOUNDING (R90). -/
def Record.live (r : Record) : Bool := decide (r.image.state ≠ .released)

/-- Change fields of a record's image; the changed flag is set if the image changed (R96). -/
def Record.edit (r : Record) (f : Image → Image) : Record :=
  { r with image := f r.image, changed := r.changed || decide (f r.image ≠ r.image) }

/-- A linger timer started afresh with the linger setting × 10 ms; a setting of 0 starts none (R116), and an expiry of an
earlier running does not occur (R115; assumption log 14). -/
def startLinger (linger : Nat) : Timer := if linger = 0 then .stopped else .running (linger * 10)

/-- A live record becomes RELEASED with a reason and its linger timer is started (R104, R105, R110). -/
def Record.release (linger : Nat) (reason : ReleaseReason) (r : Record) : Record :=
  { r.edit fun i => { i with state := .released, reason := some reason } with linger := startLinger linger }

/-- Clear the links of a record to a freed handle (R119). -/
def Record.unlink (h : Nat) (r : Record) : Record :=
  r.edit fun i =>
    { i with
      predecessor := if i.predecessor = some h then none else i.predecessor
      successor := if i.successor = some h then none else i.successor }

/-- One millisecond on a timer; an expiry that has not been taken stays (assumption log 26). -/
def Timer.tick : Timer → Timer
  | .running (n + 1) => .running n
  | .running 0 => .running 0
  | .stopped => .stopped

/-- One millisecond on a record: its age holds at 65535 and sets no changed flag (R92), and its linger timer
advances (R116). -/
def Record.tick (r : Record) : Record :=
  { r with image := { r.image with age := min (r.image.age + 1) Config.ageStop }, linger := r.linger.tick }

/-! ## The table -/

/-- The occupied record that holds a handle (R97). -/
def NoteTable.find (t : NoteTable) (h : Nat) : Option Record := t.records.find? fun r => r.image.handle == h

/-- The live record a Tracker's request finds: it holds the handle and is on the Tracker's string (R97). -/
def NoteTable.findLive (t : NoteTable) (s : Str) (h : Nat) : Option Record :=
  t.records.find? fun r => r.image.handle == h && decide (r.image.string = s) && r.live

/-- A string's live record (R121). -/
def NoteTable.liveOf (t : NoteTable) (s : Str) : Option Record :=
  t.records.find? fun r => decide (r.image.string = s) && r.live

/-- The handles of the occupied records, oldest first: the creation-order list (R94). -/
def NoteTable.handles (t : NoteTable) : List Nat := t.records.map (·.image.handle)

/-- Change the record that holds a handle. -/
def NoteTable.modify (t : NoteTable) (h : Nat) (f : Record → Record) : NoteTable :=
  { t with records := t.records.map fun r => if r.image.handle = h then f r else r }

/-- Move a record to the tail of the recency list (R95). -/
def NoteTable.touch (t : NoteTable) (h : Nat) : NoteTable := { t with recency := t.recency.filter (· ≠ h) ++ [h] }

/-- A record's slot becomes FREE (R119). -/
def NoteTable.free (t : NoteTable) (h : Nat) : NoteTable :=
  { t with
    records := (t.records.filter fun r => r.image.handle ≠ h).map (Record.unlink h)
    recency := t.recency.filter (· ≠ h) }

/-- One millisecond on every record (R92, R116). -/
def NoteTable.tick (t : NoteTable) : NoteTable := { t with records := t.records.map Record.tick }

/-! ## Handles (R93) -/

/-- The handle after a handle, from 255 to 1. -/
def handleAfter (h : Nat) : Nat := if h = 255 then 1 else h + 1

/-- The first handle at or after a trial handle that is not held, within a number of trials. -/
def freshHandle (held : List Nat) : Nat → Nat → Nat
  | 0, trial => trial
  | n + 1, trial => if trial ∈ held then freshHandle held n (handleAfter trial) else trial

/-- The handle the table gives next: at most sixteen are held, so the seventeenth trial is free. -/
def NoteTable.nextGiven (t : NoteTable) : Nat := freshHandle t.handles Config.slots t.nextHandle

/-! ## Zones (R99) -/

/-- The zone matches a string and a note. -/
def Zone.matches (z : Zone) (s : Str) (note : Nat) : Bool :=
  maskHas z.strings s && decide (z.base ≤ note) && decide (note ≤ z.limit)

/-- The zone of a new record: the lowest that matches, or absent. -/
def Settings.zoneOf (k : Settings) (s : Str) (note : Nat) : Option (Fin 4) :=
  ([0, 1, 2, 3] : List (Fin 4)).find? fun z => (k.zones[z]).matches s note

/-! ## Eviction (R118) -/

/-- A record that eviction may take: RELEASED, with the hold given, and not the old record of the SUCCEED. -/
def NoteTable.evictable (t : NoteTable) (keep : Option Nat) (hold : Bool) (h : Nat) : Bool :=
  match t.find h with
  | some r => !r.live && (r.image.hold == hold) && decide (keep ≠ some h)
  | none => false

/-- The victim: the first unheld one in the recency list, or else the first held one. -/
def NoteTable.victim (t : NoteTable) (keep : Option Nat) : Option Nat :=
  (t.recency.find? (t.evictable keep false)).or (t.recency.find? (t.evictable keep true))

/-- A table with a FREE slot, and the EVICTED notice if one had to be made. R118 says a victim is always found;
where none is, no slot can be made (assumption log 18). -/
def NoteTable.makeRoom (t : NoteTable) (keep : Option Nat) : Option (NoteTable × List Notice) :=
  if t.records.length < Config.slots then some (t, [])
  else (t.victim keep).map fun v => (t.free v, [.evicted v])

/-- Add a record at the tail of both lists with the next handle (R93, R94, R98). -/
def NoteTable.add (t : NoteTable) (r : Record) : NoteTable :=
  { records := t.records ++ [r]
    recency := t.recency ++ [r.image.handle]
    nextHandle := handleAfter r.image.handle
    created := t.created + 1 }

/-! ## Requests from the Trackers -/

/-- What the application of a Tracker's request leaves: the table, the notices in order, and the answer. -/
structure Reply where
  table : NoteTable
  notices : List Notice
  answer : Answer
  deriving DecidableEq, Repr

/-- The pending predecessor that a CREATE links: an occupied record on the same string without a successor
(R100). -/
def NoteTable.linkable (t : NoteTable) (s : Str) (p : Option Nat) : Option Nat :=
  match p with
  | none => none
  | some h =>
    match t.find h with
    | some r => if r.image.string = s ∧ r.image.successor = none then some h else none
    | none => none

/-- Make a handle the successor of the record that another handle names (R100, R105). -/
def NoteTable.linkSuccessor (t : NoteTable) (p : Option Nat) (h : Nat) : NoteTable :=
  match p with
  | none => t
  | some q => t.modify q fun r => r.edit fun i => { i with successor := some h }

/-- CREATE once a slot is FREE (R98, steps 2 to 8). -/
def NoteTable.createIn (t : NoteTable) (k : Settings) (s : Str) (c : CreateRequest) : NoteTable × Nat :=
  let h := t.nextGiven
  let p := t.linkable s c.predecessor
  let image : Image :=
    { handle := h, state := .provisional, string := s, note := c.note, bend := c.bend, velocity := c.velocity
      level := c.level, zone := k.zoneOf s c.note, tag := none, hold := false, stale := false, corrected := false
      saturated := false, profile := c.profile, transpose := c.transpose, bendRange := c.bendRange
      predecessor := p, successor := none, reason := none, age := 0 }
  ((t.linkSuccessor p h).add { image := image, changed := true, linger := .stopped, serial := t.created }, h)

/-- CREATE (R98). -/
def NoteTable.create (t : NoteTable) (k : Settings) (s : Str) (c : CreateRequest) : Option Reply :=
  (t.makeRoom none).map fun room =>
    let made := room.1.createIn k s c
    { table := made.1
      notices := room.2 ++ [.new made.2 .provisional s c.note]
      answer := .handle made.2 }

/-- The UPDATE corrects the record: it is PROVISIONAL and the note sent differs (R101). -/
def UpdateRequest.corrects (u : UpdateRequest) (i : Image) : Bool :=
  decide (i.state = .provisional) && decide (u.note ≠ i.note)

/-- The image after an UPDATE (R101, R102). -/
def Image.updated (i : Image) (u : UpdateRequest) : Image :=
  { i with
    bend := u.bend
    level := u.level
    stale := u.stale
    saturated := u.saturated
    note := if u.corrects i then u.note else i.note
    corrected := i.corrected || u.corrects i }

/-- UPDATE (R101, R102). -/
def NoteTable.update (t : NoteTable) (s : Str) (u : UpdateRequest) : Reply :=
  match t.findLive s u.handle with
  | none => { table := t, notices := [], answer := .notLive }
  | some r =>
    { table := t.modify u.handle fun q => q.edit fun i => i.updated u
      notices := if u.corrects r.image then [.corrected u.handle u.note] else []
      answer := .ok }

/-- CONFIRM (R103). -/
def NoteTable.confirm (t : NoteTable) (s : Str) (h : Nat) : Reply :=
  match t.findLive s h with
  | none => { table := t, notices := [], answer := .notLive }
  | some r =>
    if r.image.state = .provisional then
      { table := t.modify h fun q => q.edit fun i => { i with state := .sounding }
        notices := [.confirmed h s r.image.note]
        answer := .ok }
    else { table := t, notices := [], answer := .ok }

/-- RELEASE from a Tracker (R104). -/
def NoteTable.release (t : NoteTable) (linger : Nat) (s : Str) (h : Nat) (reason : ReleaseReason) : Reply :=
  match t.findLive s h with
  | none => { table := t, notices := [], answer := .notLive }
  | some r =>
    { table := t.modify h (Record.release linger reason)
      notices := [.released h reason (r.image.successor.getD 0)]
      answer := .ok }

/-- The new record of SUCCEED once a slot is FREE, linked to the old one (R105 steps 3 to 6, R106). -/
def NoteTable.succeedIn (t : NoteTable) (k : Settings) (old : Image) (q : SucceedRequest) : NoteTable × Nat :=
  let h := t.nextGiven
  let image : Image :=
    { handle := h, state := .sounding, string := old.string, note := q.note, bend := q.bend, velocity := q.velocity
      level := q.level, zone := k.zoneOf old.string q.note, tag := none, hold := false, stale := false
      corrected := false, saturated := false, profile := old.profile, transpose := old.transpose
      bendRange := old.bendRange, predecessor := some q.handle, successor := none, reason := none, age := 0 }
  ((t.linkSuccessor (some q.handle) h).add { image := image, changed := true, linger := .stopped, serial := t.created },
    h)

/-- SUCCEED (R105). -/
def NoteTable.succeed (t : NoteTable) (k : Settings) (s : Str) (q : SucceedRequest) : Option Reply :=
  match t.findLive s q.handle with
  | none => some { table := t, notices := [], answer := .notLive }
  | some old =>
    ((t.modify q.handle (Record.release k.linger q.reason)).makeRoom (some q.handle)).map fun room =>
      let made := room.1.succeedIn k old.image q
      { table := made.1
        notices := [.released q.handle q.reason made.2] ++ room.2 ++ [.new made.2 .sounding s q.note]
        answer := .handle made.2 }

/-- Apply the request a Tracker awaits an answer to, if it has not been answered: the table, its notices and the
answer are in place together (R97). -/
def State.serve (σ : State) (s : Str) (f : Request → Option Reply) : State :=
  match (σ.trackers[s]).awaited with
  | none => σ
  | some a =>
    if a.answer.isSome then σ
    else
      match f a.request with
      | none => σ
      | some p =>
        ((σ.setTable p.table).handAll p.notices).setTracker s
          { σ.trackers[s] with awaited := some { a with answer := some p.answer } }

/-- The step CREATE. -/
def State.applyCreate (s : Str) (σ : State) : State :=
  σ.serve s fun q =>
    match q with
    | .create c => σ.table.create σ.settings s c
    | .update _ | .confirm _ | .release _ _ | .succeed _ => none

/-- The step UPDATE. -/
def State.applyUpdate (s : Str) (σ : State) : State :=
  σ.serve s fun q =>
    match q with
    | .update u => some (σ.table.update s u)
    | .create _ | .confirm _ | .release _ _ | .succeed _ => none

/-- The step CONFIRM. -/
def State.applyConfirm (s : Str) (σ : State) : State :=
  σ.serve s fun q =>
    match q with
    | .confirm h => some (σ.table.confirm s h)
    | .create _ | .update _ | .release _ _ | .succeed _ => none

/-- The step RELEASE. -/
def State.applyRelease (s : Str) (σ : State) : State :=
  σ.serve s fun q =>
    match q with
    | .release h reason => some (σ.table.release σ.settings.linger s h reason)
    | .create _ | .update _ | .confirm _ | .succeed _ => none

/-- The step SUCCEED. -/
def State.applySucceed (s : Str) (σ : State) : State :=
  σ.serve s fun q =>
    match q with
    | .succeed r => σ.table.succeed σ.settings s r
    | .create _ | .update _ | .confirm _ | .release _ _ => none

/-! ## Commands from the controller -/

/-- TAG NOTE (R108). -/
def State.tagNote (h tag : Byte) (σ : State) : State :=
  match σ.table.find h.toNat with
  | none => σ.refuse .tagNote h .notFound
  | some _ =>
    σ.setTable ((σ.table.modify h.toNat fun r => r.edit fun i => { i with tag := some tag }).touch h.toNat)

/-- UNTAG NOTE (R108). -/
def State.untagNote (h : Byte) (σ : State) : State :=
  match σ.table.find h.toNat with
  | none => σ.refuse .untagNote h .notFound
  | some _ => σ.setTable ((σ.table.modify h.toNat fun r => r.edit fun i => { i with tag := none }).touch h.toNat)

/-- A record's hold set (R109). -/
def Record.holdOn (r : Record) : Record := r.edit fun i => { i with hold := true }

/-- A record's hold cleared; on a RELEASED record whose hold was set the linger timer is started afresh (R109, R115). -/
def Record.holdOff (linger : Nat) (r : Record) : Record :=
  { r.edit fun i => { i with hold := false } with
    linger := if !r.live && r.image.hold then startLinger linger else r.linger }

/-- HOLD NOTE (R109). -/
def State.holdNote (h setting : Byte) (σ : State) : State :=
  if setting ≠ 0#8 ∧ setting ≠ 1#8 then σ.refuse .holdNote h .badValue
  else
    match σ.table.find h.toNat with
    | none => σ.refuse .holdNote h .notFound
    | some _ =>
      σ.setTable
        ((σ.table.modify h.toNat fun r => if setting = 1#8 then r.holdOn else r.holdOff σ.settings.linger).touch
          h.toNat)

/-- One live record released by the controller: RELEASED with the reason FORCED, its notice, and the message to its
string's Tracker (R110, R113). -/
def State.forceRelease (σ : State) (r : Record) : State :=
  ((σ.setTable (σ.table.modify r.image.handle (Record.release σ.settings.linger .forced))).hand
      (.released r.image.handle .forced 0)).sendForced r.image.string r.image.handle

/-- RELEASE NOTE (R110). -/
def State.releaseNote (h : Byte) (σ : State) : State :=
  match σ.table.find h.toNat with
  | none => σ.refuse .releaseNote h .notFound
  | some r => if r.live then σ.forceRelease r else σ

/-- ALL RELEASE: every live record in creation order, as one application (R111). -/
def State.allRelease (σ : State) : State := (σ.table.records.filter (·.live)).foldl State.forceRelease σ

/-- RETIRE NOTE (R112). -/
def State.retireNote (h : Byte) (σ : State) : State :=
  match σ.table.find h.toNat with
  | none => σ.refuse .retireNote h .notFound
  | some r => if r.live then σ.refuse .retireNote h .live else σ.setTable (σ.table.free h.toNat)

/-! ## Linger expiry (R117) -/

/-- The linger timer of a RELEASED record expires: with hold clear the record is freed with EXPIRED, with hold set
the timer stops. -/
def State.lingerExpiry (h : Nat) (σ : State) : State :=
  match σ.table.find h with
  | none => σ
  | some r =>
    if r.linger = .running 0 ∧ r.image.state = .released then
      if r.image.hold then σ.setTable (σ.table.modify h fun q => { q with linger := .stopped })
      else (σ.setTable (σ.table.free h)).hand (.expired h)
    else σ

/-! ## Reads (R121) -/

/-- A read delivers a record: it moves to the recency tail and its changed flag is cleared. -/
def NoteTable.deliver (t : NoteTable) (h : Nat) : NoteTable :=
  (t.modify h fun r => { r with changed := false }).touch h

/-- The records GET CHANGED includes, in creation order. -/
def NoteTable.changedRecords (t : NoteTable) : List Record := t.records.filter (·.changed)

/-- The snapshot of GET CHANGED: each included record is delivered, in creation order. -/
def NoteTable.deliverAll (t : NoteTable) (rs : List Record) : NoteTable :=
  rs.foldl (fun u r => u.deliver r.image.handle) t

/-- An image was cut short: its record's changed flag is set again if the same record still holds the handle. -/
def NoteTable.reflag (t : NoteTable) (i : Included) : NoteTable :=
  { t with
    records := t.records.map fun r =>
      if r.image.handle = i.handle ∧ r.serial = i.serial then { r with changed := true } else r }

/-- The number of live records (R121). -/
def NoteTable.liveCount (t : NoteTable) : Nat := (t.records.filter (·.live)).length

end Sys2Proof.Machine
end

