-- ==== Sys2Proof/Machine/Arith.lean ====
section
/-! DEFINITION. All of the part's arithmetic (spec/02_the_pitch_unit.md): the logarithm, the reference term, pitch,
note, bend, velocity, level and the two comparisons. Lean's `/` on `Int` with a positive divisor is the spec's floor
(R1), and on `Nat` too. -/

namespace Sys2Proof.Machine

/-- clamp of R1. -/
def clampInt (lo hi x : Int) : Int := if x < lo then lo else if hi < x then hi else x

/-- clamp of R1, for whole numbers. -/
def clampNat (lo hi x : Nat) : Nat := if x < lo then lo else if hi < x then hi else x

/-! ## The logarithm -/

/-- The table G of R34, entries 0 to 63. -/
def logTable0 : List Nat :=
  [0, 4, 9, 13, 17, 21, 26, 30, 34, 38, 42, 47, 51, 55, 59, 63,
   67, 71, 75, 79, 83, 87, 91, 95, 99, 103, 107, 111, 115, 119, 123, 127,
   131, 134, 138, 142, 146, 150, 153, 157, 161, 165, 168, 172, 176, 179, 183, 187,
   190, 194, 198, 201, 205, 208, 212, 216, 219, 223, 226, 230, 233, 237, 240, 244]

/-- The table G of R34, entries 64 to 127. -/
def logTable1 : List Nat :=
  [247, 251, 254, 258, 261, 264, 268, 271, 275, 278, 281, 285, 288, 291, 295, 298,
   301, 305, 308, 311, 314, 318, 321, 324, 327, 331, 334, 337, 340, 343, 347, 350,
   353, 356, 359, 362, 365, 368, 372, 375, 378, 381, 384, 387, 390, 393, 396, 399,
   402, 405, 408, 411, 414, 417, 420, 423, 426, 429, 432, 435, 438, 441, 443, 446]

/-- The table G of R34, entries 128 to 191.
Entry 181 is 592, as the table printed with R34 and the worked case of LOG768(223,424) have it; the formula gives
592.504 there. DEDUCED, unsafe (assumption log 29). -/
def logTable2 : List Nat :=
  [449, 452, 455, 458, 461, 464, 466, 469, 472, 475, 478, 481, 483, 486, 489, 492,
   494, 497, 500, 503, 506, 508, 511, 514, 516, 519, 522, 525, 527, 530, 533, 535,
   538, 541, 543, 546, 549, 551, 554, 556, 559, 562, 564, 567, 569, 572, 575, 577,
   580, 582, 585, 587, 590, 592, 595, 598, 600, 603, 605, 608, 610, 613, 615, 618]

/-- The table G of R34, entries 192 to 256. -/
def logTable3 : List Nat :=
  [620, 623, 625, 627, 630, 632, 635, 637, 640, 642, 645, 647, 649, 652, 654, 657,
   659, 661, 664, 666, 668, 671, 673, 676, 678, 680, 683, 685, 687, 690, 692, 694,
   696, 699, 701, 703, 706, 708, 710, 713, 715, 717, 719, 722, 724, 726, 728, 731,
   733, 735, 737, 740, 742, 744, 746, 748, 751, 753, 755, 757, 759, 761, 764, 766,
   768]

/-- The table G of R34: entry `j` is 768 × log2(1 + j / 256), rounded half up, but for entry 181. -/
def logTable : List Nat := logTable0 ++ (logTable1 ++ (logTable2 ++ logTable3))

/-- G[j] (R34). -/
def logEntry (j : Nat) : Nat := logTable.getD j 0

/-- The mantissa m of R33 for a `V` whose highest set bit is `b`. -/
def logMantissa (V b : Nat) : Nat := if b ≤ 15 then V * 2 ^ (15 - b) else V / 2 ^ (b - 15)

/-- The interpolated F of R35 for a mantissa `m`. -/
def logFraction (m : Nat) : Nat :=
  let i := (m - 32768) / 128
  let r := (m - 32768) % 128
  logEntry i + ((logEntry (i + 1) - logEntry i) * r + 64) / 128

/-- LOG768 (R33, R35). -/
def log768 (V : Nat) : Nat :=
  let b := Nat.log2 V
  768 * b + logFraction (logMantissa V b)

/-- The reference term R for a reference setting (R36). -/
def referenceTerm (reference : Nat) : Int := 27358 - (log768 reference : Int)

/-! ## Pitch of a cycle -/

/-- The raw pitch of a cycle (R37). -/
def rawPitchOf (refTerm : Int) (period : Nat) : Int := refTerm - (log768 (16 * period) : Int)

/-- The smoothing filter's adj for a difference `d` (R38). -/
def smoothingStep (d : Int) (k : Nat) : Int := if k = 0 then d else (d + 2 ^ (k - 1)) / 2 ^ k

/-- The candidate period Tf16′ (R38); 16 × T where no committed period is used. -/
def candidatePeriodOf (committed : Option Nat) (k period : Nat) : Nat :=
  match committed with
  | none => 16 * period
  | some c => ((c : Int) + smoothingStep (16 * (period : Int) - c) k).toNat

/-- The smoothed pitch (R39). -/
def smoothedPitchOf (refTerm : Int) (candidate : Nat) : Int := refTerm - (log768 candidate : Int)

/-! ## From pitch to note -/

/-- The output pitch p_out (R40). -/
def outputPitch (pitch offset transpose : Int) : Int := clampInt 0 8191 (pitch + offset + 64 * transpose)

/-- The nearest note to an output pitch (R41). -/
def nearestNote (pout : Int) : Nat := min 127 ((pout + 32) / 64).toNat

/-- The bend of an output pitch against a note (R42). -/
def bendFrom (pout : Int) (note : Nat) : Int := pout - 64 * (note : Int)

/-! ## Velocity and level -/

/-- The velocity of a record created from ATTACK or BLEED (R43). -/
def velocityOf (peakMax gain : Nat) : Nat := clampNat 1 127 (peakMax * gain / 1024)

/-- The level of a computation (R44). -/
def levelOf (peak gain : Nat) (overload : Bool) : Nat :=
  if overload then 127 else clampNat 0 127 (peak * gain / 1024)

/-! ## Comparisons for other blocks -/

/-- The octave-folded distance (R45). -/
def foldedDistance (p q : Int) : Nat :=
  let dd := (p - q).natAbs % 768
  min dd (768 - dd)

/-- The deviation of a raw pitch from the nearest note position (R46). -/
def deviationOf (pr : Int) : Int := pr - 64 * ((pr + 32) / 64)

end Sys2Proof.Machine
end

