-- ==== Sys2Proof/Machine/Probe.lean ====
section
/-! DEFINITION. The Intonation Probe (spec/07_the_intonation_probe.md). -/

namespace Sys2Proof.Machine

/-- A slot size fitted (R144): 4 to 1024, rounded down to a multiple of 4. -/
def fitSize (v : Nat) : Nat := clampNat 4 1024 v / 4 * 4

/-- The size of a slot under a plan (R144). -/
def Plan.sizeOf (p : Plan) (slot : Nat) : Nat := if p.select.getLsbD slot then p.size1 else p.size0

/-- The plan a PROBE START gives (R144, R146). Mask bits above bit 8 are ignored. -/
def ProbeStart.plan (a : ProbeStart) : Plan :=
  { size0 := fitSize a.size0.toNat, size1 := fitSize a.size1.toNat, select := a.mask.setWidth 9
    auto := decide (a.auto = 1#8) }

/-- The slot accumulators emptied (R146, R149, R155). -/
def Probe.emptySlot (p : Probe) : Probe := { p with sum := 0, count := 0, least := none, greatest := none }

/-- How a PROBE START is judged (R145). -/
def State.judgeProbeStart (σ : State) (a : ProbeStart) : ResultCode :=
  if σ.probe.running then .busy
  else
    match stringOfNumber a.string.toNat with
    | none => .badValue
    | some s =>
      if 8 < a.slot.toNat ∨ 1 < a.auto.toNat then .badValue
      else if σ.settings.enabled s then .ok else .disabled

/-- The context a PROBE START answered OK prepares for its string (R146). -/
def Probe.prepared (s : Str) (a : ProbeStart) : Probe :=
  { running := true, string := some s, start := a.slot.toNat, pointer := a.slot.toNat
    plan := some a.plan }

/-- Pitches that a string's Tracker passed earlier reach the probe no more: the first cycle a run counts is the first
that the Tracker passes after the snapshot (R146). -/
def State.dropPassed (s : Str) (σ : State) : State := σ.setTracker s { σ.trackers[s] with passed := [] }

/-- The run that a PROBE START answered OK starts on a string (R146). -/
def State.startRun (s : Str) (a : ProbeStart) (σ : State) : State := (σ.dropPassed s).setProbe (.prepared s a)

/-- PROBE START at its snapshot (R145, R146). -/
def State.probeStart (a : ProbeStart) (σ : State) : State :=
  match σ.judgeProbeStart a, stringOfNumber a.string.toNat with
  | .ok, some s => σ.startRun s a
  | _, _ => σ

/-- A deviation taken into the accumulators (R148). -/
def Probe.accumulate (p : Probe) (dev : Int) : Probe :=
  { p with
    sum := p.sum + dev
    count := p.count + 1
    least := some (match p.least with
      | none => dev
      | some m => min m dev)
    greatest := some (match p.greatest with
      | none => dev
      | some m => max m dev) }

/-- A mean rounded half up: floor((m × S + floor(N / 2)) / N) (R149, R150). -/
def roundedMean (scale sum : Int) (count : Nat) : Int := (scale * sum + (count / 2 : Nat)) / (count : Int)

/-- The result of the slot being filled (R149). -/
def Probe.slotResult (p : Probe) : SlotResult :=
  { mean16 := roundedMean 16 p.sum p.count, least := p.least.getD 0, greatest := p.greatest.getD 0, count := p.count }

/-- Store a result in a slot. -/
def Probe.storeSlot (p : Probe) (j : Nat) (r : SlotResult) : Probe :=
  { p with slots := p.slots.setIfInBounds j (some r) }

/-- A slot completed (R149). -/
def Probe.completeSlot (p : Probe) : Probe :=
  { ((p.storeSlot p.pointer p.slotResult).emptySlot) with
    totalSum := p.totalSum + p.sum
    totalCount := p.totalCount + p.count
    pointer := p.pointer + 1 }

/-- The offset auto-apply writes: −M, M the mean deviation of the run (R150). -/
def Probe.correction (p : Probe) : Int := -(roundedMean 1 p.totalSum p.totalCount)

/-- Write a string's tuning offset (R150, R151). -/
def Settings.writeOffset (k : Settings) (s : Str) (offset : Int) : Settings :=
  { k with physical := k.physical.set s { k.physical[s] with offset := offset } }

/-- The run is finished (R150). -/
def State.finishRun (s : Str) (plan : Plan) (σ : State) : State :=
  let σ' := σ.setProbe { σ.probe with running := false }
  let σ'' := if plan.auto then σ'.setSettings (σ.settings.writeOffset s σ.probe.correction) else σ'
  σ''.hand (.probeDone s (9 - σ.probe.start))

/-- A pitch the probe takes (R148 to R150). -/
def State.countPitch (s : Str) (plan : Plan) (pr : Int) (σ : State) : State :=
  let p := σ.probe.accumulate (deviationOf pr)
  if p.count = plan.sizeOf p.pointer then
    let σ' := σ.setProbe p.completeSlot
    if 9 ≤ p.pointer + 1 then σ'.finishRun s plan else σ'
  else σ.setProbe p

/-- A pitch reaches the probe: taken while it is RUNNING on the pitch's string, and otherwise discarded (R147). -/
def State.takePitch (s : Str) (pr : Int) (σ : State) : State :=
  match σ.probe.running, decide (σ.probe.string = some s), σ.probe.plan with
  | true, true, some plan => σ.countPitch s plan pr
  | _, _, _ => σ

/-- The step PROBE_PITCH: the oldest pitch a string's Tracker has passed reaches the probe (R147). -/
def State.probePitch (s : Str) (σ : State) : State :=
  match (σ.trackers[s]).passed with
  | [] => σ
  | pr :: rest => (σ.setTracker s { σ.trackers[s] with passed := rest }).takePitch s pr

/-- A run aborted with a reason: the accumulators are discarded, the state becomes IDLE, and the unit is told PROBE
ABORTED (R155). An IDLE probe is unchanged (R152 to R154). -/
def State.abortRun (tell : Notice → NoticeUnit → NoticeUnit) (reason : AbortReason) (σ : State) : State :=
  if σ.probe.running then
    let σ' := σ.setProbe { σ.probe.emptySlot with running := false }
    match σ.probe.string with
    | some s => σ'.setNotices (tell (.probeAborted s reason) σ.notices)
    | none => σ'
  else σ

/-- A run aborted, PROBE ABORTED reaching the unit at once (R155). -/
def State.abortProbe (reason : AbortReason) (σ : State) : State :=
  σ.abortRun (NoticeUnit.hand σ.settings.noticeEnables) reason

/-- PROBE STOP (R152). -/
def State.probeStop (σ : State) : State := σ.abortProbe .stopped

end Sys2Proof.Machine
end

