-- ==== Sys2Proof/Machine/Layouts.lean ====
section
/-! DEFINITION. The layouts the controller sees on the link (R175 to R178). -/

namespace Sys2Proof.Machine

/-- A quantity in one byte. -/
def byteOf (n : Nat) : Byte := BitVec.ofNat 8 n

/-- A signed quantity in one byte, two's complement. -/
def signedByte (v : Int) : Byte := BitVec.ofInt 8 v

/-- Sixteen bits, most significant byte first (R175). -/
def twoBytes (w : BitVec 16) : List Byte := [(bytesOfWord w).1, (bytesOfWord w).2]

/-- A signed quantity in two bytes. -/
def signedWord (v : Int) : List Byte := twoBytes (BitVec.ofInt 16 v)

/-- A handle field; an absent one reads 0 (R175). -/
def handleByte (h : Option Nat) : Byte := byteOf (h.getD 0)

/-- A state code in bits 7 to 4 and a string in bits 3 to 0 (R176, R177). -/
def stateAndString (st : RecordState) (s : Str) : Byte := byteOf (st.code * 16 + stringNumber s)

/-- The eighteen bytes of a record image (R176). -/
def Image.bytes (i : Image) : List Byte :=
  [byteOf i.handle, stateAndString i.state i.string, byteOf i.note] ++ signedWord i.bend
    ++ [byteOf i.velocity, byteOf i.level, i.tag.getD 0#8,
        byteOfBits i.tag.isSome i.hold i.stale i.corrected i.saturated (decide (i.profile = .B)) false false,
        (match i.zone with
          | some z => byteOf z.val
          | none => 0xFF#8),
        handleByte i.predecessor, handleByte i.successor,
        (match i.reason with
          | some r => r.byte
          | none => 0#8),
        signedByte i.transpose, byteOf i.bendRange, 0#8]
    ++ signedWord i.age

/-- The kind code of a notice (R175). -/
def Notice.kindByte (n : Notice) : Byte := byteOf (n.enableBit + 1)

/-- The four bytes of a notice entry (R177). -/
def Notice.bytes (n : Notice) : List Byte :=
  match n with
  | .new h st s note => [n.kindByte, byteOf h, stateAndString st s, byteOf note]
  | .confirmed h s note => [n.kindByte, byteOf h, byteOf (stringNumber s), byteOf note]
  | .corrected h note => [n.kindByte, byteOf h, 0#8, byteOf note]
  | .released h reason succ => [n.kindByte, byteOf h, reason.byte, byteOf succ]
  | .expired h => [n.kindByte, byteOf h, 0#8, 0#8]
  | .evicted h => [n.kindByte, byteOf h, 0#8, 0#8]
  | .probeDone s slots => [n.kindByte, byteOf (stringNumber s), byteOf slots, 0#8]
  | .probeAborted s reason => [n.kindByte, byteOf (stringNumber s), reason.byte, 0#8]
  | .fault c detail => [n.kindByte, 0#8, c.byte, detail]

/-- The probe's bound string on the link, 0 for none (R178). -/
def Probe.stringByte (p : Probe) : Byte :=
  match p.string with
  | some s => byteOf (stringNumber s)
  | none => 0#8

/-- The last-refusal record in three bytes, zeros while empty (R182). -/
def NoticeUnit.refusalBytes (u : NoticeUnit) : List Byte :=
  match u.lastRefusal with
  | some r => [r.code, r.param, r.reason.byte]
  | none => [0#8, 0#8, 0#8]

/-- The thirteen bytes of GET STATUS (R178). -/
def State.statusResponse (σ : State) : List Byte :=
  [σ.notices.flagByte, σ.overloadMask, σ.overrunMask] ++ σ.notices.refusalBytes
    ++ [byteOf σ.notices.queue.length, byteOf σ.table.records.length, byteOf σ.table.liveCount,
        byteOf σ.probe.running.toNat, σ.probe.stringByte, byteOf σ.probe.pointer, σ.settings.selected.byte]

/-- The valid mask of the result slots, bit j for slot j (R178). -/
def Probe.validMask (p : Probe) : BitVec 16 :=
  BitVec.ofNat 16 (((List.range 9).map fun j => if (p.slots[j]?.join).isSome then 2 ^ j else 0).sum)

/-- One result slot in six bytes, zeros when it is invalid (R178). -/
def slotBytes (r : Option SlotResult) : List Byte :=
  match r with
  | some r => signedWord r.mean16 ++ [signedByte r.least, signedByte r.greatest] ++ signedWord r.count
  | none => [0#8, 0#8, 0#8, 0#8, 0#8, 0#8]

/-- The sixty bytes of PROBE RESULTS (R178). -/
def Probe.response (p : Probe) : List Byte :=
  [byteOf p.running.toNat, p.stringByte, byteOf p.start, byteOf p.pointer] ++ twoBytes p.validMask
    ++ p.slots.toList.flatMap slotBytes

end Sys2Proof.Machine
end

