-- ==== Sys2Proof/Machine/PitchUnit.lean ====
section
/-! DEFINITION. The Pitch Unit's grants and computations (spec/02_the_pitch_unit.md, R24 to R32). -/

namespace Sys2Proof.Machine

/-- The string is a requester: its cycle queue holds a waiting report (R25). -/
def State.requester (σ : State) (s : Str) : Bool := !(σ.frontEnds[s]).queue.isEmpty

/-- The channel state is URGENT (R25). -/
def ChannelState.urgent : ChannelState → Bool
  | .attack | .bleed | .forming => true
  | .off | .quiet | .tracking | .muted => false

/-- The string's class is URGENT at this moment (R25). -/
def State.urgent (σ : State) (s : Str) : Bool := (σ.trackers[s]).state.urgent

/-- The strings in round-robin order after a string, which comes last itself (R26). -/
def roundRobin (s : Str) : List Str := [s + 1, s + 2, s + 3, s + 4, s + 5, s + 6, s + 7, s]

/-- The string the next grant goes to: the first URGENT requester in round-robin order, or else the first NORMAL one
(R26). -/
def State.nextGranted (σ : State) : Option Str :=
  ((roundRobin σ.pitchUnit.lastGranted).find? fun t => σ.requester t && σ.urgent t).or
    ((roundRobin σ.pitchUnit.lastGranted).find? σ.requester)

/-- The committed period and shift a computation on a string uses: those of a Tracker in TRACKING, else none and 0
(R28). -/
def State.smoothingInputs (σ : State) (s : Str) : Option Nat × Nat :=
  match (σ.trackers[s]).state, (σ.trackers[s]).committed with
  | .tracking, some c => (some c.period, σ.settings.smoothingShift)
  | _, _ => (none, 0)

/-- The computation that begins on a report, with its inputs fixed (R28). -/
def State.computationOn (σ : State) (s : Str) (r : CycleReport) : Computation where
  string := s
  report := r
  refTerm := σ.pitchUnit.refTerm
  gain := (σ.settings.physical[s]).gain
  offset := (σ.settings.physical[s]).offset
  committed := (σ.smoothingInputs s).1
  shift := (σ.smoothingInputs s).2

/-- A computation begins: the head report leaves the string's queue and is in flight (R18, R27). -/
def State.beginComputation (σ : State) (s : Str) (tenure : Nat) : State :=
  match (σ.frontEnds[s]).queue with
  | [] => σ
  | r :: rest =>
    (σ.setFrontEnd s { σ.frontEnds[s] with queue := rest }).setPitchUnit
      { σ.pitchUnit with computation := some (σ.computationOn s r), tenureUsed := tenure, lastGranted := s }

/-- The grant is decided (R26). -/
def State.grant (σ : State) : State :=
  match σ.nextGranted with
  | none => σ
  | some s => σ.beginComputation s 1

/-- The grant is decided if the unit is FREE (R26). -/
def State.grantIfFree (σ : State) : State := if σ.pitchUnit.computation.isNone then σ.grant else σ

/-- The result of a computation (R29). -/
def Computation.result (c : Computation) : PitchResult :=
  let candidate := candidatePeriodOf c.committed c.shift c.report.period
  { period := c.report.period
    peak := c.report.peak
    overload := c.report.overload
    rawPitch := rawPitchOf c.refTerm c.report.period
    candidatePeriod := candidate
    smoothedPitch := smoothedPitchOf c.refTerm candidate
    level := levelOf c.report.peak c.gain c.report.overload
    offset := c.offset }

/-- The holder continues (R30): it has a waiting report, tenure left, and it is URGENT or no URGENT requester
waits. -/
def State.continues (σ : State) (s : Str) : Bool :=
  σ.requester s && decide (σ.pitchUnit.tenureUsed < σ.settings.tenure)
    && (σ.urgent s || !(allStrings.any fun t => σ.requester t && σ.urgent t))

/-- The decision after the holder's Tracker has received the result: continue, or release the grant and decide it
anew (R30). -/
def State.decideContinuation (σ : State) (s : Str) : State :=
  if σ.continues s then σ.beginComputation s (σ.pitchUnit.tenureUsed + 1)
  else (σ.setPitchUnit { σ.pitchUnit with computation := none, tenureUsed := 0 }).grant

/-- The Pitch Unit after a reset: FREE, last-granted string 8, and the reference term of the reference setting
(R32). -/
def PitchUnit.afterReset (reference : Nat) : PitchUnit := { refTerm := referenceTerm reference }

end Sys2Proof.Machine
end

