-- ==== Sys2Proof/Machine/Tracker.lean ====
section
/-! DEFINITION. The String Tracker's state machine (spec/03_tracking_a_string.md) and the bleed test
(spec/04_bleed_suppression.md). A Tracker's step reads the state of the part and yields its own next state, and
whether its string's cycle queue is emptied (R19). -/

namespace Sys2Proof.Machine

/-! ## What a Tracker's step yields -/

/-- A Tracker's next state, and whether it entered OFF, QUIET or MUTED and so empties its cycle queue (R19). -/
structure Taken where
  tracker : Tracker
  flush : Bool := false
  deriving DecidableEq, Repr

/-- The Tracker stays as it is: the input is ignored or discarded. -/
def Taken.ignored (t : Tracker) : Taken := { tracker := t }

/-- Empty a string's cycle queue, touching no mark and no report in flight (R19). -/
def FrontEnd.flush (f : FrontEnd) : FrontEnd := { f with queue := [] }

/-- Put a Tracker's step into the state. -/
def State.putTaken (σ : State) (s : Str) (k : Taken) : State :=
  if k.flush then (σ.setTracker s k.tracker).setFrontEnd s (σ.frontEnds[s]).flush else σ.setTracker s k.tracker

/-! ## Entering a state (R51) -/

/-- Entry to ATTACK. -/
def Tracker.enterAttack (t : Tracker) : Tracker :=
  { t with
    state := .attack, peakMax := 0, firstPair := none, committed := none, held := none, confirmCount := 0
    staleTimer := .stopped, staleExpiries := 0, live := none, lastSent := none }

/-- Entry to MUTED; the pending predecessor is kept. -/
def Tracker.enterMuted (t : Tracker) : Tracker :=
  { t with
    state := .muted, live := none, lastSent := none, committed := none, firstPair := none, held := none
    staleTimer := .stopped, staleExpiries := 0 }

/-- Entry to QUIET: as MUTED, and the pending predecessor becomes none. -/
def Tracker.enterQuiet (t : Tracker) : Tracker := { t.enterMuted with state := .quiet, predecessor := none }

/-- Entry to OFF: as QUIET. -/
def Tracker.enterOff (t : Tracker) : Tracker := { t.enterQuiet with state := .off }

/-- Standing down (R50): MUTED if the gate is OPEN, QUIET if it is CLOSED; an OFF Tracker remains OFF. -/
def Tracker.standDown (gate : Gate) (t : Tracker) : Taken :=
  if t.state = .off then .ignored t
  else
    match gate with
    | .opened => { tracker := t.enterMuted, flush := true }
    | .closed => { tracker := t.enterQuiet, flush := true }

/-- The stale timer started or restarted with the stale setting × 5 ms (R73). -/
def Tracker.startStale (stale : Nat) (t : Tracker) : Tracker :=
  { t with staleTimer := .running (stale * 5), staleRun := t.staleRun + 1 }

/-- An accepted result or a confirming result restarts the stale timer and clears the expiry count (R60). -/
def Tracker.refreshStale (stale : Nat) (t : Tracker) : Tracker := { t.startStale stale with staleExpiries := 0 }

/-- Send a request and await its answer (R48). -/
def Tracker.send (q : Request) (counted : Option Int) (t : Tracker) : Tracker :=
  { t with awaited := some { request := q, counted := counted, answer := none } }

/-! ## The bleed test -/

/-- The distance between two string numbers. -/
def stringDistance (s t : Str) : Nat := ((s.val : Int) - t.val).natAbs

/-- String `t` is a reference for a test of string `s` (R82). -/
def State.reference (σ : State) (s t : Str) : Bool :=
  decide (1 ≤ stringDistance s t) && decide (stringDistance s t ≤ σ.settings.bleedDistance)
    && decide ((σ.trackers[t]).state = .forming ∨ (σ.trackers[t]).state = .tracking)
    && decide ((σ.frontEnds[t]).gate = .opened)

/-- The pitch condition (R83). -/
def State.pitchCondition (σ : State) (t : Str) (pitch : Int) : Bool :=
  match (σ.trackers[t]).committed with
  | some c => decide (foldedDistance pitch c.pitch ≤ σ.settings.bleedThreshold)
  | none => false

/-- The envelope condition (R84). -/
def State.envelopeCondition (σ : State) (s t : Str) : Bool :=
  decide ((σ.frontEnds[s]).env * 16 ≤ (σ.frontEnds[t]).env * σ.settings.bleedRatio)

/-- What a scene holds of a Tracker. -/
def Tracker.glance (t : Tracker) : Glance :=
  { state := t.state, committed := t.committed, firstPair := t.firstPair, staleRun := t.staleRun, tests := t.tests
    awaited := t.awaited, deferred := t.deferred }

/-- The Pitch Unit, the handing over of its present result aside. -/
def PitchUnit.unhanded (p : PitchUnit) : PitchUnit :=
  { p with computation := p.computation.map fun c => { c with handed := false } }

/-- What stands for a bleed test. -/
def State.scene (σ : State) : Scene :=
  { frontEnds := Vector.ofFn fun s => (σ.frontEnds[s]).flush
    pitchUnit := σ.pitchUnit.unhanded
    settings := σ.settings
    trackers := Vector.ofFn fun s => (σ.trackers[s]).glance }

/-- The number of a Tracker's latest entry to FORMING from ATTACK. -/
def Tracker.entryNumber (t : Tracker) : Nat := (t.entry.map (·.number)).getD 0

/-- An entry to FORMING from ATTACK as it is made: later than every entry that a Tracker still bears. -/
def State.newEntry (σ : State) : Entry :=
  { number := allStrings.foldl (fun n u => max n (σ.trackers[u]).entryNumber) 0 + 1, scene := σ.scene }

/-- The Tracker has sent a CREATE that the Note Table has not applied yet. -/
def Tracker.creating (t : Tracker) : Bool :=
  match t.awaited with
  | some { request := .create _, counted := _, answer := none } => true
  | _ => false

/-- The Tracker has entered FORMING from ATTACK at or after the entry numbered `n`, and its CREATE is not applied yet. -/
def Tracker.enteredSince (n : Nat) (t : Tracker) : Bool := t.creating && t.entry.any fun e => decide (n ≤ e.number)

/-- Nothing that could tell an entry from a later step has changed since it was made, but for that entry and others after
it (R86; assumption log 34). -/
def State.undisturbed (σ : State) (e : Entry) : Bool :=
  decide (σ.scene.frontEnds = e.scene.frontEnds ∧ σ.scene.pitchUnit = e.scene.pitchUnit
      ∧ σ.scene.settings = e.scene.settings)
    && allStrings.all fun w => decide ((σ.trackers[w]).glance = e.scene.trackers[w]) || (σ.trackers[w]).enteredSince e.number

/-- The test that string `s`, with the Tracker `t`, runs in ATTACK, the first in its step, may have come before the entry
`e` of the Tracker `u` to FORMING: the CREATE is not applied, no millisecond tick has come since, and nothing else has
changed (R86; assumption log 34). -/
def State.mayPrecede (σ : State) (s : Str) (t u : Tracker) (e : Entry) : Bool :=
  decide (t.state = .attack ∧ t.tests = (σ.trackers[s]).tests) && u.creating
    && decide (u.staleTimer = .running (σ.settings.stale * 5)) && σ.undisturbed e

/-- The entry of string `u` to FORMING comes before the test that string `s`, with the Tracker `t`, runs: where either
order is open, a free value says so (R86; assumption log 34). -/
def State.entersFirst (σ : State) (s : Str) (t : Tracker) (u : Str) : Bool :=
  (σ.trackers[u]).entry.all fun e =>
    !σ.mayPrecede s t σ.trackers[u] e || decide (e.number < Config.entriesSeen σ.resets t.tests s)

/-- The bleed test that string `s`, with the Tracker `t`, runs at a committed pitch: true is bleed, false is clear (R83,
R85, R86). -/
def State.bleedTest (σ : State) (s : Str) (t : Tracker) (pitch : Int) : Bool :=
  decide (σ.settings.bleedThreshold ≠ 0)
    && allStrings.any fun u =>
      σ.reference s u && σ.pitchCondition u pitch && σ.envelopeCondition s u && σ.entersFirst s t u

/-! ## The attack (R54 to R58) -/

/-- The last-sent values of a CREATE. -/
def CreateRequest.lastSent (c : CreateRequest) : LastSent :=
  { note := c.note, bend := c.bend, level := c.level, saturated := false, transpose := c.transpose
    bendRange := c.bendRange }

/-- The CREATE a Tracker sends from a consistent pair with committed pitch `pitch` (R56, steps 1 to 5). -/
def State.createRequestFor (σ : State) (s : Str) (r : PitchResult) (pitch : Int) (t : Tracker) : CreateRequest :=
  let m := σ.settings.musical σ.settings.selected s
  let pout := outputPitch pitch r.offset m.transpose
  let note := nearestNote pout
  { note := note
    bend := bendFrom pout note
    velocity := velocityOf t.peakMax (σ.settings.physical[s]).gain
    level := r.level
    profile := σ.settings.selected
    transpose := m.transpose
    bendRange := m.bendRange
    predecessor := t.predecessor }

/-- Record creation from ATTACK or BLEED (R56), with the entry to FORMING (R51). An entry from ATTACK is noted (R86). -/
def State.createFrom (σ : State) (s : Str) (r : PitchResult) (t : Tracker) : Taken :=
  let c := σ.createRequestFor s r r.rawPitch t
  { tracker :=
      ({ t with
          adopted := σ.settings.selected, state := .forming, held := none, firstPair := none, confirmCount := 0
          predecessor := none, lastSent := some c.lastSent
          entry := if t.state = ChannelState.attack then some σ.newEntry else none
          }.refreshStale σ.settings.stale).send (.create c) none }

/-- A consistent pair (R55, R58): the filter is reset to the pair's second cycle and the bleed test runs. -/
def State.consistentPair (σ : State) (s : Str) (r : PitchResult) (t : Tracker) : Taken :=
  let t' := { t with committed := some { period := 16 * r.period, pitch := r.rawPitch }, tests := t.tests + 1 }
  if σ.bleedTest s t r.rawPitch then { tracker := { t' with state := .bleed, firstPair := some r.rawPitch } }
  else σ.createFrom s r t'

/-- A result in ATTACK or BLEED (R54, R58). -/
def State.pairSearch (σ : State) (s : Str) (r : PitchResult) (t : Tracker) : Taken :=
  let t' := { t with peakMax := max t.peakMax r.peak }
  match t.firstPair with
  | none => { tracker := { t' with firstPair := some r.rawPitch } }
  | some p =>
    if (r.rawPitch - p).natAbs ≤ σ.settings.onsetTolerance then σ.consistentPair s r t'
    else { tracker := { t' with firstPair := some r.rawPitch } }

/-! ## The step check (R59) -/

/-- What the step check finds. -/
inductive StepOutcome | accepted | hold (pitch : Int) | confirmed
  deriving DecidableEq, Repr

/-- The step check of a raw pitch against the committed pitch and the held candidate (R59). -/
def stepCheck (threshold tolerance : Nat) (committed : Int) (held : Option Int) (pr : Int) : StepOutcome :=
  if (pr - committed).natAbs ≤ threshold then .accepted
  else
    match held with
    | none => .hold pr
    | some h => if (pr - h).natAbs ≤ tolerance then .confirmed else .hold pr

/-! ## Sending what a cycle reports -/

/-- Send UPDATE with the stale flag clear and remember the values sent (R61, R65, R66). -/
def Tracker.sendUpdate (h note : Nat) (bend : Int) (level : Nat) (saturated : Bool) (sent : LastSent)
    (counted : Int) (t : Tracker) : Tracker :=
  { t with lastSent := some { sent with note := note, bend := bend, level := level, saturated := saturated } }.send
    (.update { handle := h, note := note, bend := bend, level := level, stale := false, saturated := saturated })
    (some counted)

/-- Send SUCCEED and remember the values sent (R66, R67). -/
def Tracker.sendSucceed (h : Nat) (reason : ReleaseReason) (note : Nat) (bend : Int) (level : Nat) (sent : LastSent)
    (counted : Int) (t : Tracker) : Tracker :=
  { t with lastSent := some { sent with note := note, bend := bend, level := level, saturated := false } }.send
    (.succeed { handle := h, reason := reason, note := note, bend := bend, velocity := max 1 level, level := level })
    (some counted)

/-- A cycle reported in FORMING with committed pitch `pitch` (R61 from step 2 on, R63). -/
def Tracker.reportForming (r : PitchResult) (pitch : Int) (h : Nat) (sent : LastSent) (t : Tracker) : Tracker :=
  let pout := outputPitch pitch r.offset sent.transpose
  let note := nearestNote pout
  t.sendUpdate h note (bendFrom pout note) r.level false sent r.rawPitch

/-- A bend past the record's range under the CLAMP policy (R65). -/
def clampBend (bend : Int) (range : Nat) : Int := clampInt (-(64 * (range : Int))) (64 * (range : Int)) bend

/-- The bend passes the record's bend range (R65, R66). -/
def beyondRange (bend : Int) (range : Nat) : Bool := decide (64 * range < bend.natAbs)

/-- A cycle reported in TRACKING with committed pitch `pitch` under an overflow policy (R64 from step 2 on, R65,
R66, R68). -/
def Tracker.reportTracking (policy : Overflow) (r : PitchResult) (pitch : Int) (h : Nat) (sent : LastSent)
    (t : Tracker) : Tracker :=
  let pout := outputPitch pitch r.offset sent.transpose
  let bend := bendFrom pout sent.note
  if beyondRange bend sent.bendRange then
    match policy with
    | .clamp => t.sendUpdate h sent.note (clampBend bend sent.bendRange) r.level true sent r.rawPitch
    | .renote =>
      t.sendSucceed h .overbend (nearestNote pout) (bendFrom pout (nearestNote pout)) r.level sent r.rawPitch
  else t.sendUpdate h sent.note bend r.level false sent r.rawPitch

/-- A confirmed step in TRACKING under a legato policy, the filter being reset (R67, R68). -/
def Tracker.reportStep (legato : Legato) (policy : Overflow) (r : PitchResult) (h : Nat) (sent : LastSent)
    (t : Tracker) : Tracker :=
  let pout := outputPitch r.rawPitch r.offset sent.transpose
  let note := nearestNote pout
  match legato with
  | .newNote =>
    if note = sent.note then t.reportTracking policy r r.rawPitch h sent
    else t.sendSucceed h .legato note (bendFrom pout note) r.level sent r.rawPitch
  | .bend => t.reportTracking policy r r.rawPitch h sent

/-- An accepted result commits the candidate period and the smoothed pitch (R61, R64) and refreshes the stale guard
(R60). -/
def Tracker.commit (stale : Nat) (r : PitchResult) (t : Tracker) : Tracker :=
  { t with held := none, committed := some { period := r.candidatePeriod, pitch := r.smoothedPitch } }.refreshStale stale

/-- A confirmed step resets the filter to the confirming result and refreshes the stale guard (R60). -/
def Tracker.resetFilter (stale : Nat) (r : PitchResult) (t : Tracker) : Tracker :=
  { t with held := none, committed := some { period := 16 * r.period, pitch := r.rawPitch } }.refreshStale stale

/-- A result in FORMING (R59 to R63). -/
def State.formingResult (σ : State) (r : PitchResult) (t : Tracker) (c : Committed) (h : Nat) (sent : LastSent) :
    Tracker :=
  match stepCheck σ.settings.stepThreshold σ.settings.onsetTolerance c.pitch t.held r.rawPitch with
  | .hold p => { t with held := some p }
  | .accepted => (t.commit σ.settings.stale r).reportForming r r.smoothedPitch h sent
  | .confirmed => (t.resetFilter σ.settings.stale r).reportForming r r.rawPitch h sent

/-- A result in TRACKING (R59, R60, R64 to R68); the policies are those of the adopted profile (R69). -/
def State.trackingResult (σ : State) (s : Str) (r : PitchResult) (t : Tracker) (c : Committed) (h : Nat)
    (sent : LastSent) : Tracker :=
  let m := σ.settings.musical t.adopted s
  match stepCheck σ.settings.stepThreshold σ.settings.onsetTolerance c.pitch t.held r.rawPitch with
  | .hold p => { t with held := some p }
  | .accepted => (t.commit σ.settings.stale r).reportTracking m.overflow r r.smoothedPitch h sent
  | .confirmed => (t.resetFilter σ.settings.stale r).reportStep m.legato m.overflow r h sent

/-! ## Taking an input -/

/-- ONSET (R53, R57, R58, R75). -/
def Tracker.takeOnset (t : Tracker) : Taken :=
  match t.state with
  | .quiet | .muted => { tracker := t.enterAttack }
  | .off | .attack | .bleed | .forming | .tracking => .ignored t

/-- Send RELEASE for the live record, if one is held (R48). -/
def Tracker.sendRelease (reason : ReleaseReason) (t : Tracker) : Tracker :=
  match t.live with
  | some h => t.send (.release h reason) none
  | none => t

/-- RELEASE from the Front End (R53, R57, R58, R70, R75). -/
def Tracker.takeRelease (t : Tracker) : Taken :=
  match t.state with
  | .attack | .bleed | .muted => { tracker := t.enterQuiet, flush := true }
  | .forming | .tracking => { tracker := (t.sendRelease .decay).enterQuiet, flush := true }
  | .off | .quiet => .ignored t

/-- RESTRIKE (R53, R57, R58, R71, R75). -/
def Tracker.takeRestrike (t : Tracker) : Taken :=
  match t.state with
  | .bleed | .muted => { tracker := t.enterAttack }
  | .forming | .tracking => { tracker := { t.sendRelease .restrike with predecessor := t.live }.enterAttack }
  | .off | .quiet | .attack => .ignored t

/-- A Pitch Unit result (R52 to R69, R75). In FORMING and TRACKING the committed pitch, the live handle and the
last-sent values are present (R47); were they not, the result would be discarded (assumption log 25). -/
def State.takeResult (σ : State) (s : Str) (r : PitchResult) (t : Tracker) : Taken :=
  match t.state, t.committed, t.live, t.lastSent with
  | .attack, _, _, _ => σ.pairSearch s r t
  | .bleed, _, _, _ => σ.pairSearch s r t
  | .forming, some c, some h, some sent => { tracker := σ.formingResult r t c h sent }
  | .tracking, some c, some h, some sent => { tracker := σ.trackingResult s r t c h sent }
  | _, _, _, _ => .ignored t

/-- The first stale expiry: a stale UPDATE with the values last sent, and the timer restarted (R74). -/
def Tracker.staleUpdate (stale h : Nat) (sent : LastSent) (t : Tracker) : Tracker :=
  ({ t with staleExpiries := 1 }.startStale stale).send
    (.update { handle := h, note := sent.note, bend := sent.bend, level := sent.level, stale := true
               saturated := sent.saturated }) none

/-- The second stale expiry: RELEASE with the reason STALE, and standing down (R74). -/
def Tracker.staleRelease (gate : Gate) (t : Tracker) : Taken := (t.sendRelease .stale).standDown gate

/-- A stale expiry of the running numbered `run` (R73, R74): discarded once that running was stopped or restarted. -/
def Tracker.takeStale (stale : Nat) (gate : Gate) (run : Nat) (t : Tracker) : Taken :=
  if (t.state = .forming ∨ t.state = .tracking) ∧ t.staleTimer = .taken ∧ t.staleRun = run then
    if t.staleExpiries = 0 then
      match t.live, t.lastSent with
      | some h, some sent => { tracker := t.staleUpdate stale h sent }
      | _, _ => .ignored t
    else t.staleRelease gate
  else .ignored t

/-- A forced-release message (R77). -/
def Tracker.takeForced (gate : Gate) (h : Nat) (t : Tracker) : Taken :=
  if (t.state = .forming ∨ t.state = .tracking) ∧ t.live = some h then t.standDown gate else .ignored t

/-- The string is enabled (R52). -/
def Tracker.takeEnable (t : Tracker) : Taken :=
  if t.state = .off then { tracker := t.enterQuiet, flush := true } else .ignored t

/-- The string is disabled (R78). -/
def Tracker.takeDisable (t : Tracker) : Taken :=
  if t.state = .off then .ignored t else { tracker := (t.sendRelease .disabled).enterOff, flush := true }

/-- A Tracker takes an input in the state it holds. -/
def State.takeInput (σ : State) (s : Str) (i : TrackerInput) (t : Tracker) : Taken :=
  match i with
  | .frontEnd .onset => t.takeOnset
  | .frontEnd .release => t.takeRelease
  | .frontEnd .restrike => t.takeRestrike
  | .result r => σ.takeResult s r t
  | .staleExpiry run => t.takeStale σ.settings.stale (σ.frontEnds[s]).gate run
  | .forcedRelease h => t.takeForced (σ.frontEnds[s]).gate h
  | .enable => t.takeEnable
  | .disable => t.takeDisable

/-- An input reaches a Tracker: deferred while it awaits an answer, and otherwise taken (R49). -/
def State.receive (σ : State) (s : Str) (i : TrackerInput) (t : Tracker) : Taken :=
  if t.awaited.isSome then { tracker := { t with deferred := t.deferred ++ [i] } } else σ.takeInput s i t

/-- An input reaches the Tracker of a string. -/
def State.deliver (σ : State) (s : Str) (i : TrackerInput) : State := σ.putTaken s (σ.receive s i σ.trackers[s])

/-! ## Taking an answer -/

/-- The probe is RUNNING on the string (R79). -/
def Probe.runsOn (p : Probe) (s : Str) : Bool := p.running && decide (p.string = some s)

/-- Pass a counted cycle's raw pitch towards the probe, if it is RUNNING on the string (R79). -/
def Tracker.passPitch (runs : Bool) (counted : Option Int) (t : Tracker) : Tracker :=
  match counted with
  | some pr => if runs then { t with passed := t.passed ++ [pr] } else t
  | none => t

/-- After an UPDATE answered OK in FORMING: the count grows, and at the confirm count CONFIRM is sent and the Tracker
enters TRACKING (R61 step 4, R62). -/
def Tracker.checkConfirm (setting : Nat) (t : Tracker) : Tracker :=
  let n := t.confirmCount + 1
  let t' := { t with confirmCount := n }
  if setting ≤ n then
    match t.live with
    | some h => { t' with state := .tracking }.send (.confirm h) none
    | none => t'
  else t'

/-- An UPDATE answered OK (R61, R64, R74): a counted cycle is passed to the probe and, in FORMING, counted towards
confirmation. -/
def Tracker.updateAnswered (setting : Nat) (runs : Bool) (counted : Option Int) (t : Tracker) : Tracker :=
  let t' := t.passPitch runs counted
  if t.state = .forming ∧ counted.isSome then t'.checkConfirm setting else t'

/-- NOT LIVE makes the Tracker stand down (R76), but to a RELEASE with the reason STALE it leaves the Tracker where it
stood down as it sent that request (R74). R76 makes no such exception; that R74 goes before it is DEDUCED, unsafe
(assumption log 30). -/
def Tracker.takeNotLive (gate : Gate) (q : Request) (t : Tracker) : Taken :=
  match q with
  | .release _ .stale => .ignored t
  | _ => t.standDown gate

/-- The Tracker acts on an answer (R48, R61, R62, R64, R74, R76). -/
def State.actOnAnswer (σ : State) (s : Str) (a : Awaited) (answer : Answer) (t : Tracker) : Taken :=
  match answer with
  | .notLive => t.takeNotLive (σ.frontEnds[s]).gate a.request
  | .handle h => { tracker := { t with live := some h }.passPitch (σ.probe.runsOn s) a.counted }
  | .ok =>
    match a.request with
    | .update _ => { tracker := t.updateAnswered σ.settings.confirmCount (σ.probe.runsOn s) a.counted }
    | .create _ | .confirm _ | .release _ _ | .succeed _ => .ignored t

/-- The deferred inputs are taken in order until one of them sends a request (R49). -/
def State.drain (σ : State) (s : Str) : List TrackerInput → Taken → Taken
  | [], k => { k with tracker := { k.tracker with deferred := [] } }
  | i :: rest, k =>
    if k.tracker.awaited.isSome then { k with tracker := { k.tracker with deferred := i :: rest } }
    else
      let k' := σ.takeInput s i k.tracker
      σ.drain s rest { tracker := k'.tracker, flush := k.flush || k'.flush }

/-- The step TRACKER_ANSWER: the answer is acted on, and then the deferred inputs are taken (R48, R49). -/
def State.trackerAnswer (s : Str) (σ : State) : State :=
  match (σ.trackers[s]).awaited with
  | none => σ
  | some a =>
    match a.answer with
    | none => σ
    | some answer =>
      let t := σ.trackers[s]
      σ.putTaken s (σ.drain s t.deferred (σ.actOnAnswer s a answer { t with awaited := none, deferred := [] }))

/-! ## The steps by which inputs reach a Tracker -/

/-- The Front End event at the head of its channel reaches the Tracker, if it is of the kind named (R11). -/
def State.eventStep (e : FrontEndEvent) (s : Str) (σ : State) : State :=
  match (σ.trackers[s]).events with
  | [] => σ
  | f :: rest =>
    if f = e then (σ.setTracker s { σ.trackers[s] with events := rest }).deliver s (.frontEnd e) else σ

/-- The forced-release message at the head of its channel reaches the Tracker (R77). -/
def State.forcedStep (s : Str) (σ : State) : State :=
  match (σ.trackers[s]).forced with
  | [] => σ
  | h :: rest => (σ.setTracker s { σ.trackers[s] with forced := rest }).deliver s (.forcedRelease h)

/-- The enable message at the head of its channel reaches the Tracker (R52). -/
def State.enableStep (s : Str) (σ : State) : State :=
  match (σ.trackers[s]).enables with
  | true :: rest => (σ.setTracker s { σ.trackers[s] with enables := rest }).deliver s .enable
  | false :: _ => σ
  | [] => σ

/-- The disable message at the head of its channel reaches the Tracker (R78). -/
def State.disableStep (s : Str) (σ : State) : State :=
  match (σ.trackers[s]).enables with
  | false :: rest => (σ.setTracker s { σ.trackers[s] with enables := rest }).deliver s .disable
  | true :: _ => σ
  | [] => σ

/-- The stale timer has reached its expiry, and the expiry reaches the Tracker (R73, R74). -/
def State.staleStep (s : Str) (σ : State) : State :=
  if (σ.trackers[s]).staleTimer = .running 0 then
    (σ.setTracker s { σ.trackers[s] with staleTimer := .taken }).deliver s (.staleExpiry (σ.trackers[s]).staleRun)
  else σ

/-- One millisecond on a stale timer; an expiry that has not been taken stays (assumption log 26). -/
def StaleTimer.tick : StaleTimer → StaleTimer
  | .running (n + 1) => .running n
  | .running 0 => .running 0
  | .taken => .taken
  | .stopped => .stopped

/-! ## Completion of a computation (R29, R30) -/

/-- The result of the computation in flight is handed to its Tracker, which takes or defers it (R29, R49). -/
def State.handResult (c : Computation) (σ : State) : State :=
  (σ.setPitchUnit { σ.pitchUnit with computation := some { c with handed := true } }).deliver c.string (.result c.result)

/-- The step TRACKER_RESULT: the Tracker of the string takes the result of the computation in flight, which is then
handed over (assumption log 10). -/
def State.resultStep (s : Str) (σ : State) : State :=
  match σ.pitchUnit.computation with
  | none => σ
  | some c => if c.string = s ∧ c.handed = false then σ.handResult c else σ

/-- The step COMPUTATION_COMPLETE: the result is handed over, if it has not been, and then the unit decides. -/
def State.completeComputation (σ : State) : State :=
  match σ.pitchUnit.computation with
  | none => σ
  | some c => (if c.handed then σ else σ.handResult c).decideContinuation c.string

/-- The Tracker after a reset (R80): QUIET if the string is enabled and OFF if not, with the selected profile
adopted. -/
def Tracker.afterReset (k : Settings) (s : Str) : Tracker :=
  { state := if k.enabled s then .quiet else .off, adopted := k.selected }

end Sys2Proof.Machine
end

