-- ==== Sys2Proof/Machine/FrontEnd.lean ====
section
/-! DEFINITION. The String Front End (spec/01_string_channels.md): envelope, gate, restrike detector, cycle timing and
the cycle queue. -/

namespace Sys2Proof.Machine

/-! ## A sample (R2, R3, R12 to R17) -/

/-- A sample as the converter gives it: beyond either extreme it reads as that extreme (R2; assumption log 17). -/
def sampleValue (v : Int) : Int := clampInt (-4095) 4095 v

/-- The sample is a full-scale sample (R2). -/
def fullScale (v : Int) : Bool := decide (v.natAbs = Config.fullScale)

/-- A sample that completes an armed rising crossing, and the ticks from the previous sample to the crossing's
instant: floor(128 × (L − p) / (s − p)) (R12). -/
def FrontEnd.crossing (f : FrontEnd) (v : Int) : Option Nat :=
  if f.armed = true ∧ f.previous < f.level ∧ (f.level : Int) ≤ v then
    some ((128 * ((f.level : Int) - f.previous)) / (v - f.previous)).toNat
  else none

/-- The sample arms a disarmed detector (R12). -/
def FrontEnd.arms (f : FrontEnd) (v : Int) : Bool := decide (v < -(f.level : Int))

/-- A sample that completes no crossing: the elapsed count follows and stops at 196,608, and the running peak and
overload mark take the sample (R13). -/
def CycleTiming.advance (v : Int) : CycleTiming → CycleTiming
  | .waiting => .waiting
  | .timing elapsed peak overload =>
    .timing (min (elapsed + 128) Config.elapsedStop) (max peak v.natAbs) (overload || fullScale v)

/-- The report of a cycle that a crossing ends, if its period is within the limits (R14, R15). -/
def CycleTiming.finish (v : Int) (ticks : Nat) : CycleTiming → Option CycleReport
  | .waiting => none
  | .timing elapsed peak overload =>
    let period := elapsed + ticks
    if Config.shortestPeriod ≤ period ∧ period < Config.elapsedStop then
      some { period := period, peak := max peak v.natAbs, overload := overload || fullScale v }
    else none

/-- The start of a cycle at a crossing: the ticks from the crossing's instant to its sample have elapsed (R13). -/
def CycleTiming.begun (ticks : Nat) : CycleTiming := .timing (128 - ticks) 0 false

/-- The crossing detector and cycle timing examine a sample while the gate is OPEN (R12 to R14). -/
def FrontEnd.examine (f : FrontEnd) (v : Int) : FrontEnd × Option CycleReport :=
  match f.crossing v with
  | some ticks => ({ f with armed := false, timing := .begun ticks }, f.timing.finish v ticks)
  | none => ({ f with armed := f.armed || f.arms v, timing := f.timing.advance v }, none)

/-- What a sample does at the Front End: a closed gate examines nothing (R12). -/
def FrontEnd.timed (f : FrontEnd) (v : Int) : FrontEnd × Option CycleReport :=
  match f.gate with
  | .opened => f.examine v
  | .closed => (f, none)

/-- The sample takes part in the millisecond's peak, sets the overload mark if it is full scale, and becomes the
previous sample (R3, R4, R12). -/
def FrontEnd.note (f : FrontEnd) (v : Int) : FrontEnd :=
  { f with peak := max f.peak v.natAbs, previous := v, overloadMark := f.overloadMark || fullScale v }

/-- A report appended to the cycle queue; on a full queue the oldest is discarded and the overrun mark is set
(R16, R17). -/
def FrontEnd.append (f : FrontEnd) (r : CycleReport) : FrontEnd :=
  if f.queue.length < Config.cycleQueueDepth then { f with queue := f.queue ++ [r] }
  else { f with queue := f.queue.drop 1 ++ [r], overrunMark := true }

/-- The string's number as the detail of a fault cause (R177). -/
def stringDetail (s : Str) : Byte := BitVec.ofNat 8 (stringNumber s)

/-- A cycle report written: it joins the queue, an overrun is reported, and a FREE Pitch Unit decides a grant (R16,
R17, R26). -/
def State.writeReport (σ : State) (s : Str) (r : CycleReport) : State :=
  let σ' := σ.setFrontEnd s ((σ.frontEnds[s]).append r)
  (if (σ.frontEnds[s]).queue.length < Config.cycleQueueDepth then σ'
   else σ'.report .overrun (stringDetail s)).grantIfFree

/-- An overload is reported for a full-scale sample (R3). -/
def State.reportOverload (σ : State) (s : Str) (v : Int) : State :=
  if fullScale v then σ.report .overload (stringDetail s) else σ

/-- A sample of an enabled string. An overload is reported before an overrun of the same sample: DEDUCED, unsafe
(assumption log 16). -/
def State.takeSample (σ : State) (s : Str) (v : Int) : State :=
  let timed := (σ.frontEnds[s]).timed v
  let σ' := (σ.setFrontEnd s (timed.1.note v)).reportOverload s v
  match timed.2 with
  | none => σ'
  | some r => σ'.writeReport s r

/-- The step SAMPLE: the Front End of a disabled string does not convert (R2). -/
def State.sampleStep (s : Str) (v : Int) (σ : State) : State :=
  if σ.settings.enabled s then σ.takeSample s (sampleValue v) else σ

/-! ## A millisecond tick (R4 to R10) -/

/-- The settings a tick reads (R8, R10). -/
structure GateSettings where
  onset : Nat
  release : Nat
  onsetConfirm : Nat
  releaseConfirm : Nat
  restrikeRatio : Nat
  deriving DecidableEq, Repr

/-- The gate settings of a string as they stand (R8). -/
def Settings.gateOf (k : Settings) (s : Str) : GateSettings :=
  { onset := (k.physical[s]).onset, release := (k.physical[s]).release, onsetConfirm := k.onsetConfirm
    releaseConfirm := k.releaseConfirm, restrikeRatio := k.restrikeRatio }

/-- The effective release threshold (R7). -/
def GateSettings.effectiveRelease (g : GateSettings) : Nat := min g.release (g.onset - 1)

/-- The new envelope, and the crossing level from it (R4, R12). The next millisecond's peak starts from nothing. -/
def FrontEnd.updateEnvelope (f : FrontEnd) : FrontEnd :=
  let env := max f.peak (f.env * 15 / 16)
  { f with env := env, level := env / 4, peak := 0 }

/-- The onset rule of a CLOSED gate, after the envelope (R6). -/
def FrontEnd.onsetRule (g : GateSettings) (f : FrontEnd) : FrontEnd × Option FrontEndEvent :=
  let count := if g.onset ≤ f.env then f.onsetCount + 1 else 0
  if g.onsetConfirm ≤ count then
    ({ f with
        gate := .opened, onsetCount := 0, releaseCount := 0, envHi := f.env, envLo := f.env, armed := false
        timing := .waiting }, some .onset)
  else ({ f with onsetCount := count }, none)

/-- The gate closes (R7, R19). -/
def FrontEnd.close (f : FrontEnd) : FrontEnd :=
  { f with gate := .closed, onsetCount := 0, releaseCount := 0, armed := false, timing := .waiting, queue := [] }

/-- The restrike detector's update (R9). -/
def FrontEnd.trackRestrike (f : FrontEnd) : FrontEnd :=
  if f.envHi < f.env then { f with envHi := f.env, envLo := f.env } else { f with envLo := min f.envLo f.env }

/-- The restrike test on the updated detector (R10). -/
def FrontEnd.restrikes (g : GateSettings) (f : FrontEnd) : Bool :=
  decide (g.onset ≤ f.env) && decide (f.envLo * g.restrikeRatio ≤ f.env * 8)

/-- The restrike detector on a tick whose gate stays OPEN (R9, R10). -/
def FrontEnd.restrikeRule (g : GateSettings) (f : FrontEnd) : FrontEnd × Option FrontEndEvent :=
  let f' := f.trackRestrike
  if f'.restrikes g then ({ f' with envHi := f'.env, envLo := f'.env }, some .restrike) else (f', none)

/-- The release rule of an OPEN gate, after the envelope, and the restrike detector if it stays OPEN (R5, R7). -/
def FrontEnd.releaseRule (g : GateSettings) (f : FrontEnd) : FrontEnd × Option FrontEndEvent :=
  let count := if f.env < g.effectiveRelease then f.releaseCount + 1 else 0
  if g.releaseConfirm ≤ count then (f.close, some .release)
  else FrontEnd.restrikeRule g { f with releaseCount := count }

/-- One millisecond tick at one enabled Front End (R5). -/
def FrontEnd.tick (g : GateSettings) (f : FrontEnd) : FrontEnd × Option FrontEndEvent :=
  match f.gate with
  | .closed => f.updateEnvelope.onsetRule g
  | .opened => f.updateEnvelope.releaseRule g

/-- The tick at one string: a disabled string's envelope is not computed (R11, R20). -/
def State.tickFrontEnd (σ : State) (s : Str) : FrontEnd × Option FrontEndEvent :=
  if σ.settings.enabled s then (σ.frontEnds[s]).tick (σ.settings.gateOf s) else (σ.frontEnds[s], none)

/-- An event is handed to the Tracker as the tick completes (R5, R11), and its stale timer advances (R73). -/
def Tracker.tick (e : Option FrontEndEvent) (t : Tracker) : Tracker :=
  { t with events := t.events ++ e.toList, staleTimer := t.staleTimer.tick }

/-- The step MILLISECOND_TICK: every enabled Front End (R5), every stale timer (R73), every record's age and linger
timer (R92, R116). -/
def State.millisecond (σ : State) : State :=
  { σ with
    frontEnds := Vector.ofFn fun s => (σ.tickFrontEnd s).1
    trackers := Vector.ofFn fun s => (σ.trackers[s]).tick (σ.tickFrontEnd s).2
    table := σ.table.tick }

/-! ## Enabling and disabling (R20, R21) -/

/-- The disabled condition: the marks keep their values (R20). The previous sample, the crossing level and the running
peak, which R20 does not name, become 0: DESIGN CHOICE, unsafe (assumption log 6). -/
def FrontEnd.disable (f : FrontEnd) : FrontEnd := { overloadMark := f.overloadMark, overrunMark := f.overrunMark }

/-- Converting again from the disabled condition (R21). -/
def FrontEnd.enable (f : FrontEnd) : FrontEnd := { f with peak := 0 }

end Sys2Proof.Machine
end

