-- ==== Sys2Proof/Machine/SettingsStore.lean ====
section
/-! DEFINITION. The Settings Store's commands (spec/06_settings_profiles_and_zones.md). -/

namespace Sys2Proof.Machine

/-! ## The enable mask (R134) -/

/-- A string whose bit was cleared: its Front End goes to its disabled condition, its Tracker is told, and a probe
RUNNING on it aborts (R134, R153). PROBE ABORTED sets out for the Notice and Fault Unit, where the string's RELEASED notice
may come before it (R134; assumption log 31). -/
def State.disableString (s : Str) (σ : State) : State :=
  let σ' := (σ.setFrontEnd s (σ.frontEnds[s]).disable).sendEnable s false
  if σ.probe.running = true ∧ σ.probe.string = some s then σ'.abortRun NoticeUnit.send .disabled else σ'

/-- A string whose bit was set: its Front End starts converting and its Tracker is told (R134). -/
def State.enableString (s : Str) (σ : State) : State :=
  (σ.setFrontEnd s (σ.frontEnds[s]).enable).sendEnable s true

/-- What a write of the enable mask tells the blocks of one string (R134). -/
def State.tellEnable (old new : BitVec 8) (σ : State) (s : Str) : State :=
  if maskHas old s = true ∧ maskHas new s = false then σ.disableString s
  else if maskHas old s = false ∧ maskHas new s = true then σ.enableString s
  else σ

/-- A SET of the enable mask: the mask is stored first, and then each string whose bit changed is told (R134). -/
def State.setEnableMask (new : BitVec 8) (σ : State) : State :=
  allStrings.foldl (State.tellEnable σ.settings.enableMask new) (σ.setSettings { σ.settings with enableMask := new })

/-! ## The reference (R136) -/

/-- A SET of the reference: the value is stored, the reference term is computed from it, and a RUNNING probe aborts
(R136, R154). -/
def State.setReference (reference : Nat) (σ : State) : State :=
  ((σ.setSettings { σ.settings with reference := reference }).setPitchUnit
    { σ.pitchUnit with refTerm := referenceTerm reference }).abortProbe .reference

/-! ## SET (R128) -/

/-- Store a fitted value and tell the blocks concerned (R128, steps 4 and 5). -/
def State.storeSetting (i : SettingId) (v : Int) (σ : State) : State :=
  match i with
  | .global .enableMask => σ.setEnableMask (BitVec.ofInt 8 v)
  | .global .reference => σ.setReference v.toNat
  | _ => σ.setSettings (σ.settings.write v i)

/-- SET (R128). -/
def State.set (number : Byte) (value : BitVec 16) (σ : State) : State :=
  match SettingId.ofNumber number with
  | none => σ.refuse .set number .badSetting
  | some i =>
    match fitValue value i.kind with
    | none => σ.refuse .set number .badValue
    | some v => σ.storeSetting i v

/-! ## SELECT PROFILE (R137) -/

/-- SELECT PROFILE. -/
def State.selectProfile (value : Byte) (σ : State) : State :=
  if value = 0#8 then σ.setSettings { σ.settings with selected := .A }
  else if value = 1#8 then σ.setSettings { σ.settings with selected := .B }
  else σ.refuse .selectProfile value .badValue

end Sys2Proof.Machine
end

