-- ==== Sys2Proof/Machine/Reset.lean ====
section
/-! DEFINITION. The two resets (spec/00_scope.md, "Resets"): the hard reset (R186) and the restart (R173). -/

namespace Sys2Proof.Machine

/-! ## Hard reset (R186) -/

/-- The Control Link through a hard reset: the frame is abandoned, the posted buffer emptied, and after it the link
waits to see CSN high; the level of CSN is the controller's (R174). -/
def Link.hardReset (l : Link) : Link := { csnLow := l.csnLow, phase := if l.csnLow then .awaitHigh else .idle }

/-- HARD_RESET: every block abandons its work and takes its hard-reset values, and the part is held there (R22, R32,
R80, R122, R141, R157, R174, R185, R186). The queue of commands waiting is outside the part, and the resets are counted
(assumption log 35). -/
def State.hardReset (σ : State) : State :=
  { State.reset with link := σ.link.hardReset, inReset := true, resets := σ.resets + 1, pending := σ.pending }

/-- HARD_RESET_END: the part is no longer held (R186). -/
def State.hardResetEnd (σ : State) : State := { σ with inReset := false }

/-! ## Restart (R173) -/

/-- The restart of every block as one change: the settings are kept, and so are the posted buffer and the link's own
frame handling (R22, R32, R80, R122, R141, R157, R173, R185). The resets are counted (assumption log 35). -/
def State.restart (σ : State) : State :=
  { σ with
    frontEnds := Vector.replicate 8 {}
    pitchUnit := .afterReset σ.settings.reference
    trackers := Vector.ofFn fun s => .afterReset σ.settings s
    table := {}
    probe := {}
    notices := {}
    resets := σ.resets + 1 }

end Sys2Proof.Machine
end

