-- ==== Sys2Proof/Machine/Link.lean ====
section
/-! DEFINITION. The Control Link (spec/08_the_control_link.md): frames, the posted buffer, snapshots and responses. -/

namespace Sys2Proof.Machine

/-! ## Snapshots (R165 to R171) -/

/-- A response with its result alone, everything after it reading 0x00 (R166). -/
def Query.answer (q : Query) (r : ResultCode) : Response := { params := q.code.params, result := r }

/-- Fix the response of the frame (R165). -/
def State.respond (σ : State) (r : Response) : State := σ.setPhase (.responding r)

/-- The record as a response includes it. -/
def Record.included (r : Record) : Included := { handle := r.image.handle, serial := r.serial }

/-- A response that holds one record's image, and the record delivered (R167). -/
def State.respondImage (σ : State) (q : Query) (r : Record) : State :=
  (σ.setTable (σ.table.deliver r.image.handle)).respond
    { q.answer .ok with data := r.image.bytes, images := [r.included] }

/-- The snapshot of GET NOTE (R167). -/
def State.snapGetNote (h : Byte) (σ : State) : State :=
  match σ.table.find h.toNat with
  | some r => σ.respondImage (.getNote h) r
  | none => σ.respond ((Query.getNote h).answer .notFound)

/-- The snapshot of GET STRING (R167). -/
def State.snapGetString (b : Byte) (σ : State) : State :=
  match stringOfNumber b.toNat with
  | none => σ.respond ((Query.getString b).answer .badValue)
  | some s =>
    match σ.table.liveOf s with
    | some r => σ.respondImage (.getString b) r
    | none => σ.respond ((Query.getString b).answer .notFound)

/-- The snapshot of GET CHANGED (R168). -/
def State.snapGetChanged (σ : State) : State :=
  let rs := σ.table.changedRecords
  (σ.setTable (σ.table.deliverAll rs)).respond
    { Query.getChanged.answer .ok with
      data := byteOf rs.length :: rs.flatMap (·.image.bytes), images := rs.map Record.included }

/-- The snapshot of LIST NOTES (R169). -/
def State.snapListNotes (σ : State) : State :=
  σ.respond { Query.listNotes.answer .ok with data := byteOf σ.table.handles.length :: σ.table.handles.map byteOf }

/-- The maximum of TAKE NOTICES: 0 is taken as 1 and a value above 32 as 32 (R170). -/
def noticeMaximum (max : Byte) : Nat := clampNat 1 32 max.toNat

/-- The snapshot of TAKE NOTICES: nothing leaves the queue yet (R170). -/
def State.snapTakeNotices (max : Byte) (σ : State) : State :=
  let ns := σ.notices.queue.take (noticeMaximum max)
  σ.respond
    { (Query.takeNotices max).answer .ok with
      data := byteOf ns.length :: ns.flatMap Notice.bytes, entries := ns.length }

/-- The snapshot of GET STATUS (R169). -/
def State.snapGetStatus (σ : State) : State :=
  σ.respond { Query.getStatus.answer .ok with data := σ.statusResponse }

/-- The snapshot of GET SETTING (R130, R171). -/
def State.snapGetSetting (n : Byte) (σ : State) : State :=
  match SettingId.ofNumber n with
  | some i => σ.respond { (Query.getSetting n).answer .ok with data := signedWord (σ.settings.read i) }
  | none => σ.respond ((Query.getSetting n).answer .notFound)

/-- The snapshot of PROBE START (R145, R146, R171). -/
def State.snapProbeStart (a : ProbeStart) (σ : State) : State :=
  (σ.probeStart a).respond ((Query.probeStart a).answer (σ.judgeProbeStart a))

/-- The snapshot of PROBE RESULTS (R156). -/
def State.snapProbeResults (σ : State) : State :=
  σ.respond { Query.probeResults.answer .ok with data := σ.probe.response }

/-- The snapshot of a non-posted command (R165). -/
def State.snapshot (q : Query) (σ : State) : State :=
  match q with
  | .getNote h => σ.snapGetNote h
  | .getString b => σ.snapGetString b
  | .getChanged => σ.snapGetChanged
  | .listNotes => σ.snapListNotes
  | .takeNotices m => σ.snapTakeNotices m
  | .getStatus => σ.snapGetStatus
  | .getSetting n => σ.snapGetSetting n
  | .probeStart a => σ.snapProbeStart a
  | .probeResults => σ.snapProbeResults

/-- A waiting snapshot is taken as soon as the posted buffer is empty (R165). -/
def State.takeDue (σ : State) : State :=
  match σ.link.phase with
  | .waiting q => if σ.link.buffer.isEmpty then σ.snapshot q else σ
  | .idle | .awaitHigh | .begun | .params _ | .responding _ | .ignoring => σ

/-- A non-posted command is complete: its parameter bytes follow its command byte, or it has none and its command
byte completed it (R161); its snapshot is taken or waits (R165). -/
def State.completeQuery (q : Query) (σ : State) : State :=
  if σ.link.phase = .params q.code ∨ σ.link.phase = .waiting q then (σ.setPhase (.waiting q)).takeDue else σ

/-! ## The start of a frame -/

/-- CSN falls: after a hard reset CSN must have been seen high (R174), and the status byte is captured (R159). -/
def State.startFrame (σ : State) : State :=
  if σ.link.phase = .idle then
    σ.setLink { σ.link with csnLow := true, phase := .begun, status := σ.statusByte }
  else σ

/-- FRAME_START: in hard reset only the level of CSN moves (R174, R186). -/
def State.frameStart (σ : State) : State :=
  if σ.inReset then σ.setLink { σ.link with csnLow := true, phase := .awaitHigh } else σ.startFrame

/-- The phase a defined command byte leads to (R160, R161). -/
def CommandCode.phase (c : CommandCode) : Phase :=
  match c.bareQuery with
  | some q => .waiting q
  | none => .params c

/-- COMMAND_BYTE (R160): an unknown command reports FRAME and the rest of its frame is ignored. -/
def State.commandByte (b : Byte) (σ : State) : State :=
  if σ.link.phase = .begun then
    match CommandCode.ofByte b with
    | some c => σ.setPhase c.phase
    | none => (σ.setPhase .ignoring).report .frame b
  else σ

/-! ## The posted buffer (R162 to R164) -/

/-- A posted command arrives: it joins the tail, or is dropped and refused BUFFER FULL (R162). -/
def State.arrive (p : Posted) (σ : State) : State :=
  if σ.link.buffer.length < Config.postedDepth then
    σ.setLink { σ.link with buffer := σ.link.buffer ++ [p], phase := .ignoring }
  else (σ.setPhase .ignoring).refuse p.code p.firstParam .bufferFull

/-- POSTED_COMMAND_ARRIVAL: the parameter bytes complete the frame's posted command (R161, R162). -/
def State.postedArrival (params : List Byte) (σ : State) : State :=
  match σ.link.phase with
  | .params c =>
    match Posted.ofBytes c params with
    | some p => σ.arrive p
    | none => σ
  | .idle | .awaitHigh | .begun | .waiting _ | .responding _ | .ignoring => σ

/-- CLEAR FAULTS (R183): the flags named, and with them the Front Ends' marks and the last-refusal record. -/
def State.clearFaults (m : Byte) (σ : State) : State :=
  { σ with
    notices := σ.notices.clear m
    frontEnds := Vector.ofFn fun s =>
      { σ.frontEnds[s] with
        overloadMark := (σ.frontEnds[s]).overloadMark && !m.getLsbD 0
        overrunMark := (σ.frontEnds[s]).overrunMark && !m.getLsbD 1 } }

/-- A posted command applied by its owner (R163). -/
def State.applyPosted (p : Posted) (σ : State) : State :=
  match p with
  | .tagNote h t => σ.tagNote h t
  | .untagNote h => σ.untagNote h
  | .holdNote h v => σ.holdNote h v
  | .releaseNote h => σ.releaseNote h
  | .retireNote h => σ.retireNote h
  | .allRelease => σ.allRelease
  | .set n v => σ.set n v
  | .selectProfile v => σ.selectProfile v
  | .probeStop => σ.probeStop
  | .clearFaults m => σ.clearFaults m
  | .restart => σ.restart

/-- The posted command in application whose effects are not in place yet: the oldest (R163). -/
def Link.head (l : Link) : Option Posted := if l.applied then none else l.buffer.head?

/-- The effects of the oldest posted command are in place (assumption log 11). -/
def State.markApplied (σ : State) : State := σ.setLink { σ.link with applied := true }

/-- Apply the oldest posted command if its effects are not in place and it is of the kind named (R163). -/
def State.applyWhen (kind : Posted → Bool) (σ : State) : State :=
  match σ.link.head with
  | some p => if kind p then (σ.applyPosted p).markApplied else σ
  | none => σ

/-- Apply the oldest posted command if its effects are not in place. -/
def State.applyHead (σ : State) : State := σ.applyWhen fun _ => true

/-- The oldest posted command leaves the buffer, every effect of its application in place: a notice still on its way
reaches the unit (R163). -/
def State.popPosted (σ : State) : State :=
  σ.noticesArrive.setLink { σ.link with buffer := σ.link.buffer.drop 1, applied := false }

/-- POSTED_APPLICATION_COMPLETE: the oldest command's effects are in place, it leaves the buffer, and a snapshot that
waited for the last of them is taken (R163, R165). -/
def State.postedComplete (σ : State) : State :=
  if σ.link.buffer.isEmpty then σ else σ.applyHead.popPosted.takeDue

/-- The oldest posted command, if it is a RESTART, is applied as one change and leaves the buffer as that change
completes, with a snapshot that waited for it (R165, R173). -/
def State.restartComplete (σ : State) : State :=
  match σ.link.head with
  | some .restart => σ.postedComplete
  | _ => σ

/-! ## The rest of a frame -/

/-- TURNAROUND_BUSY: a snapshot not taken by the end of the turnaround byte is abandoned, and the result reads BUSY
(R165). -/
def State.turnaround (σ : State) : State :=
  let σ' := σ.takeDue
  match σ'.link.phase with
  | .waiting q => σ'.respond (q.answer .busy)
  | .idle | .awaitHigh | .begun | .params _ | .responding _ | .ignoring => σ'

/-- NOTICE_ENTRY_DELIVERED: the entry leaves the head of the notice queue (R170). -/
def State.noticeDelivered (σ : State) : State :=
  match σ.link.phase with
  | .responding r =>
    if 0 < r.entries then
      (σ.setNotices { σ.notices with queue := σ.notices.queue.drop 1 }).respond { r with entries := r.entries - 1 }
    else σ
  | .idle | .awaitHigh | .begun | .params _ | .waiting _ | .ignoring => σ

/-- The number of complete bytes of a frame by which image `k` of a response is complete, counted from 0. A response
with images has command, parameter or count, turnaround and result bytes before them, four in all (R160, R166). -/
def imageEnd (k : Nat) : Nat := 4 + 18 * (k + 1)

/-- The included images that a frame of so many complete bytes cut short (R166, R168). -/
def Response.cutShort (r : Response) (bytes : Nat) : List Included := r.images.drop ((bytes - 4) / 18)

/-- The end of a frame whose response is fixed: the records of images cut short are flagged again (R121, R166). -/
def State.endResponse (r : Response) (bytes : Nat) (σ : State) : State :=
  σ.setTable ((r.cutShort bytes).foldl NoteTable.reflag σ.table)

/-- The end of a frame whose command byte was its last complete part: a posted command without parameters was
complete and arrives, and any other is a short frame (R161). -/
def State.endIncomplete (c : CommandCode) (σ : State) : State :=
  match Posted.ofBytes c [] with
  | some p => σ.arrive p
  | none => σ.report .frame c.byte

/-- What the end of a frame reports, before CSN is high (R161, R165, R166). A snapshot that was due is taken first. -/
def State.endPhase (bytes : Nat) (σ : State) : State :=
  let σ' := σ.takeDue
  match σ'.link.phase with
  | .responding r => σ'.endResponse r bytes
  | .params c => σ'.endIncomplete c
  | .idle | .awaitHigh | .begun | .waiting _ | .ignoring => σ'

/-- CSN is high: no frame. -/
def State.raiseCsn (σ : State) : State := σ.setLink { σ.link with csnLow := false, phase := .idle }

/-- FRAME_END: CSN rises (R166). -/
def State.frameEnd (bytes : Nat) (σ : State) : State := if σ.inReset then σ.raiseCsn else (σ.endPhase bytes).raiseCsn

/-! ## What the part shifts out -/

/-- Byte `k` that a frame shifts out on MISO, counted from byte 0, as the link stands (R159 to R161, R165, R166). -/
def Link.misoByte (l : Link) (k : Nat) : Byte :=
  if k = 0 then l.status
  else
    match l.phase with
    | .responding r =>
      if k < r.params + 2 then 0#8 else if k = r.params + 2 then r.result.byte else r.data.getD (k - (r.params + 3)) 0#8
    | .idle | .awaitHigh | .begun | .params _ | .waiting _ | .ignoring => 0#8

/-- What the part drives on MISO for byte `k`: nothing while CSN is high or in a hard reset (R158, R186). Nothing is driven
either after a hard reset while CSN is still low and has not been seen high: DESIGN CHOICE, unsafe (assumption log
32). -/
def State.miso (σ : State) (k : Nat) : Option Byte :=
  if σ.inReset = true ∨ σ.link.phase = .idle ∨ σ.link.phase = .awaitHigh then none else some (σ.link.misoByte k)

end Sys2Proof.Machine
end

