-- ==== Sys2Proof/Machine/Frames.lean ====
section
/-! DEFINITION. The meanings of the commands that come over the Control Link: the events of a frame, the non-posted
commands, and the posted commands at the head of the posted buffer. -/

namespace Sys2Proof.Machine

/-! ## Events of a frame -/

/-- FRAME_START (R158, R159, R174). -/
def execFrameStart (σ : State) : Host.Outcome State Fault Refusal := .next σ.frameStart

/-- COMMAND_BYTE (R160). -/
def execCommandByte (byte : Byte) (σ : State) : Host.Outcome State Fault Refusal :=
  whenRunning (State.commandByte byte) σ

/-- POSTED_COMMAND_ARRIVAL (R161, R162). -/
def execPostedCommandArrival (params : List Byte) (σ : State) : Host.Outcome State Fault Refusal :=
  whenRunning (State.postedArrival params) σ

/-- POSTED_APPLICATION_COMPLETE (R163, R165). -/
def execPostedApplicationComplete (σ : State) : Host.Outcome State Fault Refusal := whenRunning State.postedComplete σ

/-- TURNAROUND_BUSY (R165). -/
def execTurnaroundBusy (σ : State) : Host.Outcome State Fault Refusal := whenRunning State.turnaround σ

/-- NOTICE_ENTRY_DELIVERED (R170, R180). -/
def execNoticeEntryDelivered (σ : State) : Host.Outcome State Fault Refusal := whenRunning State.noticeDelivered σ

/-- FRAME_END (R158, R161, R165, R166, R174). -/
def execFrameEnd (bytes : Nat) (σ : State) : Host.Outcome State Fault Refusal := .next (σ.frameEnd bytes)

/-! ## Non-posted commands -/

/-- GET_NOTE (R121, R167). -/
def execGetNote (handle : Byte) (σ : State) : Host.Outcome State Fault Refusal :=
  whenRunning (State.completeQuery (.getNote handle)) σ

/-- GET_STRING (R121, R167). -/
def execGetString (string : Byte) (σ : State) : Host.Outcome State Fault Refusal :=
  whenRunning (State.completeQuery (.getString string)) σ

/-- GET_CHANGED (R121, R168). -/
def execGetChanged (σ : State) : Host.Outcome State Fault Refusal := whenRunning (State.completeQuery .getChanged) σ

/-- LIST_NOTES (R121, R169). -/
def execListNotes (σ : State) : Host.Outcome State Fault Refusal := whenRunning (State.completeQuery .listNotes) σ

/-- TAKE_NOTICES (R170). -/
def execTakeNotices (max : Byte) (σ : State) : Host.Outcome State Fault Refusal :=
  whenRunning (State.completeQuery (.takeNotices max)) σ

/-- GET_STATUS (R121, R169, R178). -/
def execGetStatus (σ : State) : Host.Outcome State Fault Refusal := whenRunning (State.completeQuery .getStatus) σ

/-- GET_SETTING (R130, R171). -/
def execGetSetting (number : Byte) (σ : State) : Host.Outcome State Fault Refusal :=
  whenRunning (State.completeQuery (.getSetting number)) σ

/-- PROBE_START (R145, R146, R171). -/
def execProbeStart (string slot : Byte) (size0 size1 mask : BytePair) (auto : Byte) (σ : State) :
    Host.Outcome State Fault Refusal :=
  whenRunning (State.completeQuery (.probeStart (.ofBytes string slot size0 size1 mask auto))) σ

/-- PROBE_RESULTS (R156, R171). -/
def execProbeResults (σ : State) : Host.Outcome State Fault Refusal :=
  whenRunning (State.completeQuery .probeResults) σ

/-! ## Posted commands at the head of the posted buffer

Each takes effect when the oldest posted command is of its kind and its effects are not in place (R163). -/

/-- TAG_NOTE (R108). -/
def execTagNote (σ : State) : Host.Outcome State Fault Refusal :=
  whenRunning (State.applyWhen fun p => p.code == .tagNote) σ

/-- UNTAG_NOTE (R108). -/
def execUntagNote (σ : State) : Host.Outcome State Fault Refusal :=
  whenRunning (State.applyWhen fun p => p.code == .untagNote) σ

/-- HOLD_NOTE (R109). -/
def execHoldNote (σ : State) : Host.Outcome State Fault Refusal :=
  whenRunning (State.applyWhen fun p => p.code == .holdNote) σ

/-- RELEASE_NOTE (R110, R113). -/
def execReleaseNote (σ : State) : Host.Outcome State Fault Refusal :=
  whenRunning (State.applyWhen fun p => p.code == .releaseNote) σ

/-- RETIRE_NOTE (R112, R119). -/
def execRetireNote (σ : State) : Host.Outcome State Fault Refusal :=
  whenRunning (State.applyWhen fun p => p.code == .retireNote) σ

/-- ALL_RELEASE (R111, R113). -/
def execAllRelease (σ : State) : Host.Outcome State Fault Refusal :=
  whenRunning (State.applyWhen fun p => p.code == .allRelease) σ

/-- SET of any setting number (R128). Of the enable mask, it leaves PROBE ABORTED on its way until the application
completes: DESIGN CHOICE, safe (assumption log 31). -/
def execSet (σ : State) : Host.Outcome State Fault Refusal :=
  whenRunning (State.applyWhen fun p => p.code == .set) σ

/-- The posted command is a SET of the enable mask (R124). -/
def Posted.setsEnableMask : Posted → Bool
  | .set number _ => number == 0x00#8
  | _ => false

/-- Apply a SET of the enable mask, PROBE ABORTED reaching the unit at once (R134, R155). -/
def State.applyEnableMask (σ : State) : State :=
  if σ.link.head.any Posted.setsEnableMask then (σ.applyWhen Posted.setsEnableMask).noticesArrive else σ

/-- SET_ENABLE_MASK (R134). -/
def execSetEnableMask (σ : State) : Host.Outcome State Fault Refusal := whenRunning State.applyEnableMask σ

/-- The posted command is a SET of the reference (R124). -/
def Posted.setsReference : Posted → Bool
  | .set number _ => number == 0x01#8
  | _ => false

/-- SET_REFERENCE (R136). -/
def execSetReference (σ : State) : Host.Outcome State Fault Refusal :=
  whenRunning (State.applyWhen Posted.setsReference) σ

/-- SELECT_PROFILE (R137). -/
def execSelectProfile (σ : State) : Host.Outcome State Fault Refusal :=
  whenRunning (State.applyWhen fun p => p.code == .selectProfile) σ

/-- PROBE_STOP (R152). -/
def execProbeStop (σ : State) : Host.Outcome State Fault Refusal :=
  whenRunning (State.applyWhen fun p => p.code == .probeStop) σ

/-- CLEAR_FAULTS (R183). -/
def execClearFaults (σ : State) : Host.Outcome State Fault Refusal :=
  whenRunning (State.applyWhen fun p => p.code == .clearFaults) σ

/-- RESTART (R173): its effects and its completion are one step. -/
def execRestart (σ : State) : Host.Outcome State Fault Refusal := whenRunning State.restartComplete σ

end Sys2Proof.Machine
end

