-- ==== Sys2Proof/Machine/Playing.lean ====
section
/-! DEFINITION. The meanings of the commands that come from the strings, the crystal and the part's own blocks: the
two ends of a hard reset, samples and ticks, expiries, computations, the Trackers' inputs and answers, the Trackers'
requests at the Note Table, and pitches on their way to the probe. -/

namespace Sys2Proof.Machine

/-- HARD_RESET (R186). -/
def execHardReset (σ : State) : Host.Outcome State Fault Refusal := .next σ.hardReset

/-- HARD_RESET_END (R186). -/
def execHardResetEnd (σ : State) : Host.Outcome State Fault Refusal := .next σ.hardResetEnd

/-- SAMPLE (R2, R3, R12 to R17). -/
def execSample (s : Str) (value : Int) (σ : State) : Host.Outcome State Fault Refusal :=
  whenRunning (State.sampleStep s value) σ

/-- MILLISECOND_TICK (R4 to R10, R73, R92, R116). -/
def execMillisecondTick (σ : State) : Host.Outcome State Fault Refusal := whenRunning State.millisecond σ

/-- STALE_TIMER_EXPIRY (R73, R74). -/
def execStaleTimerExpiry (s : Str) (σ : State) : Host.Outcome State Fault Refusal :=
  whenRunning (State.staleStep s) σ

/-- LINGER_TIMER_EXPIRY (R117). -/
def execLingerTimerExpiry (handle : Nat) (σ : State) : Host.Outcome State Fault Refusal :=
  whenRunning (State.lingerExpiry handle) σ

/-- COMPUTATION_COMPLETE (R29, R30). -/
def execComputationComplete (σ : State) : Host.Outcome State Fault Refusal :=
  whenRunning State.completeComputation σ

/-- TRACKER_RESULT (R29, R52 to R69, R75). -/
def execTrackerResult (s : Str) (σ : State) : Host.Outcome State Fault Refusal := whenRunning (State.resultStep s) σ

/-- TRACKER_ONSET (R53, R75). -/
def execTrackerOnset (s : Str) (σ : State) : Host.Outcome State Fault Refusal :=
  whenRunning (State.eventStep .onset s) σ

/-- TRACKER_RELEASE_EVENT (R57, R58, R70, R75). -/
def execTrackerReleaseEvent (s : Str) (σ : State) : Host.Outcome State Fault Refusal :=
  whenRunning (State.eventStep .release s) σ

/-- TRACKER_RESTRIKE (R58, R71, R75). -/
def execTrackerRestrike (s : Str) (σ : State) : Host.Outcome State Fault Refusal :=
  whenRunning (State.eventStep .restrike s) σ

/-- TRACKER_ANSWER (R48, R49, R61, R62, R76, R79). -/
def execTrackerAnswer (s : Str) (σ : State) : Host.Outcome State Fault Refusal :=
  whenRunning (State.trackerAnswer s) σ

/-- FORCED_RELEASE_MESSAGE (R77). -/
def execForcedReleaseMessage (s : Str) (σ : State) : Host.Outcome State Fault Refusal :=
  whenRunning (State.forcedStep s) σ

/-- TRACKER_ENABLE (R52). -/
def execTrackerEnable (s : Str) (σ : State) : Host.Outcome State Fault Refusal := whenRunning (State.enableStep s) σ

/-- TRACKER_DISABLE (R78). -/
def execTrackerDisable (s : Str) (σ : State) : Host.Outcome State Fault Refusal := whenRunning (State.disableStep s) σ

/-- CREATE (R98 to R100, R118). -/
def execCreate (s : Str) (σ : State) : Host.Outcome State Fault Refusal := whenRunning (State.applyCreate s) σ

/-- UPDATE (R101, R102). -/
def execUpdate (s : Str) (σ : State) : Host.Outcome State Fault Refusal := whenRunning (State.applyUpdate s) σ

/-- CONFIRM (R103). -/
def execConfirm (s : Str) (σ : State) : Host.Outcome State Fault Refusal := whenRunning (State.applyConfirm s) σ

/-- RELEASE (R104). -/
def execRelease (s : Str) (σ : State) : Host.Outcome State Fault Refusal := whenRunning (State.applyRelease s) σ

/-- SUCCEED (R105, R106, R118). -/
def execSucceed (s : Str) (σ : State) : Host.Outcome State Fault Refusal := whenRunning (State.applySucceed s) σ

/-- PROBE_PITCH (R147 to R151). -/
def execProbePitch (s : Str) (σ : State) : Host.Outcome State Fault Refusal := whenRunning (State.probePitch s) σ

end Sys2Proof.Machine
end

