-- ==== Sys2Proof/Machine/Dispatch.lean ====
section
/-! DEFINITION. The meaning of each command: one arm per constructor of Instr, in the table's order. -/

namespace Sys2Proof.Machine

def exec (i : Instr) (s : State) : Host.Outcome State Fault Refusal :=
  match i with
  | .hardReset => Sys2Proof.Machine.execHardReset s
  | .hardResetEnd => Sys2Proof.Machine.execHardResetEnd s
  | .sample k value => Sys2Proof.Machine.execSample k value s
  | .millisecondTick => Sys2Proof.Machine.execMillisecondTick s
  | .staleTimerExpiry k => Sys2Proof.Machine.execStaleTimerExpiry k s
  | .lingerTimerExpiry handle => Sys2Proof.Machine.execLingerTimerExpiry handle s
  | .computationComplete => Sys2Proof.Machine.execComputationComplete s
  | .trackerResult k => Sys2Proof.Machine.execTrackerResult k s
  | .trackerOnset k => Sys2Proof.Machine.execTrackerOnset k s
  | .trackerReleaseEvent k => Sys2Proof.Machine.execTrackerReleaseEvent k s
  | .trackerRestrike k => Sys2Proof.Machine.execTrackerRestrike k s
  | .trackerAnswer k => Sys2Proof.Machine.execTrackerAnswer k s
  | .forcedReleaseMessage k => Sys2Proof.Machine.execForcedReleaseMessage k s
  | .trackerEnable k => Sys2Proof.Machine.execTrackerEnable k s
  | .trackerDisable k => Sys2Proof.Machine.execTrackerDisable k s
  | .create k => Sys2Proof.Machine.execCreate k s
  | .update k => Sys2Proof.Machine.execUpdate k s
  | .confirm k => Sys2Proof.Machine.execConfirm k s
  | .release k => Sys2Proof.Machine.execRelease k s
  | .succeed k => Sys2Proof.Machine.execSucceed k s
  | .probePitch k => Sys2Proof.Machine.execProbePitch k s
  | .frameStart => Sys2Proof.Machine.execFrameStart s
  | .commandByte byte => Sys2Proof.Machine.execCommandByte byte s
  | .postedCommandArrival params => Sys2Proof.Machine.execPostedCommandArrival params s
  | .postedApplicationComplete => Sys2Proof.Machine.execPostedApplicationComplete s
  | .turnaroundBusy => Sys2Proof.Machine.execTurnaroundBusy s
  | .noticeEntryDelivered => Sys2Proof.Machine.execNoticeEntryDelivered s
  | .frameEnd bytes => Sys2Proof.Machine.execFrameEnd bytes s
  | .getNote handle => Sys2Proof.Machine.execGetNote handle s
  | .getString string => Sys2Proof.Machine.execGetString string s
  | .getChanged => Sys2Proof.Machine.execGetChanged s
  | .listNotes => Sys2Proof.Machine.execListNotes s
  | .takeNotices max => Sys2Proof.Machine.execTakeNotices max s
  | .getStatus => Sys2Proof.Machine.execGetStatus s
  | .getSetting number => Sys2Proof.Machine.execGetSetting number s
  | .probeStart string slot size0 size1 mask auto => Sys2Proof.Machine.execProbeStart string slot size0 size1 mask auto s
  | .probeResults => Sys2Proof.Machine.execProbeResults s
  | .tagNote => Sys2Proof.Machine.execTagNote s
  | .untagNote => Sys2Proof.Machine.execUntagNote s
  | .holdNote => Sys2Proof.Machine.execHoldNote s
  | .releaseNote => Sys2Proof.Machine.execReleaseNote s
  | .retireNote => Sys2Proof.Machine.execRetireNote s
  | .allRelease => Sys2Proof.Machine.execAllRelease s
  | .set => Sys2Proof.Machine.execSet s
  | .setEnableMask => Sys2Proof.Machine.execSetEnableMask s
  | .setReference => Sys2Proof.Machine.execSetReference s
  | .selectProfile => Sys2Proof.Machine.execSelectProfile s
  | .probeStop => Sys2Proof.Machine.execProbeStop s
  | .clearFaults => Sys2Proof.Machine.execClearFaults s
  | .restart => Sys2Proof.Machine.execRestart s

end Sys2Proof.Machine
end

