-- ==== Sys2Proof/Safety.lean ====
section
/-! DEFINITION. What is true of the part after every step: the invariants of its blocks, each a property of plain data. -/

namespace Sys2Proof.Machine

/-! ## The command of each row that a query or a posted command stands for -/

/-- The row of a non-posted command, with the parameter bytes that spell it. -/
def Query.command : Query → Instr
  | .getNote h => .getNote h
  | .getString b => .getString b
  | .getChanged => .getChanged
  | .listNotes => .listNotes
  | .takeNotices m => .takeNotices m
  | .getStatus => .getStatus
  | .getSetting n => .getSetting n
  | .probeStart a => .probeStart a.string a.slot (bytesOfWord a.size0) (bytesOfWord a.size1) (bytesOfWord a.mask) a.auto
  | .probeResults => .probeResults

/-- The row of a posted command at the head of the posted buffer. -/
def Posted.command : Posted → Instr
  | .tagNote _ _ => .tagNote
  | .untagNote _ => .untagNote
  | .holdNote _ _ => .holdNote
  | .releaseNote _ => .releaseNote
  | .retireNote _ => .retireNote
  | .allRelease => .allRelease
  | .set _ _ => .set
  | .selectProfile _ => .selectProfile
  | .probeStop => .probeStop
  | .clearFaults _ => .clearFaults
  | .restart => .restart

/-! ## Front Ends -/

/-- A cycle report within its ranges (R15). -/
abbrev CycleReport.inRange (r : CycleReport) : Prop :=
  2048 ≤ r.period ∧ r.period ≤ 196607 ∧ r.peak ≤ 4095 ∧ (r.overload = true → r.peak = 4095)

/-- Cycle timing within its ranges (R13). -/
abbrev CycleTiming.inRange : CycleTiming → Prop
  | .waiting => True
  | .timing elapsed peak overload => elapsed ≤ 196608 ∧ peak ≤ 4095 ∧ (overload = true → peak = 4095)

/-- A Front End's values: the envelope scale (R2, R4), the crossing level (R12), the cycle queue (R15, R16), and a
CLOSED gate's detector, timing and queue (R7, R12). -/
abbrev FrontEnd.wf (f : FrontEnd) : Prop :=
  f.env ≤ 4095 ∧ f.level = f.env / 4 ∧ f.peak ≤ 4095 ∧ f.previous.natAbs ≤ 4095 ∧ f.timing.inRange
    ∧ f.queue.length ≤ 4 ∧ (∀ r ∈ f.queue, r.inRange)
    ∧ (f.gate = .closed → f.armed = false ∧ f.timing = .waiting ∧ f.queue = [])

/-- A Front End in its disabled condition, its marks aside (R20). -/
abbrev FrontEnd.atRest (f : FrontEnd) : Prop := f = { overloadMark := f.overloadMark, overrunMark := f.overrunMark }

/-- Every Front End is well formed, and a disabled string's is in its disabled condition (R20, R25). -/
abbrev State.frontEndsWf (σ : State) : Prop :=
  ∀ k : Str, (σ.frontEnds[k]).wf ∧ (maskHas σ.settings.enableMask k = false → (σ.frontEnds[k]).atRest)

/-! ## Pitch Unit -/

/-- The Pitch Unit is FREE only with no tenure used and no requester (R24, R26). -/
abbrev State.freeMeansIdle (σ : State) : Prop :=
  σ.pitchUnit.computation = none → σ.pitchUnit.tenureUsed = 0 ∧ ∀ k : Str, (σ.frontEnds[k]).queue = []

/-! ## Trackers -/

/-- The answers each request can have (R48). -/
def Request.admits : Request → Answer → Bool
  | .create _, .handle _ => true
  | .create _, _ => false
  | .succeed _, .handle _ => true
  | .succeed _, .notLive => true
  | .succeed _, .ok => false
  | _, .handle _ => false
  | _, _ => true

/-- A Tracker awaits the handle of the record it asked CREATE for (R48). -/
def Tracker.awaitsCreate (t : Tracker) : Bool :=
  match t.awaited with
  | some a =>
    match a.request with
    | .create _ => true
    | _ => false
  | none => false

/-- A Tracker awaits the handle of the record it asked SUCCEED for (R48). -/
def Tracker.awaitsSucceed (t : Tracker) : Bool :=
  match t.awaited with
  | some a =>
    match a.request with
    | .succeed _ => true
    | _ => false
  | none => false

/-- The items that a channel state leaves room for (R47, R51): a held step candidate in FORMING and TRACKING alone; a
first-pair raw pitch in ATTACK and BLEED alone, and always in BLEED; a pending predecessor in ATTACK, BLEED and MUTED
alone. -/
abbrev Tracker.roomWf (t : Tracker) : Prop :=
  (t.held.isSome → t.state = .forming ∨ t.state = .tracking)
    ∧ (t.firstPair.isSome → t.state = .attack ∨ t.state = .bleed)
    ∧ (t.state = .bleed → t.firstPair.isSome)
    ∧ (t.predecessor.isSome → t.state = .attack ∨ t.state = .bleed ∨ t.state = .muted)

/-- What is present in each channel state (R47): the live handle and the last-sent values in FORMING and TRACKING
alone, the live handle being absent while CREATE's answer is awaited; the committed values in BLEED, FORMING and
TRACKING alone; the stale timer running in FORMING and TRACKING alone; the other items where there is room for them.
SUCCEED's answer is awaited in TRACKING alone (R67). And an answer fits its request (R48), and inputs are deferred only
while an answer is awaited (R49). -/
abbrev Tracker.wf (t : Tracker) : Prop :=
  (t.lastSent.isSome ↔ t.state = .forming ∨ t.state = .tracking)
    ∧ (t.live.isSome → t.state = .forming ∨ t.state = .tracking)
    ∧ (t.state = .forming ∨ t.state = .tracking → t.live.isSome ∨ t.awaitsCreate = true)
    ∧ (t.awaitsCreate = true → t.state = .forming ∧ t.live = none)
    ∧ (t.awaitsSucceed = true → t.state = .tracking)
    ∧ (t.committed.isSome ↔ t.state = .bleed ∨ t.state = .forming ∨ t.state = .tracking)
    ∧ (t.staleTimer ≠ .stopped ↔ t.state = .forming ∨ t.state = .tracking)
    ∧ t.staleExpiries ≤ 1
    ∧ (∀ a ∈ t.awaited, ∀ r ∈ a.answer, a.request.admits r = true)
    ∧ (t.awaited = none → t.deferred = [])
    ∧ t.roomWf

/-! ## Note Table -/

/-- The Note Table's slots, handles and lists (R90, R93, R94): at most sixteen records, pairwise distinct handles from
1 to 255, a recency list that holds exactly the occupied records' handles, a counter from 1 to 255; and distinct serial
numbers below the number of records created (assumption log 8). -/
abbrev NoteTable.wf (t : NoteTable) : Prop :=
  t.records.length ≤ 16 ∧ t.handles.Nodup ∧ (∀ h ∈ t.handles, 1 ≤ h ∧ h ≤ 255) ∧ t.recency.Perm t.handles
    ∧ 1 ≤ t.nextHandle ∧ t.nextHandle ≤ 255
    ∧ (t.records.map (·.serial)).Nodup ∧ ∀ r ∈ t.records, r.serial < t.created

/-- An occupied record's reason is present exactly while it is RELEASED (R91), only a RELEASED record has a linger
timer running (R116), and its age is at most 65535 (R92). -/
abbrev Record.wf (r : Record) : Prop :=
  (r.image.reason.isSome ↔ r.image.state = .released) ∧ (r.linger ≠ .stopped → r.image.state = .released)
    ∧ r.image.age ≤ 65535

/-! ## Live records and links (R90, R100) -/

/-- The record that may be live on a Tracker's string: the one it holds, the one it has been answered about and not yet
taken, or the one whose RELEASE it has asked for (R48, R51). After NOT LIVE, and after a RELEASE answered, it is none. -/
def Tracker.owned (t : Tracker) : Option Nat :=
  match t.awaited with
  | none => t.live
  | some a =>
    match a.answer, a.request with
    | some (.handle h), _ => some h
    | some .notLive, _ => none
    | some .ok, .release _ _ => none
    | none, .release h _ => some h
    | _, _ => t.live

/-- A request awaited names the live handle, and a Tracker that has asked for a RELEASE holds none (R48, R51). -/
abbrev Tracker.asksOfLive (t : Tracker) : Prop :=
  ∀ a ∈ t.awaited,
    match a.request with
    | .create _ => True
    | .update u => t.live = some u.handle
    | .confirm h => t.live = some h
    | .release _ _ => t.live = none
    | .succeed q => t.live = some q.handle

/-- A forced-release message that names a handle is on its way to a Tracker, or deferred by it (R49, R113). -/
abbrev Tracker.toldOf (t : Tracker) (h : Nat) : Prop := h ∈ t.forced ∨ .forcedRelease h ∈ t.deferred

/-- A Tracker agrees with the table about its string: a live record on it is the one the Tracker owns, so there is at most
one (R90), and no forced-release message names it (R113). -/
abbrev Tracker.agreesWith (u : Tracker) (t : NoteTable) (k : Str) : Prop :=
  u.asksOfLive ∧ ∀ r ∈ t.records, r.image.string = k → r.image.state ≠ .released →
    u.owned = some r.image.handle ∧ ¬ u.toldOf r.image.handle

/-- Links come in pairs: a present predecessor or successor names an occupied record on the same string whose opposite
field names it back (R100); and a live record has no successor yet. -/
abbrev NoteTable.linked (t : NoteTable) : Prop :=
  ∀ r ∈ t.records,
    (∀ h ∈ r.image.predecessor, ∃ q ∈ t.records,
        q.image.handle = h ∧ q.image.string = r.image.string ∧ q.image.successor = some r.image.handle)
      ∧ (∀ h ∈ r.image.successor, ∃ q ∈ t.records,
        q.image.handle = h ∧ q.image.string = r.image.string ∧ q.image.predecessor = some r.image.handle)
      ∧ (r.image.state ≠ .released → r.image.successor = none)

/-- Every Tracker agrees with the table, and the table's links come in pairs. -/
abbrev State.livesWf (σ : State) : Prop := (∀ k : Str, (σ.trackers[k]).agreesWith σ.table k) ∧ σ.table.linked

/-! ## Settings Store and probe -/

/-- A value a setting's kind admits (R123, R128). -/
abbrev SettingKind.admits (v : Int) : SettingKind → Prop
  | .numeric lo hi => (lo : Int) ≤ v ∧ v ≤ hi
  | .signed lo hi => lo ≤ v ∧ v ≤ hi
  | .mask bits => 0 ≤ v ∧ v < 2 ^ bits
  | .enumeration codes => 0 ≤ v ∧ v < codes

/-- Every defined setting holds a value within its stated range (R128). -/
abbrev Settings.wf (k : Settings) : Prop :=
  ∀ n : Byte, ∀ i ∈ SettingId.ofNumber n, i.kind.admits (k.read i)

/-- The valid result slots are exactly those from the start slot up to the pointer minus 1 (R143). -/
abbrev Probe.slotsWf (p : Probe) : Prop := ∀ j : Fin 9, (p.slots[j]).isSome ↔ p.start ≤ j.val ∧ j.val < p.pointer

/-- The accumulators of deviations from −32 to +31 (R148, R149): each sum lies within the bounds its count gives, and
the least and greatest deviation are held exactly while the count is not 0. -/
abbrev Probe.sumsWf (p : Probe) : Prop :=
  -32 * (p.count : Int) ≤ p.sum ∧ p.sum ≤ 31 * (p.count : Int)
    ∧ -32 * (p.totalCount : Int) ≤ p.totalSum ∧ p.totalSum ≤ 31 * (p.totalCount : Int)
    ∧ (p.least.isSome ↔ 0 < p.count) ∧ (p.greatest.isSome ↔ 0 < p.count)

/-- The probe's measurement context (R143, R144): the pointer lies from the start slot to 9, the probe is IDLE whenever
the pointer is 9, a RUNNING probe has a string and a plan, the plan's sizes are multiples of 4 from 4 to 1024, and the
count has not reached the size of the slot being filled. -/
abbrev Probe.wf (p : Probe) : Prop :=
  p.start ≤ p.pointer ∧ p.pointer ≤ 9 ∧ (p.pointer = 9 → p.running = false)
    ∧ (p.running = true → p.string.isSome ∧ p.plan.isSome)
    ∧ (∀ q ∈ p.plan, (4 ≤ q.size0 ∧ q.size0 ≤ 1024 ∧ q.size0 % 4 = 0) ∧ (4 ≤ q.size1 ∧ q.size1 ≤ 1024 ∧ q.size1 % 4 = 0))
    ∧ (p.running = true → ∀ q ∈ p.plan, p.count < q.sizeOf p.pointer)
    ∧ p.slotsWf ∧ p.sumsWf

/-! ## Values on their way into records (R91) -/

/-- The ranges of what is written into a record (R91). -/
abbrev recordRange (note : Nat) (bend : Int) (velocity level : Nat) : Prop :=
  note ≤ 127 ∧ -1536 ≤ bend ∧ bend ≤ 1536 ∧ 1 ≤ velocity ∧ velocity ≤ 127 ∧ level ≤ 127

/-- The ranges of what a record captures (R91). -/
abbrev captureRange (transpose : Int) (bendRange : Nat) : Prop :=
  -24 ≤ transpose ∧ transpose ≤ 24 ∧ 1 ≤ bendRange ∧ bendRange ≤ 24

/-- A request whose contents lie within the ranges of a record's fields. -/
abbrev Request.inRange : Request → Prop
  | .create c => recordRange c.note c.bend c.velocity c.level ∧ captureRange c.transpose c.bendRange
  | .update u => recordRange u.note u.bend 1 u.level
  | .succeed q => recordRange q.note q.bend q.velocity q.level
  | .confirm _ | .release _ _ => True

/-- A Tracker whose last-sent values, awaited request and deferred results lie within range. -/
abbrev Tracker.inRange (t : Tracker) : Prop :=
  (∀ v ∈ t.lastSent, recordRange v.note v.bend 1 v.level ∧ captureRange v.transpose v.bendRange)
    ∧ (∀ a ∈ t.awaited, a.request.inRange)
    ∧ (∀ i ∈ t.deferred, match i with | .result r => r.level ≤ 127 | _ => True)

/-- A record whose fields lie within their ranges (R91). -/
abbrev Image.inRange (i : Image) : Prop :=
  recordRange i.note i.bend i.velocity i.level ∧ captureRange i.transpose i.bendRange

/-- Every record's fields, and every Tracker's values, lie within their ranges (R91). -/
abbrev State.valuesInRange (σ : State) : Prop :=
  (∀ r ∈ σ.table.records, r.image.inRange) ∧ ∀ k : Str, (σ.trackers[k]).inRange

/-- A bend no further than 64 times a bend range (R91). -/
abbrev bendWithin (bend : Int) (range : Nat) : Prop := bend.natAbs ≤ 64 * range

/-- The bends that a Tracker has sent and that it asks for lie within the bend range of the record they are for: that of
the last-sent values (R47, assumption log 19); for a record to be made, its own. A SUCCEED's bend lies within any range. -/
abbrev Tracker.bendsWf (t : Tracker) : Prop :=
  (∀ v ∈ t.lastSent, bendWithin v.bend v.bendRange)
    ∧ ∀ a ∈ t.awaited,
      match a.request with
      | .create c => bendWithin c.bend c.bendRange ∧ ∀ v ∈ t.lastSent, v.bendRange = c.bendRange
      | .update u => ∀ v ∈ t.lastSent, bendWithin u.bend v.bendRange
      | .succeed q => bendWithin q.bend 1
      | .confirm _ | .release _ _ => True

/-- A live record on a Tracker's string has the bend range that the Tracker remembers (R50). -/
abbrev Tracker.rangesWith (u : Tracker) (t : NoteTable) (k : Str) : Prop :=
  ∀ r ∈ t.records, r.image.string = k → r.image.state ≠ .released → ∀ v ∈ u.lastSent, r.image.bendRange = v.bendRange

/-- Every record's bend is within its bend range (R91), and every Tracker's bends are such that it stays so. -/
abbrev State.bendsWf (σ : State) : Prop :=
  (∀ r ∈ σ.table.records, bendWithin r.image.bend r.image.bendRange)
    ∧ ∀ k : Str, (σ.trackers[k]).bendsWf ∧ (σ.trackers[k]).rangesWith σ.table k

/-! ## Control Link, Notice and Fault Unit -/

/-- The posted buffer and the notice queue hold no more than they can (R162, R179), only a command in the buffer has its
effects in place (R163), and that is no RESTART (R173), and a notice is on its way to the unit only then (R163). -/
abbrev State.queuesWf (σ : State) : Prop :=
  σ.link.buffer.length ≤ 8 ∧ σ.notices.queue.length ≤ 32 ∧ (σ.link.applied = true → σ.link.buffer ≠ [])
    ∧ (σ.link.applied = true → σ.link.buffer.head? ≠ some .restart) ∧ (σ.notices.coming ≠ [] → σ.link.applied = true)

/-! ## Hard reset -/

/-- While the part is held in hard reset, every block holds its hard-reset values, and the link waits to see CSN high
(R174, R186). -/
abbrev State.heldWf (σ : State) : Prop :=
  σ.inReset = true →
    σ = { State.reset with
          link := { csnLow := σ.link.csnLow, phase := if σ.link.csnLow then .awaitHigh else .idle }
          inReset := true
          resets := σ.resets
          pending := σ.pending }

end Sys2Proof.Machine
end

