-- ==== Sys2Proof/Certificates/Slice0/Obligations.lean ====
section
/-! DEFINITION. The statements for the provers: what the part does at each command, and what stays true of it. The
number of string `k` on the link is `k.val + 1`. A next state written as a change of `s` says what the command leaves
unchanged as well: everything the change does not name. -/

open Sys2Proof Sys2Proof.Machine

/-! ## The queue of commands and the resets -/

/-- A step takes the command at the front of the queue; with no command waiting the part idles (the model's own choice,
assumption logs 1 and 3). -/
def Obligations.StepTakesTheFrontCommand : Prop :=
  (∀ (c : Instr) (rest : List Instr) (s : State),
      step { s with pending := c :: rest } = exec c { s with pending := rest })
    ∧ ∀ s : State, s.pending = [] → step s = .next s

/-- No command stops the part, and none touches the queue of commands (the model's own, assumption log 1). -/
def Obligations.EveryCommandCompletes : Prop :=
  ∀ (c : Instr) (s : State), ∃ t : State, exec c s = .next t ∧ t.pending = s.pending

/-- HARD_RESET puts every block at its hard-reset values and holds the part; HARD_RESET_END lets it go; and while the
part is held no command but these two and the two edges of CSN does anything. The level of CSN is the controller's, and
a CSN held low makes the link wait to see it high. The values that no rule names (assumption log 6), the serial and
running numbers (logs 8 and 20) and the count of resets (log 35) are the model's choice. -/
def Obligations.HardResetHoldsThePart : Prop :=
  ((∀ s : State, exec .hardReset s = .next
      { frontEnds := Vector.replicate 8 {}
        pitchUnit := {}
        trackers := Vector.ofFn fun k => if k.val < 6 then { state := .quiet } else { state := .off }
        table := {}
        settings := {}
        probe := {}
        link := { csnLow := s.link.csnLow, phase := if s.link.csnLow then .awaitHigh else .idle }
        notices := {}
        inReset := true
        resets := s.resets + 1
        pending := s.pending })
    ∧ (∀ s : State, exec .hardResetEnd s = .next { s with inReset := false })
    ∧ ∀ s : State, s.link.csnLow = false →
        ∃ t : State, exec .hardReset s = .next t
          ∧ exec .hardResetEnd t = .next { State.reset with pending := s.pending, resets := s.resets + 1 })
    ∧ (∀ (c : Instr) (s : State), s.inReset = true → c ≠ .hardReset → c ≠ .hardResetEnd → c ≠ .frameStart →
    (∀ n, c ≠ .frameEnd n) → exec c s = .next s)

/-- The values the state after a reset holds, block by block, and the default of every setting by its number. The values
of the previous sample, the crossing level and the running peak, and of the status byte, are the model's choice
(assumption log 6), and so are CSN high (log 4), the serial and running numbers (logs 8 and 20), no notice on its way
(log 31), no entry to FORMING noted (log 34), the counts of bleed tests and of resets (log 35) and the empty queue. -/
def Obligations.ResetLeavesTheNamedValues : Prop :=
  ((∀ k : Str, State.reset.frontEnds[k] =
      { env := 0, gate := .closed, onsetCount := 0, releaseCount := 0, envHi := 0, envLo := 0, level := 0
        armed := false, previous := 0, peak := 0, timing := .waiting, queue := [], overloadMark := false
        overrunMark := false })
    ∧ State.reset.pitchUnit = { computation := none, tenureUsed := 0, lastGranted := 7, refTerm := 18063 }
    ∧ (∀ k : Str, State.reset.trackers[k] =
        { state := if k.val < 6 then .quiet else .off, live := none, lastSent := none, committed := none
          firstPair := none, peakMax := 0, held := none, confirmCount := 0, staleTimer := .stopped, staleRun := 0
          staleExpiries := 0, adopted := .A, predecessor := none, awaited := none, deferred := [], events := []
          forced := [], enables := [], passed := [], tests := 0, entry := none })
    ∧ State.reset.table = { records := [], recency := [], nextHandle := 1, created := 0 }
    ∧ State.reset.probe =
        { running := false, string := none, start := 9, pointer := 9, plan := none, sum := 0, count := 0, least := none
          greatest := none, totalSum := 0, totalCount := 0, slots := Vector.replicate 9 none }
    ∧ State.reset.link = { csnLow := false, phase := .idle, status := 0#8, buffer := [], applied := false }
    ∧ State.reset.notices =
        { queue := [], overload := false, overrun := false, noticeLoss := false, refused := false, frame := false
          lastRefusal := none, coming := [] }
    ∧ State.reset.inReset = false ∧ State.reset.resets = 0 ∧ State.reset.pending = [] ∧ State.reset.attn = false)
    ∧ (let holds (number : Nat) (value : Int) : Prop :=
    (SettingId.ofNumber (BitVec.ofNat 8 number)).map State.reset.settings.read = some value
  (∀ x ∈ ([(0x00, 0x3F), (0x01, 4400), (0x02, 100), (0x03, 20), (0x04, 2), (0x05, 2), (0x06, 24), (0x07, 40), (0x08, 2),
        (0x09, 2), (0x0A, 8), (0x0B, 12), (0x0C, 16), (0x0D, 4), (0x0E, 1), (0x0F, 0x1FF), (0x10, 0x05), (0x20, 0),
        (0x21, 127), (0x22, 0xFF), (0x23, 127), (0x24, 0), (0x25, 0xFF), (0x26, 127), (0x27, 0), (0x28, 0xFF),
        (0x29, 127), (0x2A, 0), (0x2B, 0xFF)] : List (Nat × Int)), holds x.1 x.2)
    ∧ (∀ k : Str, holds (0x40 + 4 * k.val) 256 ∧ holds (0x41 + 4 * k.val) 96 ∧ holds (0x42 + 4 * k.val) 32
        ∧ holds (0x43 + 4 * k.val) 0)
    ∧ (∀ k : Str, ∀ base ∈ [0x80, 0xA0], holds (base + 4 * k.val) 0 ∧ holds (base + 1 + 4 * k.val) 2
        ∧ holds (base + 2 + 4 * k.val) 0 ∧ holds (base + 3 + 4 * k.val) 0)
    ∧ State.reset.settings.selected = .A)

/-- RESTART at the head of the posted buffer returns every block but the settings and the link to its values after a
restart and leaves the buffer, in one change; the commands behind it stay, and where there are none a snapshot that waited
for it is taken of the restarted part; the reference term and the Trackers' states follow from the settings kept. That the
previous sample, the crossing level and the running peak become 0, which R22 does not name, is the model's choice
(assumption log 6), and so are the serial and running numbers (logs 8 and 20) and the count of resets (log 35). -/
def Obligations.RestartKeepsTheSettings : Prop :=
  ∀ (s : State) (rest : List Posted), s.inReset = false → s.link.applied = false → s.link.buffer = .restart :: rest →
    let restarted : State :=
      { s with
        frontEnds := Vector.replicate 8 {}
        pitchUnit := { refTerm := 27358 - (log768 s.settings.reference : Int) }
        trackers := Vector.ofFn fun k =>
          { state := if maskHas s.settings.enableMask k then .quiet else .off, adopted := s.settings.selected }
        table := {}
        probe := {}
        notices := {}
        link := { s.link with buffer := rest, applied := false }
        resets := s.resets + 1 }
    (rest ≠ [] ∨ (∀ q, s.link.phase ≠ .waiting q) → exec .restart s = .next restarted)
      ∧ ∀ q : Query, rest = [] → s.link.phase = .waiting q →
        exec .restart s = exec q.command restarted ∧ ∃ t : State, exec q.command restarted = .next t

/-! ## String Front End -/

/-- A sample that ends no cycle: of a disabled string, of a CLOSED gate, without a crossing, or with the crossing that
starts the first cycle. -/
def Obligations.SampleThatEndsNoCycle : Prop :=
  ∀ (s : State) (k : Str) (v : Int), s.inReset = false → -4095 ≤ v → v ≤ 4095 →
    let f := s.frontEnds[k]
    let full := decide (v.natAbs = 4095)
    let crosses : Prop := f.armed = true ∧ f.previous < f.level ∧ (f.level : Int) ≤ v
    let ticks := ((128 * ((f.level : Int) - f.previous)) / (v - f.previous)).toNat
    let noted (g : FrontEnd) : State :=
      { s with
        frontEnds := s.frontEnds.set k
          { g with peak := max f.peak v.natAbs, previous := v, overloadMark := f.overloadMark || full }
        notices := if full then s.notices.report s.settings.noticeEnables .overload (BitVec.ofNat 8 (k.val + 1))
          else s.notices }
    (maskHas s.settings.enableMask k = false → exec (.sample k v) s = .next s)
      ∧ (maskHas s.settings.enableMask k = true → f.gate = .closed → exec (.sample k v) s = .next (noted f))
      ∧ (maskHas s.settings.enableMask k = true → f.gate = .opened → ¬ crosses →
          exec (.sample k v) s = .next (noted
            { f with
              armed := f.armed || decide (v < -(f.level : Int))
              timing := match f.timing with
                | .waiting => .waiting
                | .timing e p o => .timing (min (e + 128) 196608) (max p v.natAbs) (o || full) }))
      ∧ (maskHas s.settings.enableMask k = true → f.gate = .opened → crosses → f.timing = .waiting →
          exec (.sample k v) s = .next (noted { f with armed := false, timing := .timing (128 - ticks) 0 false }))

/-- An armed rising crossing that ends a cycle: the cycle's report joins the string's queue if its period lies within
the limits, on a full queue the oldest report is lost, and a FREE Pitch Unit takes the report at once. Where the sample is
a full-scale sample and its report overruns the queue too, OVERLOAD is reported before OVERRUN: no rule orders the two,
and the order is the model's choice (assumption log 16). -/
def Obligations.CrossingEndsACycle : Prop :=
  ∀ (s : State) (k : Str) (v : Int) (e p : Nat) (o : Bool), s.inReset = false → -4095 ≤ v → v ≤ 4095 →
    maskHas s.settings.enableMask k = true → (s.frontEnds[k]).gate = .opened → (s.frontEnds[k]).armed = true →
    (s.frontEnds[k]).previous < (s.frontEnds[k]).level → ((s.frontEnds[k]).level : Int) ≤ v →
    (s.frontEnds[k]).timing = .timing e p o →
    let f := s.frontEnds[k]
    let full := decide (v.natAbs = 4095)
    let ticks := ((128 * ((f.level : Int) - f.previous)) / (v - f.previous)).toNat
    let report : CycleReport := { period := e + ticks, peak := max p v.natAbs, overload := o || full }
    let detail : Byte := BitVec.ofNat 8 (k.val + 1)
    let noted : FrontEnd :=
      { f with
        peak := max f.peak v.natAbs, previous := v, overloadMark := f.overloadMark || full, armed := false
        timing := .timing (128 - ticks) 0 false }
    let told := if full then s.notices.report s.settings.noticeEnables .overload detail else s.notices
    let good : Prop := 2048 ≤ e + ticks ∧ e + ticks < 196608
    (¬ good → exec (.sample k v) s = .next { s with frontEnds := s.frontEnds.set k noted, notices := told })
      ∧ (good → s.pitchUnit.computation.isSome → f.queue.length < 4 →
          exec (.sample k v) s = .next
            { s with frontEnds := s.frontEnds.set k { noted with queue := f.queue ++ [report] }, notices := told })
      ∧ (good → s.pitchUnit.computation.isSome → 4 ≤ f.queue.length →
          exec (.sample k v) s = .next
            { s with
              frontEnds := s.frontEnds.set k { noted with queue := f.queue.drop 1 ++ [report], overrunMark := true }
              notices := told.report s.settings.noticeEnables .overrun detail })
      ∧ (good → s.pitchUnit.computation = none → (∀ j : Str, (s.frontEnds[j]).queue = []) →
          exec (.sample k v) s = .next
            { s with
              frontEnds := s.frontEnds.set k { noted with queue := [] }
              notices := told
              pitchUnit :=
                { s.pitchUnit with
                  computation := some
                    { string := k, report := report, refTerm := s.pitchUnit.refTerm
                      gain := (s.settings.physical[k]).gain, offset := (s.settings.physical[k]).offset
                      committed := if (s.trackers[k]).state = .tracking then (s.trackers[k]).committed.map (·.period)
                        else none
                      shift := if (s.trackers[k]).state = .tracking ∧ (s.trackers[k]).committed.isSome
                        then s.settings.smoothingShift else 0 }
                  tenureUsed := 1
                  lastGranted := k } })

/-- At a millisecond tick with the gate CLOSED, the envelope follows its peak and the onset rule acts on it. -/
def Obligations.OnsetOpensTheGate : Prop :=
  ∀ (s : State) (k : Str), s.inReset = false → maskHas s.settings.enableMask k = true →
    (s.frontEnds[k]).gate = .closed →
    let f := s.frontEnds[k]
    let env := max f.peak (f.env * 15 / 16)
    let count := if (s.settings.physical[k]).onset ≤ env then f.onsetCount + 1 else 0
    ∃ t : State, exec .millisecondTick s = .next t
      ∧ (s.settings.onsetConfirm ≤ count →
          t.frontEnds[k] =
              { f with
                env := env, level := env / 4, peak := 0, gate := .opened, onsetCount := 0, releaseCount := 0
                envHi := env, envLo := env, armed := false, timing := .waiting }
            ∧ (t.trackers[k]).events = (s.trackers[k]).events ++ [.onset])
      ∧ (count < s.settings.onsetConfirm →
          t.frontEnds[k] = { f with env := env, level := env / 4, peak := 0, onsetCount := count }
            ∧ (t.trackers[k]).events = (s.trackers[k]).events)

/-- At a millisecond tick with the gate OPEN, the release rule acts on the new envelope; when the count reaches the
release confirm ticks the gate closes and the string's work is abandoned. Where the gate stays OPEN, the restrike detector
takes the new envelope and then tests it. -/
def Obligations.OpenGateClosesOrRestrikes : Prop :=
  (∀ (s : State) (k : Str), s.inReset = false → maskHas s.settings.enableMask k = true →
    (s.frontEnds[k]).gate = .opened →
    let f := s.frontEnds[k]
    let g := s.settings.physical[k]
    let env := max f.peak (f.env * 15 / 16)
    let count := if env < min g.release (g.onset - 1) then f.releaseCount + 1 else 0
    ∃ t : State, exec .millisecondTick s = .next t
      ∧ (s.settings.releaseConfirm ≤ count →
          t.frontEnds[k] =
              { f with
                env := env, level := env / 4, peak := 0, gate := .closed, onsetCount := 0, releaseCount := 0
                armed := false, timing := .waiting, queue := [] }
            ∧ (t.trackers[k]).events = (s.trackers[k]).events ++ [.release])
      ∧ (count < s.settings.releaseConfirm →
          (t.frontEnds[k]).gate = .opened ∧ (t.frontEnds[k]).env = env ∧ (t.frontEnds[k]).releaseCount = count))
    ∧ (∀ (s : State) (k : Str), s.inReset = false → maskHas s.settings.enableMask k = true →
    (s.frontEnds[k]).gate = .opened →
    let f := s.frontEnds[k]
    let g := s.settings.physical[k]
    let env := max f.peak (f.env * 15 / 16)
    let count := if env < min g.release (g.onset - 1) then f.releaseCount + 1 else 0
    let hi := max f.envHi env
    let lo := if f.envHi < env then env else min f.envLo env
    let base := { f with env := env, level := env / 4, peak := 0, releaseCount := count }
    count < s.settings.releaseConfirm →
    ∃ t : State, exec .millisecondTick s = .next t
      ∧ (g.onset ≤ env ∧ lo * s.settings.restrikeRatio ≤ env * 8 →
          t.frontEnds[k] = { base with envHi := env, envLo := env }
            ∧ (t.trackers[k]).events = (s.trackers[k]).events ++ [.restrike])
      ∧ (¬ (g.onset ≤ env ∧ lo * s.settings.restrikeRatio ≤ env * 8) →
          t.frontEnds[k] = { base with envHi := hi, envLo := lo }
            ∧ (t.trackers[k]).events = (s.trackers[k]).events)
      ∧ (9 ≤ s.settings.restrikeRatio → f.envHi < env → ¬ lo * s.settings.restrikeRatio ≤ env * 8))

/-- A millisecond tick advances every stale timer, every record's age and every linger timer by one, leaves a disabled
string's Front End alone, and changes nothing else. An expiry reached stays until it is taken (assumption log 26). -/
def Obligations.TickAdvancesEveryTimer : Prop :=
  ∀ s : State, s.inReset = false →
    ∃ t : State, exec .millisecondTick s = .next t
      ∧ t = { s with frontEnds := t.frontEnds, trackers := t.trackers, table := t.table }
      ∧ (∀ k : Str, t.trackers[k] =
          { s.trackers[k] with
            events := (t.trackers[k]).events
            staleTimer := match (s.trackers[k]).staleTimer with
              | .running n => .running (n - 1)
              | .taken => .taken
              | .stopped => .stopped })
      ∧ (∀ k : Str, maskHas s.settings.enableMask k = false →
          t.frontEnds[k] = s.frontEnds[k] ∧ (t.trackers[k]).events = (s.trackers[k]).events)
      ∧ t.table = { s.table with
          records := s.table.records.map fun r =>
            { r with
              image := { r.image with age := min (r.image.age + 1) 65535 }
              linger := match r.linger with
                | .running n => .running (n - 1)
                | .stopped => .stopped } }

/-! ## Pitch Unit and arithmetic -/

/-- The table G: its formula, 768 × log2(1 + j / 256) rounded half up, written in whole numbers; the entries printed with
the rule; and the step from each entry to the next. Then LOG768 over its domain: its interpolation, its bounds, exactly
768 more for each doubling, and no decrease as its argument grows. Entry 181 is the printed one, 592, where the formula
gives 592.504 (the model's choice, assumption log 29). -/
def Obligations.LogarithmFollowsItsTable : Prop :=
  (logTable.length = 257
    ∧ (∀ j : Fin 257, j.val ≠ 181 →
        2 ^ (2 * logEntry j.val) * 256 ^ 1536 ≤ 2 * (256 + j.val) ^ 1536
          ∧ (256 + j.val) ^ 1536 < 2 ^ (2 * logEntry j.val + 1) * 256 ^ 1536)
    ∧ (∀ x ∈ ([(0, 0), (1, 4), (2, 9), (3, 13), (4, 17), (19, 79), (20, 83), (21, 87), (44, 176), (127, 446), (128, 449),
          (178, 585), (179, 587), (180, 590), (181, 592), (244, 742), (255, 766), (256, 768)] : List (Nat × Nat)),
        logEntry x.1 = x.2)
    ∧ ∀ j : Fin 256, logEntry j.val + 2 ≤ logEntry (j.val + 1) ∧ logEntry (j.val + 1) ≤ logEntry j.val + 5)
    ∧ ((∀ V : Nat, 2048 ≤ V → V ≤ 4194303 →
      let b := Nat.log2 V
      let m := if b ≤ 15 then V * 2 ^ (15 - b) else V / 2 ^ (b - 15)
      let i := (m - 32768) / 128
      let r := (m - 32768) - 128 * i
      32768 ≤ m ∧ m ≤ 65535 ∧ i ≤ 255 ∧ r ≤ 127
        ∧ log768 V = 768 * b + (logEntry i + ((logEntry (i + 1) - logEntry i) * r + 64) / 128)
        ∧ 8448 ≤ log768 V ∧ log768 V ≤ 16896)
    ∧ (∀ V : Nat, 2048 ≤ V → V ≤ 2097151 → log768 (2 * V) = log768 V + 768)
    ∧ ∀ V W : Nat, 2048 ≤ V → V ≤ W → W ≤ 4194303 → log768 V ≤ log768 W)

/-- The raw pitch of a cycle, its range over every period and every reference term of the part, the cycles at which the
ends are reached, and the octave between a period and its half; and the reference term of every reference setting, the
four of the rule's table, and its range. -/
def Obligations.RawPitchOfACycle : Prop :=
  ((∀ (R : Int) (T : Nat), rawPitchOf R T = R - (log768 (16 * T) : Int))
    ∧ (∀ T : Nat, 2048 ≤ T → T ≤ 196607 → 32768 ≤ 16 * T ∧ 16 * T ≤ 3145712)
    ∧ (∀ (R : Int) (T : Nat), 17966 ≤ R → R ≤ 18168 → 2048 ≤ T → T ≤ 196607 →
        1389 ≤ rawPitchOf R T ∧ rawPitchOf R T ≤ 6648)
    ∧ log768 (16 * 196607) = 16577 ∧ rawPitchOf 17966 196607 = 1389
    ∧ log768 (16 * 2048) = 11520 ∧ rawPitchOf 18168 2048 = 6648
    ∧ ∀ (R : Int) (T : Nat), 2048 ≤ T → T ≤ 98303 → rawPitchOf R T = rawPitchOf R (2 * T) + 768)
    ∧ ((∀ a : Nat, referenceTerm a = 27358 - (log768 a : Int))
    ∧ referenceTerm 4000 = 18168 ∧ referenceTerm 4400 = 18063 ∧ referenceTerm 4420 = 18058
    ∧ referenceTerm 4800 = 17966
    ∧ ∀ a : Nat, 4000 ≤ a → a ≤ 4800 → 17966 ≤ referenceTerm a ∧ referenceTerm a ≤ 18168)

/-- The smoothing filter: the candidate period from the committed period and the shift, 16 × T where no committed
period is used; the adjustment has the sign of the difference and does not exceed it, so that the candidate lies
between the committed period and 16 × T and in their range. -/
def Obligations.SmoothingFilterMovesTowardTheCycle : Prop :=
  (∀ k T : Nat, candidatePeriodOf none k T = 16 * T)
    ∧ ∀ (c k T : Nat), 32768 ≤ c → c ≤ 3145712 → k ≤ 3 → 2048 ≤ T → T ≤ 196607 →
      let d := 16 * (T : Int) - c
      let adj := if k = 0 then d else (d + 2 ^ (k - 1)) / 2 ^ k
      (candidatePeriodOf (some c) k T : Int) = c + adj
        ∧ (0 ≤ d → 0 ≤ adj ∧ adj ≤ d) ∧ (d ≤ 0 → d ≤ adj ∧ adj ≤ 0)
        ∧ min c (16 * T) ≤ candidatePeriodOf (some c) k T ∧ candidatePeriodOf (some c) k T ≤ max c (16 * T)
        ∧ 32768 ≤ candidatePeriodOf (some c) k T ∧ candidatePeriodOf (some c) k T ≤ 3145712

/-- From pitch to note: the output pitch and its clamp, the nearest note with its ties upward and its cap, the bend of a
nearest note, and velocity and level within their ranges; and the two comparisons, the octave-folded distance and the
deviation from the nearest note position. -/
def Obligations.FiguresDerivedFromPitchAndPeak : Prop :=
  ((∀ pf offset transpose : Int, outputPitch pf offset transpose =
      if pf + offset + 64 * transpose < 0 then 0
      else if 8191 < pf + offset + 64 * transpose then 8191 else pf + offset + 64 * transpose)
    ∧ (∀ p : Int, 0 ≤ p → p ≤ 8191 →
        (nearestNote p : Int) = min 127 ((p + 32) / 64) ∧ nearestNote p ≤ 127
          ∧ bendFrom p (nearestNote p) = p - 64 * (nearestNote p : Int)
          ∧ -32 ≤ bendFrom p (nearestNote p) ∧ bendFrom p (nearestNote p) ≤ 63
          ∧ (32 ≤ bendFrom p (nearestNote p) → nearestNote p = 127))
    ∧ (∀ n : Nat, n < 127 → nearestNote (64 * (n : Int) + 32) = n + 1)
    ∧ (∀ A gain : Nat, velocityOf A gain = if A * gain / 1024 < 1 then 1 else min 127 (A * gain / 1024))
    ∧ (∀ a gain : Nat, levelOf a gain true = 127 ∧ levelOf a gain false = min 127 (a * gain / 1024)))
    ∧ ((∀ p q : Int, foldedDistance p q = min ((p - q).natAbs % 768) (768 - (p - q).natAbs % 768)
      ∧ foldedDistance p q ≤ 384 ∧ foldedDistance p q = foldedDistance q p
      ∧ (foldedDistance p q = 0 ↔ (768 : Int) ∣ p - q))
    ∧ ∀ p : Int, deviationOf p = p - 64 * ((p + 32) / 64) ∧ -32 ≤ deviationOf p ∧ deviationOf p ≤ 31
      ∧ (64 : Int) ∣ p - deviationOf p)

/-- The next grant goes to the first URGENT requester in round-robin order after the last-granted string, or else to
the first NORMAL one. -/
def Obligations.GrantGoesToTheFirstUrgentRequester : Prop :=
  ∀ (s : State) (t : Str),
    let asks (u : Str) : Prop := (s.frontEnds[u]).queue ≠ []
    let urgent (u : Str) : Prop :=
      (s.trackers[u]).state = .attack ∨ (s.trackers[u]).state = .bleed ∨ (s.trackers[u]).state = .forming
    let place (u : Str) : Nat := (u - s.pitchUnit.lastGranted - 1).val
    s.nextGranted = some t ↔
      asks t ∧ (urgent t ∨ ∀ u, asks u → ¬ urgent u) ∧ ∀ u, asks u → (urgent u ↔ urgent t) → place t ≤ place u

/-- TRACKER_RESULT hands the result of the computation in flight to its string's Tracker: every item of the result by
its formula, deferred while an answer is awaited, and discarded in OFF, QUIET and MUTED. That the result is handed over
as a step of its own is the model's choice (assumption log 10). -/
def Obligations.ResultReachesItsTracker : Prop :=
  ∀ (s : State) (c : Computation), s.inReset = false → s.pitchUnit.computation = some c → c.handed = false →
    let t := s.trackers[c.string]
    let candidate := candidatePeriodOf c.committed c.shift c.report.period
    let result : PitchResult :=
      { period := c.report.period
        peak := c.report.peak
        overload := c.report.overload
        rawPitch := c.refTerm - (log768 (16 * c.report.period) : Int)
        candidatePeriod := candidate
        smoothedPitch := c.refTerm - (log768 candidate : Int)
        level := if c.report.overload then 127 else min 127 (c.report.peak * c.gain / 1024)
        offset := c.offset }
    let unit := { s.pitchUnit with computation := some { c with handed := true } }
    (t.awaited.isSome →
        exec (.trackerResult c.string) s = .next
          { s with
            pitchUnit := unit
            trackers := s.trackers.set c.string { t with deferred := t.deferred ++ [.result result] } })
      ∧ (t.awaited = none → t.state = .off ∨ t.state = .quiet ∨ t.state = .muted →
          exec (.trackerResult c.string) s = .next { s with pitchUnit := unit })
      ∧ ∀ k : Str, k ≠ c.string → exec (.trackerResult k) s = .next s

/-- COMPUTATION_COMPLETE after the result has been handed over: the holder continues, or the unit becomes FREE, or the
next grant is decided. A result not handed over yet is handed over first (assumption log 10). -/
def Obligations.CompletionContinuesOrGrantsAnew : Prop :=
  ∀ (s : State) (c : Computation), s.inReset = false → s.pitchUnit.computation = some c →
    let asks (u : Str) : Prop := (s.frontEnds[u]).queue ≠ []
    let urgent (u : Str) : Prop :=
      (s.trackers[u]).state = .attack ∨ (s.trackers[u]).state = .bleed ∨ (s.trackers[u]).state = .forming
    let continues : Prop :=
      asks c.string ∧ s.pitchUnit.tenureUsed < s.settings.tenure ∧ (urgent c.string ∨ ∀ u, asks u → ¬ urgent u)
    let begun (u : Str) (r : CycleReport) (rest : List CycleReport) (tenure : Nat) : State :=
      { s with
        frontEnds := s.frontEnds.set u { s.frontEnds[u] with queue := rest }
        pitchUnit :=
          { s.pitchUnit with
            computation := some
              { string := u, report := r, refTerm := s.pitchUnit.refTerm
                gain := (s.settings.physical[u]).gain, offset := (s.settings.physical[u]).offset
                committed := if (s.trackers[u]).state = .tracking then (s.trackers[u]).committed.map (·.period) else none
                shift := if (s.trackers[u]).state = .tracking ∧ (s.trackers[u]).committed.isSome
                  then s.settings.smoothingShift else 0 }
            tenureUsed := tenure
            lastGranted := u } }
    (c.handed = false → ∀ t, exec (.trackerResult c.string) s = .next t →
        exec .computationComplete s = exec .computationComplete t)
      ∧ (c.handed = true → continues → ∀ r rest, (s.frontEnds[c.string]).queue = r :: rest →
          exec .computationComplete s = .next (begun c.string r rest (s.pitchUnit.tenureUsed + 1)))
      ∧ (c.handed = true → ¬ continues → (∀ u, ¬ asks u) →
          exec .computationComplete s = .next
            { s with pitchUnit := { s.pitchUnit with computation := none, tenureUsed := 0 } })
      ∧ (c.handed = true → ¬ continues → ∀ u r rest, s.nextGranted = some u → (s.frontEnds[u]).queue = r :: rest →
          exec .computationComplete s = .next (begun u r rest 1))

/-! ## String Tracker -/

/-- A result in ATTACK or BLEED: the peak maximum grows; the first raw pitch is held, a disagreeing one replaces it, and
a consistent pair leads to BLEED or, where the test is clear, to CREATE and FORMING. That an entry from ATTACK is noted
and bleed tests are counted is the model's choice (assumption logs 34 and 35). -/
def Obligations.PairSearchLeadsToBleedOrCreate : Prop :=
  ∀ (s : State) (c : Computation), s.inReset = false → s.pitchUnit.computation = some c → c.handed = false →
    (s.trackers[c.string]).awaited = none →
    (s.trackers[c.string]).state = .attack ∨ (s.trackers[c.string]).state = .bleed →
    let k := c.string
    let r := c.result
    let t := { s.trackers[k] with peakMax := max (s.trackers[k]).peakMax r.peak }
    let after (u : Tracker) : State :=
      { s with
        pitchUnit := { s.pitchUnit with computation := some { c with handed := true } }
        trackers := s.trackers.set k u }
    let musical := s.settings.musical s.settings.selected k
    let pout := outputPitch r.rawPitch r.offset musical.transpose
    let note := nearestNote pout
    let handedOver : State := { s with pitchUnit := { s.pitchUnit with computation := some { c with handed := true } } }
    (t.firstPair = none → exec (.trackerResult k) s = .next (after { t with firstPair := some r.rawPitch }))
      ∧ ∀ held : Int, t.firstPair = some held →
        (s.settings.onsetTolerance < (r.rawPitch - held).natAbs →
            exec (.trackerResult k) s = .next (after { t with firstPair := some r.rawPitch }))
          ∧ ((r.rawPitch - held).natAbs ≤ s.settings.onsetTolerance → handedOver.bleedTest k t r.rawPitch = true →
            exec (.trackerResult k) s = .next (after
              { t with
                state := .bleed, committed := some { period := 16 * r.period, pitch := r.rawPitch }
                firstPair := some r.rawPitch
                tests := t.tests + 1 }))
          ∧ ((r.rawPitch - held).natAbs ≤ s.settings.onsetTolerance → handedOver.bleedTest k t r.rawPitch = false →
            exec (.trackerResult k) s = .next (after
              { t with
                adopted := s.settings.selected
                state := .forming
                committed := some { period := 16 * r.period, pitch := r.rawPitch }
                held := none
                firstPair := none
                confirmCount := 0
                predecessor := none
                staleTimer := .running (s.settings.stale * 5)
                staleRun := t.staleRun + 1
                staleExpiries := 0
                tests := t.tests + 1
                entry := if t.state = .attack then some handedOver.newEntry else none
                lastSent := some
                  { note := note, bend := pout - 64 * (note : Int), level := r.level, saturated := false
                    transpose := musical.transpose, bendRange := musical.bendRange }
                awaited := some
                  { request := .create
                      { note := note, bend := pout - 64 * (note : Int)
                        velocity := velocityOf t.peakMax (s.settings.physical[k]).gain, level := r.level
                        profile := s.settings.selected, transpose := musical.transpose
                        bendRange := musical.bendRange, predecessor := t.predecessor }
                    counted := none
                    answer := none } }))

/-- The bleed test: bleed exactly when the threshold is not 0 and one string within the bleed distance, in FORMING or
TRACKING with its gate OPEN, satisfies both the pitch condition and the envelope condition. A free value says whether
another string's entry to FORMING from ATTACK comes before a test that its string runs in ATTACK, the first in its step,
while that CREATE is not applied, no millisecond tick has come and nothing that a test reads or that leads to one has
changed since the entry, but for that entry and later ones; if not, the string is no reference, and both may create
records. Every other entry made is seen. Then what an entry notes: its place after all others and what stands as it is
made. That the order is open just there is the model's reading of R86 (DEDUCED, assumption log 34). -/
def Obligations.BleedTestNeedsBothConditionsOfOneReference : Prop :=
  (∀ (s : State) (k : Str) (t : Tracker) (pitch : Int),
    let creating (u : Str) : Prop :=
      ∃ c n, (s.trackers[u]).awaited = some { request := .create c, counted := n, answer := none }
    let glanced (u : Str) (g : Glance) : Prop :=
      g = { state := (s.trackers[u]).state, committed := (s.trackers[u]).committed
            firstPair := (s.trackers[u]).firstPair, staleRun := (s.trackers[u]).staleRun, tests := (s.trackers[u]).tests
            awaited := (s.trackers[u]).awaited, deferred := (s.trackers[u]).deferred }
    let undisturbed (e : Entry) : Prop :=
      (∀ u : Str, e.scene.frontEnds[u] = { s.frontEnds[u] with queue := [] })
        ∧ e.scene.pitchUnit = { s.pitchUnit with
            computation := s.pitchUnit.computation.map fun c => { c with handed := false } }
        ∧ e.scene.settings = s.settings
        ∧ ∀ u : Str, glanced u e.scene.trackers[u]
          ∨ creating u ∧ ∃ later, (s.trackers[u]).entry = some later ∧ e.number ≤ later.number
    s.bleedTest k t pitch = true ↔
      s.settings.bleedThreshold ≠ 0
        ∧ ∃ u : Str,
          (1 ≤ ((k.val : Int) - u.val).natAbs ∧ ((k.val : Int) - u.val).natAbs ≤ s.settings.bleedDistance
            ∧ ((s.trackers[u]).state = .forming ∨ (s.trackers[u]).state = .tracking)
            ∧ (s.frontEnds[u]).gate = .opened)
          ∧ (∃ c, (s.trackers[u]).committed = some c ∧ foldedDistance pitch c.pitch ≤ s.settings.bleedThreshold)
          ∧ (s.frontEnds[k]).env * 16 ≤ (s.frontEnds[u]).env * s.settings.bleedRatio
          ∧ ∀ e, (s.trackers[u]).entry = some e →
            t.state = .attack → t.tests = (s.trackers[k]).tests → creating u →
            (s.trackers[u]).staleTimer = .running (s.settings.stale * 5) → undisturbed e →
            e.number < Config.entriesSeen s.resets t.tests k)
    ∧ ∀ s : State,
      (∀ u : Str,
          s.newEntry.scene.frontEnds[u] = { s.frontEnds[u] with queue := [] }
            ∧ s.newEntry.scene.trackers[u] =
              { state := (s.trackers[u]).state, committed := (s.trackers[u]).committed
                firstPair := (s.trackers[u]).firstPair, staleRun := (s.trackers[u]).staleRun
                tests := (s.trackers[u]).tests, awaited := (s.trackers[u]).awaited
                deferred := (s.trackers[u]).deferred }
            ∧ ∀ e, (s.trackers[u]).entry = some e → e.number < s.newEntry.number)
        ∧ s.newEntry.scene.pitchUnit = { s.pitchUnit with
            computation := s.pitchUnit.computation.map fun c => { c with handed := false } }
        ∧ s.newEntry.scene.settings = s.settings

/-- A result in FORMING: a candidate is held; an accepted result or the confirming result of a step is committed and
sent as an UPDATE whose note is the nearest note. -/
def Obligations.FormingFollowsTheNearestNote : Prop :=
  ∀ (s : State) (c : Computation) (held : Committed) (h : Nat) (sent : LastSent), s.inReset = false →
    s.pitchUnit.computation = some c → c.handed = false → (s.trackers[c.string]).awaited = none →
    (s.trackers[c.string]).state = .forming → (s.trackers[c.string]).committed = some held →
    (s.trackers[c.string]).live = some h → (s.trackers[c.string]).lastSent = some sent →
    let k := c.string
    let r := c.result
    let t := s.trackers[k]
    let after (u : Tracker) : State :=
      { s with
        pitchUnit := { s.pitchUnit with computation := some { c with handed := true } }
        trackers := s.trackers.set k u }
    let candidate : Prop := s.settings.stepThreshold < (r.rawPitch - held.pitch).natAbs
    let agrees : Prop := ∃ p, t.held = some p ∧ (r.rawPitch - p).natAbs ≤ s.settings.onsetTolerance
    let counted (period : Nat) (pitch : Int) : Tracker :=
      let pout := outputPitch pitch r.offset sent.transpose
      let note := nearestNote pout
      { t with
        held := none
        committed := some { period := period, pitch := pitch }
        staleTimer := .running (s.settings.stale * 5)
        staleRun := t.staleRun + 1
        staleExpiries := 0
        lastSent := some
          { sent with note := note, bend := pout - 64 * (note : Int), level := r.level, saturated := false }
        awaited := some
          { request := .update
              { handle := h, note := note, bend := pout - 64 * (note : Int), level := r.level, stale := false
                saturated := false }
            counted := some r.rawPitch
            answer := none } }
    (candidate → ¬ agrees → exec (.trackerResult k) s = .next (after { t with held := some r.rawPitch }))
      ∧ (candidate → agrees → exec (.trackerResult k) s = .next (after (counted (16 * r.period) r.rawPitch)))
      ∧ (¬ candidate → exec (.trackerResult k) s = .next (after (counted r.candidatePeriod r.smoothedPitch)))

/-- A result in TRACKING: a candidate is held; an accepted result, or the confirming result of a step that keeps its
note, is committed and sent as an UPDATE or, beyond the bend range, as the overflow policy says; the confirming result
of a step to another note under NEW NOTE is sent as a SUCCEED with the reason LEGATO. -/
def Obligations.TrackingFollowsItsPolicies : Prop :=
  ∀ (s : State) (c : Computation) (held : Committed) (h : Nat) (sent : LastSent), s.inReset = false →
    s.pitchUnit.computation = some c → c.handed = false → (s.trackers[c.string]).awaited = none →
    (s.trackers[c.string]).state = .tracking → (s.trackers[c.string]).committed = some held →
    (s.trackers[c.string]).live = some h → (s.trackers[c.string]).lastSent = some sent →
    let k := c.string
    let r := c.result
    let t := s.trackers[k]
    let policy := s.settings.musical t.adopted k
    let after (u : Tracker) : State :=
      { s with
        pitchUnit := { s.pitchUnit with computation := some { c with handed := true } }
        trackers := s.trackers.set k u }
    let candidate : Prop := s.settings.stepThreshold < (r.rawPitch - held.pitch).natAbs
    let agrees : Prop := ∃ p, t.held = some p ∧ (r.rawPitch - p).natAbs ≤ s.settings.onsetTolerance
    let sends (period : Nat) (pitch : Int) (note : Nat) (bend : Int) (saturated : Bool) (q : Request) : Tracker :=
      { t with
        held := none
        committed := some { period := period, pitch := pitch }
        staleTimer := .running (s.settings.stale * 5)
        staleRun := t.staleRun + 1
        staleExpiries := 0
        lastSent := some { sent with note := note, bend := bend, level := r.level, saturated := saturated }
        awaited := some { request := q, counted := some r.rawPitch, answer := none } }
    let updates (period : Nat) (pitch : Int) (bend : Int) (saturated : Bool) : Tracker :=
      sends period pitch sent.note bend saturated
        (.update { handle := h, note := sent.note, bend := bend, level := r.level, stale := false, saturated := saturated })
    let succeeds (period : Nat) (pitch : Int) (reason : ReleaseReason) : Tracker :=
      let pout := outputPitch pitch r.offset sent.transpose
      let note := nearestNote pout
      sends period pitch note (pout - 64 * (note : Int)) false
        (.succeed { handle := h, reason := reason, note := note, bend := pout - 64 * (note : Int)
                    velocity := max 1 r.level, level := r.level })
    let reports (period : Nat) (pitch : Int) : Tracker :=
      let bend := outputPitch pitch r.offset sent.transpose - 64 * (sent.note : Int)
      let limit : Int := 64 * (sent.bendRange : Int)
      if -limit ≤ bend ∧ bend ≤ limit then updates period pitch bend false
      else if policy.overflow = .renote then succeeds period pitch .overbend
      else updates period pitch (if bend < 0 then -limit else limit) true
    let newNote := nearestNote (outputPitch r.rawPitch r.offset sent.transpose)
    (candidate → ¬ agrees → exec (.trackerResult k) s = .next (after { t with held := some r.rawPitch }))
      ∧ (¬ candidate → exec (.trackerResult k) s = .next (after (reports r.candidatePeriod r.smoothedPitch)))
      ∧ (candidate → agrees → policy.legato = .bend ∨ newNote = sent.note →
          exec (.trackerResult k) s = .next (after (reports (16 * r.period) r.rawPitch)))
      ∧ (candidate → agrees → policy.legato = .newNote → newNote ≠ sent.note →
          exec (.trackerResult k) s = .next (after (succeeds (16 * r.period) r.rawPitch .legato)))

/-- A Front End event that reaches a Tracker awaiting no answer, in each of its states: what ONSET, RELEASE and
RESTRIKE do, and the values each state is entered with. -/
def Obligations.FrontEndEventsMoveTheTracker : Prop :=
  ∀ (s : State) (k : Str) (e : FrontEndEvent) (rest : List FrontEndEvent), s.inReset = false →
    (s.trackers[k]).events = e :: rest → (s.trackers[k]).awaited = none →
    let t := { s.trackers[k] with events := rest }
    let after (u : Tracker) : State := { s with trackers := s.trackers.set k u }
    let emptied (u : Tracker) : State :=
      { s with
        trackers := s.trackers.set k u
        frontEnds := s.frontEnds.set k { s.frontEnds[k] with queue := [] } }
    let attack (u : Tracker) : Tracker :=
      { u with
        state := .attack, peakMax := 0, firstPair := none, committed := none, held := none, confirmCount := 0
        staleTimer := .stopped, staleExpiries := 0, live := none, lastSent := none }
    let quiet (u : Tracker) : Tracker :=
      { u with
        state := .quiet, live := none, lastSent := none, committed := none, firstPair := none, held := none
        staleTimer := .stopped, staleExpiries := 0, predecessor := none }
    let releases (reason : ReleaseReason) (u : Tracker) : Tracker :=
      match u.live with
      | some h => { u with awaited := some { request := .release h reason, counted := none, answer := none } }
      | none => u
    let follows : Prop := t.state = .forming ∨ t.state = .tracking
    (e = .onset →
        (t.state = .quiet ∨ t.state = .muted → exec (.trackerOnset k) s = .next (after (attack t)))
          ∧ (¬ (t.state = .quiet ∨ t.state = .muted) → exec (.trackerOnset k) s = .next (after t)))
      ∧ (e = .release →
        (t.state = .attack ∨ t.state = .bleed ∨ t.state = .muted →
            exec (.trackerReleaseEvent k) s = .next (emptied (quiet t)))
          ∧ (follows → exec (.trackerReleaseEvent k) s = .next (emptied (quiet (releases .decay t))))
          ∧ (t.state = .off ∨ t.state = .quiet → exec (.trackerReleaseEvent k) s = .next (after t)))
      ∧ (e = .restrike →
        (t.state = .bleed ∨ t.state = .muted → exec (.trackerRestrike k) s = .next (after (attack t)))
          ∧ (follows → exec (.trackerRestrike k) s = .next
              (after (attack { releases .restrike t with predecessor := t.live })))
          ∧ (t.state = .off ∨ t.state = .quiet ∨ t.state = .attack →
              exec (.trackerRestrike k) s = .next (after t)))

/-- An input that reaches a Tracker awaiting an answer joins its deferred inputs; and when the answer has been acted on
the deferred inputs are taken in order until one of them sends a request. That they are all taken in one step, against the
state as it stands at the answer with no other step between two of them, is the model's choice (assumption log 24). -/
def Obligations.InputsWaitForTheAnswer : Prop :=
  (∀ (s : State) (k : Str) (a : Awaited), s.inReset = false → (s.trackers[k]).awaited = some a →
    let t := s.trackers[k]
    let after (u : Tracker) : State := { s with trackers := s.trackers.set k u }
    (∀ rest, t.events = .onset :: rest →
        exec (.trackerOnset k) s = .next
          (after { t with events := rest, deferred := t.deferred ++ [.frontEnd .onset] }))
      ∧ (∀ rest, t.events = .release :: rest →
        exec (.trackerReleaseEvent k) s = .next
          (after { t with events := rest, deferred := t.deferred ++ [.frontEnd .release] }))
      ∧ (∀ rest, t.events = .restrike :: rest →
        exec (.trackerRestrike k) s = .next
          (after { t with events := rest, deferred := t.deferred ++ [.frontEnd .restrike] }))
      ∧ (∀ h rest, t.forced = h :: rest →
        exec (.forcedReleaseMessage k) s = .next
          (after { t with forced := rest, deferred := t.deferred ++ [.forcedRelease h] }))
      ∧ (∀ rest, t.enables = true :: rest →
        exec (.trackerEnable k) s = .next (after { t with enables := rest, deferred := t.deferred ++ [.enable] }))
      ∧ (∀ rest, t.enables = false :: rest →
        exec (.trackerDisable k) s = .next (after { t with enables := rest, deferred := t.deferred ++ [.disable] }))
      ∧ (t.staleTimer = .running 0 →
        exec (.staleTimerExpiry k) s = .next
          (after { t with staleTimer := .taken, deferred := t.deferred ++ [.staleExpiry t.staleRun] })))
    ∧ ∀ (s : State) (k : Str) (t : Tracker) (flush : Bool) (i : TrackerInput) (rest : List TrackerInput),
      s.drain k [] { tracker := t, flush := flush } = { tracker := { t with deferred := [] }, flush := flush }
        ∧ (t.awaited.isSome → s.drain k (i :: rest) { tracker := t, flush := flush } =
            { tracker := { t with deferred := i :: rest }, flush := flush })
        ∧ (t.awaited = none → s.drain k (i :: rest) { tracker := t, flush := flush } =
            s.drain k rest
              { tracker := (s.takeInput k i t).tracker, flush := flush || (s.takeInput k i t).flush })

/-- TRACKER_ANSWER: NOT LIVE makes the Tracker stand down, but to a RELEASE with the reason STALE it leaves the Tracker
where it stood down as it sent that request; a handle becomes the live handle, and an OK to an UPDATE counts the cycle
towards confirmation in FORMING; the raw pitch of a counted cycle goes to the probe after an OK or a handle while the probe
is RUNNING on the string; then the deferred inputs are taken. Standing down leads to MUTED with the gate OPEN and to QUIET
with it CLOSED, each with its entry values and the cycle queue emptied; an OFF Tracker remains OFF. That the deferred inputs
are taken within this step is the model's choice (assumption log 24), and so is that for NOT LIVE to a RELEASE with the
reason STALE R74 goes before R76 (assumption log 30). -/
def Obligations.AnswersAreActedOn : Prop :=
  (∀ (s : State) (k : Str) (q : Request) (counted : Option Int) (answer : Answer), s.inReset = false →
    (s.trackers[k]).awaited = some { request := q, counted := counted, answer := some answer } →
    let t := { s.trackers[k] with awaited := none, deferred := [] }
    let runs : Prop := s.probe.running = true ∧ s.probe.string = some k
    let passed : List Int := if runs then t.passed ++ counted.toList else t.passed
    let after (x : Taken) : State :=
      let y := s.drain k (s.trackers[k]).deferred x
      { s with
        trackers := s.trackers.set k y.tracker
        frontEnds := if y.flush then s.frontEnds.set k { s.frontEnds[k] with queue := [] } else s.frontEnds }
    let count := t.confirmCount + 1
    (answer = .notLive → (∀ h, q ≠ .release h .stale) →
        exec (.trackerAnswer k) s = .next (after (t.standDown (s.frontEnds[k]).gate)))
      ∧ (∀ h, answer = .notLive → q = .release h .stale → exec (.trackerAnswer k) s = .next (after { tracker := t }))
      ∧ (∀ h, answer = .handle h →
          exec (.trackerAnswer k) s = .next (after { tracker := { t with live := some h, passed := passed } }))
      ∧ (answer = .ok → (∀ u, q ≠ .update u) → exec (.trackerAnswer k) s = .next (after { tracker := t }))
      ∧ (answer = .ok → (∃ u, q = .update u) → t.state ≠ .forming ∨ counted = none →
          exec (.trackerAnswer k) s = .next (after { tracker := { t with passed := passed } }))
      ∧ (answer = .ok → (∃ u, q = .update u) → t.state = .forming → counted.isSome →
          count < s.settings.confirmCount →
          exec (.trackerAnswer k) s = .next (after { tracker := { t with passed := passed, confirmCount := count } }))
      ∧ (∀ h, answer = .ok → (∃ u, q = .update u) → t.state = .forming → counted.isSome →
          s.settings.confirmCount ≤ count → t.live = some h →
          exec (.trackerAnswer k) s = .next (after
            { tracker :=
                { t with
                  passed := passed, confirmCount := count, state := .tracking
                  awaited := some { request := .confirm h, counted := none, answer := none } } })))
    ∧ (∀ (t : Tracker) (gate : Gate),
    let muted : Tracker :=
      { t with
        state := .muted, live := none, lastSent := none, committed := none, firstPair := none, held := none
        staleTimer := .stopped, staleExpiries := 0 }
    (t.state = .off → t.standDown gate = { tracker := t, flush := false })
      ∧ (t.state ≠ .off → gate = .opened → t.standDown gate = { tracker := muted, flush := true })
      ∧ (t.state ≠ .off → gate = .closed →
          t.standDown gate = { tracker := { muted with state := .quiet, predecessor := none }, flush := true }))

/-- STALE_TIMER_EXPIRY taken at a Tracker awaiting no answer: the first sends a stale UPDATE with the values last sent,
the second sends RELEASE with the reason STALE and stands down; a timer that has not reached its expiry does nothing. An
expiry that was deferred is taken as those are if the timer has not been stopped or restarted since, and otherwise it is
discarded; in OFF, QUIET, ATTACK, BLEED and MUTED it is ignored. That each running of the timer has a number, by which the
two are told apart, is the model's own (assumption log 20). -/
def Obligations.StaleGuardWarnsThenReleases : Prop :=
  (∀ (s : State) (k : Str) (t : Tracker) (run : Nat),
    (run ≠ t.staleRun ∨ t.staleTimer ≠ .taken ∨ ¬ (t.state = .forming ∨ t.state = .tracking) →
        s.takeInput k (.staleExpiry run) t = { tracker := t, flush := false })
      ∧ ∀ (h : Nat) (sent : LastSent), run = t.staleRun → t.staleTimer = .taken →
        t.state = .forming ∨ t.state = .tracking → t.live = some h → t.lastSent = some sent →
        (t.staleExpiries = 0 →
            s.takeInput k (.staleExpiry run) t =
              { tracker :=
                  { t with
                    staleExpiries := 1
                    staleTimer := .running (s.settings.stale * 5)
                    staleRun := t.staleRun + 1
                    awaited := some
                      { request := .update
                          { handle := h, note := sent.note, bend := sent.bend, level := sent.level, stale := true
                            saturated := sent.saturated }
                        counted := none
                        answer := none } }
                flush := false })
          ∧ (t.staleExpiries ≠ 0 →
            s.takeInput k (.staleExpiry run) t =
              { tracker :=
                  { t with
                    state := if (s.frontEnds[k]).gate = .opened then .muted else .quiet
                    live := none, lastSent := none, committed := none, firstPair := none, held := none
                    staleTimer := .stopped, staleExpiries := 0
                    predecessor := if (s.frontEnds[k]).gate = .opened then t.predecessor else none
                    awaited := some { request := .release h .stale, counted := none, answer := none } }
                flush := true }))
    ∧ ∀ (s : State) (k : Str), s.inReset = false →
    let t := s.trackers[k]
    (t.staleTimer ≠ .running 0 → exec (.staleTimerExpiry k) s = .next s)
      ∧ (∀ (h : Nat) (sent : LastSent), t.staleTimer = .running 0 → t.awaited = none →
          t.state = .forming ∨ t.state = .tracking → t.live = some h → t.lastSent = some sent →
          (t.staleExpiries = 0 →
              exec (.staleTimerExpiry k) s = .next
                { s with
                  trackers := s.trackers.set k
                    { t with
                      staleExpiries := 1
                      staleTimer := .running (s.settings.stale * 5)
                      staleRun := t.staleRun + 1
                      awaited := some
                        { request := .update
                            { handle := h, note := sent.note, bend := sent.bend, level := sent.level, stale := true
                              saturated := sent.saturated }
                          counted := none
                          answer := none } } })
            ∧ (t.staleExpiries ≠ 0 →
              let u := { t with awaited := some { request := .release h .stale, counted := none, answer := none } }
              exec (.staleTimerExpiry k) s = .next
                { s with
                  trackers := s.trackers.set k
                    { u with
                      state := if (s.frontEnds[k]).gate = .opened then .muted else .quiet
                      live := none, lastSent := none, committed := none, firstPair := none, held := none
                      staleTimer := .stopped, staleExpiries := 0
                      predecessor := if (s.frontEnds[k]).gate = .opened then u.predecessor else none }
                  frontEnds := s.frontEnds.set k { s.frontEnds[k] with queue := [] } }))

/-- A forced-release message, an enable and a disable at a Tracker awaiting no answer. -/
def Obligations.ForcedReleaseEnableAndDisable : Prop :=
  ∀ (s : State) (k : Str), s.inReset = false → (s.trackers[k]).awaited = none →
    let after (u : Tracker) : State := { s with trackers := s.trackers.set k u }
    let emptied (u : Tracker) : State :=
      { s with
        trackers := s.trackers.set k u
        frontEnds := s.frontEnds.set k { s.frontEnds[k] with queue := [] } }
    let rested (u : Tracker) (state : ChannelState) (predecessor : Option Nat) : Tracker :=
      { u with
        state := state, live := none, lastSent := none, committed := none, firstPair := none, held := none
        staleTimer := .stopped, staleExpiries := 0, predecessor := predecessor }
    let isOpen : Prop := (s.frontEnds[k]).gate = .opened
    (∀ (h : Nat) (rest : List Nat), (s.trackers[k]).forced = h :: rest →
        let t := { s.trackers[k] with forced := rest }
        ((t.state = .forming ∨ t.state = .tracking) ∧ t.live = some h →
            exec (.forcedReleaseMessage k) s = .next (emptied
              (rested t (if isOpen then .muted else .quiet) (if isOpen then t.predecessor else none))))
          ∧ (¬ ((t.state = .forming ∨ t.state = .tracking) ∧ t.live = some h) →
            exec (.forcedReleaseMessage k) s = .next (after t)))
      ∧ (∀ rest : List Bool, (s.trackers[k]).enables = true :: rest →
        let t := { s.trackers[k] with enables := rest }
        (t.state = .off → exec (.trackerEnable k) s = .next (emptied (rested t .quiet none)))
          ∧ (t.state ≠ .off → exec (.trackerEnable k) s = .next (after t)))
      ∧ (∀ rest : List Bool, (s.trackers[k]).enables = false :: rest →
        let t := { s.trackers[k] with enables := rest }
        (t.state = .off → exec (.trackerDisable k) s = .next (after t))
          ∧ (t.state ≠ .off → t.live = none → exec (.trackerDisable k) s = .next (emptied (rested t .off none)))
          ∧ (∀ h, t.state ≠ .off → t.live = some h →
            exec (.trackerDisable k) s = .next (emptied (rested
              { t with awaited := some { request := .release h .disabled, counted := none, answer := none } }
              .off none))))

/-! ## Note Table: requests of the Trackers -/

/-- The first handle at or after the counter that no occupied record holds, stepping from 255 to 1, is the one given; the
counter then stands just past it, and freeing a record does not move it. The zone of a new record is the lowest-numbered
one whose string mask includes the string and whose base and limit notes enclose the note. -/
def Obligations.HandleAndZoneOfANewRecord : Prop :=
  (∀ t : NoteTable, t.wf →
    let trial (n : Nat) : Nat := (t.nextHandle - 1 + n) % 255 + 1
    (∃ n : Nat, n ≤ 16 ∧ t.nextGiven = trial n ∧ ∀ m : Nat, m < n → trial m ∈ t.handles)
      ∧ t.nextGiven ∉ t.handles ∧ 1 ≤ t.nextGiven ∧ t.nextGiven ≤ 255
      ∧ (∀ r : Record, (t.add r).nextHandle = if r.image.handle = 255 then 1 else r.image.handle + 1)
      ∧ ∀ h : Nat, (t.free h).nextHandle = t.nextHandle)
    ∧ (∀ (c : Settings) (k : Str) (note : Nat),
    let fits (z : Fin 4) : Prop :=
      maskHas (c.zones[z]).strings k = true ∧ (c.zones[z]).base ≤ note ∧ note ≤ (c.zones[z]).limit
    (∀ z : Fin 4, c.zoneOf k note = some z ↔ fits z ∧ ∀ y : Fin 4, y < z → ¬ fits y)
      ∧ (c.zoneOf k note = none ↔ ∀ z : Fin 4, ¬ fits z))

/-- The victim of an eviction: RELEASED and not the old record of the SUCCEED; unheld if any such record is unheld; and
the first of its kind in the recency list. A full table with at most eight live records has one. -/
def Obligations.EvictionTakesTheLeastRecentlyUsed : Prop :=
  ∀ (t : NoteTable) (keep : Option Nat), t.wf →
    (∀ v : Nat, t.victim keep = some v →
        ∃ r ∈ t.records, r.image.handle = v ∧ r.image.state = .released ∧ keep ≠ some v
          ∧ (r.image.hold = true →
              ∀ q ∈ t.records, q.image.state = .released → keep ≠ some q.image.handle → q.image.hold = true)
          ∧ ∀ q ∈ t.records, q.image.state = .released → keep ≠ some q.image.handle → q.image.hold = r.image.hold →
              t.recency.idxOf v ≤ t.recency.idxOf q.image.handle)
      ∧ (t.records.length = 16 → (t.records.filter fun r => decide (r.image.state ≠ .released)).length ≤ 8 →
          (t.victim keep).isSome)

/-- CREATE with a slot FREE, or with the victim of the eviction freed: the new PROVISIONAL record with its handle and
zone, the link to its pending predecessor, the places in both lists, EVICTED and NEW, and the answer. -/
def Obligations.CreateMakesAProvisionalRecord : Prop :=
  ∀ (s : State) (k : Str) (c : CreateRequest) (counted : Option Int) (room : NoteTable) (evicted : List Notice),
    s.inReset = false → (s.trackers[k]).awaited = some { request := .create c, counted := counted, answer := none } →
    s.table.wf →
    (s.table.records.length < 16 ∧ room = s.table ∧ evicted = [])
      ∨ (s.table.records.length = 16 ∧ ∃ v, s.table.victim none = some v ∧ room = s.table.free v ∧ evicted = [.evicted v]) →
    let h := room.nextGiven
    let linked (r : Record) : Bool :=
      decide (c.predecessor = some r.image.handle ∧ r.image.string = k ∧ r.image.successor = none)
    let image : Image :=
      { handle := h, state := .provisional, string := k, note := c.note, bend := c.bend, velocity := c.velocity
        level := c.level, zone := s.settings.zoneOf k c.note, tag := none, hold := false, stale := false
        corrected := false, saturated := false, profile := c.profile, transpose := c.transpose
        bendRange := c.bendRange
        predecessor := if room.records.any linked then c.predecessor else none
        successor := none, reason := none, age := 0 }
    exec (.create k) s = .next
      { s with
        table :=
          { records := (room.records.map fun r =>
                if linked r then { r with image := { r.image with successor := some h }, changed := true } else r)
              ++ [{ image := image, changed := true, linger := .stopped, serial := room.created }]
            recency := room.recency ++ [h]
            nextHandle := if h = 255 then 1 else h + 1
            created := room.created + 1 }
        notices := s.notices.handAll s.settings.noticeEnables (evicted ++ [.new h .provisional k c.note])
        trackers := s.trackers.set k
          { s.trackers[k] with
            awaited := some { request := .create c, counted := counted, answer := some (.handle h) } } }

/-- UPDATE: a live record of the string takes the values sent, and its note too while it is PROVISIONAL, which is a
correction; the changed flag is set if a field changed. With no such record the answer is NOT LIVE. -/
def Obligations.UpdateSetsALiveRecord : Prop :=
  ∀ (s : State) (k : Str) (u : UpdateRequest) (counted : Option Int), s.inReset = false →
    (s.trackers[k]).awaited = some { request := .update u, counted := counted, answer := none } → s.table.wf →
    let answered (a : Answer) (x : State) : State :=
      { x with
        trackers := x.trackers.set k
          { x.trackers[k] with awaited := some { request := .update u, counted := counted, answer := some a } } }
    (∀ r ∈ s.table.records, r.image.handle = u.handle → r.image.string = k → r.image.state ≠ .released →
        let corrects := decide (r.image.state = .provisional ∧ u.note ≠ r.image.note)
        let image :=
          { r.image with
            bend := u.bend, level := u.level, stale := u.stale, saturated := u.saturated
            note := if corrects then u.note else r.image.note
            corrected := r.image.corrected || corrects }
        exec (.update k) s = .next (answered .ok
          { s with
            table := { s.table with
              records := s.table.records.map fun q =>
                if q.image.handle = u.handle then
                  { r with image := image, changed := r.changed || decide (image ≠ r.image) } else q }
            notices := if corrects then s.notices.hand s.settings.noticeEnables (.corrected u.handle u.note)
              else s.notices }))
      ∧ ((∀ r ∈ s.table.records, r.image.handle = u.handle → r.image.string = k → r.image.state = .released) →
        exec (.update k) s = .next (answered .notLive s))

/-- CONFIRM: a PROVISIONAL record becomes SOUNDING with CONFIRMED; a SOUNDING one is unchanged; otherwise NOT LIVE.
RELEASE from a Tracker: a live record of the string becomes RELEASED with the reason sent, its linger timer is started,
and RELEASED is handed on; otherwise NOT LIVE and nothing changes. A linger setting of 0 starts no timer. -/
def Obligations.ConfirmAndReleaseFromATracker : Prop :=
  (∀ (s : State) (k : Str) (h : Nat) (counted : Option Int), s.inReset = false →
    (s.trackers[k]).awaited = some { request := .confirm h, counted := counted, answer := none } → s.table.wf →
    let answered (a : Answer) (x : State) : State :=
      { x with
        trackers := x.trackers.set k
          { x.trackers[k] with awaited := some { request := .confirm h, counted := counted, answer := some a } } }
    (∀ r ∈ s.table.records, r.image.handle = h → r.image.string = k →
        (r.image.state = .provisional →
            exec (.confirm k) s = .next (answered .ok
              { s with
                table := { s.table with
                  records := s.table.records.map fun q =>
                    if q.image.handle = h then { r with image := { r.image with state := .sounding }, changed := true }
                    else q }
                notices := s.notices.hand s.settings.noticeEnables (.confirmed h k r.image.note) }))
          ∧ (r.image.state = .sounding → exec (.confirm k) s = .next (answered .ok s))
          ∧ (r.image.state = .released → exec (.confirm k) s = .next (answered .notLive s)))
      ∧ ((∀ r ∈ s.table.records, r.image.handle = h → r.image.string ≠ k) →
        exec (.confirm k) s = .next (answered .notLive s)))
    ∧ (∀ (s : State) (k : Str) (h : Nat) (reason : ReleaseReason) (counted : Option Int), s.inReset = false →
    (s.trackers[k]).awaited = some { request := .release h reason, counted := counted, answer := none } →
    s.table.wf →
    let answered (a : Answer) (x : State) : State :=
      { x with
        trackers := x.trackers.set k
          { x.trackers[k] with
            awaited := some { request := .release h reason, counted := counted, answer := some a } } }
    (∀ r ∈ s.table.records, r.image.handle = h → r.image.string = k → r.image.state ≠ .released →
        exec (.release k) s = .next (answered .ok
          { s with
            table := { s.table with
              records := s.table.records.map fun q =>
                if q.image.handle = h then
                  { r with
                    image := { r.image with state := .released, reason := some reason }
                    changed := true
                    linger := if s.settings.linger = 0 then .stopped else .running (s.settings.linger * 10) }
                else q }
            notices := s.notices.hand s.settings.noticeEnables (.released h reason (r.image.successor.getD 0)) }))
      ∧ ((∀ r ∈ s.table.records, r.image.handle = h → r.image.string = k → r.image.state = .released) →
        exec (.release k) s = .next (answered .notLive s)))

/-- SUCCEED: the live old record is RELEASED with its linger started and the new SOUNDING record linked to it, after
an eviction that passes over the old record where no slot is FREE; RELEASED, EVICTED and NEW in this order. With no
live record the whole request is dropped and the answer is NOT LIVE. -/
def Obligations.SucceedReleasesAndLinks : Prop :=
  ∀ (s : State) (k : Str) (q : SucceedRequest) (counted : Option Int), s.inReset = false →
    (s.trackers[k]).awaited = some { request := .succeed q, counted := counted, answer := none } →
    s.table.wf →
    let answered (a : Answer) (x : State) : State :=
      { x with
        trackers := x.trackers.set k
          { x.trackers[k] with awaited := some { request := .succeed q, counted := counted, answer := some a } } }
    (∀ old ∈ s.table.records, old.image.handle = q.handle → old.image.string = k → old.image.state ≠ .released →
      let ended : NoteTable := { s.table with
        records := s.table.records.map fun r =>
          if r.image.handle = q.handle then
            { old with
              image := { old.image with state := .released, reason := some q.reason }
              changed := true
              linger := if s.settings.linger = 0 then .stopped else .running (s.settings.linger * 10) }
          else r }
      ∀ (room : NoteTable) (evicted : List Notice),
        (s.table.records.length < 16 ∧ room = ended ∧ evicted = [])
          ∨ (s.table.records.length = 16
            ∧ ∃ v, ended.victim (some q.handle) = some v ∧ room = ended.free v ∧ evicted = [.evicted v]) →
        let h := room.nextGiven
        let image : Image :=
          { handle := h, state := .sounding, string := k, note := q.note, bend := q.bend, velocity := q.velocity
            level := q.level, zone := s.settings.zoneOf k q.note, tag := none, hold := false, stale := false
            corrected := false, saturated := false, profile := old.image.profile, transpose := old.image.transpose
            bendRange := old.image.bendRange, predecessor := some q.handle, successor := none, reason := none, age := 0 }
        exec (.succeed k) s = .next (answered (.handle h)
          { s with
            table :=
              { records := (room.records.map fun r =>
                    if r.image.handle = q.handle then
                      { r with image := { r.image with successor := some h }, changed := true } else r)
                  ++ [{ image := image, changed := true, linger := .stopped, serial := room.created }]
                recency := room.recency ++ [h]
                nextHandle := if h = 255 then 1 else h + 1
                created := room.created + 1 }
            notices := s.notices.handAll s.settings.noticeEnables
              ([.released q.handle q.reason h] ++ evicted ++ [.new h .sounding k q.note]) }))
      ∧ ((∀ r ∈ s.table.records, r.image.handle = q.handle → r.image.string = k → r.image.state = .released) →
        exec (.succeed k) s = .next (answered .notLive s))

/-! ## Note Table: linger, freeing and the controller's commands -/

/-- LINGER_TIMER_EXPIRY of a RELEASED record whose timer has reached its expiry: with hold clear the record is freed,
links to it are cleared and EXPIRED is handed on; with hold set only the timer stops; any other expiry does nothing.
RETIRE NOTE: a RELEASED record is freed without a notice, a live one is refused LIVE, a missing one NOT FOUND. -/
def Obligations.ExpiryAndRetireFreeReleasedRecords : Prop :=
  (∀ (s : State) (h : Nat), s.inReset = false → s.table.wf →
    (∀ r ∈ s.table.records, r.image.handle = h → r.image.state = .released → r.linger = .running 0 →
        (r.image.hold = false →
            exec (.lingerTimerExpiry h) s = .next
              { s with
                table := { s.table with
                  records := (s.table.records.filter fun q => q.image.handle ≠ h).map fun q =>
                    let image :=
                      { q.image with
                        predecessor := if q.image.predecessor = some h then none else q.image.predecessor
                        successor := if q.image.successor = some h then none else q.image.successor }
                    { q with
                      image := image
                      changed := q.changed || decide (q.image.predecessor = some h ∨ q.image.successor = some h) }
                  recency := s.table.recency.filter (· ≠ h) }
                notices := s.notices.hand s.settings.noticeEnables (.expired h) })
          ∧ (r.image.hold = true →
            exec (.lingerTimerExpiry h) s = .next
              { s with
                table := { s.table with
                  records := s.table.records.map fun q =>
                    if q.image.handle = h then { q with linger := .stopped } else q } }))
      ∧ ((∀ r ∈ s.table.records, r.image.handle = h → r.image.state ≠ .released ∨ r.linger ≠ .running 0) →
        exec (.lingerTimerExpiry h) s = .next s))
    ∧ (∀ (s : State) (rest : List Posted) (h : Byte), s.inReset = false → s.link.applied = false →
    s.link.buffer = .retireNote h :: rest → s.table.wf →
    let refused (reason : RefusalReason) : State :=
      { s with
        notices := s.notices.refuse s.settings.noticeEnables 0x24#8 h reason
        link := { s.link with applied := true } }
    (∀ r ∈ s.table.records, r.image.handle = h.toNat →
        (r.image.state = .released →
            exec .retireNote s = .next
              { s with
                table := { s.table with
                  records := (s.table.records.filter fun q => q.image.handle ≠ h.toNat).map fun q =>
                    let image :=
                      { q.image with
                        predecessor := if q.image.predecessor = some h.toNat then none else q.image.predecessor
                        successor := if q.image.successor = some h.toNat then none else q.image.successor }
                    { q with
                      image := image
                      changed := q.changed
                        || decide (q.image.predecessor = some h.toNat ∨ q.image.successor = some h.toNat) }
                  recency := s.table.recency.filter (· ≠ h.toNat) }
                link := { s.link with applied := true } })
          ∧ (r.image.state ≠ .released → exec .retireNote s = .next (refused .live)))
      ∧ ((∀ r ∈ s.table.records, r.image.handle ≠ h.toNat) → exec .retireNote s = .next (refused .notFound)))

/-- TAG NOTE and UNTAG NOTE set and clear the tag of any occupied record and move it to the recency tail; the changed
flag is set if the tag changed. With no record they are refused NOT FOUND. -/
def Obligations.TagAndUntagMoveToTheTail : Prop :=
  ∀ (s : State) (p : Posted) (rest : List Posted) (h : Byte) (tag : Option Byte), s.inReset = false →
    s.link.applied = false → s.link.buffer = p :: rest → s.table.wf →
    (∃ b, p = .tagNote h b ∧ tag = some b) ∨ (p = .untagNote h ∧ tag = none) →
    let command : Instr := if tag.isSome then .tagNote else .untagNote
    (∀ r ∈ s.table.records, r.image.handle = h.toNat →
        exec command s = .next
          { s with
            table := { s.table with
              records := s.table.records.map fun q =>
                if q.image.handle = h.toNat then
                  { q with
                    image := { q.image with tag := tag }
                    changed := q.changed || decide (q.image.tag ≠ tag) } else q
              recency := s.table.recency.filter (· ≠ h.toNat) ++ [h.toNat] }
            link := { s.link with applied := true } })
      ∧ ((∀ r ∈ s.table.records, r.image.handle ≠ h.toNat) →
        exec command s = .next
          { s with
            notices := s.notices.refuse s.settings.noticeEnables p.code.byte h .notFound
            link := { s.link with applied := true } })

/-- HOLD NOTE: a setting other than 0 or 1 is refused BAD VALUE, a missing record NOT FOUND; otherwise hold is set or
cleared, the record moves to the recency tail, and clearing a hold that was set on a RELEASED record starts its linger
timer afresh, so that the earlier expiry does not occur; under a linger setting of 0 none is started (that a running timer
is stopped then is DEDUCED, assumption log 14). -/
def Obligations.HoldDefersAndRestartsLinger : Prop :=
  ∀ (s : State) (rest : List Posted) (h setting : Byte), s.inReset = false → s.link.applied = false →
    s.link.buffer = .holdNote h setting :: rest → s.table.wf →
    let refused (reason : RefusalReason) : State :=
      { s with
        notices := s.notices.refuse s.settings.noticeEnables 0x22#8 h reason
        link := { s.link with applied := true } }
    let held (linger : Record → Timer) (on : Bool) : State :=
      { s with
        table := { s.table with
          records := s.table.records.map fun q =>
            if q.image.handle = h.toNat then
              { q with
                image := { q.image with hold := on }
                changed := q.changed || decide (q.image.hold ≠ on)
                linger := linger q } else q
          recency := s.table.recency.filter (· ≠ h.toNat) ++ [h.toNat] }
        link := { s.link with applied := true } }
    (setting ≠ 0#8 → setting ≠ 1#8 → exec .holdNote s = .next (refused .badValue))
      ∧ (setting = 0#8 ∨ setting = 1#8 → (∀ r ∈ s.table.records, r.image.handle ≠ h.toNat) →
          exec .holdNote s = .next (refused .notFound))
      ∧ ∀ r ∈ s.table.records, r.image.handle = h.toNat →
        (setting = 1#8 → exec .holdNote s = .next (held (·.linger) true))
          ∧ (setting = 0#8 → r.image.state = .released → r.image.hold = true →
            exec .holdNote s = .next
              (held (fun _ => if s.settings.linger = 0 then .stopped else .running (s.settings.linger * 10)) false))
          ∧ (setting = 0#8 → r.image.state ≠ .released ∨ r.image.hold = false →
            exec .holdNote s = .next (held (·.linger) false))

/-- RELEASE NOTE: a live record is RELEASED with the reason FORCED, its RELEASED notice is handed on and its Tracker is
sent a forced-release message; a RELEASED record is unchanged; a missing one is refused NOT FOUND. ALL RELEASE releases
every live record so, oldest first; with no live record it changes nothing. -/
def Obligations.ControllerReleasesForceLiveRecords : Prop :=
  (∀ (s : State) (rest : List Posted) (h : Byte), s.inReset = false → s.link.applied = false →
    s.link.buffer = .releaseNote h :: rest → s.table.wf →
    (∀ r ∈ s.table.records, r.image.handle = h.toNat →
        (r.image.state ≠ .released →
            exec .releaseNote s = .next
              { s with
                table := { s.table with
                  records := s.table.records.map fun q =>
                    if q.image.handle = h.toNat then
                      { q with
                        image := { q.image with state := .released, reason := some .forced }
                        changed := true
                        linger := if s.settings.linger = 0 then .stopped else .running (s.settings.linger * 10) }
                    else q }
                notices := s.notices.hand s.settings.noticeEnables (.released h.toNat .forced 0)
                trackers := s.trackers.set r.image.string
                  { s.trackers[r.image.string] with forced := (s.trackers[r.image.string]).forced ++ [h.toNat] }
                link := { s.link with applied := true } })
          ∧ (r.image.state = .released →
            exec .releaseNote s = .next { s with link := { s.link with applied := true } }))
      ∧ ((∀ r ∈ s.table.records, r.image.handle ≠ h.toNat) →
        exec .releaseNote s = .next
          { s with
            notices := s.notices.refuse s.settings.noticeEnables 0x23#8 h .notFound
            link := { s.link with applied := true } }))
    ∧ (∀ (s : State) (rest : List Posted), s.inReset = false → s.link.applied = false →
    s.link.buffer = .allRelease :: rest → s.table.wf →
    let live := s.table.records.filter fun r => decide (r.image.state ≠ .released)
    exec .allRelease s = .next
      { s with
        table := { s.table with
          records := s.table.records.map fun q =>
            if q.image.state = .released then q
            else
              { q with
                image := { q.image with state := .released, reason := some .forced }
                changed := true
                linger := if s.settings.linger = 0 then .stopped else .running (s.settings.linger * 10) } }
        notices := s.notices.handAll s.settings.noticeEnables
          (live.map fun r => .released r.image.handle .forced 0)
        trackers := Vector.ofFn fun k =>
          { s.trackers[k] with
            forced := (s.trackers[k]).forced
              ++ (live.filter fun r => decide (r.image.string = k)).map fun r => r.image.handle }
        link := { s.link with applied := true } })

/-! ## Settings Store -/

/-- SET: an undefined number is refused BAD SETTING and an enumeration value that is no code BAD VALUE; every other
value is fitted to its setting's kind and stored, the setting then reads as what was stored, and every other setting
reads as before. Every number's setting, with its kind and its range, number of defined bits or number of codes, and the
undefined numbers. That the row SET of 0x01 does what the row SET_REFERENCE does, and that of 0x00 what SET_ENABLE_MASK
does, but that it leaves a PROBE ABORTED on its way until POSTED_APPLICATION_COMPLETE, so that RELEASED may come before it,
is the model's choice (assumption logs 22 and 31). -/
def Obligations.SetStoresAFittedValue : Prop :=
  (∀ (s : State) (rest : List Posted) (number : Byte) (v : BitVec 16), s.inReset = false → s.link.applied = false →
    s.link.buffer = .set number v :: rest →
    let refused (reason : RefusalReason) : State :=
      { s with
        notices := s.notices.refuse s.settings.noticeEnables 0x26#8 number reason
        link := { s.link with applied := true } }
    let fits (kind : SettingKind) (w : Int) : Prop :=
      match kind with
      | .numeric lo hi => w = if (v.toNat : Int) < lo then (lo : Int) else if (hi : Int) < v.toNat then hi else v.toNat
      | .signed lo hi => w = if v.toInt < lo then lo else if hi < v.toInt then hi else v.toInt
      | .mask bits => w = ((v.toNat % 2 ^ bits : Nat) : Int)
      | .enumeration codes => v.toNat < codes ∧ w = v.toNat
    (SettingId.ofNumber number = none → exec .set s = .next (refused .badSetting))
      ∧ (number = 0x00#8 → ∃ t : State, exec .setEnableMask s = .next t
          ∧ exec .set s = .next { t with notices := { s.notices with
              coming := s.notices.coming ++
                if s.probe.running = true ∧ t.probe.running = false
                then s.probe.string.toList.map fun k => .probeAborted k .disabled else [] } })
      ∧ (number = 0x01#8 → exec .set s = exec .setReference s)
      ∧ ∀ i : SettingId, SettingId.ofNumber number = some i →
        (∀ codes, i.kind = .enumeration codes → codes ≤ v.toNat → exec .set s = .next (refused .badValue))
          ∧ ∀ w : Int, fits i.kind w →
            (number ≠ 0x00#8 → number ≠ 0x01#8 →
                exec .set s = .next
                  { s with settings := s.settings.write w i, link := { s.link with applied := true } })
              ∧ (s.settings.write w i).read i = w ∧ i.kind.admits w
              ∧ (∀ j : SettingId, j ≠ i → (s.settings.write w i).read j = s.settings.read j)
              ∧ (s.settings.write w i).selected = s.settings.selected)
    ∧ (∀ n : Byte, 0x10 < n.toNat ∧ n.toNat < 0x20 ∨ 0x2B < n.toNat ∧ n.toNat < 0x40 ∨ 0x5F < n.toNat ∧ n.toNat < 0x80
        ∨ 0xBF < n.toNat → SettingId.ofNumber n = none)
    ∧ ∀ k : Settings,
      let holds (number : Nat) (value : Int) (kind : SettingKind) : Prop :=
        ∃ i : SettingId, SettingId.ofNumber (BitVec.ofNat 8 number) = some i ∧ k.read i = value ∧ i.kind = kind
      (∀ x ∈ ([(0x00, k.enableMask.toNat, .mask 8), (0x01, k.reference, .numeric 4000 4800),
          (0x02, k.linger, .numeric 0 255), (0x03, k.stale, .numeric 4 255), (0x04, k.tenure, .numeric 1 4),
          (0x05, k.confirmCount, .numeric 1 7), (0x06, k.onsetTolerance, .numeric 4 64),
          (0x07, k.stepThreshold, .numeric 16 192), (0x08, k.smoothingShift, .numeric 0 3),
          (0x09, k.onsetConfirm, .numeric 1 8), (0x0A, k.releaseConfirm, .numeric 1 32),
          (0x0B, k.restrikeRatio, .numeric 9 32), (0x0C, k.bleedThreshold, .numeric 0 64),
          (0x0D, k.bleedRatio, .numeric 1 15), (0x0E, k.bleedDistance, .numeric 1 7),
          (0x0F, k.noticeEnables.toNat, .mask 9), (0x10, k.attention.toNat, .mask 3)] : List (Nat × Nat × SettingKind)),
          holds x.1 x.2.1 x.2.2)
        ∧ (∀ z : Fin 4, holds (0x20 + 3 * z.val) (k.zones[z]).base (.numeric 0 127)
          ∧ holds (0x21 + 3 * z.val) (k.zones[z]).limit (.numeric 0 127)
          ∧ holds (0x22 + 3 * z.val) (k.zones[z]).strings.toNat (.mask 8))
        ∧ (∀ s : Str, holds (0x40 + 4 * s.val) (k.physical[s]).onset (.numeric 16 4095)
          ∧ holds (0x41 + 4 * s.val) (k.physical[s]).release (.numeric 8 4094)
          ∧ holds (0x42 + 4 * s.val) (k.physical[s]).gain (.numeric 1 255)
          ∧ holds (0x43 + 4 * s.val) (k.physical[s]).offset (.signed (-64) 63))
        ∧ ∀ s : Str, ∀ x ∈ [(0x80, (k.profileA[s])), (0xA0, (k.profileB[s]))],
          holds (x.1 + 4 * s.val) x.2.transpose (.signed (-24) 24)
            ∧ holds (x.1 + 1 + 4 * s.val) x.2.bendRange (.numeric 1 24)
            ∧ holds (x.1 + 2 + 4 * s.val) (if x.2.legato = .newNote then 0 else 1) (.enumeration 2)
            ∧ holds (x.1 + 3 + 4 * s.val) (if x.2.overflow = .clamp then 0 else 1) (.enumeration 2)

/-- SET_ENABLE_MASK: the mask is stored, each string whose bit changed is told, and a probe RUNNING on a string whose
bit was cleared aborts with the reason DISABLED; nothing else changes. That PROBE ABORTED is handed on in this step, where
the row SET leaves it to come later, is the model's choice (assumption log 31), and so is that the previous sample, the
crossing level and the running peak of a string disabled become 0, which R20 does not name (assumption log 6). -/
def Obligations.EnableMaskTellsEachChangedString : Prop :=
  ∀ (s : State) (rest : List Posted) (v : BitVec 16), s.inReset = false → s.link.applied = false →
    s.link.buffer = .set 0x00#8 v :: rest → s.notices.coming = [] →
    let new : BitVec 8 := v.setWidth 8
    let old := s.settings.enableMask
    let cleared (k : Str) : Prop := maskHas old k = true ∧ maskHas new k = false
    let raised (k : Str) : Prop := maskHas old k = false ∧ maskHas new k = true
    ∃ t : State, exec .setEnableMask s = .next t
      ∧ t = { s with
          settings := { s.settings with enableMask := new }
          frontEnds := t.frontEnds
          trackers := t.trackers
          probe := t.probe
          notices := t.notices
          link := { s.link with applied := true } }
      ∧ (∀ k : Str, cleared k →
          t.frontEnds[k] =
              { overloadMark := (s.frontEnds[k]).overloadMark, overrunMark := (s.frontEnds[k]).overrunMark }
            ∧ t.trackers[k] = { s.trackers[k] with enables := (s.trackers[k]).enables ++ [false] })
      ∧ (∀ k : Str, raised k →
          t.frontEnds[k] = { s.frontEnds[k] with peak := 0 }
            ∧ t.trackers[k] = { s.trackers[k] with enables := (s.trackers[k]).enables ++ [true] })
      ∧ (∀ k : Str, ¬ cleared k → ¬ raised k → t.frontEnds[k] = s.frontEnds[k] ∧ t.trackers[k] = s.trackers[k])
      ∧ (∀ k : Str, s.probe.running = true → s.probe.string = some k → cleared k →
          t.probe = { s.probe with running := false, sum := 0, count := 0, least := none, greatest := none }
            ∧ t.notices = s.notices.hand s.settings.noticeEnables (.probeAborted k .disabled))
      ∧ ((∀ k : Str, s.probe.running = true → s.probe.string = some k → ¬ cleared k) →
          t.probe = s.probe ∧ t.notices = s.notices)

/-- SET_REFERENCE: the value is stored clamped to 4000 to 4800, the reference term is computed from it, and a RUNNING
probe aborts with the reason REFERENCE; a computation in flight keeps the term it was begun with. SELECT PROFILE: 0 selects
A, 1 selects B, any other value is refused BAD VALUE; the status byte's bit 0 and the last byte of GET STATUS's response
report the profile selected. -/
def Obligations.ReferenceAndProfileTakeEffect : Prop :=
  (∀ (s : State) (rest : List Posted) (v : BitVec 16), s.inReset = false → s.link.applied = false →
    s.link.buffer = .set 0x01#8 v :: rest →
    let reference := min 4800 (max 4000 v.toNat)
    exec .setReference s = .next
      { s with
        settings := { s.settings with reference := reference }
        pitchUnit := { s.pitchUnit with refTerm := 27358 - (log768 reference : Int) }
        probe := if s.probe.running then
            { s.probe with running := false, sum := 0, count := 0, least := none, greatest := none }
          else s.probe
        notices := if s.probe.running then
            s.notices.handAll s.settings.noticeEnables
              (s.probe.string.toList.map fun k => .probeAborted k .reference)
          else s.notices
        link := { s.link with applied := true } })
    ∧ (∀ (s : State) (rest : List Posted) (v : Byte), s.inReset = false → s.link.applied = false →
    s.link.buffer = .selectProfile v :: rest →
    let selects (p : Profile) : State :=
      { s with settings := { s.settings with selected := p }, link := { s.link with applied := true } }
    (v = 0#8 → exec .selectProfile s = .next (selects .A))
      ∧ (v = 1#8 → exec .selectProfile s = .next (selects .B))
      ∧ (v ≠ 0#8 → v ≠ 1#8 → exec .selectProfile s = .next
          { s with
            notices := s.notices.refuse s.settings.noticeEnables 0x27#8 v .badValue
            link := { s.link with applied := true } })
      ∧ ∀ t : State, t.statusByte.getLsbD 0 = decide (t.settings.selected = .B)
          ∧ t.statusResponse[12]? = some (if t.settings.selected = .B then 1#8 else 0#8))

/-! ## Intonation Probe -/

/-- PROBE_START at its snapshot, its last parameter byte just complete or the posted buffer waited for: the two sizes and
the mask are read most significant byte first, and the command is judged in the order BUSY, BAD VALUE, DISABLED, OK. OK
prepares the context with the sizes fitted and the slots invalid, and pitches that the string's Tracker passed earlier
are not counted; any other answer changes nothing but the response. -/
def Obligations.ProbeStartIsJudgedInOrder : Prop :=
  ∀ (s : State) (string slot : Byte) (size0 size1 mask : BytePair) (auto : Byte), s.inReset = false →
    let number (p : BytePair) : Nat := p.1.toNat * 256 + p.2.toNat
    s.link.phase = .params .probeStart
      ∨ s.link.phase = .waiting (.probeStart
        { string := string, slot := slot, size0 := BitVec.ofNat 16 (number size0), size1 := BitVec.ofNat 16 (number size1)
          mask := BitVec.ofNat 16 (number mask), auto := auto }) →
    s.link.buffer = [] →
    let command : Instr := .probeStart string slot size0 size1 mask auto
    let answers (r : ResultCode) : State :=
      { s with
        link := { s.link with phase := .responding { params := 9, result := r, data := [], images := [], entries := 0 } } }
    let bad : Prop := string.toNat = 0 ∨ 8 < string.toNat ∨ 8 < slot.toNat ∨ 1 < auto.toNat
    let fitted (p : BytePair) : Nat := min 1024 (max 4 (number p)) / 4 * 4
    (s.probe.running = true → exec command s = .next (answers .busy))
      ∧ (s.probe.running = false → bad → exec command s = .next (answers .badValue))
      ∧ ∀ k : Str, s.probe.running = false → ¬ bad → string.toNat = k.val + 1 →
        (maskHas s.settings.enableMask k = false → exec command s = .next (answers .disabled))
          ∧ (maskHas s.settings.enableMask k = true → exec command s = .next
              { answers .ok with
                probe :=
                  { running := true, string := some k, start := slot.toNat, pointer := slot.toNat
                    plan := some
                      { size0 := fitted size0, size1 := fitted size1, select := BitVec.ofNat 9 (number mask)
                        auto := decide (auto = 1#8) }
                    sum := 0, count := 0, least := none, greatest := none, totalSum := 0, totalCount := 0
                    slots := Vector.replicate 9 none }
                trackers := s.trackers.set k { s.trackers[k] with passed := [] } })

/-- PROBE_PITCH: a pitch of another string, or of an IDLE probe, is discarded; a pitch taken enters the accumulators
with its deviation; the pitch that fills the slot completes it, and the pitch that fills slot 8 finishes the run, writes
the correcting offset if auto-apply is on, and hands on PROBE DONE. -/
def Obligations.ProbeCountsPitchesIntoItsSlots : Prop :=
  ∀ (s : State) (k : Str) (pr : Int) (rest : List Int), s.inReset = false → (s.trackers[k]).passed = pr :: rest →
    let popped : State := { s with trackers := s.trackers.set k { s.trackers[k] with passed := rest } }
    (¬ (s.probe.running = true ∧ s.probe.string = some k) → exec (.probePitch k) s = .next popped)
      ∧ ∀ plan : Plan, s.probe.running = true → s.probe.string = some k → s.probe.plan = some plan →
        let p := s.probe
        let dev := pr - 64 * ((pr + 32) / 64)
        let S := p.sum + dev
        let N := p.count + 1
        let mn := match p.least with
          | none => dev
          | some m => min m dev
        let mx := match p.greatest with
          | none => dev
          | some m => max m dev
        let size := if plan.select.getLsbD p.pointer then plan.size1 else plan.size0
        let filled : Probe :=
          { p with
            slots := p.slots.setIfInBounds p.pointer
              (some { mean16 := (16 * S + (N / 2 : Nat)) / (N : Int), least := mn, greatest := mx, count := N })
            sum := 0, count := 0, least := none, greatest := none
            totalSum := p.totalSum + S, totalCount := p.totalCount + N, pointer := p.pointer + 1 }
        let mean := (filled.totalSum + (filled.totalCount / 2 : Nat)) / (filled.totalCount : Int)
        (N ≠ size → exec (.probePitch k) s = .next
            { popped with probe := { p with sum := S, count := N, least := some mn, greatest := some mx } })
          ∧ (N = size → p.pointer < 8 → exec (.probePitch k) s = .next { popped with probe := filled })
          ∧ (N = size → 8 ≤ p.pointer → exec (.probePitch k) s = .next
              { popped with
                probe := { filled with running := false }
                settings := if plan.auto then
                    { s.settings with
                      physical := s.settings.physical.set k { s.settings.physical[k] with offset := -mean } }
                  else s.settings
                notices := s.notices.hand s.settings.noticeEnables (.probeDone k (9 - p.start)) })

/-- PROBE STOP aborts a RUNNING probe with the reason STOPPED: the accumulators are discarded, the pointer, the slots
and the plan stay, and PROBE ABORTED is handed on; an IDLE probe is unchanged and nothing is refused. -/
def Obligations.ProbeStopAbortsARun : Prop :=
  ∀ (s : State) (rest : List Posted), s.inReset = false → s.link.applied = false →
    s.link.buffer = .probeStop :: rest →
    (∀ k : Str, s.probe.running = true → s.probe.string = some k →
        exec .probeStop s = .next
          { s with
            probe := { s.probe with running := false, sum := 0, count := 0, least := none, greatest := none }
            notices := s.notices.hand s.settings.noticeEnables (.probeAborted k .stopped)
            link := { s.link with applied := true } })
      ∧ (s.probe.running = false → exec .probeStop s = .next { s with link := { s.link with applied := true } })

/-! ## Control Link -/

/-- FRAME_START captures the status byte and begins a frame, unless CSN has not been seen high since a hard reset;
COMMAND_BYTE fixes the command, its kind and its parameters, and an unknown command reports FRAME with the rest of the
frame ignored. R161, R162 and R165 bring the arrival of a posted command without parameters, and the snapshot of a
non-posted one, when the command byte is complete; that COMMAND_BYTE leaves both to a later step, whatever the posted
buffer holds, is the model's choice (assumption log 13). -/
def Obligations.FrameStartAndCommandByte : Prop :=
  ∀ s : State,
    (s.inReset = false → s.link.phase = .idle →
        exec .frameStart s = .next
          { s with link := { s.link with csnLow := true, phase := .begun, status := s.statusByte } })
      ∧ (s.inReset = false → s.link.phase ≠ .idle → exec .frameStart s = .next s)
      ∧ (s.inReset = true →
        exec .frameStart s = .next { s with link := { s.link with csnLow := true, phase := .awaitHigh } })
      ∧ (∀ b : Byte, s.inReset = false → s.link.phase ≠ .begun → exec (.commandByte b) s = .next s)
      ∧ (s.inReset = false → s.link.phase = .begun →
        (∀ x ∈ ([(0x10, .getNote, 1, false), (0x11, .getString, 1, false), (0x14, .takeNotices, 1, false),
              (0x16, .getSetting, 1, false), (0x17, .probeStart, 9, false), (0x20, .tagNote, 2, true),
              (0x21, .untagNote, 1, true), (0x22, .holdNote, 2, true), (0x23, .releaseNote, 1, true),
              (0x24, .retireNote, 1, true), (0x25, .allRelease, 0, true), (0x26, .set, 3, true),
              (0x27, .selectProfile, 1, true), (0x28, .probeStop, 0, true), (0x29, .clearFaults, 1, true),
              (0x2A, .restart, 0, true)] : List (Nat × CommandCode × Nat × Bool)),
            exec (.commandByte (BitVec.ofNat 8 x.1)) s = .next { s with link := { s.link with phase := .params x.2.1 } }
              ∧ x.2.1.params = x.2.2.1 ∧ x.2.1.posted = x.2.2.2)
          ∧ (∀ x ∈ ([(0x12, .getChanged), (0x13, .listNotes), (0x15, .getStatus), (0x18, .probeResults)]
                : List (Nat × Query)),
            exec (.commandByte (BitVec.ofNat 8 x.1)) s = .next { s with link := { s.link with phase := .waiting x.2 } }
              ∧ x.2.code.params = 0 ∧ x.2.code.posted = false)
          ∧ ∀ b : Byte, b.toNat < 0x10 ∨ 0x18 < b.toNat ∧ b.toNat < 0x20 ∨ 0x2A < b.toNat →
            exec (.commandByte b) s = .next
              { s with
                link := { s.link with phase := .ignoring }
                notices := s.notices.report s.settings.noticeEnables .frame b })

/-- POSTED_COMMAND_ARRIVAL: the command joins the tail of the posted buffer, or is refused BUFFER FULL where it holds
eight; with a parameter missing nothing has arrived. POSTED_APPLICATION_COMPLETE: the oldest command, its effects in place,
leaves the buffer, a notice still on its way reaches the Notice and Fault Unit, and a snapshot that waited for the last of
them is taken. Effects not in place yet are put in place first, for a RESTART all that its own row does (R173). That the
effects come in a row of their own before the completion, and that a notice can be on its way and arrives then, is the
model's choice (assumption logs 11 and 31). -/
def Obligations.PostedBufferIsFirstInFirstOut : Prop :=
  ((∀ (s : State) (c : CommandCode) (params : List Byte), s.inReset = false → s.link.phase = .params c →
    (∀ p : Posted, Posted.ofBytes c params = some p →
        (s.link.buffer.length < 8 → exec (.postedCommandArrival params) s = .next
            { s with link := { s.link with buffer := s.link.buffer ++ [p], phase := .ignoring } })
          ∧ (8 ≤ s.link.buffer.length → exec (.postedCommandArrival params) s = .next
              { s with
                link := { s.link with phase := .ignoring }
                notices := s.notices.refuse s.settings.noticeEnables p.code.byte (if c.params = 0 then 0#8 else params.headD 0#8)
                  .bufferFull }))
      ∧ (params.length < c.params ∨ c.posted = false → exec (.postedCommandArrival params) s = .next s))
    ∧ (∀ h b : Byte, Posted.ofBytes .tagNote [h, b] = some (.tagNote h b)
        ∧ Posted.ofBytes .untagNote [h] = some (.untagNote h)
        ∧ Posted.ofBytes .holdNote [h, b] = some (.holdNote h b)
        ∧ Posted.ofBytes .releaseNote [h] = some (.releaseNote h)
        ∧ Posted.ofBytes .retireNote [h] = some (.retireNote h)
        ∧ Posted.ofBytes .selectProfile [b] = some (.selectProfile b)
        ∧ Posted.ofBytes .clearFaults [b] = some (.clearFaults b))
    ∧ (∀ n hi lo : Byte, Posted.ofBytes .set [n, hi, lo] = some (.set n (BitVec.ofNat 16 (hi.toNat * 256 + lo.toNat))))
    ∧ Posted.ofBytes .allRelease [] = some .allRelease ∧ Posted.ofBytes .probeStop [] = some .probeStop
    ∧ Posted.ofBytes .restart [] = some .restart)
    ∧ (∀ s : State, s.inReset = false →
    (s.link.buffer = [] → exec .postedApplicationComplete s = .next s)
      ∧ ∀ (p : Posted) (rest : List Posted), s.link.buffer = p :: rest →
        let popped : State :=
          { s with
            notices := { s.notices with coming := [] }.handAll s.settings.noticeEnables s.notices.coming
            link := { s.link with buffer := rest, applied := false } }
        (s.link.applied = false → p ≠ .restart →
            ∃ t : State, exec p.command s = .next t ∧ t.link.applied = true ∧ t.link.buffer = p :: rest
              ∧ exec .postedApplicationComplete s = exec .postedApplicationComplete t)
          ∧ (s.link.applied = false → p = .restart → exec .postedApplicationComplete s = exec .restart s)
          ∧ (s.link.applied = true → rest ≠ [] ∨ (∀ q, s.link.phase ≠ .waiting q) →
            exec .postedApplicationComplete s = .next popped)
          ∧ (∀ q : Query, s.link.applied = true → rest = [] → s.link.phase = .waiting q →
            exec .postedApplicationComplete s = exec q.command popped))

/-- A non-posted command waits while the posted buffer is not empty; TURNAROUND_BUSY abandons one that still waits,
which reads BUSY, and where the buffer is empty it takes the snapshot that is due (the model's choice, assumption log
13: R165 takes it when the command is complete). What MISO carries: the status byte first; then 0x00 for a command's
parameters, for the bytes of a frame that no response fills, and for a response before its result code and after its data;
and nothing while CSN is high or in a hard reset. That nothing is driven either after a hard reset until CSN has been seen
high is the model's choice (assumption log 32). -/
def Obligations.SnapshotWaitsOrIsAbandoned : Prop :=
  (∀ (s : State) (q : Query), s.inReset = false → s.link.phase = .params q.code ∨ s.link.phase = .waiting q →
    s.link.buffer ≠ [] → exec q.command s = .next { s with link := { s.link with phase := .waiting q } })
    ∧ (∀ (s : State) (q : Query), s.inReset = false → s.link.phase ≠ .params q.code → s.link.phase ≠ .waiting q →
      exec q.command s = .next s)
    ∧ (∀ s : State, s.inReset = false →
      (∀ q : Query, s.link.phase = .waiting q → s.link.buffer ≠ [] →
          exec .turnaroundBusy s = .next
            { s with
              link := { s.link with
                phase := .responding
                  { params := q.code.params, result := .busy, data := [], images := [], entries := 0 } } })
        ∧ (∀ q : Query, s.link.phase = .waiting q → s.link.buffer = [] →
          exec .turnaroundBusy s = exec q.command s)
        ∧ ((∀ q : Query, s.link.phase ≠ .waiting q) → exec .turnaroundBusy s = .next s))
    ∧ (∀ (s : State) (r : Response), s.inReset = false → s.link.phase = .responding r →
      s.miso 0 = some s.link.status
        ∧ (∀ k : Nat, 1 ≤ k → k ≤ r.params + 1 → s.miso k = some 0#8)
        ∧ s.miso (r.params + 2) = some r.result.byte
        ∧ ∀ k : Nat, s.miso (r.params + 3 + k) = some (r.data.getD k 0#8))
    ∧ (∀ s : State, s.inReset = false →
      s.link.phase = .begun ∨ (∃ c, s.link.phase = .params c) ∨ (∃ q, s.link.phase = .waiting q)
        ∨ s.link.phase = .ignoring →
      s.miso 0 = some s.link.status ∧ ∀ k : Nat, 1 ≤ k → s.miso k = some 0#8)
    ∧ ∀ (s : State) (k : Nat),
      s.inReset = true ∨ s.link.phase = .idle ∨ s.link.phase = .awaitHigh → s.miso k = none

/-- FRAME_END: a command not complete is a short frame and reports FRAME, a posted command without parameters arrives,
a command waiting for its snapshot is abandoned, and the records of images cut short have their changed flags set
again; in every case CSN is then high and no frame is in progress. R161 and R165 bring the arrival of a command without
parameters, and a snapshot that is due, at the command byte; that this step brings what is still due is the model's choice
(assumption log 13). -/
def Obligations.FrameEndSettlesTheFrame : Prop :=
  ∀ (s : State) (n : Nat),
    let ended (x : State) : State := { x with link := { x.link with csnLow := false, phase := .idle } }
    (s.inReset = true → exec (.frameEnd n) s = .next (ended s))
      ∧ (s.inReset = false →
        (∀ c : CommandCode, s.link.phase = .params c → (c.params ≠ 0 ∨ c.posted = false) →
            exec (.frameEnd n) s = .next
              (ended { s with notices := s.notices.report s.settings.noticeEnables .frame c.byte }))
          ∧ (∀ p : Posted, s.link.phase = .params p.code → p = .allRelease ∨ p = .probeStop ∨ p = .restart →
            (s.link.buffer.length < 8 → exec (.frameEnd n) s = .next
                (ended { s with link := { s.link with buffer := s.link.buffer ++ [p] } }))
              ∧ (8 ≤ s.link.buffer.length → exec (.frameEnd n) s = .next
                (ended { s with
                  notices := s.notices.refuse s.settings.noticeEnables p.code.byte 0#8 .bufferFull })))
          ∧ (∀ q : Query, s.link.phase = .waiting q → s.link.buffer ≠ [] → exec (.frameEnd n) s = .next (ended s))
          ∧ (∀ (q : Query) (t : State), s.link.phase = .waiting q → s.link.buffer = [] → exec q.command s = .next t →
            exec (.frameEnd n) s = exec (.frameEnd n) t)
          ∧ (s.link.phase = .idle ∨ s.link.phase = .awaitHigh ∨ s.link.phase = .begun ∨ s.link.phase = .ignoring →
            exec (.frameEnd n) s = .next (ended s))
          ∧ (∀ r : Response, s.link.phase = .responding r →
            exec (.frameEnd n) s = .next (ended
              { s with
                table := { s.table with
                  records := s.table.records.map fun q =>
                    { q with
                      changed := q.changed
                        || (r.images.drop ((n - 4) / 18)).any fun i =>
                          decide (i.handle = q.image.handle ∧ i.serial = q.serial) } } })))

/-- GET NOTE, GET STRING and GET CHANGED at a snapshot with the posted buffer empty, the command just complete or its
snapshot waited for: the images of the records found,
in the layout of eighteen bytes, with the recency moves and the changed flags cleared; NOT FOUND and BAD VALUE change
nothing but the response. -/
def Obligations.RecordReadsDeliverImages : Prop :=
  ∀ s : State, s.inReset = false → s.link.buffer = [] → s.table.wf →
    let responds (r : Response) (x : State) : State := { x with link := { x.link with phase := .responding r } }
    let alone (n : Nat) (r : ResultCode) : Response := { params := n, result := r, data := [], images := [], entries := 0 }
    let delivered (h : Nat) : State :=
      { s with
        table := { s.table with
          records := s.table.records.map fun q => if q.image.handle = h then { q with changed := false } else q
          recency := s.table.recency.filter (· ≠ h) ++ [h] } }
    let one (r : Record) : Response :=
      { params := 1, result := .ok, data := r.image.bytes
        images := [{ handle := r.image.handle, serial := r.serial }], entries := 0 }
    (∀ h : Byte, s.link.phase = .params .getNote ∨ s.link.phase = .waiting (.getNote h) →
        (∀ r ∈ s.table.records, r.image.handle = h.toNat →
            exec (.getNote h) s = .next (responds (one r) (delivered h.toNat)))
          ∧ ((∀ r ∈ s.table.records, r.image.handle ≠ h.toNat) →
            exec (.getNote h) s = .next (responds (alone 1 .notFound) s)))
      ∧ (∀ b : Byte, s.link.phase = .params .getString ∨ s.link.phase = .waiting (.getString b) →
        (b.toNat = 0 ∨ 8 < b.toNat → exec (.getString b) s = .next (responds (alone 1 .badValue) s))
          ∧ (∀ r ∈ s.table.records, b.toNat = r.image.string.val + 1 → r.image.state ≠ .released →
            (∀ q ∈ s.table.records, q.image.string = r.image.string → q.image.state ≠ .released → q = r) →
            exec (.getString b) s = .next (responds (one r) (delivered r.image.handle)))
          ∧ (1 ≤ b.toNat → b.toNat ≤ 8 →
            (∀ r ∈ s.table.records, b.toNat = r.image.string.val + 1 → r.image.state = .released) →
            exec (.getString b) s = .next (responds (alone 1 .notFound) s)))
      ∧ (s.link.phase = .waiting .getChanged →
        let rs := s.table.records.filter (·.changed)
        exec .getChanged s = .next (responds
          { params := 0, result := .ok, data := BitVec.ofNat 8 rs.length :: rs.flatMap fun r => r.image.bytes
            images := rs.map fun r => { handle := r.image.handle, serial := r.serial }, entries := 0 }
          { s with
            table := { s.table with
              records := s.table.records.map fun q => { q with changed := false }
              recency := s.table.recency.filter (fun h => decide (h ∉ rs.map fun r => r.image.handle))
                ++ rs.map fun r => r.image.handle } }))
      ∧ ∀ i : Image,
        let word (v : Int) : List Byte := [BitVec.ofInt 8 (v / 256), BitVec.ofInt 8 v]
        i.bytes =
          [BitVec.ofNat 8 i.handle, BitVec.ofNat 8 (i.state.code * 16 + (i.string.val + 1)), BitVec.ofNat 8 i.note]
            ++ word i.bend
            ++ [BitVec.ofNat 8 i.velocity, BitVec.ofNat 8 i.level, i.tag.getD 0#8,
              BitVec.ofNat 8 (128 * i.tag.isSome.toNat + 64 * i.hold.toNat + 32 * i.stale.toNat
                + 16 * i.corrected.toNat + 8 * i.saturated.toNat + 4 * (decide (i.profile = .B)).toNat),
              (i.zone.map fun z => BitVec.ofNat 8 z.val).getD 0xFF#8,
              BitVec.ofNat 8 (i.predecessor.getD 0), BitVec.ofNat 8 (i.successor.getD 0),
              (i.reason.map ReleaseReason.byte).getD 0#8, BitVec.ofInt 8 i.transpose, BitVec.ofNat 8 i.bendRange, 0#8]
            ++ word i.age

/-- LIST NOTES, GET STATUS, GET SETTING and PROBE RESULTS at a snapshot with the posted buffer empty, the command just
complete or its snapshot waited for: each answers from the state as it stands and changes nothing but the response. The
fault flags stand in bits 0 to 4 of their byte (OVERLOAD, OVERRUN, NOTICE LOSS, REFUSED, FRAME), and string s in bit s − 1
of the overload and overrun masks. -/
def Obligations.PlainReadsChangeNothing : Prop :=
  ∀ s : State, s.inReset = false → s.link.buffer = [] →
    let answers (params : Nat) (result : ResultCode) (data : List Byte) : State :=
      { s with
        link := { s.link with
          phase := .responding { params := params, result := result, data := data, images := [], entries := 0 } } }
    let word (v : Int) : List Byte := [BitVec.ofInt 8 (v / 256), BitVec.ofInt 8 v]
    let mask (mark : FrontEnd → Bool) : Byte :=
      BitVec.ofNat 8 ((List.finRange 8).map fun k : Str => if mark s.frontEnds[k] then 2 ^ k.val else 0).sum
    let u := s.notices
    (s.link.phase = .waiting .listNotes →
        exec .listNotes s = .next (answers 0 .ok
          (BitVec.ofNat 8 s.table.records.length :: s.table.records.map fun r => BitVec.ofNat 8 r.image.handle)))
      ∧ (s.link.phase = .waiting .getStatus →
        exec .getStatus s = .next (answers 0 .ok
          ([BitVec.ofNat 8 (u.overload.toNat + 2 * u.overrun.toNat + 4 * u.noticeLoss.toNat + 8 * u.refused.toNat
                + 16 * u.frame.toNat),
              mask (·.overloadMark), mask (·.overrunMark)]
            ++ (match s.notices.lastRefusal with
              | none => [0#8, 0#8, 0#8]
              | some r => [r.code, r.param, r.reason.byte])
            ++ [BitVec.ofNat 8 s.notices.queue.length, BitVec.ofNat 8 s.table.records.length,
              BitVec.ofNat 8 (s.table.records.filter fun r => decide (r.image.state ≠ .released)).length,
              if s.probe.running then 1#8 else 0#8,
              (match s.probe.string with
                | none => 0#8
                | some k => BitVec.ofNat 8 (k.val + 1)),
              BitVec.ofNat 8 s.probe.pointer, if s.settings.selected = .B then 1#8 else 0#8])))
      ∧ (∀ number : Byte, s.link.phase = .params .getSetting ∨ s.link.phase = .waiting (.getSetting number) →
        (∀ i, SettingId.ofNumber number = some i →
            exec (.getSetting number) s = .next (answers 1 .ok (word (s.settings.read i))))
          ∧ (SettingId.ofNumber number = none → exec (.getSetting number) s = .next (answers 1 .notFound [])))
      ∧ (s.link.phase = .waiting .probeResults →
        exec .probeResults s = .next (answers 0 .ok
          ([if s.probe.running then 1#8 else 0#8,
              (match s.probe.string with
                | none => 0#8
                | some k => BitVec.ofNat 8 (k.val + 1)),
              BitVec.ofNat 8 s.probe.start, BitVec.ofNat 8 s.probe.pointer,
              if (s.probe.slots[8]).isSome then 1#8 else 0#8,
              BitVec.ofNat 8 (((List.range 8).map fun j => if (s.probe.slots[j]?.join).isSome then 2 ^ j else 0).sum)]
            ++ s.probe.slots.toList.flatMap fun slot =>
              match slot with
              | none => [0#8, 0#8, 0#8, 0#8, 0#8, 0#8]
              | some r =>
                word r.mean16 ++ [BitVec.ofInt 8 r.least, BitVec.ofInt 8 r.greatest] ++ word r.count)))

/-- TAKE NOTICES at its snapshot, its parameter just complete or the posted buffer waited for, includes the oldest notices
up to its maximum and removes none; each NOTICE_ENTRY_DELIVERED removes the oldest notice while included entries remain.
Then the four bytes of each kind of notice, and the codes they carry. -/
def Obligations.NoticesLeaveAsTheyAreDelivered : Prop :=
  ∀ s : State, s.inReset = false →
    (∀ max : Byte, s.link.buffer = [] →
        s.link.phase = .params .takeNotices ∨ s.link.phase = .waiting (.takeNotices max) →
        let most := if max.toNat = 0 then 1 else min 32 max.toNat
        let ns := s.notices.queue.take most
        exec (.takeNotices max) s = .next
          { s with
            link := { s.link with
              phase := .responding
                { params := 1, result := .ok, data := BitVec.ofNat 8 ns.length :: ns.flatMap Notice.bytes
                  images := [], entries := ns.length } } })
      ∧ (∀ r : Response, s.link.phase = .responding r →
        (0 < r.entries → exec .noticeEntryDelivered s = .next
            { s with
              notices := { s.notices with queue := s.notices.queue.drop 1 }
              link := { s.link with phase := .responding { r with entries := r.entries - 1 } } })
          ∧ (r.entries = 0 → exec .noticeEntryDelivered s = .next s))
      ∧ ((∀ r : Response, s.link.phase ≠ .responding r) → exec .noticeEntryDelivered s = .next s)
      ∧ (∀ n : Notice, n.bytes = match n with
        | .new h st k note =>
          [1#8, BitVec.ofNat 8 h, BitVec.ofNat 8 (st.code * 16 + (k.val + 1)), BitVec.ofNat 8 note]
        | .confirmed h k note => [2#8, BitVec.ofNat 8 h, BitVec.ofNat 8 (k.val + 1), BitVec.ofNat 8 note]
        | .corrected h note => [3#8, BitVec.ofNat 8 h, 0#8, BitVec.ofNat 8 note]
        | .released h reason succ => [4#8, BitVec.ofNat 8 h, reason.byte, BitVec.ofNat 8 succ]
        | .expired h => [5#8, BitVec.ofNat 8 h, 0#8, 0#8]
        | .evicted h => [6#8, BitVec.ofNat 8 h, 0#8, 0#8]
        | .probeDone k slots => [7#8, BitVec.ofNat 8 (k.val + 1), BitVec.ofNat 8 slots, 0#8]
        | .probeAborted k reason => [8#8, BitVec.ofNat 8 (k.val + 1), reason.byte, 0#8]
        | .fault cause detail => [9#8, 0#8, cause.byte, detail])
      ∧ ([RecordState.provisional, .sounding, .released].map RecordState.code = [1, 2, 3])
      ∧ ([ReleaseReason.decay, .restrike, .legato, .overbend, .stale, .forced, .disabled].map ReleaseReason.byte
        = [1#8, 2#8, 3#8, 4#8, 5#8, 6#8, 7#8])
      ∧ ([FaultCause.overload, .overrun, .noticeLoss, .refused, .frame].map FaultCause.byte = [1#8, 2#8, 3#8, 4#8, 5#8])
      ∧ ([AbortReason.stopped, .disabled, .reference].map AbortReason.byte = [1#8, 2#8, 3#8])
      ∧ ([RefusalReason.notFound, .live, .badValue, .badSetting, .bufferFull].map RefusalReason.byte
        = [1#8, 2#8, 3#8, 4#8, 5#8])
      ∧ [ResultCode.ok, .notFound, .badValue, .busy, .disabled].map ResultCode.byte = [1#8, 2#8, 3#8, 4#8, 5#8]

/-! ## Notice and Fault Unit -/

/-- A notice handed on is dropped, queued or lost; a cause reported sets its flag and hands on a FAULT notice if the
flag was clear and the cause is not NOTICE LOSS. The bits of the notice enable mask stand, from bit 0 to bit 8, for NEW,
CONFIRMED, CORRECTED, RELEASED, EXPIRED, EVICTED, PROBE DONE, PROBE ABORTED and FAULT, and each cause has its own flag. -/
def Obligations.NoticesAndCausesAreHandedOn : Prop :=
  (∀ n : Notice, n.enableBit = match n with
    | .new _ _ _ _ => 0
    | .confirmed _ _ _ => 1
    | .corrected _ _ => 2
    | .released _ _ _ => 3
    | .expired _ => 4
    | .evicted _ => 5
    | .probeDone _ _ => 6
    | .probeAborted _ _ => 7
    | .fault _ _ => 8)
  ∧ (∀ u : NoticeUnit,
    (u.flag .overload = u.overload ∧ u.flag .overrun = u.overrun ∧ u.flag .noticeLoss = u.noticeLoss
        ∧ u.flag .refused = u.refused ∧ u.flag .frame = u.frame)
      ∧ u.setFlag true .overload = { u with overload := true } ∧ u.setFlag true .overrun = { u with overrun := true }
      ∧ u.setFlag true .noticeLoss = { u with noticeLoss := true }
      ∧ u.setFlag true .refused = { u with refused := true } ∧ u.setFlag true .frame = { u with frame := true })
  ∧ ∀ (u : NoticeUnit) (enables : BitVec 9),
    (∀ n : Notice,
        (enables.getLsbD n.enableBit = false → u.hand enables n = u)
          ∧ (enables.getLsbD n.enableBit = true → u.queue.length < 32 →
            u.hand enables n = { u with queue := u.queue ++ [n] })
          ∧ (enables.getLsbD n.enableBit = true → 32 ≤ u.queue.length →
            u.hand enables n = { u with noticeLoss := true }))
      ∧ (∀ (c : FaultCause) (detail : Byte),
        (u.flag c = true → u.report enables c detail = u)
          ∧ (u.flag c = false → c ≠ .noticeLoss →
            u.report enables c detail = (u.setFlag true c).hand enables (.fault c detail))
          ∧ (u.flag c = false → c = .noticeLoss → u.report enables c detail = { u with noticeLoss := true }))
      ∧ ∀ (code param : Byte) (reason : RefusalReason),
        u.refuse enables code param reason =
          { u.report enables .refused reason.byte with
            lastRefusal := some { code := code, param := param, reason := reason } }

/-- CLEAR FAULTS clears the flags its mask names, the marks of every string with OVERLOAD and OVERRUN, and the
last-refusal record with REFUSED, and nothing else. -/
def Obligations.ClearFaultsClearsWhatItNames : Prop :=
  ∀ (s : State) (rest : List Posted) (m : Byte), s.inReset = false → s.link.applied = false →
    s.link.buffer = .clearFaults m :: rest →
    exec .clearFaults s = .next
      { s with
        notices :=
          { queue := s.notices.queue
            overload := if m.getLsbD 0 then false else s.notices.overload
            overrun := if m.getLsbD 1 then false else s.notices.overrun
            noticeLoss := if m.getLsbD 2 then false else s.notices.noticeLoss
            refused := if m.getLsbD 3 then false else s.notices.refused
            frame := if m.getLsbD 4 then false else s.notices.frame
            lastRefusal := if m.getLsbD 3 then none else s.notices.lastRefusal
            coming := s.notices.coming }
        frontEnds := Vector.ofFn fun k =>
          { s.frontEnds[k] with
            overloadMark := if m.getLsbD 0 then false else (s.frontEnds[k]).overloadMark
            overrunMark := if m.getLsbD 1 then false else (s.frontEnds[k]).overrunMark }
        link := { s.link with applied := true } }

/-- ATTN is asserted while a cause holds with its enable set, and the status byte reports ATTN, the causes whatever
their enables, the posted buffer, the probe and the selected profile in its eight bits. -/
def Obligations.AttentionAndStatusFollowTheCauses : Prop :=
  ∀ s : State,
    let notices : Prop := s.notices.queue ≠ []
    let changes : Prop := ∃ r ∈ s.table.records, r.changed = true
    let faults : Prop := ∃ c, s.notices.flag c = true
    (s.attn = true ↔
        s.settings.attention.getLsbD 0 = true ∧ notices ∨ s.settings.attention.getLsbD 1 = true ∧ changes
          ∨ s.settings.attention.getLsbD 2 = true ∧ faults)
      ∧ (s.statusByte.getLsbD 7 = s.attn)
      ∧ (s.statusByte.getLsbD 6 = true ↔ notices)
      ∧ (s.statusByte.getLsbD 5 = true ↔ changes)
      ∧ (s.statusByte.getLsbD 4 = true ↔ faults)
      ∧ (s.statusByte.getLsbD 3 = true ↔ s.link.buffer = [])
      ∧ (s.statusByte.getLsbD 2 = true ↔ s.link.buffer.length = 8)
      ∧ (s.statusByte.getLsbD 1 = true ↔ s.probe.running = true)
      ∧ (s.statusByte.getLsbD 0 = true ↔ s.settings.selected = .B)

/-! ## Invariants -/

/-- Every step keeps the Front Ends within their ranges and disabled strings' Front Ends in their disabled condition,
and keeps the Pitch Unit BUSY while any string asks for it. -/
def Obligations.StepKeepsFrontEndsAndGrants : Prop :=
  ∀ s t : State, s.frontEndsWf → s.freeMeansIdle → step s = .next t → t.frontEndsWf ∧ t.freeMeansIdle

/-- Every step keeps in each Tracker exactly the items that its channel state has: the live handle (absent in FORMING while
CREATE's answer is awaited), the last-sent values, the committed pair and the running stale timer; the held step candidate
in FORMING and TRACKING alone; the first-pair raw pitch in ATTACK and BLEED alone and always in BLEED; the pending
predecessor in ATTACK, BLEED and MUTED alone. And every answer fits its request. -/
def Obligations.StepKeepsTrackersCoherent : Prop :=
  ∀ s t : State, (∀ k : Str, (s.trackers[k]).wf) → step s = .next t → ∀ k : Str, (t.trackers[k]).wf

/-- Every step keeps the Note Table's handles pairwise distinct and within 1 to 255, its two lists over the same
records, at most sixteen of them, and its counter within range; and a release reason exactly on the RELEASED
records. -/
def Obligations.StepKeepsTheTableCoherent : Prop :=
  ∀ s t : State, s.table.wf → (∀ r ∈ s.table.records, r.wf) → step s = .next t →
    t.table.wf ∧ ∀ r ∈ t.table.records, r.wf

/-- Every step keeps every setting within its stated range and the probe's context coherent: the offset that auto-apply
writes is within range because the run's totals are. -/
def Obligations.StepKeepsSettingsWithinRange : Prop :=
  ∀ s t : State, s.settings.wf → s.probe.wf → step s = .next t → t.settings.wf ∧ t.probe.wf

/-- Every step keeps every field of every record within its range, given settings within theirs; and it keeps the
magnitude of every record's bend at most 64 times the record's bend range, given what the other invariants hold of the
Trackers, the table and the live records, for each Tracker sends bends within the range that it remembers, which is that of
its string's live record. -/
def Obligations.StepKeepsRecordFieldsWithinRange : Prop :=
  (∀ s t : State, s.settings.wf → s.valuesInRange → step s = .next t → t.valuesInRange)
    ∧ (∀ s t : State, s.settings.wf → s.valuesInRange → (∀ k : Str, (s.trackers[k]).wf) → s.table.wf → s.livesWf →
      s.bendsWf → step s = .next t → t.bendsWf)
    ∧ ∀ s : State, s.valuesInRange → s.bendsWf →
      ∀ r ∈ s.table.records,
        (r.image.note ≤ 127 ∧ 1 ≤ r.image.velocity ∧ r.image.velocity ≤ 127 ∧ r.image.level ≤ 127)
          ∧ -(64 * (r.image.bendRange : Int)) ≤ r.image.bend ∧ r.image.bend ≤ 64 * (r.image.bendRange : Int)
          ∧ 1 ≤ r.image.bendRange ∧ r.image.bendRange ≤ 24 ∧ -24 ≤ r.image.transpose ∧ r.image.transpose ≤ 24

/-- Every step keeps the posted buffer and the notice queue within their capacities, leaves no RESTART in the buffer whose
effects are in place, leaves a notice on its way only while an application is to complete (the model's own, assumption log
31), and keeps a part that is held in hard reset at its hard-reset values. -/
def Obligations.StepKeepsQueuesAndHeldValues : Prop :=
  ∀ s t : State, s.queuesWf → s.heldWf → step s = .next t → t.queuesWf ∧ t.heldWf

/-- Every invariant holds after a reset. -/
def Obligations.InvariantsHoldAtReset : Prop :=
  State.reset.frontEndsWf ∧ State.reset.freeMeansIdle ∧ (∀ k : Str, (State.reset.trackers[k]).wf)
    ∧ State.reset.table.wf ∧ (∀ r ∈ State.reset.table.records, r.wf) ∧ State.reset.settings.wf ∧ State.reset.probe.wf
    ∧ State.reset.valuesInRange ∧ State.reset.bendsWf ∧ State.reset.queuesWf ∧ State.reset.heldWf ∧ State.reset.livesWf

/-- Every step keeps at most one live record on a string, the one its Tracker owns, and keeps links in pairs: a present
predecessor or successor names an occupied record on the same string whose opposite field names it back. So at most
eight records are live, and a full table always has a victim. A step that creates a record is taken to give it a handle
that no forced-release message still on its way to the string's Tracker names, since a handle comes back into use only
after the counter has passed through every other handle (DEDUCED, assumption log 33). -/
def Obligations.StepKeepsOneLiveRecordOnAString : Prop :=
  (∀ s t : State, (∀ k : Str, (s.trackers[k]).wf) → s.table.wf → (∀ r ∈ s.table.records, r.wf) → s.livesWf →
    step s = .next t →
    (∀ r ∈ t.table.records, s.table.created ≤ r.serial → ¬ (s.trackers[r.image.string]).toldOf r.image.handle) →
    t.livesWf)
    ∧ ∀ s : State, s.table.wf → s.livesWf →
      (∀ q ∈ s.table.records, ∀ r ∈ s.table.records, q.image.string = r.image.string → q.image.state ≠ .released →
          r.image.state ≠ .released → q = r)
        ∧ (s.table.records.filter fun r => decide (r.image.state ≠ .released)).length ≤ 8
        ∧ (s.table.records.length = 16 → (s.table.victim none).isSome)
        ∧ ∀ r ∈ s.table.records,
          (∀ h ∈ r.image.predecessor, ∃ q ∈ s.table.records,
              q.image.handle = h ∧ q.image.string = r.image.string ∧ q.image.successor = some r.image.handle)
            ∧ ∀ h ∈ r.image.successor, ∃ q ∈ s.table.records,
              q.image.handle = h ∧ q.image.string = r.image.string ∧ q.image.predecessor = some r.image.handle
end

