-- ==== Sys2Proof/Laws/State.lean ====
section
/-! SUPPORT. What each replacement of a part of the state leaves in each field, one lemma per field, and the value a
bank holds for a string after one entry is replaced. -/

namespace Sys2Proof.Machine

/-! ## Banks -/

/-- A bank's entry for a string after the entry of another string, or its own, was replaced. -/
theorem bank_get_set {α : Type} (v : Bank α) (i j : Str) (x : α) : (v.set i x)[j] = if i = j then x else v[j] := by
  simp only [Fin.getElem_fin, Vector.getElem_set, Fin.ext_iff]

/-- A bank's own entry after it was replaced. -/
theorem bank_get_set_self {α : Type} (v : Bank α) (i : Str) (x : α) : (v.set i x)[i] = x := by
  rw [bank_get_set, if_pos rfl]

/-- A bank's entry after the entry of another string was replaced. -/
theorem bank_get_set_ne {α : Type} (v : Bank α) {i j : Str} (x : α) (h : i ≠ j) : (v.set i x)[j] = v[j] := by
  rw [bank_get_set, if_neg h]

/-- A bank given by a function of the string. -/
theorem bank_get_ofFn {α : Type} (f : Str → α) (i : Str) : (Vector.ofFn f)[i] = f i := by
  simp only [Fin.getElem_fin, Vector.getElem_ofFn, Fin.eta]

/-- A bank with the same entry for every string. -/
theorem bank_get_replicate {α : Type} (x : α) (i : Str) : (Vector.replicate 8 x)[i] = x := by
  simp only [Fin.getElem_fin, Vector.getElem_replicate]

/-- Two banks with the same entry for every string are the same. -/
theorem bank_ext {α : Type} {v w : Bank α} (h : ∀ i : Str, v[i] = w[i]) : v = w :=
  Vector.ext fun i hi => h ⟨i, hi⟩

/-- Replacing an entry by itself changes nothing. -/
theorem bank_set_get {α : Type} (v : Bank α) (i : Str) : v.set i v[i] = v :=
  bank_ext fun j => by
    rw [bank_get_set]
    split
    · next h => rw [h]
    · rfl

/-- The later of two replacements of one entry stands. -/
theorem bank_set_set {α : Type} (v : Bank α) (i : Str) (x y : α) : (v.set i x).set i y = v.set i y :=
  bank_ext fun j => by simp only [bank_get_set]; split <;> rfl

/-! ## Fields -/

@[simp] theorem setFrontEnd_frontEnds (σ : State) (k : Str) (f : FrontEnd) : (σ.setFrontEnd k f).frontEnds = σ.frontEnds.set k f := rfl
@[simp] theorem setFrontEnd_pitchUnit (σ : State) (k : Str) (f : FrontEnd) : (σ.setFrontEnd k f).pitchUnit = σ.pitchUnit := rfl
@[simp] theorem setFrontEnd_trackers (σ : State) (k : Str) (f : FrontEnd) : (σ.setFrontEnd k f).trackers = σ.trackers := rfl
@[simp] theorem setFrontEnd_table (σ : State) (k : Str) (f : FrontEnd) : (σ.setFrontEnd k f).table = σ.table := rfl
@[simp] theorem setFrontEnd_settings (σ : State) (k : Str) (f : FrontEnd) : (σ.setFrontEnd k f).settings = σ.settings := rfl
@[simp] theorem setFrontEnd_probe (σ : State) (k : Str) (f : FrontEnd) : (σ.setFrontEnd k f).probe = σ.probe := rfl
@[simp] theorem setFrontEnd_link (σ : State) (k : Str) (f : FrontEnd) : (σ.setFrontEnd k f).link = σ.link := rfl
@[simp] theorem setFrontEnd_notices (σ : State) (k : Str) (f : FrontEnd) : (σ.setFrontEnd k f).notices = σ.notices := rfl
@[simp] theorem setFrontEnd_inReset (σ : State) (k : Str) (f : FrontEnd) : (σ.setFrontEnd k f).inReset = σ.inReset := rfl
@[simp] theorem setFrontEnd_resets (σ : State) (k : Str) (f : FrontEnd) : (σ.setFrontEnd k f).resets = σ.resets := rfl
@[simp] theorem setFrontEnd_pending (σ : State) (k : Str) (f : FrontEnd) : (σ.setFrontEnd k f).pending = σ.pending := rfl

@[simp] theorem setTracker_frontEnds (σ : State) (k : Str) (t : Tracker) : (σ.setTracker k t).frontEnds = σ.frontEnds := rfl
@[simp] theorem setTracker_pitchUnit (σ : State) (k : Str) (t : Tracker) : (σ.setTracker k t).pitchUnit = σ.pitchUnit := rfl
@[simp] theorem setTracker_trackers (σ : State) (k : Str) (t : Tracker) : (σ.setTracker k t).trackers = σ.trackers.set k t := rfl
@[simp] theorem setTracker_table (σ : State) (k : Str) (t : Tracker) : (σ.setTracker k t).table = σ.table := rfl
@[simp] theorem setTracker_settings (σ : State) (k : Str) (t : Tracker) : (σ.setTracker k t).settings = σ.settings := rfl
@[simp] theorem setTracker_probe (σ : State) (k : Str) (t : Tracker) : (σ.setTracker k t).probe = σ.probe := rfl
@[simp] theorem setTracker_link (σ : State) (k : Str) (t : Tracker) : (σ.setTracker k t).link = σ.link := rfl
@[simp] theorem setTracker_notices (σ : State) (k : Str) (t : Tracker) : (σ.setTracker k t).notices = σ.notices := rfl
@[simp] theorem setTracker_inReset (σ : State) (k : Str) (t : Tracker) : (σ.setTracker k t).inReset = σ.inReset := rfl
@[simp] theorem setTracker_resets (σ : State) (k : Str) (t : Tracker) : (σ.setTracker k t).resets = σ.resets := rfl
@[simp] theorem setTracker_pending (σ : State) (k : Str) (t : Tracker) : (σ.setTracker k t).pending = σ.pending := rfl

@[simp] theorem setPitchUnit_frontEnds (σ : State) (p : PitchUnit) : (σ.setPitchUnit p).frontEnds = σ.frontEnds := rfl
@[simp] theorem setPitchUnit_pitchUnit (σ : State) (p : PitchUnit) : (σ.setPitchUnit p).pitchUnit = p := rfl
@[simp] theorem setPitchUnit_trackers (σ : State) (p : PitchUnit) : (σ.setPitchUnit p).trackers = σ.trackers := rfl
@[simp] theorem setPitchUnit_table (σ : State) (p : PitchUnit) : (σ.setPitchUnit p).table = σ.table := rfl
@[simp] theorem setPitchUnit_settings (σ : State) (p : PitchUnit) : (σ.setPitchUnit p).settings = σ.settings := rfl
@[simp] theorem setPitchUnit_probe (σ : State) (p : PitchUnit) : (σ.setPitchUnit p).probe = σ.probe := rfl
@[simp] theorem setPitchUnit_link (σ : State) (p : PitchUnit) : (σ.setPitchUnit p).link = σ.link := rfl
@[simp] theorem setPitchUnit_notices (σ : State) (p : PitchUnit) : (σ.setPitchUnit p).notices = σ.notices := rfl
@[simp] theorem setPitchUnit_inReset (σ : State) (p : PitchUnit) : (σ.setPitchUnit p).inReset = σ.inReset := rfl
@[simp] theorem setPitchUnit_resets (σ : State) (p : PitchUnit) : (σ.setPitchUnit p).resets = σ.resets := rfl
@[simp] theorem setPitchUnit_pending (σ : State) (p : PitchUnit) : (σ.setPitchUnit p).pending = σ.pending := rfl

@[simp] theorem setTable_frontEnds (σ : State) (t : NoteTable) : (σ.setTable t).frontEnds = σ.frontEnds := rfl
@[simp] theorem setTable_pitchUnit (σ : State) (t : NoteTable) : (σ.setTable t).pitchUnit = σ.pitchUnit := rfl
@[simp] theorem setTable_trackers (σ : State) (t : NoteTable) : (σ.setTable t).trackers = σ.trackers := rfl
@[simp] theorem setTable_table (σ : State) (t : NoteTable) : (σ.setTable t).table = t := rfl
@[simp] theorem setTable_settings (σ : State) (t : NoteTable) : (σ.setTable t).settings = σ.settings := rfl
@[simp] theorem setTable_probe (σ : State) (t : NoteTable) : (σ.setTable t).probe = σ.probe := rfl
@[simp] theorem setTable_link (σ : State) (t : NoteTable) : (σ.setTable t).link = σ.link := rfl
@[simp] theorem setTable_notices (σ : State) (t : NoteTable) : (σ.setTable t).notices = σ.notices := rfl
@[simp] theorem setTable_inReset (σ : State) (t : NoteTable) : (σ.setTable t).inReset = σ.inReset := rfl
@[simp] theorem setTable_resets (σ : State) (t : NoteTable) : (σ.setTable t).resets = σ.resets := rfl
@[simp] theorem setTable_pending (σ : State) (t : NoteTable) : (σ.setTable t).pending = σ.pending := rfl

@[simp] theorem setSettings_frontEnds (σ : State) (c : Settings) : (σ.setSettings c).frontEnds = σ.frontEnds := rfl
@[simp] theorem setSettings_pitchUnit (σ : State) (c : Settings) : (σ.setSettings c).pitchUnit = σ.pitchUnit := rfl
@[simp] theorem setSettings_trackers (σ : State) (c : Settings) : (σ.setSettings c).trackers = σ.trackers := rfl
@[simp] theorem setSettings_table (σ : State) (c : Settings) : (σ.setSettings c).table = σ.table := rfl
@[simp] theorem setSettings_settings (σ : State) (c : Settings) : (σ.setSettings c).settings = c := rfl
@[simp] theorem setSettings_probe (σ : State) (c : Settings) : (σ.setSettings c).probe = σ.probe := rfl
@[simp] theorem setSettings_link (σ : State) (c : Settings) : (σ.setSettings c).link = σ.link := rfl
@[simp] theorem setSettings_notices (σ : State) (c : Settings) : (σ.setSettings c).notices = σ.notices := rfl
@[simp] theorem setSettings_inReset (σ : State) (c : Settings) : (σ.setSettings c).inReset = σ.inReset := rfl
@[simp] theorem setSettings_resets (σ : State) (c : Settings) : (σ.setSettings c).resets = σ.resets := rfl
@[simp] theorem setSettings_pending (σ : State) (c : Settings) : (σ.setSettings c).pending = σ.pending := rfl

@[simp] theorem setProbe_frontEnds (σ : State) (p : Probe) : (σ.setProbe p).frontEnds = σ.frontEnds := rfl
@[simp] theorem setProbe_pitchUnit (σ : State) (p : Probe) : (σ.setProbe p).pitchUnit = σ.pitchUnit := rfl
@[simp] theorem setProbe_trackers (σ : State) (p : Probe) : (σ.setProbe p).trackers = σ.trackers := rfl
@[simp] theorem setProbe_table (σ : State) (p : Probe) : (σ.setProbe p).table = σ.table := rfl
@[simp] theorem setProbe_settings (σ : State) (p : Probe) : (σ.setProbe p).settings = σ.settings := rfl
@[simp] theorem setProbe_probe (σ : State) (p : Probe) : (σ.setProbe p).probe = p := rfl
@[simp] theorem setProbe_link (σ : State) (p : Probe) : (σ.setProbe p).link = σ.link := rfl
@[simp] theorem setProbe_notices (σ : State) (p : Probe) : (σ.setProbe p).notices = σ.notices := rfl
@[simp] theorem setProbe_inReset (σ : State) (p : Probe) : (σ.setProbe p).inReset = σ.inReset := rfl
@[simp] theorem setProbe_resets (σ : State) (p : Probe) : (σ.setProbe p).resets = σ.resets := rfl
@[simp] theorem setProbe_pending (σ : State) (p : Probe) : (σ.setProbe p).pending = σ.pending := rfl

@[simp] theorem setLink_frontEnds (σ : State) (l : Link) : (σ.setLink l).frontEnds = σ.frontEnds := rfl
@[simp] theorem setLink_pitchUnit (σ : State) (l : Link) : (σ.setLink l).pitchUnit = σ.pitchUnit := rfl
@[simp] theorem setLink_trackers (σ : State) (l : Link) : (σ.setLink l).trackers = σ.trackers := rfl
@[simp] theorem setLink_table (σ : State) (l : Link) : (σ.setLink l).table = σ.table := rfl
@[simp] theorem setLink_settings (σ : State) (l : Link) : (σ.setLink l).settings = σ.settings := rfl
@[simp] theorem setLink_probe (σ : State) (l : Link) : (σ.setLink l).probe = σ.probe := rfl
@[simp] theorem setLink_link (σ : State) (l : Link) : (σ.setLink l).link = l := rfl
@[simp] theorem setLink_notices (σ : State) (l : Link) : (σ.setLink l).notices = σ.notices := rfl
@[simp] theorem setLink_inReset (σ : State) (l : Link) : (σ.setLink l).inReset = σ.inReset := rfl
@[simp] theorem setLink_resets (σ : State) (l : Link) : (σ.setLink l).resets = σ.resets := rfl
@[simp] theorem setLink_pending (σ : State) (l : Link) : (σ.setLink l).pending = σ.pending := rfl

@[simp] theorem setNotices_frontEnds (σ : State) (u : NoticeUnit) : (σ.setNotices u).frontEnds = σ.frontEnds := rfl
@[simp] theorem setNotices_pitchUnit (σ : State) (u : NoticeUnit) : (σ.setNotices u).pitchUnit = σ.pitchUnit := rfl
@[simp] theorem setNotices_trackers (σ : State) (u : NoticeUnit) : (σ.setNotices u).trackers = σ.trackers := rfl
@[simp] theorem setNotices_table (σ : State) (u : NoticeUnit) : (σ.setNotices u).table = σ.table := rfl
@[simp] theorem setNotices_settings (σ : State) (u : NoticeUnit) : (σ.setNotices u).settings = σ.settings := rfl
@[simp] theorem setNotices_probe (σ : State) (u : NoticeUnit) : (σ.setNotices u).probe = σ.probe := rfl
@[simp] theorem setNotices_link (σ : State) (u : NoticeUnit) : (σ.setNotices u).link = σ.link := rfl
@[simp] theorem setNotices_notices (σ : State) (u : NoticeUnit) : (σ.setNotices u).notices = u := rfl
@[simp] theorem setNotices_inReset (σ : State) (u : NoticeUnit) : (σ.setNotices u).inReset = σ.inReset := rfl
@[simp] theorem setNotices_resets (σ : State) (u : NoticeUnit) : (σ.setNotices u).resets = σ.resets := rfl
@[simp] theorem setNotices_pending (σ : State) (u : NoticeUnit) : (σ.setNotices u).pending = σ.pending := rfl

@[simp] theorem setPhase_frontEnds (σ : State) (p : Phase) : (σ.setPhase p).frontEnds = σ.frontEnds := rfl
@[simp] theorem setPhase_pitchUnit (σ : State) (p : Phase) : (σ.setPhase p).pitchUnit = σ.pitchUnit := rfl
@[simp] theorem setPhase_trackers (σ : State) (p : Phase) : (σ.setPhase p).trackers = σ.trackers := rfl
@[simp] theorem setPhase_table (σ : State) (p : Phase) : (σ.setPhase p).table = σ.table := rfl
@[simp] theorem setPhase_settings (σ : State) (p : Phase) : (σ.setPhase p).settings = σ.settings := rfl
@[simp] theorem setPhase_probe (σ : State) (p : Phase) : (σ.setPhase p).probe = σ.probe := rfl
@[simp] theorem setPhase_link (σ : State) (p : Phase) : (σ.setPhase p).link = { σ.link with phase := p } := rfl
@[simp] theorem setPhase_notices (σ : State) (p : Phase) : (σ.setPhase p).notices = σ.notices := rfl
@[simp] theorem setPhase_inReset (σ : State) (p : Phase) : (σ.setPhase p).inReset = σ.inReset := rfl
@[simp] theorem setPhase_resets (σ : State) (p : Phase) : (σ.setPhase p).resets = σ.resets := rfl
@[simp] theorem setPhase_pending (σ : State) (p : Phase) : (σ.setPhase p).pending = σ.pending := rfl

@[simp] theorem hand_frontEnds (σ : State) (n : Notice) : (σ.hand n).frontEnds = σ.frontEnds := rfl
@[simp] theorem hand_pitchUnit (σ : State) (n : Notice) : (σ.hand n).pitchUnit = σ.pitchUnit := rfl
@[simp] theorem hand_trackers (σ : State) (n : Notice) : (σ.hand n).trackers = σ.trackers := rfl
@[simp] theorem hand_table (σ : State) (n : Notice) : (σ.hand n).table = σ.table := rfl
@[simp] theorem hand_settings (σ : State) (n : Notice) : (σ.hand n).settings = σ.settings := rfl
@[simp] theorem hand_probe (σ : State) (n : Notice) : (σ.hand n).probe = σ.probe := rfl
@[simp] theorem hand_link (σ : State) (n : Notice) : (σ.hand n).link = σ.link := rfl
@[simp] theorem hand_notices (σ : State) (n : Notice) : (σ.hand n).notices = σ.notices.hand σ.settings.noticeEnables n := rfl
@[simp] theorem hand_inReset (σ : State) (n : Notice) : (σ.hand n).inReset = σ.inReset := rfl
@[simp] theorem hand_resets (σ : State) (n : Notice) : (σ.hand n).resets = σ.resets := rfl
@[simp] theorem hand_pending (σ : State) (n : Notice) : (σ.hand n).pending = σ.pending := rfl

@[simp] theorem handAll_frontEnds (σ : State) (ns : List Notice) : (σ.handAll ns).frontEnds = σ.frontEnds := rfl
@[simp] theorem handAll_pitchUnit (σ : State) (ns : List Notice) : (σ.handAll ns).pitchUnit = σ.pitchUnit := rfl
@[simp] theorem handAll_trackers (σ : State) (ns : List Notice) : (σ.handAll ns).trackers = σ.trackers := rfl
@[simp] theorem handAll_table (σ : State) (ns : List Notice) : (σ.handAll ns).table = σ.table := rfl
@[simp] theorem handAll_settings (σ : State) (ns : List Notice) : (σ.handAll ns).settings = σ.settings := rfl
@[simp] theorem handAll_probe (σ : State) (ns : List Notice) : (σ.handAll ns).probe = σ.probe := rfl
@[simp] theorem handAll_link (σ : State) (ns : List Notice) : (σ.handAll ns).link = σ.link := rfl
@[simp] theorem handAll_notices (σ : State) (ns : List Notice) : (σ.handAll ns).notices = σ.notices.handAll σ.settings.noticeEnables ns := rfl
@[simp] theorem handAll_inReset (σ : State) (ns : List Notice) : (σ.handAll ns).inReset = σ.inReset := rfl
@[simp] theorem handAll_resets (σ : State) (ns : List Notice) : (σ.handAll ns).resets = σ.resets := rfl
@[simp] theorem handAll_pending (σ : State) (ns : List Notice) : (σ.handAll ns).pending = σ.pending := rfl

@[simp] theorem report_frontEnds (σ : State) (c : FaultCause) (d : Byte) : (σ.report c d).frontEnds = σ.frontEnds := rfl
@[simp] theorem report_pitchUnit (σ : State) (c : FaultCause) (d : Byte) : (σ.report c d).pitchUnit = σ.pitchUnit := rfl
@[simp] theorem report_trackers (σ : State) (c : FaultCause) (d : Byte) : (σ.report c d).trackers = σ.trackers := rfl
@[simp] theorem report_table (σ : State) (c : FaultCause) (d : Byte) : (σ.report c d).table = σ.table := rfl
@[simp] theorem report_settings (σ : State) (c : FaultCause) (d : Byte) : (σ.report c d).settings = σ.settings := rfl
@[simp] theorem report_probe (σ : State) (c : FaultCause) (d : Byte) : (σ.report c d).probe = σ.probe := rfl
@[simp] theorem report_link (σ : State) (c : FaultCause) (d : Byte) : (σ.report c d).link = σ.link := rfl
@[simp] theorem report_notices (σ : State) (c : FaultCause) (d : Byte) : (σ.report c d).notices = σ.notices.report σ.settings.noticeEnables c d := rfl
@[simp] theorem report_inReset (σ : State) (c : FaultCause) (d : Byte) : (σ.report c d).inReset = σ.inReset := rfl
@[simp] theorem report_resets (σ : State) (c : FaultCause) (d : Byte) : (σ.report c d).resets = σ.resets := rfl
@[simp] theorem report_pending (σ : State) (c : FaultCause) (d : Byte) : (σ.report c d).pending = σ.pending := rfl

@[simp] theorem refuse_frontEnds (σ : State) (c : CommandCode) (p : Byte) (r : RefusalReason) : (σ.refuse c p r).frontEnds = σ.frontEnds := rfl
@[simp] theorem refuse_pitchUnit (σ : State) (c : CommandCode) (p : Byte) (r : RefusalReason) : (σ.refuse c p r).pitchUnit = σ.pitchUnit := rfl
@[simp] theorem refuse_trackers (σ : State) (c : CommandCode) (p : Byte) (r : RefusalReason) : (σ.refuse c p r).trackers = σ.trackers := rfl
@[simp] theorem refuse_table (σ : State) (c : CommandCode) (p : Byte) (r : RefusalReason) : (σ.refuse c p r).table = σ.table := rfl
@[simp] theorem refuse_settings (σ : State) (c : CommandCode) (p : Byte) (r : RefusalReason) : (σ.refuse c p r).settings = σ.settings := rfl
@[simp] theorem refuse_probe (σ : State) (c : CommandCode) (p : Byte) (r : RefusalReason) : (σ.refuse c p r).probe = σ.probe := rfl
@[simp] theorem refuse_link (σ : State) (c : CommandCode) (p : Byte) (r : RefusalReason) : (σ.refuse c p r).link = σ.link := rfl
@[simp] theorem refuse_notices (σ : State) (c : CommandCode) (p : Byte) (r : RefusalReason) : (σ.refuse c p r).notices = σ.notices.refuse σ.settings.noticeEnables c.byte p r := rfl
@[simp] theorem refuse_inReset (σ : State) (c : CommandCode) (p : Byte) (r : RefusalReason) : (σ.refuse c p r).inReset = σ.inReset := rfl
@[simp] theorem refuse_resets (σ : State) (c : CommandCode) (p : Byte) (r : RefusalReason) : (σ.refuse c p r).resets = σ.resets := rfl
@[simp] theorem refuse_pending (σ : State) (c : CommandCode) (p : Byte) (r : RefusalReason) : (σ.refuse c p r).pending = σ.pending := rfl

@[simp] theorem sendForced_frontEnds (σ : State) (k : Str) (h : Nat) : (σ.sendForced k h).frontEnds = σ.frontEnds := rfl
@[simp] theorem sendForced_pitchUnit (σ : State) (k : Str) (h : Nat) : (σ.sendForced k h).pitchUnit = σ.pitchUnit := rfl
@[simp] theorem sendForced_trackers (σ : State) (k : Str) (h : Nat) : (σ.sendForced k h).trackers = σ.trackers.set k { σ.trackers[k] with forced := (σ.trackers[k]).forced ++ [h] } := rfl
@[simp] theorem sendForced_table (σ : State) (k : Str) (h : Nat) : (σ.sendForced k h).table = σ.table := rfl
@[simp] theorem sendForced_settings (σ : State) (k : Str) (h : Nat) : (σ.sendForced k h).settings = σ.settings := rfl
@[simp] theorem sendForced_probe (σ : State) (k : Str) (h : Nat) : (σ.sendForced k h).probe = σ.probe := rfl
@[simp] theorem sendForced_link (σ : State) (k : Str) (h : Nat) : (σ.sendForced k h).link = σ.link := rfl
@[simp] theorem sendForced_notices (σ : State) (k : Str) (h : Nat) : (σ.sendForced k h).notices = σ.notices := rfl
@[simp] theorem sendForced_inReset (σ : State) (k : Str) (h : Nat) : (σ.sendForced k h).inReset = σ.inReset := rfl
@[simp] theorem sendForced_resets (σ : State) (k : Str) (h : Nat) : (σ.sendForced k h).resets = σ.resets := rfl
@[simp] theorem sendForced_pending (σ : State) (k : Str) (h : Nat) : (σ.sendForced k h).pending = σ.pending := rfl

@[simp] theorem sendEnable_frontEnds (σ : State) (k : Str) (on : Bool) : (σ.sendEnable k on).frontEnds = σ.frontEnds := rfl
@[simp] theorem sendEnable_pitchUnit (σ : State) (k : Str) (on : Bool) : (σ.sendEnable k on).pitchUnit = σ.pitchUnit := rfl
@[simp] theorem sendEnable_trackers (σ : State) (k : Str) (on : Bool) : (σ.sendEnable k on).trackers = σ.trackers.set k { σ.trackers[k] with enables := (σ.trackers[k]).enables ++ [on] } := rfl
@[simp] theorem sendEnable_table (σ : State) (k : Str) (on : Bool) : (σ.sendEnable k on).table = σ.table := rfl
@[simp] theorem sendEnable_settings (σ : State) (k : Str) (on : Bool) : (σ.sendEnable k on).settings = σ.settings := rfl
@[simp] theorem sendEnable_probe (σ : State) (k : Str) (on : Bool) : (σ.sendEnable k on).probe = σ.probe := rfl
@[simp] theorem sendEnable_link (σ : State) (k : Str) (on : Bool) : (σ.sendEnable k on).link = σ.link := rfl
@[simp] theorem sendEnable_notices (σ : State) (k : Str) (on : Bool) : (σ.sendEnable k on).notices = σ.notices := rfl
@[simp] theorem sendEnable_inReset (σ : State) (k : Str) (on : Bool) : (σ.sendEnable k on).inReset = σ.inReset := rfl
@[simp] theorem sendEnable_resets (σ : State) (k : Str) (on : Bool) : (σ.sendEnable k on).resets = σ.resets := rfl
@[simp] theorem sendEnable_pending (σ : State) (k : Str) (on : Bool) : (σ.sendEnable k on).pending = σ.pending := rfl

end Sys2Proof.Machine
end

