-- ==== Sys2Proof/Laws/Frames.lean ====
section
/-! SUPPORT. What each step leaves alone, said once for each group of steps: the string channels' steps, the Note
Table's, the probe's, and the Control Link's. A frame equation gives the unchanged fields by congrArg. -/

namespace Sys2Proof.Machine

/-! ## The string channels -/

/-- Only Front Ends, Trackers, the Pitch Unit and the notices may have changed. -/
abbrev State.playedTo (σ τ : State) : Prop :=
  τ = { σ with frontEnds := τ.frontEnds, trackers := τ.trackers, pitchUnit := τ.pitchUnit, notices := τ.notices }

theorem beginComputation_frame (σ : State) (s : Str) (n : Nat) : σ.playedTo (σ.beginComputation s n) := by
  unfold State.beginComputation; split <;> rfl

theorem grant_frame (σ : State) : σ.playedTo σ.grant := by
  unfold State.grant
  split
  · rfl
  · exact beginComputation_frame _ _ _

theorem grantIfFree_frame (σ : State) : σ.playedTo σ.grantIfFree := by
  unfold State.grantIfFree
  split
  · exact grant_frame _
  · rfl

theorem decideContinuation_frame (σ : State) (s : Str) : σ.playedTo (σ.decideContinuation s) := by
  unfold State.decideContinuation
  split
  · exact beginComputation_frame _ _ _
  · exact grant_frame _

theorem putTaken_frame (σ : State) (s : Str) (k : Taken) : σ.playedTo (σ.putTaken s k) := by
  unfold State.putTaken; split <;> rfl

theorem deliver_frame (σ : State) (s : Str) (i : TrackerInput) : σ.playedTo (σ.deliver s i) := putTaken_frame _ _ _

theorem eventStep_frame (σ : State) (e : FrontEndEvent) (s : Str) : σ.playedTo (σ.eventStep e s) := by
  unfold State.eventStep
  split
  · rfl
  · split
    · exact deliver_frame _ _ _
    · rfl

theorem forcedStep_frame (σ : State) (s : Str) : σ.playedTo (σ.forcedStep s) := by
  unfold State.forcedStep
  split
  · rfl
  · exact deliver_frame _ _ _

theorem enableStep_frame (σ : State) (s : Str) : σ.playedTo (σ.enableStep s) := by
  unfold State.enableStep
  split
  · exact deliver_frame _ _ _
  · rfl
  · rfl

theorem disableStep_frame (σ : State) (s : Str) : σ.playedTo (σ.disableStep s) := by
  unfold State.disableStep
  split
  · exact deliver_frame _ _ _
  · rfl
  · rfl

theorem staleStep_frame (σ : State) (s : Str) : σ.playedTo (σ.staleStep s) := by
  unfold State.staleStep
  split
  · exact deliver_frame _ _ _
  · rfl

theorem trackerAnswer_frame (σ : State) (s : Str) : σ.playedTo (σ.trackerAnswer s) := by
  unfold State.trackerAnswer
  split
  · rfl
  · split
    · rfl
    · exact putTaken_frame _ _ _

theorem handResult_frame (σ : State) (c : Computation) : σ.playedTo (σ.handResult c) := deliver_frame _ _ _

theorem resultStep_frame (σ : State) (s : Str) : σ.playedTo (σ.resultStep s) := by
  unfold State.resultStep
  split
  · rfl
  · split
    · exact handResult_frame _ _
    · rfl

/-- Frames of the string channels compose. -/
theorem State.playedTo.trans {σ τ ρ : State} (h : σ.playedTo τ) (h' : τ.playedTo ρ) : σ.playedTo ρ := by
  cases σ; cases τ; cases ρ; simp_all only [State.playedTo, State.mk.injEq]

theorem completeComputation_frame (σ : State) : σ.playedTo σ.completeComputation := by
  unfold State.completeComputation
  split
  · rfl
  · refine State.playedTo.trans ?_ (decideContinuation_frame _ _)
    split
    · rfl
    · exact handResult_frame _ _

theorem reportOverload_frame (σ : State) (s : Str) (v : Int) : σ.playedTo (σ.reportOverload s v) := by
  unfold State.reportOverload; split <;> rfl

theorem writeReport_frame (σ : State) (s : Str) (r : CycleReport) : σ.playedTo (σ.writeReport s r) := by
  unfold State.writeReport
  refine State.playedTo.trans ?_ (grantIfFree_frame _)
  split <;> rfl

theorem takeSample_frame (σ : State) (s : Str) (v : Int) : σ.playedTo (σ.takeSample s v) := by
  have h : σ.playedTo ((σ.setFrontEnd s (((σ.frontEnds[s]).timed v).1.note v)).reportOverload s v) :=
    reportOverload_frame _ _ _
  unfold State.takeSample
  dsimp only
  split
  · exact h
  · exact State.playedTo.trans h (writeReport_frame _ _ _)

theorem sampleStep_frame (σ : State) (s : Str) (v : Int) : σ.playedTo (σ.sampleStep s v) := by
  unfold State.sampleStep
  split
  · exact takeSample_frame _ _ _
  · rfl

/-! ## The Note Table -/

/-- Only the table, the Trackers and the notices may have changed. -/
abbrev State.tabledTo (σ τ : State) : Prop :=
  τ = { σ with table := τ.table, trackers := τ.trackers, notices := τ.notices }

theorem serve_frame (σ : State) (s : Str) (f : Request → Option Reply) : σ.tabledTo (σ.serve s f) := by
  unfold State.serve
  split
  · rfl
  · split
    · rfl
    · split <;> rfl

theorem lingerExpiry_frame (σ : State) (h : Nat) : σ.tabledTo (σ.lingerExpiry h) := by
  unfold State.lingerExpiry
  split
  · rfl
  · split
    · split <;> rfl
    · rfl

theorem tagNote_frame (σ : State) (h t : Byte) : σ.tabledTo (σ.tagNote h t) := by
  unfold State.tagNote; split <;> rfl

theorem untagNote_frame (σ : State) (h : Byte) : σ.tabledTo (σ.untagNote h) := by
  unfold State.untagNote; split <;> rfl

theorem holdNote_frame (σ : State) (h v : Byte) : σ.tabledTo (σ.holdNote h v) := by
  unfold State.holdNote
  split
  · rfl
  · split <;> rfl

theorem releaseNote_frame (σ : State) (h : Byte) : σ.tabledTo (σ.releaseNote h) := by
  unfold State.releaseNote
  split
  · rfl
  · split <;> rfl

theorem retireNote_frame (σ : State) (h : Byte) : σ.tabledTo (σ.retireNote h) := by
  unfold State.retireNote
  split
  · rfl
  · split <;> rfl

theorem forceReleaseAll_frame (rs : List Record) (σ : State) : σ.tabledTo (rs.foldl State.forceRelease σ) := by
  induction rs generalizing σ with
  | nil => rfl
  | cons r rs ih => exact ih (σ.forceRelease r)

theorem allRelease_frame (σ : State) : σ.tabledTo σ.allRelease := forceReleaseAll_frame _ σ

/-! ## The probe and the Settings Store -/

/-- Only the probe, the settings, the Trackers, the Front Ends, the Pitch Unit and the notices may have changed. -/
abbrev State.tunedTo (σ τ : State) : Prop :=
  τ = { σ with
    probe := τ.probe, settings := τ.settings, trackers := τ.trackers, frontEnds := τ.frontEnds
    pitchUnit := τ.pitchUnit, notices := τ.notices }

theorem State.tunedTo.trans {σ τ ρ : State} (h : σ.tunedTo τ) (h' : τ.tunedTo ρ) : σ.tunedTo ρ := by
  cases σ; cases τ; cases ρ; simp_all only [State.tunedTo, State.mk.injEq]

theorem abortRun_frame (σ : State) (tell : Notice → NoticeUnit → NoticeUnit) (r : AbortReason) :
    σ.tunedTo (σ.abortRun tell r) := by
  unfold State.abortRun
  split
  · dsimp only; split <;> rfl
  · rfl

theorem finishRun_frame (σ : State) (s : Str) (p : Plan) : σ.tunedTo (σ.finishRun s p) := by
  unfold State.finishRun
  dsimp only
  split <;> rfl

theorem countPitch_frame (σ : State) (s : Str) (p : Plan) (pr : Int) : σ.tunedTo (σ.countPitch s p pr) := by
  unfold State.countPitch
  dsimp only
  split
  · split
    · exact State.tunedTo.trans rfl (finishRun_frame _ _ _)
    · rfl
  · rfl

theorem probePitch_frame (σ : State) (s : Str) : σ.tunedTo (σ.probePitch s) := by
  unfold State.probePitch
  split
  · rfl
  · unfold State.takePitch
    split
    · exact State.tunedTo.trans rfl (countPitch_frame _ _ _ _)
    · rfl

theorem tellEnable_frame (σ : State) (old new : BitVec 8) (s : Str) : σ.tunedTo (σ.tellEnable old new s) := by
  unfold State.tellEnable
  split
  · unfold State.disableString
    dsimp only
    split
    · exact State.tunedTo.trans rfl (abortRun_frame _ _ _)
    · rfl
  · split <;> rfl

theorem tellAll_frame (old new : BitVec 8) (ks : List Str) (σ : State) :
    σ.tunedTo (ks.foldl (State.tellEnable old new) σ) := by
  induction ks generalizing σ with
  | nil => rfl
  | cons k ks ih => exact State.tunedTo.trans (tellEnable_frame σ old new k) (ih _)

theorem setEnableMask_frame (σ : State) (new : BitVec 8) : σ.tunedTo (σ.setEnableMask new) :=
  State.tunedTo.trans rfl (tellAll_frame _ _ _ _)

theorem setReference_frame (σ : State) (n : Nat) : σ.tunedTo (σ.setReference n) :=
  State.tunedTo.trans rfl (abortRun_frame _ _ _)

theorem storeSetting_frame (σ : State) (i : SettingId) (v : Int) : σ.tunedTo (σ.storeSetting i v) := by
  unfold State.storeSetting
  split
  · exact setEnableMask_frame _ _
  · exact setReference_frame _ _
  · rfl

theorem set_frame (σ : State) (n : Byte) (v : BitVec 16) : σ.tunedTo (σ.set n v) := by
  unfold State.set
  split
  · rfl
  · split
    · rfl
    · exact storeSetting_frame _ _ _

theorem selectProfile_frame (σ : State) (v : Byte) : σ.tunedTo (σ.selectProfile v) := by
  unfold State.selectProfile
  split
  · rfl
  · split <;> rfl

/-! ## The Control Link -/

/-- Only the link, the table, the probe, the notices and the Trackers may have changed. -/
abbrev State.linkedTo (σ τ : State) : Prop :=
  τ = { σ with link := τ.link, table := τ.table, probe := τ.probe, notices := τ.notices, trackers := τ.trackers }

theorem State.linkedTo.trans {σ τ ρ : State} (h : σ.linkedTo τ) (h' : τ.linkedTo ρ) : σ.linkedTo ρ := by
  cases σ; cases τ; cases ρ; simp_all only [State.linkedTo, State.mk.injEq]

theorem snapshot_frame (σ : State) (q : Query) : σ.linkedTo (σ.snapshot q) := by
  cases q <;> simp only [State.snapshot]
  · unfold State.snapGetNote; split <;> rfl
  · unfold State.snapGetString
    split
    · rfl
    · split <;> rfl
  · rfl
  · rfl
  · rfl
  · rfl
  · unfold State.snapGetSetting; split <;> rfl
  · unfold State.snapProbeStart State.probeStart; split <;> rfl
  · rfl

theorem takeDue_frame (σ : State) : σ.linkedTo σ.takeDue := by
  unfold State.takeDue
  split
  · split
    · exact snapshot_frame _ _
    · rfl
  all_goals rfl

theorem completeQuery_frame (σ : State) (q : Query) : σ.linkedTo (σ.completeQuery q) := by
  unfold State.completeQuery
  split
  · exact State.linkedTo.trans rfl (takeDue_frame _)
  · rfl

theorem frameStart_frame (σ : State) : σ.linkedTo σ.frameStart := by
  unfold State.frameStart State.startFrame
  split
  · rfl
  · split <;> rfl

theorem commandByte_frame (σ : State) (b : Byte) : σ.linkedTo (σ.commandByte b) := by
  unfold State.commandByte
  split
  · split <;> rfl
  · rfl

theorem arrive_frame (σ : State) (p : Posted) : σ.linkedTo (σ.arrive p) := by
  unfold State.arrive; split <;> rfl

theorem postedArrival_frame (σ : State) (ps : List Byte) : σ.linkedTo (σ.postedArrival ps) := by
  unfold State.postedArrival
  split
  · split
    · exact arrive_frame _ _
    · rfl
  all_goals rfl

theorem turnaround_frame (σ : State) : σ.linkedTo σ.turnaround := by
  unfold State.turnaround
  refine State.linkedTo.trans (takeDue_frame σ) ?_
  dsimp only
  split <;> rfl

theorem noticeDelivered_frame (σ : State) : σ.linkedTo σ.noticeDelivered := by
  unfold State.noticeDelivered
  split
  · split <;> rfl
  all_goals rfl

theorem endPhase_frame (σ : State) (n : Nat) : σ.linkedTo (σ.endPhase n) := by
  unfold State.endPhase
  refine State.linkedTo.trans (takeDue_frame σ) ?_
  dsimp only
  split
  · rfl
  · unfold State.endIncomplete
    split
    · exact arrive_frame _ _
    · rfl
  all_goals rfl

theorem frameEnd_frame (σ : State) (n : Nat) : σ.linkedTo (σ.frameEnd n) := by
  unfold State.frameEnd
  split
  · rfl
  · exact State.linkedTo.trans (endPhase_frame σ n) rfl

end Sys2Proof.Machine
end

