-- ==== Sys2Proof/Laws/NoteTable.lean ====
section
/-! SUPPORT. What each operation of the Note Table does: what a look-up finds, which handles and lists each change of the
table leaves, and that each keeps the table coherent. -/

namespace Sys2Proof.Machine

/-! ## Look-ups -/

theorem list_find_key {α : Type} {key : α → Nat} {p : α → Bool} {l : List α} (hn : (l.map key).Nodup) {r : α}
    (hr : r ∈ l) (hp : p r = true) (hkey : ∀ q ∈ l, p q = true → key q = key r) : l.find? p = some r := by
  induction l with
  | nil => simp at hr
  | cons a l ih =>
    rw [List.map_cons, List.nodup_cons] at hn
    rw [List.find?_cons]
    rcases List.mem_cons.1 hr with rfl | hr'
    · rw [hp]
    · cases hpa : p a with
      | true =>
        refine absurd (List.mem_map.2 ⟨r, hr', ?_⟩) hn.1
        exact (hkey a List.mem_cons_self hpa).symm
      | false => exact ih hn.2 hr' fun q hq => hkey q (List.mem_cons_of_mem a hq)

/-- A handle finds the record that holds it (R97). -/
theorem NoteTable.find_of_mem {t : NoteTable} (hn : t.handles.Nodup) {r : Record} (hr : r ∈ t.records) :
    t.find r.image.handle = some r :=
  list_find_key (α := Record) (key := fun q => q.image.handle) (l := t.records) hn hr (by simp) fun q _ hq => by simpa using hq

/-- A handle that no occupied record holds finds no record (R97). -/
theorem NoteTable.find_none {t : NoteTable} {h : Nat} (hh : ∀ r ∈ t.records, r.image.handle ≠ h) : t.find h = none := by
  simpa [NoteTable.find, List.find?_eq_none] using hh

/-- What a found record is. -/
theorem NoteTable.find_some {t : NoteTable} {h : Nat} {r : Record} (hf : t.find h = some r) :
    r ∈ t.records ∧ r.image.handle = h :=
  ⟨List.mem_of_find?_eq_some hf, by simpa using List.find?_some hf⟩

/-- A Tracker's request finds the live record of its string that holds the handle (R97). -/
theorem NoteTable.findLive_of_mem {t : NoteTable} (hn : t.handles.Nodup) {r : Record} (hr : r ∈ t.records)
    (hl : r.image.state ≠ .released) : t.findLive r.image.string r.image.handle = some r :=
  list_find_key (α := Record) (key := fun q => q.image.handle) (l := t.records) hn hr (by simp [Record.live, hl]) fun q _ hq => by
    simp only [Bool.and_eq_true, beq_iff_eq] at hq; exact hq.1.1

/-- A Tracker's request finds no live record (R97). -/
theorem NoteTable.findLive_none {t : NoteTable} {k : Str} {h : Nat}
    (hh : ∀ r ∈ t.records, r.image.handle = h → r.image.string = k → r.image.state = .released) :
    t.findLive k h = none := by
  simp only [NoteTable.findLive, List.find?_eq_none, Record.live, Bool.and_eq_true, beq_iff_eq, decide_eq_true_eq,
    ne_eq, not_and, not_not, and_imp]
  exact hh

/-- What a found live record is. -/
theorem NoteTable.findLive_some {t : NoteTable} {k : Str} {h : Nat} {r : Record} (hf : t.findLive k h = some r) :
    r ∈ t.records ∧ r.image.handle = h ∧ r.image.string = k ∧ r.image.state ≠ .released := by
  have := List.find?_some hf
  simp only [Record.live, Bool.and_eq_true, beq_iff_eq, decide_eq_true_eq, ne_eq] at this
  exact ⟨List.mem_of_find?_eq_some hf, this.1.1, this.1.2, this.2⟩

/-- Two records of a table with one handle are one record. -/
theorem NoteTable.eq_of_handle {t : NoteTable} (hn : t.handles.Nodup) {q r : Record} (hq : q ∈ t.records)
    (hr : r ∈ t.records) (h : q.image.handle = r.image.handle) : q = r :=
  Option.some.inj ((NoteTable.find_of_mem hn hq).symm.trans (h ▸ NoteTable.find_of_mem hn hr))

/-- A change of the record that holds a handle is a change of that one record. -/
theorem NoteTable.modify_records {t : NoteTable} (hn : t.handles.Nodup) {r : Record} (hr : r ∈ t.records)
    (f : Record → Record) (u : Record) (hu : f r = u) :
    (t.modify r.image.handle f).records
      = t.records.map fun q => if q.image.handle = r.image.handle then u else q := by
  refine List.map_congr_left fun q hq => ?_
  split
  · next h => rw [NoteTable.eq_of_handle hn hq hr h, hu]
  · rfl

/-! ## Handles given -/

/-- Every trial of the search up to the handle given is held. -/
theorem freshHandle_spec (held : List Nat) (n start : Nat) (hs : 1 ≤ start) (hs' : start ≤ 255) :
    ∃ m, m ≤ n ∧ freshHandle held n start = (start - 1 + m) % 255 + 1
      ∧ (∀ i, i < m → (start - 1 + i) % 255 + 1 ∈ held) ∧ (m < n → freshHandle held n start ∉ held) := by
  induction n generalizing start with
  | zero => exact ⟨0, Nat.le_refl 0, by simp only [freshHandle]; omega, fun i hi => by omega, fun h => by omega⟩
  | succ n ih =>
    simp only [freshHandle]
    split
    · next hm =>
      have h1 : 1 ≤ handleAfter start ∧ handleAfter start ≤ 255 := by unfold handleAfter; split <;> omega
      obtain ⟨m, hmn, he, hall, hout⟩ := ih (handleAfter start) h1.1 h1.2
      have step : ∀ i, (handleAfter start - 1 + i) % 255 = (start - 1 + (i + 1)) % 255 := by
        intro i; unfold handleAfter; split <;> omega
      refine ⟨m + 1, by omega, by rw [he, step], fun i hi => ?_, fun h => hout (by omega)⟩
      cases i with
      | zero => rw [show (start - 1 + 0) % 255 + 1 = start by omega]; exact hm
      | succ i => rw [← step]; exact hall i (by omega)
    · next hm => exact ⟨0, by omega, by omega, fun i hi => by omega, fun _ => hm⟩

/-- The handle given next is held by no record, and every trial before it is (R93). -/
theorem NoteTable.nextGiven_spec {t : NoteTable} (hl : t.records.length ≤ 16) (h1 : 1 ≤ t.nextHandle)
    (h2 : t.nextHandle ≤ 255) :
    (∃ n, n ≤ 16 ∧ t.nextGiven = (t.nextHandle - 1 + n) % 255 + 1
        ∧ ∀ m, m < n → (t.nextHandle - 1 + m) % 255 + 1 ∈ t.handles)
      ∧ t.nextGiven ∉ t.handles ∧ 1 ≤ t.nextGiven ∧ t.nextGiven ≤ 255 := by
  obtain ⟨m, hm, he, hall, hout⟩ := freshHandle_spec t.handles 16 t.nextHandle h1 h2
  have heq : t.nextGiven = freshHandle t.handles 16 t.nextHandle := rfl
  rw [← heq] at he hout
  refine ⟨⟨m, hm, he, hall⟩, ?_, by omega, by omega⟩
  rcases Nat.lt_or_ge m 16 with h | h
  · exact hout h
  · intro hmem
    have hlen : t.handles.length ≤ 16 := by rw [NoteTable.handles, List.length_map]; exact hl
    let trials := (List.range 17).map fun i => (t.nextHandle - 1 + i) % 255 + 1
    have hnd : trials.Nodup := by
      refine List.Nodup.map_on (fun x hx y hy hxy => ?_) List.nodup_range
      rw [List.mem_range] at hx hy; omega
    have hsub : trials ⊆ t.handles := by
      intro x hx
      obtain ⟨i, hi, rfl⟩ := List.mem_map.1 hx
      rw [List.mem_range] at hi
      rcases Nat.lt_or_ge i m with h' | h'
      · exact hall i h'
      · rw [show i = m by omega, ← he]; exact hmem
    have := (List.subperm_of_subset hnd hsub).length_le
    simp only [trials, List.length_map, List.length_range] at this
    omega

/-! ## What each change leaves, and that it keeps the table coherent -/

/-- A change of records that keeps their handles and serial numbers keeps the table coherent. -/
theorem NoteTable.wf_map {t : NoteTable} (hw : t.wf) (f : Record → Record)
    (hh : ∀ r ∈ t.records, (f r).image.handle = r.image.handle) (hs : ∀ r ∈ t.records, (f r).serial = r.serial) :
    ({ t with records := t.records.map f } : NoteTable).wf := by
  obtain ⟨h1, h2, h3, h4, h5, h6, h7, h8⟩ := hw
  have e : ({ t with records := t.records.map f } : NoteTable).handles = t.handles := by
    simp only [NoteTable.handles, List.map_map]
    exact List.map_congr_left fun r hr => hh r hr
  have e' : (t.records.map f).map (·.serial) = t.records.map (·.serial) := by
    rw [List.map_map]; exact List.map_congr_left fun r hr => hs r hr
  refine ⟨by rw [List.length_map]; exact h1, by rw [e]; exact h2, by rw [e]; exact h3, by rw [e]; exact h4, h5, h6,
    by rw [e']; exact h7, fun r hr => ?_⟩
  obtain ⟨q, hq, rfl⟩ := List.mem_map.1 hr
  rw [hs q hq]; exact h8 q hq

/-- A change of the record that holds a handle keeps the table coherent if it keeps handle and serial number. -/
theorem NoteTable.wf_modify {t : NoteTable} (hw : t.wf) (h : Nat) (f : Record → Record)
    (hh : ∀ r, (f r).image.handle = r.image.handle) (hs : ∀ r, (f r).serial = r.serial) : (t.modify h f).wf :=
  NoteTable.wf_map hw _ (fun r _ => by split <;> simp [hh]) fun r _ => by split <;> simp [hs]

/-- A move to the recency tail keeps the table coherent (R95). -/
theorem NoteTable.wf_touch {t : NoteTable} (hw : t.wf) {h : Nat} (hh : h ∈ t.handles) : (t.touch h).wf := by
  obtain ⟨h1, h2, h3, h4, h5, h6, h7, h8⟩ := hw
  refine ⟨h1, h2, h3, ?_, h5, h6, h7, h8⟩
  refine List.Perm.trans ?_ h4
  have hn : t.recency.Nodup := h4.nodup_iff.2 h2
  have hm : h ∈ t.recency := h4.mem_iff.2 hh
  show (t.recency.filter (· ≠ h) ++ [h]).Perm t.recency
  simp only [ne_eq, decide_not]
  have e : t.recency.filter (fun x => !decide (x = h)) = t.recency.erase h := by
    rw [List.Nodup.erase_eq_filter hn]; congr 1
  rw [e]
  exact (List.perm_append_singleton h _).trans (List.perm_cons_erase hm).symm

/-- The handles after a record is freed. -/
theorem NoteTable.handles_free (t : NoteTable) (h : Nat) : (t.free h).handles = t.handles.filter (· ≠ h) := by
  simp only [NoteTable.handles, NoteTable.free, List.map_map, List.filter_map]
  rfl

/-- Freeing a record keeps the table coherent (R119). -/
theorem NoteTable.wf_free {t : NoteTable} (hw : t.wf) (h : Nat) : (t.free h).wf := by
  obtain ⟨h1, h2, h3, h4, h5, h6, h7, h8⟩ := hw
  refine ⟨?_, ?_, ?_, ?_, h5, h6, ?_, ?_⟩
  · simp only [NoteTable.free, List.length_map]
    exact (List.length_filter_le _ _).trans h1
  · rw [NoteTable.handles_free]; exact h2.filter _
  · rw [NoteTable.handles_free]; exact fun x hx => h3 x (List.mem_of_mem_filter hx)
  · rw [NoteTable.handles_free]; exact h4.filter _
  · simp only [NoteTable.free, List.map_map]
    exact h7.sublist ((List.filter_sublist).map _)
  · intro r hr
    obtain ⟨q, hq, rfl⟩ := List.mem_map.1 hr
    exact h8 q (List.mem_of_mem_filter hq)

/-- A freed table has a FREE slot where it had one record of that handle or more. -/
theorem NoteTable.length_free_lt {t : NoteTable} {h : Nat} (hh : h ∈ t.handles) :
    (t.free h).records.length < t.records.length := by
  obtain ⟨r, hr, hrh⟩ := List.mem_map.1 hh
  simp only [NoteTable.free, List.length_map]
  refine List.length_filter_lt_length_iff_exists.2 ⟨r, hr, ?_⟩
  simp [hrh]

/-- A record with the next handle joins a coherent table that has a FREE slot (R93, R94). -/
theorem NoteTable.wf_add {t : NoteTable} (hw : t.wf) (hl : t.records.length < 16) {r : Record}
    (hr : r.image.handle = t.nextGiven) (hs : r.serial = t.created) : (t.add r).wf := by
  obtain ⟨h1, h2, h3, h4, h5, h6, h7, h8⟩ := hw
  have hg := NoteTable.nextGiven_spec h1 h5 h6
  have e : (t.add r).handles = t.handles ++ [t.nextGiven] := by
    simp [NoteTable.handles, NoteTable.add, hr]
  refine ⟨?_, ?_, ?_, ?_, ?_, ?_, ?_, ?_⟩
  · simp only [NoteTable.add, List.length_append, List.length_singleton]; omega
  · rw [e, List.nodup_append]
    refine ⟨h2, by simp, fun a ha b hb => ?_⟩
    rw [List.mem_singleton] at hb
    rintro rfl; exact hg.2.1 (hb ▸ ha)
  · rw [e]; intro x hx
    rcases List.mem_append.1 hx with hx | hx
    · exact h3 x hx
    · rw [List.mem_singleton.1 hx]; exact hg.2.2
  · rw [e]; show (t.recency ++ [r.image.handle]).Perm _
    rw [hr]; exact h4.append_right _
  · show 1 ≤ handleAfter r.image.handle
    unfold handleAfter; split <;> omega
  · show handleAfter r.image.handle ≤ 255
    rw [hr]; unfold handleAfter; split <;> omega
  · simp only [NoteTable.add, List.map_append, List.map_cons, List.map_nil]
    rw [List.nodup_append]
    refine ⟨h7, by simp, fun a ha b hb => ?_⟩
    obtain ⟨q, hq, rfl⟩ := List.mem_map.1 ha
    rw [List.mem_singleton] at hb
    have := h8 q hq; omega
  · intro q hq
    show q.serial < t.created + 1
    rcases List.mem_append.1 hq with hq | hq
    · have := h8 q hq; omega
    · rw [List.mem_singleton.1 hq, hs]; omega

/-- A victim is one of the table's records, RELEASED, and not the record kept (R118). -/
theorem NoteTable.victim_mem {t : NoteTable} (hw : t.wf) {keep : Option Nat} {v : Nat} (hv : t.victim keep = some v) :
    v ∈ t.handles ∧ keep ≠ some v := by
  have key : ∀ hold, t.recency.find? (t.evictable keep hold) = some v → v ∈ t.handles ∧ keep ≠ some v := by
    intro hold hf
    have hm := List.mem_of_find?_eq_some hf
    have he := List.find?_some hf
    refine ⟨hw.2.2.2.1.mem_iff.1 hm, ?_⟩
    unfold NoteTable.evictable at he
    split at he
    · simp only [Bool.and_eq_true, decide_eq_true_eq] at he; exact he.2
    · exact absurd he (by simp)
  unfold NoteTable.victim at hv
  cases h1 : t.recency.find? (t.evictable keep false) with
  | some w =>
    rw [h1, Option.some_or] at hv
    exact key false (h1.trans hv)
  | none => rw [h1, Option.none_or] at hv; exact key true hv

/-- Room for a new record: a coherent table with a FREE slot (R98, R105, R118). -/
theorem NoteTable.makeRoom_spec {t : NoteTable} (hw : t.wf) {keep : Option Nat} {room : NoteTable × List Notice}
    (h : t.makeRoom keep = some room) :
    room.1.wf ∧ room.1.records.length < 16
      ∧ ((room = (t, []) ∧ t.records.length < 16)
        ∨ ∃ v, t.victim keep = some v ∧ room = (t.free v, [.evicted v]) ∧ t.records.length = 16) := by
  unfold NoteTable.makeRoom at h
  split at h
  · next hl =>
    obtain rfl := Option.some.inj h
    exact ⟨hw, hl, Or.inl ⟨rfl, hl⟩⟩
  · next hl =>
    obtain ⟨v, hv, rfl⟩ := Option.map_eq_some_iff.1 h
    have hm := (NoteTable.victim_mem hw hv).1
    have h16 : t.records.length = 16 := by have := hw.1; simp only [Config.slots] at hl; omega
    refine ⟨NoteTable.wf_free hw v, ?_, Or.inr ⟨v, hv, rfl, h16⟩⟩
    have := NoteTable.length_free_lt hm
    show (t.free v).records.length < 16
    omega

end Sys2Proof.Machine
end

