-- ==== Sys2Proof/Laws/TableSteps.lean ====
section
/-! SUPPORT. Every operation that changes the Note Table keeps it coherent, and its records too. -/

namespace Sys2Proof.Machine

/-- A coherent table whose records are each well formed. -/
abbrev NoteTable.ok (t : NoteTable) : Prop := t.wf ∧ ∀ r ∈ t.records, r.wf

/-! ## Changes of records -/

theorem NoteTable.ok_map {t : NoteTable} (hw : t.ok) (f : Record → Record)
    (hh : ∀ r, (f r).image.handle = r.image.handle) (hs : ∀ r, (f r).serial = r.serial)
    (hr : ∀ r, r.wf → (f r).wf) : ({ t with records := t.records.map f } : NoteTable).ok := by
  refine ⟨NoteTable.wf_map hw.1 f (fun r _ => hh r) fun r _ => hs r, fun r h => ?_⟩
  obtain ⟨q, hq, rfl⟩ := List.mem_map.1 h
  exact hr q (hw.2 q hq)

theorem NoteTable.ok_modify {t : NoteTable} (hw : t.ok) (h : Nat) (f : Record → Record)
    (hh : ∀ r, (f r).image.handle = r.image.handle) (hs : ∀ r, (f r).serial = r.serial)
    (hr : ∀ r, r.wf → (f r).wf) : (t.modify h f).ok :=
  NoteTable.ok_map hw _ (fun r => by split <;> simp [hh]) (fun r => by split <;> simp [hs])
    fun r hw => by split <;> [exact hr r hw; exact hw]

theorem NoteTable.ok_touch {t : NoteTable} (hw : t.ok) {h : Nat} (hh : h ∈ t.handles) : (t.touch h).ok :=
  ⟨NoteTable.wf_touch hw.1 hh, hw.2⟩

theorem NoteTable.ok_free {t : NoteTable} (hw : t.ok) (h : Nat) : (t.free h).ok := by
  refine ⟨NoteTable.wf_free hw.1 h, fun r hr => ?_⟩
  obtain ⟨q, hq, rfl⟩ := List.mem_map.1 hr
  exact hw.2 q (List.mem_of_mem_filter hq)

theorem NoteTable.ok_add {t : NoteTable} (hw : t.ok) (hl : t.records.length < 16) {r : Record}
    (hr : r.image.handle = t.nextGiven) (hs : r.serial = t.created) (hrw : r.wf) : (t.add r).ok := by
  refine ⟨NoteTable.wf_add hw.1 hl hr hs, fun q hq => ?_⟩
  rcases List.mem_append.1 hq with hq | hq
  · exact hw.2 q hq
  · rw [List.mem_singleton.1 hq]; exact hrw

theorem NoteTable.handles_modify (t : NoteTable) (h : Nat) (f : Record → Record)
    (hh : ∀ r, (f r).image.handle = r.image.handle) : (t.modify h f).handles = t.handles := by
  simp only [NoteTable.handles, NoteTable.modify, List.map_map]
  exact List.map_congr_left fun r _ => by simp only [Function.comp]; split <;> simp [hh]

theorem NoteTable.find_handles {t : NoteTable} {h : Nat} {r : Record} (hf : t.find h = some r) : h ∈ t.handles :=
  List.mem_map.2 ⟨r, (NoteTable.find_some hf).1, (NoteTable.find_some hf).2⟩

/-- A change of an image that keeps its state and reason keeps a record well formed. -/
theorem Record.wf_edit {r : Record} (hr : r.wf) (f : Image → Image) (h1 : (f r.image).state = r.image.state)
    (h2 : (f r.image).reason = r.image.reason) (h3 : (f r.image).age = r.image.age) : (r.edit f).wf := by
  simp only [Record.wf, Record.edit, h1, h2, h3]; exact hr

theorem Record.wf_release {r : Record} (hr : r.wf) (linger : Nat) (reason : ReleaseReason) :
    (r.release linger reason).wf := by
  refine ⟨?_, fun _ => rfl, hr.2.2⟩
  simp [Record.release, Record.edit]

theorem Record.wf_holdOff {r : Record} (hr : r.wf) (linger : Nat) : (r.holdOff linger).wf := by
  refine ⟨hr.1, ?_, hr.2.2⟩
  intro hl
  by_cases h : (!r.live && r.image.hold) = true
  · simp only [Record.live, Bool.and_eq_true, Bool.not_eq_true', decide_eq_false_iff_not, ne_eq, not_not] at h
    exact h.1
  · refine hr.2.1 fun h' => hl ?_
    simp only [Record.holdOff, if_neg h, h']

theorem Record.wf_tick {r : Record} (hr : r.wf) : r.tick.wf := by
  refine ⟨hr.1, ?_, by simp [Record.tick, Config.ageStop]⟩
  intro h
  refine hr.2.1 ?_
  rintro h'
  exact h (by simp only [Record.tick, h', Timer.tick])

/-! ## Requests -/

theorem NoteTable.ok_linkSuccessor {t : NoteTable} (hw : t.ok) (p : Option Nat) (h : Nat) : (t.linkSuccessor p h).ok := by
  cases p with
  | none => exact hw
  | some q => exact NoteTable.ok_modify hw q _ (by intro _; rfl) (by intro _; rfl) fun r hr => Record.wf_edit hr _ rfl rfl rfl

theorem NoteTable.linkSuccessor_nextGiven (t : NoteTable) (p : Option Nat) (h : Nat) :
    (t.linkSuccessor p h).nextGiven = t.nextGiven ∧ (t.linkSuccessor p h).created = t.created
      ∧ (t.linkSuccessor p h).records.length = t.records.length := by
  cases p with
  | none => exact ⟨rfl, rfl, rfl⟩
  | some q =>
    refine ⟨?_, rfl, by simp [NoteTable.linkSuccessor, NoteTable.modify]⟩
    simp only [NoteTable.nextGiven, NoteTable.linkSuccessor]
    rw [NoteTable.handles_modify]
    · rfl
    · intro _; rfl

/-- CREATE keeps the table coherent (R98). -/
theorem NoteTable.ok_create {t : NoteTable} (hw : t.ok) {k : Settings} {s : Str} {c : CreateRequest} {p : Reply}
    (h : t.create k s c = some p) : p.table.ok := by
  obtain ⟨room, hr, rfl⟩ := Option.map_eq_some_iff.1 h
  obtain ⟨h1, h2, h3⟩ := NoteTable.makeRoom_spec hw.1 hr
  have hok : room.1.ok := by
    rcases h3 with ⟨rfl, _⟩ | ⟨v, _, rfl, _⟩
    · exact hw
    · exact NoteTable.ok_free hw v
  have hl := NoteTable.linkSuccessor_nextGiven room.1 (room.1.linkable s c.predecessor) room.1.nextGiven
  refine NoteTable.ok_add (NoteTable.ok_linkSuccessor hok _ _) (by rw [hl.2.2]; exact h2) hl.1.symm hl.2.1.symm ?_
  exact ⟨by simp, by simp, by simp⟩

/-- UPDATE keeps the table coherent (R101). -/
theorem NoteTable.ok_update {t : NoteTable} (hw : t.ok) (s : Str) (u : UpdateRequest) : (t.update s u).table.ok := by
  unfold NoteTable.update
  split
  · exact hw
  · exact NoteTable.ok_modify hw _ _ (by intro _; rfl) (by intro _; rfl) fun r hr => Record.wf_edit hr _ rfl rfl rfl

/-- CONFIRM keeps the table coherent (R103). -/
theorem NoteTable.ok_confirm {t : NoteTable} (hw : t.ok) (s : Str) (h : Nat) : (t.confirm s h).table.ok := by
  unfold NoteTable.confirm
  split
  · exact hw
  · next r hf =>
    split
    · next hp =>
      have hr := NoteTable.findLive_some hf
      refine ⟨NoteTable.wf_modify hw.1 _ _ (fun _ => rfl) fun _ => rfl, fun q hq => ?_⟩
      obtain ⟨x, hx, rfl⟩ := List.mem_map.1 hq
      split
      · next hxh =>
        obtain rfl := NoteTable.eq_of_handle hw.1.2.1 hx hr.1 (hxh.trans hr.2.1.symm)
        obtain ⟨a, b, c⟩ := hw.2 x hx
        rw [hp] at a b
        simp only [reduceCtorEq, iff_false, Bool.not_eq_true, Option.isSome_eq_false_iff, Option.isNone_iff_eq_none, imp_false, not_not, ne_eq] at a b
        refine ⟨by simp [Record.edit, a], fun hl => absurd b hl, c⟩
      · exact hw.2 x hx
    · exact hw

/-- RELEASE keeps the table coherent (R104). -/
theorem NoteTable.ok_release {t : NoteTable} (hw : t.ok) (linger : Nat) (s : Str) (h : Nat) (reason : ReleaseReason) :
    (t.release linger s h reason).table.ok := by
  unfold NoteTable.release
  split
  · exact hw
  · exact NoteTable.ok_modify hw _ _ (by intro _; rfl) (by intro _; rfl) fun r hr => Record.wf_release hr linger reason

/-- SUCCEED keeps the table coherent (R105). -/
theorem NoteTable.ok_succeed {t : NoteTable} (hw : t.ok) {k : Settings} {s : Str} {q : SucceedRequest} {p : Reply}
    (h : t.succeed k s q = some p) : p.table.ok := by
  unfold NoteTable.succeed at h
  split at h
  · obtain rfl := Option.some.inj h; exact hw
  · next old hf =>
    obtain ⟨room, hr, rfl⟩ := Option.map_eq_some_iff.1 h
    have hm : (t.modify q.handle (Record.release k.linger q.reason)).ok :=
      NoteTable.ok_modify hw _ _ (by intro _; rfl) (by intro _; rfl) fun r hr => Record.wf_release hr _ _
    obtain ⟨h1, h2, h3⟩ := NoteTable.makeRoom_spec hm.1 hr
    have hok : room.1.ok := by
      rcases h3 with ⟨rfl, _⟩ | ⟨v, _, rfl, _⟩
      · exact hm
      · exact NoteTable.ok_free hm v
    have hl := NoteTable.linkSuccessor_nextGiven room.1 (some q.handle) room.1.nextGiven
    refine NoteTable.ok_add (NoteTable.ok_linkSuccessor hok _ _) (by rw [hl.2.2]; exact h2) hl.1.symm hl.2.1.symm ?_
    exact ⟨by simp, by simp, by simp⟩

/-! ## Reads and ticks -/

/-- A delivery keeps the table coherent (R121). -/
theorem NoteTable.ok_deliver {t : NoteTable} (hw : t.ok) {h : Nat} (hh : h ∈ t.handles) : (t.deliver h).ok := by
  have hm : (t.modify h fun r => { r with changed := false }).ok :=
    NoteTable.ok_modify hw h _ (by intro _; rfl) (by intro _; rfl) fun r hr => hr
  refine NoteTable.ok_touch hm ?_
  rw [NoteTable.handles_modify _ _ _ (by exact fun _ => rfl)]; exact hh

theorem NoteTable.handles_deliver (t : NoteTable) (h : Nat) : (t.deliver h).handles = t.handles :=
  NoteTable.handles_modify t h _ fun _ => rfl

/-- The delivery of several records keeps the table coherent (R121). -/
theorem NoteTable.ok_deliverAll {t : NoteTable} (hw : t.ok) {rs : List Record}
    (hr : ∀ r ∈ rs, r.image.handle ∈ t.handles) : (t.deliverAll rs).ok := by
  induction rs generalizing t with
  | nil => exact hw
  | cons r rs ih =>
    refine ih (NoteTable.ok_deliver hw (hr r List.mem_cons_self)) fun q hq => ?_
    rw [NoteTable.handles_deliver]; exact hr q (List.mem_cons_of_mem r hq)

/-- Flagging the records of images cut short keeps the table coherent (R121). -/
theorem NoteTable.ok_reflag {t : NoteTable} (hw : t.ok) (i : Included) : (t.reflag i).ok :=
  NoteTable.ok_map hw _ (fun r => by split <;> rfl) (fun r => by split <;> rfl) fun r hr => by split <;> exact hr

theorem NoteTable.ok_reflagAll {t : NoteTable} (hw : t.ok) (is : List Included) : (is.foldl NoteTable.reflag t).ok := by
  induction is generalizing t with
  | nil => exact hw
  | cons i is ih => exact ih (NoteTable.ok_reflag hw i)

/-- A millisecond keeps the table coherent (R92, R116). -/
theorem NoteTable.ok_tick {t : NoteTable} (hw : t.ok) : t.tick.ok :=
  NoteTable.ok_map hw _ (by intro _; rfl) (by intro _; rfl) fun _ hr => Record.wf_tick hr

/-- The empty table is coherent (R122). -/
theorem NoteTable.ok_empty : ({} : NoteTable).ok := ⟨by decide, by simp⟩

/-! ## Commands on the whole state -/

/-- An application of a Tracker's request keeps the table coherent if the reply's table is. -/
theorem serve_table_ok {σ : State} (hw : σ.table.ok) (s : Str) (f : Request → Option Reply)
    (hf : ∀ q p, f q = some p → p.table.ok) : (σ.serve s f).table.ok := by
  unfold State.serve
  split
  · exact hw
  · split
    · exact hw
    · split
      · exact hw
      · next p hp => exact hf _ p hp

theorem applyCreate_table_ok {σ : State} (hw : σ.table.ok) (s : Str) : (σ.applyCreate s).table.ok :=
  serve_table_ok hw s _ fun q p h => by
    cases q <;> first | exact NoteTable.ok_create hw h | exact absurd h (by simp)

theorem applyUpdate_table_ok {σ : State} (hw : σ.table.ok) (s : Str) : (σ.applyUpdate s).table.ok :=
  serve_table_ok hw s _ fun q p h => by
    cases q <;> first | (obtain rfl := Option.some.inj h; exact NoteTable.ok_update hw _ _) | exact absurd h (by simp)

theorem applyConfirm_table_ok {σ : State} (hw : σ.table.ok) (s : Str) : (σ.applyConfirm s).table.ok :=
  serve_table_ok hw s _ fun q p h => by
    cases q <;> first | (obtain rfl := Option.some.inj h; exact NoteTable.ok_confirm hw _ _) | exact absurd h (by simp)

theorem applyRelease_table_ok {σ : State} (hw : σ.table.ok) (s : Str) : (σ.applyRelease s).table.ok :=
  serve_table_ok hw s _ fun q p h => by
    cases q <;> first | (obtain rfl := Option.some.inj h; exact NoteTable.ok_release hw _ _ _ _) | exact absurd h (by simp)

theorem applySucceed_table_ok {σ : State} (hw : σ.table.ok) (s : Str) : (σ.applySucceed s).table.ok :=
  serve_table_ok hw s _ fun q p h => by
    cases q <;> first | exact NoteTable.ok_succeed hw h | exact absurd h (by simp)

theorem tagNote_table_ok {σ : State} (hw : σ.table.ok) (h tag : Byte) : (σ.tagNote h tag).table.ok := by
  unfold State.tagNote
  split
  · exact hw
  · next hf =>
    refine NoteTable.ok_touch (NoteTable.ok_modify hw _ _ (by intro _; rfl) (by intro _; rfl)
      fun r hr => Record.wf_edit hr _ rfl rfl rfl) ?_
    rw [NoteTable.handles_modify _ _ _ (by exact fun _ => rfl)]; exact NoteTable.find_handles hf

theorem untagNote_table_ok {σ : State} (hw : σ.table.ok) (h : Byte) : (σ.untagNote h).table.ok := by
  unfold State.untagNote
  split
  · exact hw
  · next hf =>
    refine NoteTable.ok_touch (NoteTable.ok_modify hw _ _ (by intro _; rfl) (by intro _; rfl)
      fun r hr => Record.wf_edit hr _ rfl rfl rfl) ?_
    rw [NoteTable.handles_modify _ _ _ (by exact fun _ => rfl)]; exact NoteTable.find_handles hf

theorem holdNote_table_ok {σ : State} (hw : σ.table.ok) (h v : Byte) : (σ.holdNote h v).table.ok := by
  unfold State.holdNote
  split
  · exact hw
  · split
    · exact hw
    · next hf =>
      refine NoteTable.ok_touch (NoteTable.ok_modify hw _ _ (by intro _; split <;> rfl) (by intro _; split <;> rfl)
        fun r hr => ?_) ?_
      · split
        · exact Record.wf_edit hr _ rfl rfl rfl
        · exact Record.wf_holdOff hr _
      · rw [NoteTable.handles_modify _ _ _ (by intro _; split <;> rfl)]; exact NoteTable.find_handles hf

theorem forceRelease_table_ok {σ : State} (hw : σ.table.ok) (r : Record) : (σ.forceRelease r).table.ok :=
  NoteTable.ok_modify hw _ _ (by intro _; rfl) (by intro _; rfl) fun _ hq => Record.wf_release hq _ _

theorem releaseNote_table_ok {σ : State} (hw : σ.table.ok) (h : Byte) : (σ.releaseNote h).table.ok := by
  unfold State.releaseNote
  split
  · exact hw
  · split
    · exact forceRelease_table_ok hw _
    · exact hw

theorem allRelease_table_ok {σ : State} (hw : σ.table.ok) : (σ.allRelease).table.ok := by
  unfold State.allRelease
  generalize σ.table.records.filter _ = rs
  induction rs generalizing σ with
  | nil => exact hw
  | cons r rs ih => exact ih (forceRelease_table_ok hw r)

theorem retireNote_table_ok {σ : State} (hw : σ.table.ok) (h : Byte) : (σ.retireNote h).table.ok := by
  unfold State.retireNote
  split
  · exact hw
  · split
    · exact hw
    · exact NoteTable.ok_free hw _

theorem lingerExpiry_table_ok {σ : State} (hw : σ.table.ok) (h : Nat) : (σ.lingerExpiry h).table.ok := by
  unfold State.lingerExpiry
  split
  · exact hw
  · split
    · split
      · refine NoteTable.ok_modify hw _ _ (by intro _; rfl) (by intro _; rfl) fun r hr => ⟨hr.1, ?_, hr.2.2⟩
        intro h; exact absurd rfl h
      · exact NoteTable.ok_free hw _
    · exact hw

end Sys2Proof.Machine
end

