-- ==== Sys2Proof/Laws/Trackers.lean ====
section
/-! SUPPORT. Every step of a String Tracker keeps the Tracker coherent. -/

namespace Sys2Proof.Machine

/-- A Tracker that awaits no answer holds exactly what its channel state has (R47). -/
theorem Tracker.wf_idle {t : Tracker} (ha : t.awaited = none) :
    t.wf ↔ (t.lastSent.isSome ↔ t.state = .forming ∨ t.state = .tracking)
      ∧ (t.live.isSome ↔ t.state = .forming ∨ t.state = .tracking)
      ∧ (t.committed.isSome ↔ t.state = .bleed ∨ t.state = .forming ∨ t.state = .tracking)
      ∧ (t.staleTimer ≠ .stopped ↔ t.state = .forming ∨ t.state = .tracking)
      ∧ t.staleExpiries ≤ 1 ∧ t.deferred = [] ∧ t.roomWf := by
  simp only [Tracker.wf, Tracker.awaitsCreate, Tracker.awaitsSucceed, ha, Option.mem_def, reduceCtorEq, false_imp_iff,
    implies_true, true_and, or_false, Bool.false_eq_true, forall_const]
  constructor
  · rintro ⟨a, b, c, d, e, f, g, h⟩
    exact ⟨a, ⟨b, c⟩, d, e, f, g, h⟩
  · rintro ⟨a, ⟨b, c⟩, d, e, f, g, h⟩
    exact ⟨a, b, c, d, e, f, g, h⟩

/-! ## Inputs -/

theorem takeOnset_wf {t : Tracker} (h : t.wf) (ha : t.awaited = none) : t.takeOnset.tracker.wf := by
  unfold Tracker.takeOnset
  split
  all_goals first
    | exact h
    | (rw [Tracker.wf_idle ha] at h
       rw [Tracker.wf_idle (by exact ha)]
       simp_all [Tracker.enterAttack, Tracker.roomWf])

theorem sendRelease_awaited {t : Tracker} {h : Nat} (hl : t.live = some h) (r : ReleaseReason) :
    t.sendRelease r = { t with awaited := some { request := .release h r, counted := none, answer := none } } := by
  simp [Tracker.sendRelease, hl, Tracker.send]

/-- A Tracker that has entered a state that holds no record is coherent, a RELEASE sent or not (R51). -/
theorem quit_wf {t : Tracker} (h : t.wf) (ha : t.awaited = none) (r : ReleaseReason) :
    (t.sendRelease r).enterQuiet.wf ∧ (t.sendRelease r).enterMuted.wf ∧ (t.sendRelease r).enterOff.wf
      ∧ t.enterQuiet.wf ∧ t.enterMuted.wf ∧ t.enterOff.wf
      ∧ ∀ p, ({ t.sendRelease r with predecessor := p } : Tracker).enterAttack.wf ∧ t.enterAttack.wf := by
  have hd := ((Tracker.wf_idle ha).1 h).2.2.2.2.2.1
  cases hl : t.live <;>
    simp [Tracker.sendRelease, hl, Tracker.send, Tracker.wf, Tracker.enterQuiet, Tracker.enterMuted, Tracker.enterOff,
      Tracker.enterAttack, Tracker.awaitsCreate, Tracker.awaitsSucceed, Tracker.roomWf, hd, ha]

theorem takeRelease_wf {t : Tracker} (h : t.wf) (ha : t.awaited = none) : t.takeRelease.tracker.wf := by
  have q := quit_wf h ha .decay
  unfold Tracker.takeRelease
  split
  all_goals first | exact h | exact q.1 | exact q.2.2.2.1

theorem takeRestrike_wf {t : Tracker} (h : t.wf) (ha : t.awaited = none) : t.takeRestrike.tracker.wf := by
  have q := quit_wf h ha .restrike
  unfold Tracker.takeRestrike
  split
  all_goals first | exact h | exact (q.2.2.2.2.2.2 none).2 | exact (q.2.2.2.2.2.2 _).1

theorem standDown_wf {t : Tracker} (h : t.wf) (ha : t.awaited = none) (gate : Gate) : (t.standDown gate).tracker.wf := by
  have q := quit_wf h ha .stale
  unfold Tracker.standDown
  split
  · exact h
  · cases gate
    · exact q.2.2.2.1
    · exact q.2.2.2.2.1

theorem staleRelease_wf {t : Tracker} (h : t.wf) (ha : t.awaited = none)
    (hs : t.state = .forming ∨ t.state = .tracking) (gate : Gate) : (t.staleRelease gate).tracker.wf := by
  have q := quit_wf h ha .stale
  have e : (t.sendRelease .stale).state = t.state := by unfold Tracker.sendRelease; split <;> rfl
  unfold Tracker.staleRelease Tracker.standDown
  rw [if_neg (by rw [e]; rcases hs with hs | hs <;> simp [hs])]
  cases gate
  · exact q.1
  · exact q.2.1

theorem takeStale_wf {t : Tracker} (h : t.wf) (ha : t.awaited = none) (stale : Nat) (gate : Gate) (run : Nat) :
    (t.takeStale stale gate run).tracker.wf := by
  unfold Tracker.takeStale
  split
  · next hs =>
    split
    · split
      · next x sent hx hsent =>
        have w := (Tracker.wf_idle ha).1 h
        rcases hs.1 with e | e <;>
          simp_all [Tracker.staleUpdate, Tracker.startStale, Tracker.send, Tracker.wf, Tracker.roomWf,
            Tracker.awaitsCreate, Tracker.awaitsSucceed]
      · exact h
    · exact staleRelease_wf h ha hs.1 gate
  · exact h

theorem takeForced_wf {t : Tracker} (h : t.wf) (ha : t.awaited = none) (gate : Gate) (x : Nat) :
    (t.takeForced gate x).tracker.wf := by
  unfold Tracker.takeForced
  split
  · exact standDown_wf h ha gate
  · exact h

theorem takeEnable_wf {t : Tracker} (h : t.wf) (ha : t.awaited = none) : t.takeEnable.tracker.wf := by
  unfold Tracker.takeEnable
  split
  · exact (quit_wf h ha .stale).2.2.2.1
  · exact h

theorem takeDisable_wf {t : Tracker} (h : t.wf) (ha : t.awaited = none) : t.takeDisable.tracker.wf := by
  unfold Tracker.takeDisable
  split
  · exact h
  · exact (quit_wf h ha .disabled).2.2.1

/-! ## The bleed test -/

theorem creating_iff (t : Tracker) :
    t.creating = true ↔ ∃ c n, t.awaited = some { request := .create c, counted := n, answer := none } := by
  unfold Tracker.creating
  split
  · next c n h => exact ⟨fun _ => ⟨c, n, h⟩, fun _ => rfl⟩
  · next h => exact ⟨fun e => absurd e (by decide), fun ⟨c, n, e⟩ => absurd e (h c n)⟩

theorem mem_allStrings (s : Str) : s ∈ allStrings := by revert s; decide

/-- An entry to FORMING, or one after it, whose CREATE is not applied yet. -/
theorem enteredSince_iff (n : Nat) (t : Tracker) :
    t.enteredSince n = true ↔ t.creating = true ∧ ∃ e, t.entry = some e ∧ n ≤ e.number := by
  unfold Tracker.enteredSince
  cases t.entry <;> simp

/-- The part stands as at an entry to FORMING, but for that entry and those after it (R86). -/
theorem undisturbed_iff (σ : State) (e : Entry) :
    σ.undisturbed e = true ↔ σ.scene.frontEnds = e.scene.frontEnds ∧ σ.scene.pitchUnit = e.scene.pitchUnit
      ∧ σ.scene.settings = e.scene.settings
      ∧ ∀ w : Str, (σ.trackers[w]).glance = e.scene.trackers[w] ∨ (σ.trackers[w]).enteredSince e.number = true := by
  simp only [State.undisturbed, Bool.and_eq_true, decide_eq_true_eq, List.all_eq_true, Bool.or_eq_true, and_assoc,
    mem_allStrings, true_imp_iff]

/-- A string's entry to FORMING comes before a test unless either order is open and the free value says otherwise (R86). -/
theorem entersFirst_iff (σ : State) (s : Str) (t : Tracker) (u : Str) :
    σ.entersFirst s t u = true ↔ ∀ e, (σ.trackers[u]).entry = some e → t.state = .attack →
      t.tests = (σ.trackers[s]).tests → (σ.trackers[u]).creating = true →
      (σ.trackers[u]).staleTimer = .running (σ.settings.stale * 5) → σ.undisturbed e = true →
      e.number < Config.entriesSeen σ.resets t.tests s := by
  unfold State.entersFirst
  cases (σ.trackers[u]).entry with
  | none => simp
  | some e =>
    simp only [Option.all_some, State.mayPrecede, Bool.or_eq_true, Bool.not_eq_true', Bool.and_eq_false_iff,
      decide_eq_false_iff_not, decide_eq_true_eq, Option.some.injEq, forall_eq']
    simp only [← Bool.not_eq_true, imp_iff_not_or, or_assoc, not_and_or]

theorem foldl_max_le (f : Str → Nat) (us : List Str) (n : Nat) :
    n ≤ us.foldl (fun n u => max n (f u)) n ∧ ∀ u ∈ us, f u ≤ us.foldl (fun n u => max n (f u)) n := by
  induction us generalizing n with
  | nil => simp
  | cons v us ih =>
    have h := ih (max n (f v))
    refine ⟨le_trans (le_max_left _ _) h.1, fun u hu => ?_⟩
    rcases List.mem_cons.1 hu with rfl | hu
    · exact le_trans (le_max_right _ _) h.1
    · exact h.2 u hu

/-- A new entry to FORMING is numbered after every entry that a Tracker bears. -/
theorem newEntry_number (σ : State) (u : Str) {e : Entry} (h : (σ.trackers[u]).entry = some e) :
    e.number < σ.newEntry.number := by
  have m := (foldl_max_le (fun u => (σ.trackers[u]).entryNumber) allStrings 0).2 u (mem_allStrings u)
  simp only [Tracker.entryNumber, h, Option.map_some, Option.getD_some] at m
  exact Nat.lt_succ_of_le m

/-! ## Results -/

theorem pairSearch_wf (σ : State) (s : Str) (r : PitchResult) {t : Tracker} (h : t.wf) (ha : t.awaited = none)
    (hs : t.state = .attack ∨ t.state = .bleed) : (σ.pairSearch s r t).tracker.wf := by
  have w := (Tracker.wf_idle ha).1 h
  unfold State.pairSearch
  dsimp only
  split
  · rw [Tracker.wf_idle (by exact ha)]
    rcases hs with hs | hs <;> simp_all [Tracker.roomWf]
  · split
    · unfold State.consistentPair
      dsimp only
      split
      · rw [Tracker.wf_idle (by exact ha)]
        rcases hs with hs | hs <;> simp_all [Tracker.roomWf]
      · rcases hs with hs | hs <;>
          simp_all [State.createFrom, Tracker.refreshStale, Tracker.startStale, Tracker.send, Tracker.wf, Tracker.roomWf,
            Tracker.awaitsCreate, Tracker.awaitsSucceed]
    · rw [Tracker.wf_idle (by exact ha)]
      rcases hs with hs | hs <;> simp_all [Tracker.roomWf]

/-- FORMING and TRACKING leave room for a held step candidate alone. -/
theorem roomWf_following {t u : Tracker} (h : t.roomWf) (hs : t.state = .forming ∨ t.state = .tracking)
    (hu : u.state = t.state) (hp : u.firstPair = t.firstPair) (hq : u.predecessor = t.predecessor) : u.roomWf := by
  obtain ⟨_, h2, _, h4⟩ := h
  refine ⟨fun _ => by rwa [hu], ?_, ?_, ?_⟩
  · rw [hp, hu]; exact h2
  · rw [hu]; rcases hs with e | e <;> simp [e]
  · rw [hq, hu]; exact h4

/-- A Tracker that sends a request from FORMING or TRACKING with its items held is coherent. -/
theorem sent_wf {t u : Tracker} (w : (Tracker.wf t)) (ha : t.awaited = none) {h : Nat} (hl : t.live = some h)
    (hs : u.state = t.state) (hc : u.committed.isSome) (hf : u.lastSent.isSome) (hlv : u.live = t.live)
    (ht : u.staleTimer ≠ .stopped) (he : u.staleExpiries ≤ 1) (hp : u.firstPair = t.firstPair)
    (hpr : u.predecessor = t.predecessor) {q : Request} {c : Option Int} (hu : u.awaited = some { request := q, counted := c, answer := none })
    (hq : (∃ x, q = .update x) ∨ (∃ x, q = .succeed x) ∧ t.state = .tracking) : u.wf := by
  have w' := (Tracker.wf_idle ha).1 w
  have hst : u.state = .forming ∨ u.state = .tracking := by rw [hs]; exact w'.2.1.1 (by simp [hl])
  refine ⟨by simp [hf, hst], by simp [hst], fun _ => Or.inl (by simp [hlv, hl]), ?_, ?_, ?_, by simp [ht, hst], he, ?_, ?_,
    roomWf_following w'.2.2.2.2.2.2 (hs ▸ hst) hs hp hpr⟩
  · rcases hq with ⟨x, rfl⟩ | ⟨⟨x, rfl⟩, _⟩ <;> simp [Tracker.awaitsCreate, hu]
  · rcases hq with ⟨x, rfl⟩ | ⟨⟨x, rfl⟩, h⟩
    · simp [Tracker.awaitsSucceed, hu]
    · intro _; rw [hs]; exact h
  · rcases hst with e | e <;> simp [hc, e]
  · simp [hu]
  · simp [hu]

theorem reportTracking_wf {t u : Tracker} (w : t.wf) (ha : t.awaited = none) {h : Nat} (hl : t.live = some h)
    (hst : t.state = .tracking) (hs : u.state = t.state) (hc : u.committed.isSome) (hlv : u.live = t.live)
    (ht : u.staleTimer ≠ .stopped) (he : u.staleExpiries ≤ 1) (hp : u.firstPair = t.firstPair)
    (hpr : u.predecessor = t.predecessor) (policy : Overflow) (r : PitchResult) (pitch : Int)
    (sent : LastSent) : (u.reportTracking policy r pitch h sent).wf := by
  unfold Tracker.reportTracking
  dsimp only
  split
  · cases policy
    · exact sent_wf w ha hl hs hc rfl hlv ht he hp hpr rfl (Or.inl ⟨_, rfl⟩)
    · exact sent_wf w ha hl hs hc rfl hlv ht he hp hpr rfl (Or.inr ⟨⟨_, rfl⟩, hst⟩)
  · exact sent_wf w ha hl hs hc rfl hlv ht he hp hpr rfl (Or.inl ⟨_, rfl⟩)

/-- A step candidate held in FORMING or TRACKING (R59). -/
theorem holding_wf {t : Tracker} (w : t.wf) (ha : t.awaited = none) {h : Nat} (hl : t.live = some h) (p : Int) :
    ({ t with held := some p } : Tracker).wf := by
  have w' := (Tracker.wf_idle ha).1 w
  rw [Tracker.wf_idle (by exact ha)]
  exact ⟨w'.1, w'.2.1, w'.2.2.1, w'.2.2.2.1, w'.2.2.2.2.1, w'.2.2.2.2.2.1,
    roomWf_following w'.2.2.2.2.2.2 (w'.2.1.1 (by simp [hl])) rfl rfl rfl⟩

theorem formingResult_wf (σ : State) (r : PitchResult) {t : Tracker} (w : t.wf) (ha : t.awaited = none)
    (c : Committed) {h : Nat} (hl : t.live = some h) (sent : LastSent) : (σ.formingResult r t c h sent).wf := by
  unfold State.formingResult
  split
  · exact holding_wf w ha hl _
  · exact sent_wf (u := (t.commit _ r).reportForming r _ h sent) w ha hl rfl rfl rfl rfl (by exact StaleTimer.noConfusion)
      (Nat.zero_le 1) rfl rfl rfl (Or.inl ⟨_, rfl⟩)
  · exact sent_wf (u := (t.resetFilter _ r).reportForming r _ h sent) w ha hl rfl rfl rfl rfl
      (by exact StaleTimer.noConfusion) (Nat.zero_le 1) rfl rfl rfl (Or.inl ⟨_, rfl⟩)

theorem trackingResult_wf (σ : State) (s : Str) (r : PitchResult) {t : Tracker} (w : t.wf) (ha : t.awaited = none)
    (c : Committed) {h : Nat} (hl : t.live = some h) (sent : LastSent) (hst : t.state = .tracking) :
    (σ.trackingResult s r t c h sent).wf := by
  unfold State.trackingResult
  dsimp only
  split
  · exact holding_wf w ha hl _
  · exact reportTracking_wf (u := t.commit _ r) w ha hl hst rfl rfl rfl (by exact StaleTimer.noConfusion)
      (Nat.zero_le 1) rfl rfl _ _ _ _
  · unfold Tracker.reportStep
    dsimp only
    split
    · split
      · exact reportTracking_wf (u := t.resetFilter _ r) w ha hl hst rfl rfl rfl (by exact StaleTimer.noConfusion)
          (Nat.zero_le 1) rfl rfl _ _ _ _
      · exact sent_wf (u := (t.resetFilter _ r).sendSucceed h .legato _ _ r.level sent r.rawPitch) w ha hl rfl rfl rfl
          rfl (by exact StaleTimer.noConfusion) (Nat.zero_le 1) rfl rfl rfl (Or.inr ⟨⟨_, rfl⟩, hst⟩)
    · exact reportTracking_wf (u := t.resetFilter _ r) w ha hl hst rfl rfl rfl (by exact StaleTimer.noConfusion)
        (Nat.zero_le 1) rfl rfl _ _ _ _

theorem takeResult_wf (σ : State) (s : Str) (r : PitchResult) {t : Tracker} (w : t.wf) (ha : t.awaited = none) :
    (σ.takeResult s r t).tracker.wf := by
  unfold State.takeResult
  split
  · exact pairSearch_wf σ s r w ha (Or.inl ‹_›)
  · exact pairSearch_wf σ s r w ha (Or.inr ‹_›)
  · exact formingResult_wf σ r w ha _ ‹_› _
  · exact trackingResult_wf σ s r w ha _ ‹_› _ ‹_›
  · exact w

/-- Every input taken keeps the Tracker coherent. -/
theorem takeInput_wf (σ : State) (s : Str) (i : TrackerInput) {t : Tracker} (w : t.wf) (ha : t.awaited = none) :
    (σ.takeInput s i t).tracker.wf := by
  unfold State.takeInput
  split
  · exact takeOnset_wf w ha
  · exact takeRelease_wf w ha
  · exact takeRestrike_wf w ha
  · exact takeResult_wf σ s _ w ha
  · exact takeStale_wf w ha _ _ _
  · exact takeForced_wf w ha _ _
  · exact takeEnable_wf w ha
  · exact takeDisable_wf w ha

/-- Deferring an input while an answer is awaited keeps the Tracker coherent. -/
theorem defer_wf {t : Tracker} (w : t.wf) (ha : t.awaited.isSome) (d : List TrackerInput) :
    ({ t with deferred := d } : Tracker).wf := by
  obtain ⟨h1, h2, h3, h4, h5, h6, h7, h8, h9, h10, h11⟩ := w
  exact ⟨h1, h2, h3, h4, h5, h6, h7, h8, h9, fun h => absurd h (by intro h; rw [h] at ha; simp at ha), h11⟩

/-- Every input that reaches a Tracker keeps it coherent, taken or deferred (R49). -/
theorem receive_wf (σ : State) (s : Str) (i : TrackerInput) {t : Tracker} (w : t.wf) :
    (σ.receive s i t).tracker.wf := by
  unfold State.receive
  split
  · next h => exact defer_wf w h _
  · next h => exact takeInput_wf σ s i w (by simpa using h)

/-! ## Answers -/

theorem drain_wf (σ : State) (s : Str) (is : List TrackerInput) (k : Taken) (w : k.tracker.wf) :
    (σ.drain s is k).tracker.wf := by
  induction is generalizing k with
  | nil =>
    obtain ⟨h1, h2, h3, h4, h5, h6, h7, h8, h9, h10, h11⟩ := w
    exact ⟨h1, h2, h3, h4, h5, h6, h7, h8, h9, fun _ => rfl, h11⟩
  | cons i is ih =>
    unfold State.drain
    split
    · next h => exact defer_wf w h _
    · next h => exact ih _ (takeInput_wf σ s i w (by simpa using h))

theorem passPitch_wf {t : Tracker} (w : t.wf) (b : Bool) (c : Option Int) : (t.passPitch b c).wf := by
  unfold Tracker.passPitch
  split
  · split <;> exact w
  · exact w

theorem passPitch_kept (t : Tracker) (b : Bool) (c : Option Int) :
    (t.passPitch b c).awaited = t.awaited ∧ (t.passPitch b c).state = t.state := by
  unfold Tracker.passPitch
  split
  · split <;> exact ⟨rfl, rfl⟩
  · exact ⟨rfl, rfl⟩

theorem checkConfirm_wf {t : Tracker} (w : t.wf) (ha : t.awaited = none) (hs : t.state = .forming) (n : Nat) :
    (t.checkConfirm n).wf := by
  have h := (Tracker.wf_idle ha).1 w
  rw [hs] at h
  unfold Tracker.checkConfirm
  dsimp only
  split
  · split
    · next x hl =>
      refine ⟨by simp [Tracker.send, h.1], by simp [Tracker.send], fun _ => Or.inl (by simp [Tracker.send, hl]),
        by simp [Tracker.send, Tracker.awaitsCreate], by simp [Tracker.send, Tracker.awaitsSucceed],
        by simp [Tracker.send, h.2.2.1], ?_, h.2.2.2.2.1, by simp [Tracker.send], by simp [Tracker.send], ?_⟩
      · have := h.2.2.2.1
        simpa [Tracker.send] using this
      · have r := h.2.2.2.2.2.2
        simpa [Tracker.roomWf, Tracker.send, hs] using r
    · rw [Tracker.wf_idle (by exact ha)]; exact (Tracker.wf_idle ha).1 w
  · rw [Tracker.wf_idle (by exact ha)]; exact (Tracker.wf_idle ha).1 w

theorem updateAnswered_wf {t : Tracker} (w : t.wf) (ha : t.awaited = none) (n : Nat) (b : Bool) (c : Option Int) :
    (t.updateAnswered n b c).wf := by
  have k := passPitch_kept t b c
  unfold Tracker.updateAnswered
  dsimp only
  split
  · next h => exact checkConfirm_wf (passPitch_wf w b c) (k.1.trans ha) (k.2.trans h.1) n
  · exact passPitch_wf w b c

/-- Only CREATE and SUCCEED are answered with a handle, and CREATE with nothing else (R48). -/
theorem admits_handle {q : Request} {x : Answer} (h : q.admits x = true) :
    ((∃ n, x = .handle n) ↔ ((∃ c, q = .create c) ∨ ∃ c, q = .succeed c) ∧ x ≠ .notLive)
      ∧ ((∃ c, q = .create c) → ∃ n, x = .handle n) := by
  cases q <;> cases x <;> simp_all [Request.admits]

/-- NOT LIVE either leaves the Tracker as it is or makes it stand down (R74, R76). -/
theorem takeNotLive_cases (gate : Gate) (q : Request) (t : Tracker) :
    (∃ h, q = .release h .stale) ∧ t.takeNotLive gate q = .ignored t
      ∨ (∀ h, q ≠ .release h .stale) ∧ t.takeNotLive gate q = t.standDown gate := by
  unfold Tracker.takeNotLive
  split
  · next h => exact Or.inl ⟨⟨h, rfl⟩, rfl⟩
  · next hq => exact Or.inr ⟨hq, rfl⟩

theorem takeNotLive_wf {t : Tracker} (w : t.wf) (ha : t.awaited = none) (gate : Gate) (q : Request) :
    (t.takeNotLive gate q).tracker.wf := by
  rcases takeNotLive_cases gate q t with ⟨_, e⟩ | ⟨_, e⟩ <;> rw [e]
  · exact w
  · exact standDown_wf w ha _

/-- Every answer that fits its request leaves the Tracker coherent (R48). -/
theorem actOnAnswer_wf (σ : State) (s : Str) {t : Tracker} (w : t.wf) {a : Awaited} (ha : t.awaited = some a)
    {x : Answer} (hx : a.answer = some x) :
    (σ.actOnAnswer s a x { t with awaited := none, deferred := [] }).tracker.wf := by
  obtain ⟨h1, h2, h3, h4, h5, h6, h7, h8, h9, h10, h11⟩ := w
  have adm := admits_handle (h9 a ha x hx)
  have idle : (¬ ∃ n, x = .handle n) → ({ t with awaited := none, deferred := [] } : Tracker).wf := by
    intro hc
    rw [Tracker.wf_idle rfl]
    refine ⟨h1, ⟨h2, fun h => (h3 h).resolve_right ?_⟩, h6, h7, h8, rfl, h11⟩
    intro hn
    refine hc (adm.2 ?_)
    simp only [Tracker.awaitsCreate, ha] at hn
    split at hn
    · next c hq => exact ⟨c, hq⟩
    · exact absurd hn (by simp)
  unfold State.actOnAnswer
  split
  · exact takeNotLive_wf (idle (by simp)) rfl _ _
  · next n =>
    refine passPitch_wf ?_ _ _
    have hst : t.state = .forming ∨ t.state = .tracking := by
      rcases (adm.1.1 ⟨n, rfl⟩).1 with ⟨c, hc⟩ | ⟨c, hc⟩
      · exact Or.inl (h4 (by simp [Tracker.awaitsCreate, ha, hc])).1
      · exact Or.inr (h5 (by simp [Tracker.awaitsSucceed, ha, hc]))
    rw [Tracker.wf_idle rfl]
    exact ⟨h1, by simp [hst], h6, h7, h8, rfl, h11⟩
  · have hi := idle (by simp)
    split
    · exact updateAnswered_wf hi rfl _ _ _
    all_goals exact hi

/-! ## Steps of the whole state -/

/-- Every Tracker is coherent. -/
abbrev State.trackersWf (σ : State) : Prop := ∀ k : Str, (σ.trackers[k]).wf

theorem State.trackersWf_set {σ : State} (w : σ.trackersWf) (s : Str) {t : Tracker} (h : t.wf) :
    (σ.setTracker s t).trackersWf := by
  intro k
  simp only [setTracker_trackers, bank_get_set]
  split
  · exact h
  · exact w k

theorem putTaken_trackersWf {σ : State} (w : σ.trackersWf) (s : Str) {k : Taken} (h : k.tracker.wf) :
    (σ.putTaken s k).trackersWf := by
  unfold State.putTaken
  split
  · exact State.trackersWf_set w s h
  · exact State.trackersWf_set w s h

/-- Channels of messages are no part of a Tracker's coherence. -/
theorem wf_channels {t : Tracker} (w : t.wf) (e : List FrontEndEvent) (f : List Nat) (n : List Bool) (p : List Int) :
    ({ t with events := e, forced := f, enables := n, passed := p } : Tracker).wf := w

theorem deliver_trackersWf {σ : State} (w : σ.trackersWf) (s : Str) (i : TrackerInput) : (σ.deliver s i).trackersWf :=
  putTaken_trackersWf w s (receive_wf σ s i (w s))

theorem eventStep_trackersWf {σ : State} (w : σ.trackersWf) (e : FrontEndEvent) (s : Str) :
    (σ.eventStep e s).trackersWf := by
  unfold State.eventStep
  split
  · exact w
  · split
    · refine deliver_trackersWf (State.trackersWf_set w s ?_) s _; exact w s
    · exact w

theorem forcedStep_trackersWf {σ : State} (w : σ.trackersWf) (s : Str) : (σ.forcedStep s).trackersWf := by
  unfold State.forcedStep
  split
  · exact w
  · refine deliver_trackersWf (State.trackersWf_set w s ?_) s _; exact w s

theorem enableStep_trackersWf {σ : State} (w : σ.trackersWf) (s : Str) : (σ.enableStep s).trackersWf := by
  unfold State.enableStep
  split
  · refine deliver_trackersWf (State.trackersWf_set w s ?_) s _; exact w s
  · exact w
  · exact w

theorem disableStep_trackersWf {σ : State} (w : σ.trackersWf) (s : Str) : (σ.disableStep s).trackersWf := by
  unfold State.disableStep
  split
  · refine deliver_trackersWf (State.trackersWf_set w s ?_) s _; exact w s
  · exact w
  · exact w

theorem staleStep_trackersWf {σ : State} (w : σ.trackersWf) (s : Str) : (σ.staleStep s).trackersWf := by
  unfold State.staleStep
  split
  · next h =>
    refine deliver_trackersWf (State.trackersWf_set w s ?_) s _
    obtain ⟨h1, h2, h3, h4, h5, h6, h7, h8, h9, h10, h11⟩ := w s
    refine ⟨h1, h2, h3, h4, h5, h6, ?_, h8, h9, h10, h11⟩
    rw [h] at h7
    simpa using h7
  · exact w

theorem trackerAnswer_trackersWf {σ : State} (w : σ.trackersWf) (s : Str) : (σ.trackerAnswer s).trackersWf := by
  unfold State.trackerAnswer
  split
  · exact w
  · next a ha =>
    split
    · exact w
    · next x hx => exact putTaken_trackersWf w s (drain_wf σ s _ _ (actOnAnswer_wf σ s (w s) ha hx))

theorem handResult_trackersWf {σ : State} (w : σ.trackersWf) (c : Computation) : (σ.handResult c).trackersWf :=
  deliver_trackersWf (σ := σ.setPitchUnit { σ.pitchUnit with computation := some { c with handed := true } }) w _ _

theorem resultStep_trackersWf {σ : State} (w : σ.trackersWf) (s : Str) : (σ.resultStep s).trackersWf := by
  unfold State.resultStep
  split
  · exact w
  · split
    · exact handResult_trackersWf w _
    · exact w

theorem beginComputation_trackers (σ : State) (s : Str) (n : Nat) : (σ.beginComputation s n).trackers = σ.trackers := by
  unfold State.beginComputation; split <;> rfl

theorem grant_trackers (σ : State) : σ.grant.trackers = σ.trackers := by
  unfold State.grant
  split
  · rfl
  · exact beginComputation_trackers _ _ _

theorem decideContinuation_trackers (σ : State) (s : Str) : (σ.decideContinuation s).trackers = σ.trackers := by
  unfold State.decideContinuation
  split
  · exact beginComputation_trackers _ _ _
  · exact grant_trackers _

theorem completeComputation_trackersWf {σ : State} (w : σ.trackersWf) : σ.completeComputation.trackersWf := by
  unfold State.completeComputation
  split
  · exact w
  · unfold State.trackersWf
    rw [decideContinuation_trackers]
    split
    · exact w
    · exact handResult_trackersWf w _

theorem tick_trackersWf {σ : State} (w : σ.trackersWf) : σ.millisecond.trackersWf := by
  intro k
  simp only [State.millisecond, bank_get_ofFn]
  obtain ⟨h1, h2, h3, h4, h5, h6, h7, h8, h9, h10, h11⟩ := w k
  refine ⟨h1, h2, h3, h4, h5, h6, ?_, h8, h9, h10, h11⟩
  refine Iff.trans ?_ h7
  simp only [Tracker.tick]
  generalize (σ.trackers[k]).staleTimer = x
  rcases x with _ | (_ | n) | _ <;> simp [StaleTimer.tick]

/-- An answer that fits the request keeps the Trackers coherent (R48). -/
theorem serve_trackersWf {σ : State} (w : σ.trackersWf) (s : Str) (f : Request → Option Reply)
    (hf : ∀ q p, f q = some p → q.admits p.answer = true) : (σ.serve s f).trackersWf := by
  unfold State.serve
  split
  · exact w
  · next a ha =>
    split
    · exact w
    · split
      · exact w
      · next p hp =>
        refine State.trackersWf_set (σ := (σ.setTable p.table).handAll p.notices) w s ?_
        obtain ⟨h1, h2, h3, h4, h5, h6, h7, h8, h9, h10, h11⟩ := w s
        refine ⟨h1, h2, ?_, ?_, ?_, h6, h7, h8, ?_, ?_, h11⟩
        · simpa only [Tracker.awaitsCreate, ha] using h3
        · simpa only [Tracker.awaitsCreate, ha] using h4
        · simpa only [Tracker.awaitsSucceed, ha] using h5
        · simpa using hf _ _ hp
        · simp

theorem applyCreate_trackersWf {σ : State} (w : σ.trackersWf) (s : Str) : (σ.applyCreate s).trackersWf :=
  serve_trackersWf w s _ fun q p h => by
    cases q <;> simp only [reduceCtorEq] at h
    obtain ⟨room, _, rfl⟩ := Option.map_eq_some_iff.1 h
    rfl

theorem applyUpdate_trackersWf {σ : State} (w : σ.trackersWf) (s : Str) : (σ.applyUpdate s).trackersWf :=
  serve_trackersWf w s _ fun q p h => by
    cases q <;> simp only [reduceCtorEq] at h
    obtain rfl := Option.some.inj h
    unfold NoteTable.update; split <;> rfl

theorem applyConfirm_trackersWf {σ : State} (w : σ.trackersWf) (s : Str) : (σ.applyConfirm s).trackersWf :=
  serve_trackersWf w s _ fun q p h => by
    cases q <;> simp only [reduceCtorEq] at h
    obtain rfl := Option.some.inj h
    unfold NoteTable.confirm; split <;> [rfl; (split <;> rfl)]

theorem applyRelease_trackersWf {σ : State} (w : σ.trackersWf) (s : Str) : (σ.applyRelease s).trackersWf :=
  serve_trackersWf w s _ fun q p h => by
    cases q <;> simp only [reduceCtorEq] at h
    obtain rfl := Option.some.inj h
    unfold NoteTable.release; split <;> rfl

theorem applySucceed_trackersWf {σ : State} (w : σ.trackersWf) (s : Str) : (σ.applySucceed s).trackersWf :=
  serve_trackersWf w s _ fun q p h => by
    cases q <;> simp only [reduceCtorEq] at h
    unfold NoteTable.succeed at h
    split at h
    · obtain rfl := Option.some.inj h; rfl
    · obtain ⟨room, _, rfl⟩ := Option.map_eq_some_iff.1 h
      rfl

end Sys2Proof.Machine
end

