-- ==== Sys2Proof/Laws/Lives.lean ====
section
/-! SUPPORT. A string has at most one live record, and links come in pairs: every step that could break either keeps
it. -/

namespace Sys2Proof.Machine

/-! ## What the invariant gives -/

/-- Two live records on one string are one record (R90). -/
theorem live_unique {σ : State} (h : σ.table.wf) (w : σ.livesWf) {q r : Record} (hq : q ∈ σ.table.records)
    (hr : r ∈ σ.table.records) (hs : q.image.string = r.image.string) (lq : q.image.state ≠ .released)
    (lr : r.image.state ≠ .released) : q = r := by
  have a := ((w.1 r.image.string).2 q hq hs lq).1
  have b := ((w.1 r.image.string).2 r hr rfl lr).1
  exact NoteTable.eq_of_handle h.2.1 hq hr (Option.some.inj (a.symm.trans b))

/-- At most eight records are live (R90). -/
theorem live_atMostEight {σ : State} (h : σ.table.wf) (w : σ.livesWf) :
    (σ.table.records.filter fun r => decide (r.image.state ≠ .released)).length ≤ 8 := by
  have hn : (σ.table.records.filter fun r => decide (r.image.state ≠ .released)).Nodup :=
    (List.Nodup.of_map _ h.2.1).filter _
  have hm : ((σ.table.records.filter fun r => decide (r.image.state ≠ .released)).map (·.image.string)).Nodup := by
    refine hn.map_on fun q hq r hr hs => ?_
    simp only [List.mem_filter, decide_eq_true_eq] at hq hr
    exact live_unique h w hq.1 hr.1 hs hq.2 hr.2
  have := hm.length_le_card
  simpa using this

/-! ## Trackers -/

/-- What a Tracker owns depends on its live handle and its awaited answer alone. -/
theorem owned_congr {t u : Tracker} (h1 : u.live = t.live) (h2 : u.awaited = t.awaited) : u.owned = t.owned := by
  unfold Tracker.owned; rw [h2, h1]

/-- A Tracker that awaits no answer asks for nothing. -/
theorem asksOfLive_idle {t : Tracker} (h : t.awaited = none) : t.asksOfLive := by
  intro a ha; rw [h] at ha; exact absurd ha (by simp)

theorem asksOfLive_congr {t u : Tracker} (h1 : u.live = t.live) (h2 : u.awaited = t.awaited) (h : t.asksOfLive) :
    u.asksOfLive := by
  unfold Tracker.asksOfLive; rw [h2, h1]; exact h

/-- A Tracker keeps its agreement where its live handle, its awaited answer and its messages stand. -/
theorem agreesWith_congr {t u : Tracker} {n : NoteTable} {k : Str} (h1 : u.live = t.live) (h2 : u.awaited = t.awaited)
    (h3 : u.forced = t.forced) (h4 : u.deferred = t.deferred) (h : t.agreesWith n k) : u.agreesWith n k := by
  refine ⟨asksOfLive_congr h1 h2 h.1, fun r hr hk hl => ?_⟩
  rw [owned_congr h1 h2]
  simp only [Tracker.toldOf, h3, h4]
  exact h.2 r hr hk hl

/-- What taking an input does to what a Tracker owns: nothing, but for a forced release of its live record. -/
abbrev Tracker.lifeKept (t u : Tracker) : Prop :=
  u.asksOfLive ∧ u.owned = t.live ∧ u.forced = t.forced ∧ u.deferred = t.deferred

theorem lifeKept_idle {t u : Tracker} (ha : u.awaited = none) (hl : u.live = t.live) (hf : u.forced = t.forced)
    (hd : u.deferred = t.deferred) : t.lifeKept u := by
  exact ⟨asksOfLive_idle ha, by simp [Tracker.owned, ha, hl], hf, hd⟩

theorem lifeKept_self {t : Tracker} (ha : t.awaited = none) : t.lifeKept t := lifeKept_idle ha rfl rfl rfl

/-- The request sent is not a RELEASE, and it names the live handle. -/
theorem lifeKept_sent {t u : Tracker} {q : Request} {c : Option Int}
    (hu : u.awaited = some { request := q, counted := c, answer := none }) (hl : u.live = t.live)
    (hf : u.forced = t.forced) (hd : u.deferred = t.deferred)
    (hq : match q with
      | .create _ => True
      | .update x => t.live = some x.handle
      | .confirm h => t.live = some h
      | .release _ _ => False
      | .succeed x => t.live = some x.handle) : t.lifeKept u := by
  refine ⟨?_, ?_, hf, hd⟩
  · intro a h
    rw [hu] at h
    obtain rfl := Option.some.inj h
    cases q <;> simp_all
  · unfold Tracker.owned
    rw [hu]
    cases q <;> simp_all

/-- A Tracker that leaves its record, RELEASE sent if it held one, still owns it until the answer. -/
theorem lifeKept_left {t u : Tracker} (ha : t.awaited = none) (r : ReleaseReason)
    (hu : u.awaited = (t.sendRelease r).awaited) (hl : u.live = none) (hf : u.forced = t.forced)
    (hd : u.deferred = t.deferred) : t.lifeKept u := by
  cases h : t.live with
  | none =>
    refine lifeKept_idle ?_ (hl.trans h.symm) hf hd
    rw [hu]; simp [Tracker.sendRelease, h, ha]
  | some x =>
    rw [sendRelease_awaited h] at hu
    refine ⟨?_, ?_, hf, hd⟩
    · intro a ha
      rw [hu] at ha
      obtain rfl := Option.some.inj ha
      exact hl
    · unfold Tracker.owned
      rw [hu]
      exact h.symm

theorem sendRelease_kept (t : Tracker) (r : ReleaseReason) :
    (t.sendRelease r).forced = t.forced ∧ (t.sendRelease r).deferred = t.deferred
      ∧ (t.sendRelease r).state = t.state := by
  unfold Tracker.sendRelease; split <;> exact ⟨rfl, rfl, rfl⟩

/-- Outside FORMING and TRACKING a Tracker that awaits no answer holds no record. -/
theorem live_none {t : Tracker} (w : t.wf) (ha : t.awaited = none) (hs : ¬ (t.state = .forming ∨ t.state = .tracking)) :
    t.live = none := by
  have := ((Tracker.wf_idle ha).1 w).2.1
  cases h : t.live with
  | none => rfl
  | some x => exact absurd (this.1 (by simp [h])) hs

theorem takeOnset_life {t : Tracker} (w : t.wf) (ha : t.awaited = none) : t.lifeKept t.takeOnset.tracker := by
  unfold Tracker.takeOnset
  split
  all_goals first
    | exact lifeKept_self ha
    | exact lifeKept_idle ha (live_none w ha (by simp_all)).symm rfl rfl

theorem takeRelease_life {t : Tracker} (w : t.wf) (ha : t.awaited = none) : t.lifeKept t.takeRelease.tracker := by
  have k := sendRelease_kept t .decay
  unfold Tracker.takeRelease
  split
  all_goals first
    | exact lifeKept_self ha
    | exact lifeKept_left ha .decay rfl rfl k.1 k.2.1
    | exact lifeKept_idle ha (live_none w ha (by simp_all)).symm rfl rfl

theorem takeRestrike_life {t : Tracker} (w : t.wf) (ha : t.awaited = none) : t.lifeKept t.takeRestrike.tracker := by
  have k := sendRelease_kept t .restrike
  unfold Tracker.takeRestrike
  split
  all_goals first
    | exact lifeKept_self ha
    | exact lifeKept_left ha .restrike rfl rfl k.1 k.2.1
    | exact lifeKept_idle ha (live_none w ha (by simp_all)).symm rfl rfl

theorem takeStale_life {t : Tracker} (ha : t.awaited = none) (stale : Nat) (gate : Gate) (run : Nat) :
    t.lifeKept (t.takeStale stale gate run).tracker := by
  unfold Tracker.takeStale
  split
  · next hs =>
    split
    · split
      · next x sent hx hsent => exact lifeKept_sent rfl rfl rfl rfl hx
      · exact lifeKept_self ha
    · have k := sendRelease_kept t .stale
      unfold Tracker.staleRelease Tracker.standDown
      rw [if_neg (by rw [k.2.2]; rcases hs.1 with h | h <;> simp [h])]
      cases gate <;> exact lifeKept_left ha .stale rfl rfl k.1 k.2.1
  · exact lifeKept_self ha

theorem takeEnable_life {t : Tracker} (w : t.wf) (ha : t.awaited = none) : t.lifeKept t.takeEnable.tracker := by
  unfold Tracker.takeEnable
  split
  · exact lifeKept_idle ha (live_none w ha (by simp_all)).symm rfl rfl
  · exact lifeKept_self ha

theorem takeDisable_life {t : Tracker} (ha : t.awaited = none) : t.lifeKept t.takeDisable.tracker := by
  have k := sendRelease_kept t .disabled
  unfold Tracker.takeDisable
  split
  · exact lifeKept_self ha
  · exact lifeKept_left ha .disabled rfl rfl k.1 k.2.1

theorem pairSearch_life (σ : State) (s : Str) (r : PitchResult) {t : Tracker} (ha : t.awaited = none) :
    t.lifeKept (σ.pairSearch s r t).tracker := by
  unfold State.pairSearch
  dsimp only
  split
  · exact lifeKept_idle ha rfl rfl rfl
  · split
    · unfold State.consistentPair
      dsimp only
      split
      · exact lifeKept_idle ha rfl rfl rfl
      · exact lifeKept_sent rfl rfl rfl rfl trivial
    · exact lifeKept_idle ha rfl rfl rfl

theorem reportTracking_life {t u : Tracker} (policy : Overflow) (r : PitchResult) (pitch : Int) {h : Nat} (sent : LastSent)
    (hl : t.live = some h) (h1 : u.live = t.live) (h2 : u.forced = t.forced) (h3 : u.deferred = t.deferred) :
    t.lifeKept (u.reportTracking policy r pitch h sent) := by
  unfold Tracker.reportTracking
  dsimp only
  split
  · cases policy <;> exact lifeKept_sent rfl h1 h2 h3 hl
  · exact lifeKept_sent rfl h1 h2 h3 hl

theorem takeResult_life (σ : State) (s : Str) (r : PitchResult) {t : Tracker} (ha : t.awaited = none) :
    t.lifeKept (σ.takeResult s r t).tracker := by
  unfold State.takeResult
  split
  · exact pairSearch_life σ s r ha
  · exact pairSearch_life σ s r ha
  · next hl _ =>
    unfold State.formingResult
    split
    · exact lifeKept_idle ha rfl rfl rfl
    · exact lifeKept_sent rfl rfl rfl rfl hl
    · exact lifeKept_sent rfl rfl rfl rfl hl
  · next hl _ =>
    unfold State.trackingResult
    dsimp only
    split
    · exact lifeKept_idle ha rfl rfl rfl
    · exact reportTracking_life _ _ _ _ hl rfl rfl rfl
    · unfold Tracker.reportStep
      dsimp only
      split
      · split
        · exact reportTracking_life _ _ _ _ hl rfl rfl rfl
        · exact lifeKept_sent rfl rfl rfl rfl hl
      · exact reportTracking_life _ _ _ _ hl rfl rfl rfl
  · exact lifeKept_self ha

/-- Standing down, a Tracker holds no record. -/
theorem standDown_life {t : Tracker} (w : t.wf) (ha : t.awaited = none) (gate : Gate) :
    (t.standDown gate).tracker.live = none ∧ (t.standDown gate).tracker.awaited = none
      ∧ (t.standDown gate).tracker.forced = t.forced ∧ (t.standDown gate).tracker.deferred = t.deferred := by
  unfold Tracker.standDown
  split
  · next h => exact ⟨(show t.live = none from live_none w ha (by simp [h])), ha, rfl, rfl⟩
  · cases gate <;> exact ⟨rfl, ha, rfl, rfl⟩

/-- Every input taken leaves what the Tracker owns, but for a forced release of its live record. -/
theorem takeInput_life (σ : State) (s : Str) (i : TrackerInput) {t : Tracker} (w : t.wf) (ha : t.awaited = none)
    (hi : ∀ h, i = .forcedRelease h → t.live ≠ some h) : t.lifeKept (σ.takeInput s i t).tracker := by
  unfold State.takeInput
  split
  · exact takeOnset_life w ha
  · exact takeRelease_life w ha
  · exact takeRestrike_life w ha
  · exact takeResult_life σ s _ ha
  · exact takeStale_life ha _ _ _
  · next h =>
    unfold Tracker.takeForced
    rw [if_neg fun hh => hi h rfl hh.2]
    exact lifeKept_self ha
  · exact takeEnable_life w ha
  · exact takeDisable_life ha

/-- A forced release taken of the live record leaves none owned. -/
theorem takeForced_life (σ : State) (s : Str) {h : Nat} {t : Tracker} (w : t.wf) (ha : t.awaited = none) :
    let u := (σ.takeInput s (.forcedRelease h) t).tracker
    u.asksOfLive ∧ u.forced = t.forced ∧ u.deferred = t.deferred := by
  simp only [State.takeInput, Tracker.takeForced]
  split
  · have k := standDown_life w ha (σ.frontEnds[s]).gate
    exact ⟨asksOfLive_idle k.2.1, k.2.2.1, k.2.2.2⟩
  · exact ⟨asksOfLive_idle ha, rfl, rfl⟩

/-- A Tracker agrees with the table while a list of inputs is still to be taken. -/
abbrev Tracker.agreesBefore (u : Tracker) (t : NoteTable) (k : Str) (is : List TrackerInput) : Prop :=
  u.asksOfLive ∧ ∀ r ∈ t.records, r.image.string = k → r.image.state ≠ .released →
    u.owned = some r.image.handle ∧ r.image.handle ∉ u.forced ∧ .forcedRelease r.image.handle ∉ is

theorem takeInput_agrees (σ : State) (s : Str) (i : TrackerInput) (rest : List TrackerInput) {t : Tracker} {n : NoteTable}
    (w : t.wf) (ha : t.awaited = none) (h : t.agreesBefore n s (i :: rest)) :
    (σ.takeInput s i t).tracker.agreesBefore n s rest := by
  have ho : t.owned = t.live := by simp [Tracker.owned, ha]
  by_cases hi : ∀ h, i = .forcedRelease h → t.live ≠ some h
  · obtain ⟨k1, k2, k3, k4⟩ := takeInput_life σ s i w ha hi
    refine ⟨k1, fun r hr hk hl => ?_⟩
    obtain ⟨a, b, c⟩ := h.2 r hr hk hl
    rw [k2, k3]
    exact ⟨ho.symm.trans a, b, fun hm => c (List.mem_cons_of_mem _ hm)⟩
  · push Not at hi
    obtain ⟨x, rfl, hx⟩ := hi
    obtain ⟨k1, k3, k4⟩ := takeForced_life σ s (h := x) w ha
    refine ⟨k1, fun r hr hk hl => ?_⟩
    obtain ⟨a, b, c⟩ := h.2 r hr hk hl
    rw [ho, hx] at a
    rw [← Option.some.inj a] at c
    exact absurd List.mem_cons_self c

theorem drain_agrees (σ : State) (s : Str) {n : NoteTable} (is : List TrackerInput) (k : Taken) (w : k.tracker.wf)
    (h : k.tracker.agreesBefore n s is) : (σ.drain s is k).tracker.agreesWith n s := by
  induction is generalizing k with
  | nil =>
    refine ⟨h.1, fun r hr hk hl => ?_⟩
    obtain ⟨a, b, c⟩ := h.2 r hr hk hl
    exact ⟨a, by rintro (hm | hm) <;> [exact b hm; exact c hm]⟩
  | cons i is ih =>
    unfold State.drain
    split
    · refine ⟨h.1, fun r hr hk hl => ?_⟩
      obtain ⟨a, b, c⟩ := h.2 r hr hk hl
      exact ⟨a, by rintro (hm | hm) <;> [exact b hm; exact c hm]⟩
    · next ha =>
      have ha : k.tracker.awaited = none := by simpa using ha
      exact ih _ (takeInput_wf σ s i w ha) (takeInput_agrees σ s i is w ha h)

/-- An input that reaches a Tracker keeps its agreement with the table, taken or deferred. -/
theorem receive_agrees (σ : State) (s : Str) (i : TrackerInput) {t : Tracker} {n : NoteTable} (w : t.wf)
    (h : t.agreesWith n s)
    (hi : ∀ r ∈ n.records, r.image.string = s → r.image.state ≠ .released → i ≠ .forcedRelease r.image.handle) :
    (σ.receive s i t).tracker.agreesWith n s := by
  unfold State.receive
  split
  · refine ⟨h.1, fun r hr hk hl => ?_⟩
    obtain ⟨a, b⟩ := h.2 r hr hk hl
    refine ⟨a, ?_⟩
    rintro (hm | hm)
    · exact b (Or.inl hm)
    · rcases List.mem_append.1 hm with hm | hm
      · exact b (Or.inr hm)
      · exact hi r hr hk hl (List.mem_singleton.1 hm).symm
  · next ha =>
    have ha : t.awaited = none := by simpa using ha
    have hd : (σ.takeInput s i t).tracker.deferred = t.deferred := by
      by_cases hf : ∃ x, i = .forcedRelease x
      · obtain ⟨x, rfl⟩ := hf; exact (takeForced_life σ s w ha).2.2
      · exact (takeInput_life σ s i w ha fun x hx => absurd ⟨x, hx⟩ hf).2.2.2
    have k := takeInput_agrees σ s i t.deferred (n := n) w ha ⟨h.1, fun r hr hk hl => by
      obtain ⟨a, b⟩ := h.2 r hr hk hl
      refine ⟨a, fun hm => b (Or.inl hm), fun hm => ?_⟩
      rcases List.mem_cons.1 hm with hm | hm
      · exact hi r hr hk hl hm.symm
      · exact b (Or.inr hm)⟩
    refine ⟨k.1, fun r hr hk hl => ?_⟩
    obtain ⟨a, b, c⟩ := k.2 r hr hk hl
    refine ⟨a, ?_⟩
    rintro (hm | hm)
    · exact b hm
    · rw [hd] at hm; exact c hm

/-- A Tracker that acts on its answer keeps its agreement with the table. -/
theorem actOnAnswer_agrees (σ : State) (s : Str) {t : Tracker} {n : NoteTable} {a : Awaited}
    (ha : t.awaited = some a) {x : Answer} (hx : a.answer = some x) (h : t.agreesWith n s) :
    (σ.actOnAnswer s a x { t with awaited := none, deferred := [] }).tracker.agreesBefore n s t.deferred := by
  have pass : ∀ (u : Tracker) b c, (u.passPitch b c).live = u.live ∧ (u.passPitch b c).awaited = u.awaited
      ∧ (u.passPitch b c).forced = u.forced := by
    intro u b c
    unfold Tracker.passPitch
    split
    · split <;> exact ⟨rfl, rfl, rfl⟩
    · exact ⟨rfl, rfl, rfl⟩
  have own : t.owned = match (generalizing := false) x, a.request with
      | .handle h, _ => some h
      | .notLive, _ => none
      | .ok, .release _ _ => none
      | .ok, _ => t.live := by
    unfold Tracker.owned
    rw [ha]
    dsimp only
    rw [hx]
    cases x <;> cases a.request <;> rfl
  have asks := h.1 a ha
  /- It is enough that the Tracker owns afterwards what it owned before, and that its messages stand. -/
  have enough : ∀ u : Tracker, u.asksOfLive → u.owned = t.owned → u.forced = t.forced →
      u.agreesBefore n s t.deferred := by
    intro u h1 h2 h3
    refine ⟨h1, fun r hr hk hl => ?_⟩
    obtain ⟨b, c⟩ := h.2 r hr hk hl
    exact ⟨h2.trans b, fun hm => c (Or.inl (h3 ▸ hm)), fun hm => c (Or.inr hm)⟩
  unfold State.actOnAnswer
  split
  · /- NOT LIVE -/
    have none_owned : t.owned = none := by rw [own]
    have gone : ∀ u : Tracker, u.awaited = none → u.forced = t.forced → u.agreesBefore n s t.deferred := by
      intro u h1 h2
      refine ⟨asksOfLive_idle h1, fun r hr hk hl => ?_⟩
      exact absurd ((none_owned.symm.trans (h.2 r hr hk hl).1)) (by simp)
    rcases takeNotLive_cases (σ.frontEnds[s]).gate a.request { t with awaited := none, deferred := [] } with
      ⟨_, e⟩ | ⟨_, e⟩ <;> rw [e]
    · exact gone _ rfl rfl
    · unfold Tracker.standDown
      split
      · exact gone _ rfl rfl
      · split <;> exact gone _ rfl rfl
  · /- a handle -/
    next y =>
    obtain ⟨p1, p2, p3⟩ := pass { t with awaited := none, deferred := [], live := some y } (σ.probe.runsOn s) a.counted
    refine enough _ (asksOfLive_idle p2) ?_ p3
    rw [own]
    simp only [Tracker.owned, p2, p1]
  · /- OK -/
    split
    · next u hu =>
      rw [hu] at asks own
      have asks : t.live = some u.handle := asks
      have base : ∀ v : Tracker, v.live = t.live → v.forced = t.forced → v.awaited = none →
          v.agreesBefore n s t.deferred := fun v h1 h2 h3 =>
        enough v (asksOfLive_idle h3) (by rw [own]; simp only [Tracker.owned, h3, h1]) h2
      dsimp only
      unfold Tracker.updateAnswered
      obtain ⟨p1, p2, p3⟩ := pass { t with awaited := none, deferred := [] } (σ.probe.runsOn s) a.counted
      dsimp only
      split
      · unfold Tracker.checkConfirm
        dsimp only
        split
        · split
          · next y hy =>
            rw [p1] at hy
            refine enough _ ?_ ?_ p3
            · intro b hb
              obtain rfl := Option.some.inj hb
              exact p1.trans hy
            · rw [own]; exact p1
          · exact base _ p1 p3 p2
        · exact base _ p1 p3 p2
      · exact base _ p1 p3 p2
    all_goals
      next hu =>
      refine enough _ (asksOfLive_idle rfl) ?_ rfl
      rw [own, hu]
      rw [hu] at asks
      first
        | rfl
        | exact asks

end Sys2Proof.Machine
end

