-- ==== Sys2Proof/Laws/LiveSteps.lean ====
section
/-! SUPPORT. Every step of the part keeps the Trackers in agreement with the Note Table about live records, and keeps links
in pairs. -/

namespace Sys2Proof.Machine

/-! ## Changes of the table that make no record live -/

/-- Every record live afterwards was live before, under the same handle and on the same string. -/
abbrev NoteTable.liveWithin (t t' : NoteTable) : Prop :=
  ∀ r' ∈ t'.records, r'.image.state ≠ .released →
    ∃ r ∈ t.records, r.image.state ≠ .released ∧ r.image.handle = r'.image.handle ∧ r.image.string = r'.image.string

/-- The change makes no record live and keeps links in pairs. -/
abbrev NoteTable.narrowsTo (t t' : NoteTable) : Prop := t.liveWithin t' ∧ (t.linked → t'.linked)

theorem NoteTable.narrowsTo_self (t : NoteTable) : t.narrowsTo t :=
  ⟨fun r hr hl => ⟨r, hr, hl, rfl, rfl⟩, id⟩

theorem NoteTable.narrowsTo.trans {t u v : NoteTable} (h : t.narrowsTo u) (h' : u.narrowsTo v) : t.narrowsTo v := by
  refine ⟨fun r hr hl => ?_, fun w => h'.2 (h.2 w)⟩
  obtain ⟨q, hq, lq, e1, e2⟩ := h'.1 r hr hl
  obtain ⟨p, hp, lp, f1, f2⟩ := h.1 q hq lq
  exact ⟨p, hp, lp, f1.trans e1, f2.trans e2⟩

/-- The fields of an image that links and life depend on. -/
abbrev Record.standsAs (r q : Record) : Prop :=
  q.image.handle = r.image.handle ∧ q.image.string = r.image.string ∧ q.image.predecessor = r.image.predecessor
    ∧ q.image.successor = r.image.successor ∧ (q.image.state ≠ .released → r.image.state ≠ .released)

theorem Record.standsAs_self (r : Record) : r.standsAs r := ⟨rfl, rfl, rfl, rfl, id⟩

/-- A change of records that leaves handles, strings and links and makes none live. -/
theorem NoteTable.narrowsTo_map (t : NoteTable) (f : Record → Record) (hf : ∀ r ∈ t.records, r.standsAs (f r))
    (rec : List Nat) (n c : Nat) :
    t.narrowsTo { records := t.records.map f, recency := rec, nextHandle := n, created := c } := by
  refine ⟨fun r' hr' hl => ?_, fun w r' hr' => ?_⟩
  · obtain ⟨r, hr, rfl⟩ := List.mem_map.1 hr'
    obtain ⟨h1, h2, _, _, h5⟩ := hf r hr
    exact ⟨r, hr, h5 hl, h1.symm, h2.symm⟩
  · obtain ⟨r, hr, rfl⟩ := List.mem_map.1 hr'
    obtain ⟨h1, h2, h3, h4, h5⟩ := hf r hr
    obtain ⟨w1, w2, w3⟩ := w r hr
    have moved : ∀ q ∈ t.records, f q ∈ t.records.map f := fun q hq => List.mem_map.2 ⟨q, hq, rfl⟩
    refine ⟨?_, ?_, fun hl => by rw [h4]; exact w3 (h5 hl)⟩
    · rw [h1, h2, h3]
      intro h hh
      obtain ⟨q, hq, e1, e2, e3⟩ := w1 h hh
      obtain ⟨g1, g2, _, g4, _⟩ := hf q hq
      exact ⟨f q, moved q hq, g1.trans e1, g2.trans e2, g4.trans e3⟩
    · rw [h1, h2, h4]
      intro h hh
      obtain ⟨q, hq, e1, e2, e3⟩ := w2 h hh
      obtain ⟨g1, g2, g3, _, _⟩ := hf q hq
      exact ⟨f q, moved q hq, g1.trans e1, g2.trans e2, g3.trans e3⟩

theorem NoteTable.narrowsTo_modify (t : NoteTable) (h : Nat) (f : Record → Record)
    (hf : ∀ r ∈ t.records, r.standsAs (f r)) : t.narrowsTo (t.modify h f) :=
  NoteTable.narrowsTo_map t _ (fun r hr => by split <;> [exact hf r hr; exact r.standsAs_self]) _ _ _

/-- As before, with the record then moved to the recency tail. -/
theorem NoteTable.narrowsTo_modifyTouch (t : NoteTable) (h : Nat) (f : Record → Record)
    (hf : ∀ r ∈ t.records, r.standsAs (f r)) : t.narrowsTo ((t.modify h f).touch h) :=
  NoteTable.narrowsTo_modify t h f hf

/-- Freeing a record clears both fields of its links together (R119). -/
theorem NoteTable.narrowsTo_free (t : NoteTable) (h : Nat) : t.narrowsTo (t.free h) := by
  have kept : ∀ r' ∈ (t.free h).records, ∃ r ∈ t.records, r.image.handle ≠ h ∧ r' = r.unlink h := by
    intro r' hr'
    obtain ⟨r, hf, rfl⟩ := List.mem_map.1 hr'
    obtain ⟨hr, hh⟩ := List.mem_filter.1 hf
    exact ⟨r, hr, by simpa using hh, rfl⟩
  have back : ∀ q ∈ t.records, q.image.handle ≠ h → q.unlink h ∈ (t.free h).records := by
    intro q hq hh
    exact List.mem_map.2 ⟨q, List.mem_filter.2 ⟨hq, by simpa using hh⟩, rfl⟩
  refine ⟨fun r' hr' hl => ?_, fun w r' hr' => ?_⟩
  · obtain ⟨r, hr, _, rfl⟩ := kept r' hr'
    exact ⟨r, hr, hl, rfl, rfl⟩
  · obtain ⟨r, hr, hh, rfl⟩ := kept r' hr'
    obtain ⟨w1, w2, w3⟩ := w r hr
    have succ : (r.unlink h).image.successor = if r.image.successor = some h then none else r.image.successor := rfl
    have pred : (r.unlink h).image.predecessor = if r.image.predecessor = some h then none else r.image.predecessor := rfl
    refine ⟨?_, ?_, fun hl => ?_⟩
    · intro x hx
      rw [pred] at hx
      split at hx
      · exact absurd hx (by simp)
      · next hne =>
        obtain ⟨q, hq, e1, e2, e3⟩ := w1 x hx
        have hxh : x ≠ h := by rintro rfl; exact hne hx
        refine ⟨q.unlink h, back q hq (by rw [e1]; exact hxh), e1, e2, ?_⟩
        show (if q.image.successor = some h then none else q.image.successor) = some r.image.handle
        rw [e3, if_neg (by simpa using hh)]
    · intro x hx
      rw [succ] at hx
      split at hx
      · exact absurd hx (by simp)
      · next hne =>
        obtain ⟨q, hq, e1, e2, e3⟩ := w2 x hx
        have hxh : x ≠ h := by rintro rfl; exact hne hx
        refine ⟨q.unlink h, back q hq (by rw [e1]; exact hxh), e1, e2, ?_⟩
        show (if q.image.predecessor = some h then none else q.image.predecessor) = some r.image.handle
        rw [e3, if_neg (by simpa using hh)]
    · rw [succ, w3 hl]; split <;> rfl

theorem NoteTable.narrowsTo_makeRoom {t : NoteTable} {keep : Option Nat} {room : NoteTable × List Notice}
    (h : t.makeRoom keep = some room) : t.narrowsTo room.1 := by
  unfold NoteTable.makeRoom at h
  split at h
  · obtain rfl := Option.some.inj h; exact NoteTable.narrowsTo_self t
  · obtain ⟨v, _, rfl⟩ := Option.map_eq_some_iff.1 h
    exact NoteTable.narrowsTo_free t v

theorem Record.standsAs_release (r : Record) (linger : Nat) (reason : ReleaseReason) :
    r.standsAs (r.release linger reason) := ⟨rfl, rfl, rfl, rfl, fun h => absurd rfl h⟩

theorem NoteTable.narrowsTo_deliver (t : NoteTable) (h : Nat) : t.narrowsTo (t.deliver h) :=
  NoteTable.narrowsTo_modifyTouch t h (fun r => { r with changed := false }) fun r _ => r.standsAs_self

theorem NoteTable.narrowsTo_deliverAll (t : NoteTable) (rs : List Record) : t.narrowsTo (t.deliverAll rs) := by
  induction rs generalizing t with
  | nil => exact NoteTable.narrowsTo_self t
  | cons r rs ih => exact (NoteTable.narrowsTo_deliver t r.image.handle).trans (ih _)

theorem NoteTable.narrowsTo_reflagAll (t : NoteTable) (is : List Included) : t.narrowsTo (is.foldl NoteTable.reflag t) := by
  induction is generalizing t with
  | nil => exact NoteTable.narrowsTo_self t
  | cons i is ih =>
    exact (NoteTable.narrowsTo_map t _ (fun r _ => by split <;> exact r.standsAs_self) _ _ _).trans (ih _)

/-! ## A new record (R98, R100, R105) -/

/-- What linking a record to a new successor leaves in each record. -/
theorem NoteTable.linkSuccessor_some (t : NoteTable) (h n : Nat) :
    ∃ f : Record → Record, (t.linkSuccessor (some h) n).records = t.records.map f
      ∧ (∀ x, (f x).image.handle = x.image.handle) ∧ (∀ x, (f x).image.string = x.image.string)
      ∧ (∀ x, (f x).image.predecessor = x.image.predecessor) ∧ (∀ x, (f x).image.state = x.image.state)
      ∧ (∀ x, x.image.handle = h → (f x).image.successor = some n) ∧ ∀ x, x.image.handle ≠ h → f x = x := by
  refine ⟨fun x => if x.image.handle = h then x.edit fun i => { i with successor := some n } else x, rfl,
    fun x => ?_, fun x => ?_, fun x => ?_, fun x => ?_, fun x e => ?_, fun x e => if_neg e⟩
  all_goals dsimp only
  iterate 4 (split <;> rfl)
  rw [if_pos e]; rfl

/-- Linking a new record to its predecessor keeps links in pairs: the predecessor is RELEASED, on the same string and
without a successor (R100, R105). -/
theorem NoteTable.linked_add {t : NoteTable} (hn : t.handles.Nodup) (w : t.linked) {r : Record} {p : Option Nat}
    (hh : r.image.handle ∉ t.handles) (hp : r.image.predecessor = p) (hs : r.image.successor = none)
    (hq : ∀ h ∈ p, ∃ q ∈ t.records, q.image.handle = h ∧ q.image.string = r.image.string ∧ q.image.successor = none
      ∧ q.image.state = .released) : ((t.linkSuccessor p r.image.handle).add r).linked := by
  cases p with
  | none =>
    intro x hx
    rcases List.mem_append.1 hx with hx | hx
    · obtain ⟨w1, w2, w3⟩ := w x hx
      refine ⟨fun h ha => ?_, fun h ha => ?_, w3⟩
      · obtain ⟨q, hq, e⟩ := w1 h ha; exact ⟨q, List.mem_append_left _ hq, e⟩
      · obtain ⟨q, hq, e⟩ := w2 h ha; exact ⟨q, List.mem_append_left _ hq, e⟩
    · obtain rfl := List.mem_singleton.1 hx
      exact ⟨fun h ha => by rw [hp] at ha; exact absurd ha (by simp), fun h ha => by rw [hs] at ha; exact absurd ha (by simp),
        fun _ => hs⟩
  | some h =>
    obtain ⟨p, hpm, p1, p2, p3, p4⟩ := hq h rfl
    obtain ⟨f, fe, fh, fs, fp, ft, fsucc, fother⟩ := NoteTable.linkSuccessor_some t h r.image.handle
    have records : ((t.linkSuccessor (some h) r.image.handle).add r).records = t.records.map f ++ [r] :=
      congrArg (· ++ [r]) fe
    unfold NoteTable.linked
    rw [records]
    have inn : ∀ x ∈ t.records, f x ∈ t.records.map f ++ [r] := fun x hx =>
      List.mem_append_left _ (List.mem_map.2 ⟨x, hx, rfl⟩)
    have new : r ∈ t.records.map f ++ [r] := List.mem_append_right _ (List.mem_singleton.2 rfl)
    have isP : ∀ x ∈ t.records, x.image.handle = h → x = p := fun x hx e =>
      NoteTable.eq_of_handle hn hx hpm (e.trans p1.symm)
    intro y hy
    rcases List.mem_append.1 hy with hy' | hy'
    · obtain ⟨x, hx, rfl⟩ := List.mem_map.1 hy'
      obtain ⟨w1, w2, w3⟩ := w x hx
      rw [fh, fs, fp, ft]
      refine ⟨fun y hy => ?_, ?_, fun hl => ?_⟩
      · obtain ⟨q, hq, e1, e2, e3⟩ := w1 y hy
        have hne : q.image.handle ≠ h := fun e => by
          rw [isP q hq e, p3] at e3; exact absurd e3 (by simp)
        exact ⟨f q, inn q hq, (fh q).trans e1, (fs q).trans e2, (fother q hne).symm ▸ e3⟩
      · by_cases e : x.image.handle = h
        · rw [fsucc x e]
          intro y hy
          obtain rfl := Option.some.inj hy
          obtain rfl := isP x hx e
          exact ⟨r, new, rfl, p2.symm, hp.trans (congrArg some e.symm)⟩
        · rw [fother x e]
          intro y hy
          obtain ⟨q, hq, e1, e2, e3⟩ := w2 y hy
          exact ⟨f q, inn q hq, (fh q).trans e1, (fs q).trans e2, (fp q).trans e3⟩
      · have hne : x.image.handle ≠ h := fun e => hl (by rw [isP x hx e]; exact p4)
        rw [fother x hne]; exact w3 hl
    · obtain rfl := List.mem_singleton.1 hy'
      refine ⟨?_, fun y hy => by rw [hs] at hy; exact absurd hy (by simp), fun _ => hs⟩
      rw [hp]
      intro y hy
      obtain rfl := Option.some.inj hy
      exact ⟨f p, inn p hpm, (fh p).trans p1, (fs p).trans p2, fsucc p p1⟩

/-- The records live once a new record has joined: those live before, and the new one. -/
theorem NoteTable.live_add {t : NoteTable} {p : Option Nat} {h : Nat} {r x : Record}
    (hx : x ∈ ((t.linkSuccessor p h).add r).records) :
    x = r ∨ ∃ q ∈ t.records, x.image.handle = q.image.handle ∧ x.image.string = q.image.string
      ∧ x.image.state = q.image.state := by
  rcases List.mem_append.1 hx with hx | hx
  · right
    cases p with
    | none => exact ⟨x, hx, rfl, rfl, rfl⟩
    | some y =>
      obtain ⟨q, hq, rfl⟩ := List.mem_map.1 hx
      exact ⟨q, hq, by split <;> rfl, by split <;> rfl, by split <;> rfl⟩
  · exact Or.inl (List.mem_singleton.1 hx)

/-- The record that CREATE makes (R98). -/
theorem NoteTable.createIn_spec (t : NoteTable) (k : Settings) (s : Str) (c : CreateRequest) :
    ∃ r : Record, (t.createIn k s c).1 = (t.linkSuccessor (t.linkable s c.predecessor) r.image.handle).add r
      ∧ (t.createIn k s c).2 = r.image.handle ∧ r.image.handle = t.nextGiven ∧ r.image.string = s
      ∧ r.image.predecessor = t.linkable s c.predecessor ∧ r.image.successor = none ∧ r.serial = t.created :=
  ⟨{ image :=
       { handle := t.nextGiven, state := .provisional, string := s, note := c.note, bend := c.bend
         velocity := c.velocity, level := c.level, zone := k.zoneOf s c.note, tag := none, hold := false, stale := false
         corrected := false, saturated := false, profile := c.profile, transpose := c.transpose
         bendRange := c.bendRange, predecessor := t.linkable s c.predecessor, successor := none, reason := none, age := 0 }
     changed := true, linger := .stopped, serial := t.created },
    rfl, rfl, rfl, rfl, rfl, rfl, rfl⟩

/-- The record that SUCCEED makes (R105). -/
theorem NoteTable.succeedIn_spec (t : NoteTable) (k : Settings) (old : Image) (q : SucceedRequest) :
    ∃ r : Record, (t.succeedIn k old q).1 = (t.linkSuccessor (some q.handle) r.image.handle).add r
      ∧ (t.succeedIn k old q).2 = r.image.handle ∧ r.image.handle = t.nextGiven ∧ r.image.string = old.string
      ∧ r.image.predecessor = some q.handle ∧ r.image.successor = none ∧ r.serial = t.created :=
  ⟨{ image :=
       { handle := t.nextGiven, state := .sounding, string := old.string, note := q.note, bend := q.bend
         velocity := q.velocity, level := q.level, zone := k.zoneOf old.string q.note, tag := none, hold := false
         stale := false, corrected := false, saturated := false, profile := old.profile, transpose := old.transpose
         bendRange := old.bendRange, predecessor := some q.handle, successor := none, reason := none, age := 0 }
     changed := true, linger := .stopped, serial := t.created },
    rfl, rfl, rfl, rfl, rfl, rfl, rfl⟩

/-- The predecessor a CREATE links is a record on the same string without a successor (R100). -/
theorem NoteTable.linkable_some {t : NoteTable} {s : Str} {p : Option Nat} {h : Nat} (hl : t.linkable s p = some h) :
    ∃ q ∈ t.records, q.image.handle = h ∧ q.image.string = s ∧ q.image.successor = none := by
  unfold NoteTable.linkable at hl
  split at hl
  · exact absurd hl (by simp)
  · split at hl
    · next x hf =>
      split at hl
      · next hc =>
        obtain rfl := Option.some.inj hl
        exact ⟨x, (NoteTable.find_some hf).1, (NoteTable.find_some hf).2, hc.1, hc.2⟩
      · exact absurd hl (by simp)
    · exact absurd hl (by simp)

/-! ## Steps of the whole state -/

/-- A Tracker agrees with a table that has narrowed. -/
theorem agreesWith_narrow {u : Tracker} {t t' : NoteTable} {k : Str} (h : u.agreesWith t k) (n : t.liveWithin t') :
    u.agreesWith t' k := by
  refine ⟨h.1, fun r hr hk hl => ?_⟩
  obtain ⟨q, hq, lq, e1, e2⟩ := n r hr hl
  rw [← e1]
  exact h.2 q hq (e2.trans hk) lq

/-- A step that leaves every Tracker's handle, request and messages, and narrows the table. -/
theorem livesWf_of {σ τ : State} (w : σ.livesWf) (n : σ.table.narrowsTo τ.table)
    (h : ∀ k : Str, (τ.trackers[k]).live = (σ.trackers[k]).live ∧ (τ.trackers[k]).awaited = (σ.trackers[k]).awaited
      ∧ (τ.trackers[k]).forced = (σ.trackers[k]).forced ∧ (τ.trackers[k]).deferred = (σ.trackers[k]).deferred) :
    τ.livesWf :=
  ⟨fun k => agreesWith_congr (h k).1 (h k).2.1 (h k).2.2.1 (h k).2.2.2 (agreesWith_narrow (w.1 k) n.1), n.2 w.2⟩

theorem livesWf_sameTrackers {σ τ : State} (w : σ.livesWf) (n : σ.table.narrowsTo τ.table) (h : τ.trackers = σ.trackers) :
    τ.livesWf := livesWf_of w n fun k => by rw [h]; exact ⟨rfl, rfl, rfl, rfl⟩

theorem livesWf_same {σ τ : State} (w : σ.livesWf) (h : τ.table = σ.table) (h' : τ.trackers = σ.trackers) : τ.livesWf :=
  livesWf_sameTrackers w (by rw [h]; exact NoteTable.narrowsTo_self _) h'

/-- One Tracker replaced by one that agrees with the table. -/
theorem livesWf_setTracker {σ : State} (w : σ.livesWf) (s : Str) {t : Tracker} (h : t.agreesWith σ.table s) :
    (σ.setTracker s t).livesWf := by
  refine ⟨fun k => ?_, w.2⟩
  simp only [setTracker_trackers, setTracker_table, bank_get_set]
  split
  · next e => rw [← e]; exact h
  · exact w.1 k

theorem livesWf_putTaken {σ : State} (w : σ.livesWf) (s : Str) {k : Taken} (h : k.tracker.agreesWith σ.table s) :
    (σ.putTaken s k).livesWf := by
  unfold State.putTaken
  split
  · exact livesWf_same (livesWf_setTracker w s h) rfl rfl
  · exact livesWf_setTracker w s h

theorem livesWf_deliver {σ : State} (wt : σ.trackersWf) (w : σ.livesWf) (s : Str) (i : TrackerInput)
    (hi : ∀ r ∈ σ.table.records, r.image.string = s → r.image.state ≠ .released → i ≠ .forcedRelease r.image.handle) :
    (σ.deliver s i).livesWf := livesWf_putTaken w s (receive_agrees σ s i (wt s) (w.1 s) hi)

theorem eventStep_livesWf {σ : State} (wt : σ.trackersWf) (w : σ.livesWf) (e : FrontEndEvent) (s : Str) :
    (σ.eventStep e s).livesWf := by
  unfold State.eventStep
  split
  · exact w
  · split
    · exact livesWf_deliver (State.trackersWf_set wt s (by exact wt s)) (livesWf_setTracker w s (by exact w.1 s)) s _
        fun _ _ _ _ => by simp
    · exact w

theorem enableStep_livesWf {σ : State} (wt : σ.trackersWf) (w : σ.livesWf) (s : Str) : (σ.enableStep s).livesWf := by
  unfold State.enableStep
  split
  · exact livesWf_deliver (State.trackersWf_set wt s (by exact wt s)) (livesWf_setTracker w s (by exact w.1 s)) s _
      fun _ _ _ _ => by simp
  all_goals exact w

theorem disableStep_livesWf {σ : State} (wt : σ.trackersWf) (w : σ.livesWf) (s : Str) : (σ.disableStep s).livesWf := by
  unfold State.disableStep
  split
  · exact livesWf_deliver (State.trackersWf_set wt s (by exact wt s)) (livesWf_setTracker w s (by exact w.1 s)) s _
      fun _ _ _ _ => by simp
  all_goals exact w

theorem staleStep_livesWf {σ : State} (wt : σ.trackersWf) (w : σ.livesWf) (s : Str) : (σ.staleStep s).livesWf := by
  unfold State.staleStep
  split
  · next h =>
    refine livesWf_deliver (State.trackersWf_set wt s ?_) (livesWf_setTracker w s (by exact w.1 s)) s _
      fun _ _ _ _ => by simp
    obtain ⟨h1, h2, h3, h4, h5, h6, h7, h8, h9, h10⟩ := wt s
    refine ⟨h1, h2, h3, h4, h5, h6, ?_, h8, h9, h10⟩
    rw [h] at h7
    simpa using h7
  · exact w

theorem forcedStep_livesWf {σ : State} (wt : σ.trackersWf) (w : σ.livesWf) (s : Str) : (σ.forcedStep s).livesWf := by
  unfold State.forcedStep
  split
  · exact w
  · next h rest he =>
    have named : ∀ r ∈ σ.table.records, r.image.string = s → r.image.state ≠ .released → r.image.handle ≠ h := by
      rintro r hr hk hl rfl
      exact ((w.1 s).2 r hr hk hl).2 (Or.inl (by rw [he]; exact List.mem_cons_self))
    refine livesWf_deliver (State.trackersWf_set wt s (by exact wt s)) (livesWf_setTracker w s ?_) s _ ?_
    · refine ⟨(w.1 s).1, fun r hr hk hl => ⟨((w.1 s).2 r hr hk hl).1, ?_⟩⟩
      have := ((w.1 s).2 r hr hk hl).2
      rintro (hm | hm)
      · exact this (Or.inl (by rw [he]; exact List.mem_cons_of_mem _ hm))
      · exact this (Or.inr hm)
    · intro r hr hk hl e
      exact named r hr hk hl (TrackerInput.forcedRelease.inj e).symm

theorem trackerAnswer_livesWf {σ : State} (wt : σ.trackersWf) (w : σ.livesWf) (s : Str) : (σ.trackerAnswer s).livesWf := by
  unfold State.trackerAnswer
  split
  · exact w
  · next a ha =>
    split
    · exact w
    · next x hx =>
      exact livesWf_putTaken w s (drain_agrees σ s _ _ (actOnAnswer_wf σ s (wt s) ha hx)
        (actOnAnswer_agrees σ s ha hx (w.1 s)))

theorem handResult_livesWf {σ : State} (wt : σ.trackersWf) (w : σ.livesWf) (c : Computation) : (σ.handResult c).livesWf :=
  livesWf_deliver (σ := σ.setPitchUnit { σ.pitchUnit with computation := some { c with handed := true } }) wt w _ _
    fun _ _ _ _ => by simp

theorem resultStep_livesWf {σ : State} (wt : σ.trackersWf) (w : σ.livesWf) (s : Str) : (σ.resultStep s).livesWf := by
  unfold State.resultStep
  split
  · exact w
  · split
    · exact handResult_livesWf wt w _
    · exact w

theorem completeComputation_livesWf {σ : State} (wt : σ.trackersWf) (w : σ.livesWf) :
    σ.completeComputation.livesWf := by
  unfold State.completeComputation
  split
  · exact w
  · next c _ =>
    refine livesWf_same (σ := if c.handed then σ else σ.handResult c) ?_ ?_ (decideContinuation_trackers _ _)
    · split <;> [exact w; exact handResult_livesWf wt w c]
    · have := decideContinuation_frame (if c.handed then σ else σ.handResult c) c.string
      exact (congrArg State.table this).trans rfl

/-- A sample touches no Tracker. -/
theorem sampleStep_trackers (σ : State) (s : Str) (v : Int) : (σ.sampleStep s v).trackers = σ.trackers := by
  have grants : ∀ τ : State, τ.grantIfFree.trackers = τ.trackers := by
    intro τ
    unfold State.grantIfFree
    split <;> [exact grant_trackers τ; rfl]
  have overload : ∀ (τ : State) (w : Int), (τ.reportOverload s w).trackers = τ.trackers := by
    intro τ w
    unfold State.reportOverload
    split <;> rfl
  unfold State.sampleStep
  split
  · unfold State.takeSample
    dsimp only
    split
    · rw [overload]; rfl
    · unfold State.writeReport
      rw [grants]
      have h := overload (σ.setFrontEnd s ((σ.frontEnds[s].timed (sampleValue v)).1.note (sampleValue v))) (sampleValue v)
      split <;> exact h
  · rfl

theorem sampleStep_livesWf {σ : State} (w : σ.livesWf) (s : Str) (v : Int) : (σ.sampleStep s v).livesWf :=
  livesWf_same w ((congrArg State.table (sampleStep_frame σ s v)).trans rfl) (sampleStep_trackers σ s v)

theorem tick_livesWf {σ : State} (w : σ.livesWf) : σ.millisecond.livesWf := by
  refine livesWf_of w (NoteTable.narrowsTo_map σ.table Record.tick (fun r _ => r.standsAs_self) _ _ _) fun k => ?_
  simp only [State.millisecond, bank_get_ofFn]
  exact ⟨rfl, rfl, rfl, rfl⟩

/-! ## Requests at the table -/

/-- An application of a Tracker's request: the other strings' live records do not grow, links stay in pairs, and the
answered Tracker agrees with the table. -/
theorem serve_livesWf {σ : State} (w : σ.livesWf) (s : Str) (f : Request → Option Reply)
    (hf : ∀ a p, (σ.trackers[s]).awaited = some a → a.answer = none → f a.request = some p →
      p.table.linked ∧ (∀ k : Str, k ≠ s → (σ.trackers[k]).agreesWith p.table k)
        ∧ ({ σ.trackers[s] with awaited := some { a with answer := some p.answer } } : Tracker).agreesWith p.table s) :
    (σ.serve s f).livesWf := by
  unfold State.serve
  split
  · exact w
  · next a ha =>
    split
    · exact w
    · next hn =>
      split
      · exact w
      · next p hp =>
        obtain ⟨h1, h2, h3⟩ := hf a p ha (by simpa using hn) hp
        refine ⟨fun k => ?_, h1⟩
        simp only [setTracker_trackers, bank_get_set]
        split
        · next e => rw [← e]; exact h3
        · next e => exact h2 k (Ne.symm e)

/-- A narrowed table, and no live record left on the string. -/
theorem agreesWith_none {u : Tracker} {t : NoteTable} {k : Str} (h : u.asksOfLive)
    (n : ∀ r ∈ t.records, r.image.string = k → r.image.state = .released) : u.agreesWith t k :=
  ⟨h, fun r hr hk hl => absurd (n r hr hk) hl⟩

/-- The Tracker with an answer put in asks as it did. -/
theorem asksOfLive_answered {t : Tracker} {a : Awaited} (ha : t.awaited = some a) (h : t.asksOfLive) (x : Answer) :
    ({ t with awaited := some { a with answer := some x } } : Tracker).asksOfLive := by
  intro b hb
  obtain rfl := Option.some.inj hb
  exact h a ha

/-- A request to which the table answers NOT LIVE: the string has no live record. -/
theorem agreesWith_notLive {σ : State} (w : σ.livesWf) (s : Str) {a : Awaited} {h : Nat}
    (ha : (σ.trackers[s]).awaited = some a) (ho : (σ.trackers[s]).owned = some h) (hn : σ.table.findLive s h = none) :
    ({ σ.trackers[s] with awaited := some { a with answer := some .notLive } } : Tracker).agreesWith σ.table s := by
  refine agreesWith_none (asksOfLive_answered ha (w.1 s).1 _) fun r hr hk => ?_
  by_contra hl
  have e := ((w.1 s).2 r hr hk hl).1
  rw [ho] at e
  have := List.find?_eq_none.1 hn r hr
  simp only [Record.live, ← Option.some.inj e, hk, BEq.rfl, decide_true, Bool.and_true, Bool.true_and] at this
  simp [hl] at this

theorem applyUpdate_livesWf {σ : State} (w : σ.livesWf) (s : Str) : (σ.applyUpdate s).livesWf :=
  serve_livesWf w s _ fun a p ha hn hp => by
    obtain ⟨q, c, x⟩ := a
    obtain rfl : x = none := hn
    cases q <;> simp only [reduceCtorEq] at hp
    next u =>
    have hl : (σ.trackers[s]).live = some u.handle := (w.1 s).1 _ ha
    have ho : (σ.trackers[s]).owned = some u.handle := by simp [-Fin.getElem_fin, Tracker.owned, ha, hl]
    obtain rfl := Option.some.inj hp
    unfold NoteTable.update
    split
    · next hf => exact ⟨w.2, fun k _ => w.1 k, agreesWith_notLive w s ha ho hf⟩
    · next r hf =>
      have n := NoteTable.narrowsTo_modify σ.table u.handle (fun q => q.edit fun i => i.updated u)
        fun r _ => ⟨rfl, rfl, rfl, rfl, id⟩
      refine ⟨n.2 w.2, fun k _ => agreesWith_narrow (w.1 k) n.1, asksOfLive_answered ha (w.1 s).1 _, ?_⟩
      intro r hr hk hrl
      have := (agreesWith_narrow (w.1 s) n.1).2 r hr hk hrl
      refine ⟨?_, this.2⟩
      rw [← this.1, ho]
      exact hl

theorem applyConfirm_livesWf {σ : State} (wo : σ.table.wf) (w : σ.livesWf) (s : Str) : (σ.applyConfirm s).livesWf :=
  serve_livesWf w s _ fun a p ha hn hp => by
    obtain ⟨q, c, x⟩ := a
    obtain rfl : x = none := hn
    cases q <;> simp only [reduceCtorEq] at hp
    next h =>
    have hl : (σ.trackers[s]).live = some h := (w.1 s).1 _ ha
    have ho : (σ.trackers[s]).owned = some h := by simp [-Fin.getElem_fin, Tracker.owned, ha, hl]
    obtain rfl := Option.some.inj hp
    have answered : ∀ t' : NoteTable, σ.table.liveWithin t' →
        ({ σ.trackers[s] with
          awaited := some { request := .confirm h, counted := c, answer := some .ok } } : Tracker).agreesWith t' s := by
      intro t' n
      refine ⟨asksOfLive_answered ha (w.1 s).1 _, fun r hr hk hrl => ?_⟩
      have := (agreesWith_narrow (w.1 s) n).2 r hr hk hrl
      refine ⟨?_, this.2⟩
      rw [← this.1, ho]
      exact hl
    unfold NoteTable.confirm
    split
    · next hf => exact ⟨w.2, fun k _ => w.1 k, agreesWith_notLive w s ha ho hf⟩
    · next r hf =>
      split
      · next hp =>
        have hr := NoteTable.findLive_some hf
        have n : σ.table.narrowsTo (σ.table.modify h fun q => q.edit fun i => { i with state := .sounding }) := by
          refine NoteTable.narrowsTo_map σ.table _ (fun q hq => ?_) _ _ _
          split
          · next e =>
            obtain rfl := NoteTable.eq_of_handle wo.2.1 hq hr.1 (e.trans hr.2.1.symm)
            exact ⟨rfl, rfl, rfl, rfl, fun _ => hr.2.2.2⟩
          · exact q.standsAs_self
        exact ⟨n.2 w.2, fun k _ => agreesWith_narrow (w.1 k) n.1, answered _ n.1⟩
      · exact ⟨w.2, fun k _ => w.1 k, answered _ (NoteTable.narrowsTo_self _).1⟩

/-- Once the one record a string's live records can be is RELEASED, the string has none. -/
theorem noneLive_released {σ : State} (w : σ.livesWf) (s : Str) {h : Nat} (ho : (σ.trackers[s]).owned = some h)
    (linger : Nat) (reason : ReleaseReason) :
    ∀ r ∈ (σ.table.modify h (Record.release linger reason)).records, r.image.string = s →
      r.image.state = .released := by
  intro r' hr' hk
  obtain ⟨r, hr, rfl⟩ := List.mem_map.1 hr'
  revert hk
  split
  · intro _; rfl
  · next hne =>
    intro hk
    by_contra hl
    have := ((w.1 s).2 r hr hk hl).1
    rw [ho] at this
    exact hne (Option.some.inj this).symm

theorem applyRelease_livesWf {σ : State} (w : σ.livesWf) (s : Str) : (σ.applyRelease s).livesWf :=
  serve_livesWf w s _ fun a p ha hn hp => by
    obtain ⟨q, c, x⟩ := a
    obtain rfl : x = none := hn
    cases q <;> simp only [reduceCtorEq] at hp
    next h reason =>
    have ho : (σ.trackers[s]).owned = some h := by simp [-Fin.getElem_fin, Tracker.owned, ha]
    obtain rfl := Option.some.inj hp
    unfold NoteTable.release
    split
    · next hf => exact ⟨w.2, fun k _ => w.1 k, agreesWith_notLive w s ha ho hf⟩
    · next r hf =>
      have n := NoteTable.narrowsTo_modify σ.table h (Record.release σ.settings.linger reason)
        fun r _ => r.standsAs_release _ _
      exact ⟨n.2 w.2, fun k _ => agreesWith_narrow (w.1 k) n.1,
        agreesWith_none (asksOfLive_answered ha (w.1 s).1 _) (noneLive_released w s ho _ _)⟩

/-- A new record on a string that has no live record: the answered Tracker owns it, and the other strings have the live
records they had. -/
theorem agreesWith_add {σ : State} (s : Str) {room : NoteTable} {p : Option Nat} {r : Record} {a : Awaited}
    (ha : (σ.trackers[s]).awaited = some a) (w : ∀ k : Str, (σ.trackers[k]).agreesWith room k)
    (hn : ∀ q ∈ room.records, q.image.string = s → q.image.state = .released) (hs : r.image.string = s)
    (hfresh : ¬ (σ.trackers[s]).toldOf r.image.handle) :
    (∀ k : Str, k ≠ s → (σ.trackers[k]).agreesWith ((room.linkSuccessor p r.image.handle).add r) k)
      ∧ ({ σ.trackers[s] with awaited := some { a with answer := some (.handle r.image.handle) } } : Tracker).agreesWith
        ((room.linkSuccessor p r.image.handle).add r) s := by
  refine ⟨fun k hk => ⟨(w k).1, fun x hx hxk hl => ?_⟩, asksOfLive_answered ha (w s).1 _, fun x hx hxk hl => ?_⟩
  · rcases NoteTable.live_add hx with rfl | ⟨q, hq, e1, e2, e3⟩
    · exact absurd (hxk.symm.trans hs) hk
    · rw [e1]; exact (w k).2 q hq (e2 ▸ hxk) (e3 ▸ hl)
  · rcases NoteTable.live_add hx with rfl | ⟨q, hq, e1, e2, e3⟩
    · exact ⟨rfl, hfresh⟩
    · exact absurd (e3.trans (hn q hq (e2 ▸ hxk))) hl

/-- A CREATE keeps the Trackers in agreement with the table, given that no forced-release message still on its way names
the handle it gives (assumption log 33). -/
theorem applyCreate_livesWf {σ : State} (wt : σ.trackersWf) (wo : σ.table.wf) (w : σ.livesWf) (s : Str)
    (hfresh : ∀ r ∈ (σ.applyCreate s).table.records, σ.table.created ≤ r.serial →
      ¬ (σ.trackers[r.image.string]).toldOf r.image.handle) : (σ.applyCreate s).livesWf := by
  refine serve_livesWf w s _ fun a p ha hn hp => ?_
  have table : (σ.applyCreate s).table = p.table := by
    unfold State.applyCreate State.serve
    rw [ha]
    simp only [hn, Option.isSome_none, Bool.false_eq_true, if_false, hp]
    rfl
  rw [table] at hfresh
  obtain ⟨q, c, x⟩ := a
  obtain rfl : x = none := hn
  cases q <;> simp only [reduceCtorEq] at hp
  next c =>
  obtain ⟨room, hr, rfl⟩ := Option.map_eq_some_iff.1 hp
  have n := NoteTable.narrowsTo_makeRoom hr
  obtain ⟨h1, h2, h3⟩ := NoteTable.makeRoom_spec wo hr
  have created : room.1.created = σ.table.created := by
    rcases h3 with ⟨rfl, _⟩ | ⟨v, _, rfl, _⟩ <;> rfl
  have none_live : ∀ r ∈ room.1.records, r.image.string = s → r.image.state = .released := by
    intro r hr hk
    by_contra hl
    have e := ((agreesWith_narrow (w.1 s) n.1).2 r hr hk hl).1
    have hlive : (σ.trackers[s]).live = none := ((wt s).2.2.2.1 (by simp [-Fin.getElem_fin, Tracker.awaitsCreate, ha])).2
    simp [-Fin.getElem_fin, Tracker.owned, ha, hlive] at e
  have fresh := NoteTable.nextGiven_spec h1.1 h1.2.2.2.2.1 h1.2.2.2.2.2.1
  obtain ⟨x, e1, e2, e3, e4, e5, e6, e7⟩ := NoteTable.createIn_spec room.1 σ.settings s c
  dsimp only at hfresh ⊢
  rw [e1] at hfresh
  rw [e1, e2]
  refine ⟨?_, agreesWith_add s ha (fun k => agreesWith_narrow (w.1 k) n.1) none_live e4 ?_⟩
  · refine NoteTable.linked_add h1.2.1 (n.2 w.2) (e3 ▸ fresh.2.1) e5 e6 fun h hh => ?_
    obtain ⟨q, hq, q1, q2, q3⟩ := NoteTable.linkable_some hh
    exact ⟨q, hq, q1, q2.trans e4.symm, q3, none_live q hq q2⟩
  · rw [← e4]
    exact hfresh _ (List.mem_append_right _ (List.mem_singleton.2 rfl)) (Nat.le_of_eq (e7.trans created).symm)

/-- A SUCCEED keeps the Trackers in agreement with the table, given that no forced-release message still on its way
names the handle it gives (assumption log 33). -/
theorem applySucceed_livesWf {σ : State} (wo : σ.table.wf) (w : σ.livesWf) (s : Str)
    (hfresh : ∀ r ∈ (σ.applySucceed s).table.records, σ.table.created ≤ r.serial →
      ¬ (σ.trackers[r.image.string]).toldOf r.image.handle) : (σ.applySucceed s).livesWf := by
  refine serve_livesWf w s _ fun a p ha hn hp => ?_
  have table : (σ.applySucceed s).table = p.table := by
    unfold State.applySucceed State.serve
    rw [ha]
    simp only [hn, Option.isSome_none, Bool.false_eq_true, if_false, hp]
    rfl
  rw [table] at hfresh
  obtain ⟨q, c, x⟩ := a
  obtain rfl : x = none := hn
  cases q <;> simp only [reduceCtorEq] at hp
  next q =>
  have hl : (σ.trackers[s]).live = some q.handle := (w.1 s).1 _ ha
  have ho : (σ.trackers[s]).owned = some q.handle := by simp [-Fin.getElem_fin, Tracker.owned, ha, hl]
  unfold NoteTable.succeed at hp
  split at hp
  · next hf =>
    obtain rfl := Option.some.inj hp
    exact ⟨w.2, fun k _ => w.1 k, agreesWith_notLive w s ha ho hf⟩
  · next old hf =>
    obtain ⟨room, hr, rfl⟩ := Option.map_eq_some_iff.1 hp
    have hold := NoteTable.findLive_some hf
    have n0 := NoteTable.narrowsTo_modify σ.table q.handle (Record.release σ.settings.linger q.reason)
      fun r _ => r.standsAs_release _ _
    have n1 := NoteTable.narrowsTo_makeRoom hr
    have n := n0.trans n1
    have wm : (σ.table.modify q.handle (Record.release σ.settings.linger q.reason)).wf :=
      NoteTable.wf_modify wo _ _ (fun _ => rfl) fun _ => rfl
    obtain ⟨h1, h2, h3⟩ := NoteTable.makeRoom_spec wm hr
    have created : room.1.created = σ.table.created := by
      rcases h3 with ⟨rfl, _⟩ | ⟨v, _, rfl, _⟩ <;> rfl
    have none_live : ∀ r ∈ room.1.records, r.image.string = s → r.image.state = .released := by
      intro r hr hk
      by_contra hl
      obtain ⟨x, hx, lx, e1, e2⟩ := n1.1 r hr hl
      exact lx (noneLive_released w s ho _ _ x hx (e2.trans hk))
    have fresh := NoteTable.nextGiven_spec h1.1 h1.2.2.2.2.1 h1.2.2.2.2.2.1
    obtain ⟨x, e1, e2, e3, e4, e5, e6, e7⟩ := NoteTable.succeedIn_spec room.1 σ.settings old.image q
    dsimp only at hfresh ⊢
    rw [e1] at hfresh
    rw [e1, e2]
    refine ⟨?_, agreesWith_add s ha (fun k => agreesWith_narrow (w.1 k) n.1) none_live (e4.trans hold.2.2.1) ?_⟩
    · refine NoteTable.linked_add h1.2.1 (n.2 w.2) (e3 ▸ fresh.2.1) e5 e6 fun h hh => ?_
      obtain rfl := Option.some.inj hh
      /- The old record is RELEASED, without a successor, and an eviction passes it over. -/
      have inModified : old.release σ.settings.linger q.reason
          ∈ (σ.table.modify q.handle (Record.release σ.settings.linger q.reason)).records :=
        List.mem_map.2 ⟨old, hold.1, if_pos hold.2.1⟩
      have succ : old.image.successor = none := (w.2 old hold.1).2.2 hold.2.2.2
      rcases h3 with ⟨rfl, _⟩ | ⟨v, hv, rfl, _⟩
      · exact ⟨_, inModified, hold.2.1, e4.symm, succ, rfl⟩
      · have hne : q.handle ≠ v := fun e => (NoteTable.victim_mem wm hv).2 (congrArg some e)
        refine ⟨(old.release σ.settings.linger q.reason).unlink v, ?_, hold.2.1, e4.symm, ?_, rfl⟩
        · refine List.mem_map.2 ⟨_, List.mem_filter.2 ⟨inModified, ?_⟩, rfl⟩
          have : (old.release σ.settings.linger q.reason).image.handle = q.handle := hold.2.1
          simpa [this] using hne
        · show (if old.image.successor = some v then none else old.image.successor) = none
          rw [succ]; rfl
    · have := hfresh _ (List.mem_append_right _ (List.mem_singleton.2 rfl)) (Nat.le_of_eq (e7.trans created).symm)
      obtain rfl : x.image.string = s := e4.trans hold.2.2.1
      exact this

/-! ## The controller's commands, resets and the probe -/

theorem refuse_livesWf {σ : State} (w : σ.livesWf) (c : CommandCode) (b : Byte) (r : RefusalReason) :
    (σ.refuse c b r).livesWf := w

theorem tagNote_livesWf {σ : State} (w : σ.livesWf) (h tag : Byte) : (σ.tagNote h tag).livesWf := by
  unfold State.tagNote
  split
  · exact w
  · exact livesWf_sameTrackers w
      (by exact NoteTable.narrowsTo_modifyTouch σ.table h.toNat _ fun r _ => ⟨rfl, rfl, rfl, rfl, id⟩) rfl

theorem untagNote_livesWf {σ : State} (w : σ.livesWf) (h : Byte) : (σ.untagNote h).livesWf := by
  unfold State.untagNote
  split
  · exact w
  · exact livesWf_sameTrackers w
      (by exact NoteTable.narrowsTo_modifyTouch σ.table h.toNat _ fun r _ => ⟨rfl, rfl, rfl, rfl, id⟩) rfl

theorem holdNote_livesWf {σ : State} (w : σ.livesWf) (h v : Byte) : (σ.holdNote h v).livesWf := by
  unfold State.holdNote
  split
  · exact w
  · split
    · exact w
    · refine livesWf_sameTrackers w ?_ rfl
      refine NoteTable.narrowsTo_modifyTouch σ.table h.toNat _ fun r _ => ?_
      split <;> exact ⟨rfl, rfl, rfl, rfl, id⟩

/-- A live record released by the controller: no live record has its handle any more, and the message names it
(R110, R113). -/
theorem forceRelease_livesWf {σ : State} (w : σ.livesWf) (r : Record) : (σ.forceRelease r).livesWf := by
  have n := NoteTable.narrowsTo_modify σ.table r.image.handle (Record.release σ.settings.linger .forced)
    fun r _ => r.standsAs_release _ _
  refine ⟨fun k => ?_, n.2 w.2⟩
  have base := agreesWith_narrow (w.1 k) n.1
  simp only [State.forceRelease, State.sendForced, setTracker_trackers, setTracker_table, bank_get_set]
  split
  · next e =>
    refine ⟨?_, fun q hq hk hl => ?_⟩
    · rw [e]; exact base.1
    · obtain ⟨b1, b2⟩ := base.2 q hq hk hl
      refine ⟨by rw [e]; exact b1, ?_⟩
      rintro (hm | hm)
      · rcases List.mem_append.1 hm with hm | hm
        · rw [e] at hm; exact b2 (Or.inl hm)
        · obtain ⟨x, hx, rfl⟩ := List.mem_map.1 hq
          have := List.mem_singleton.1 hm
          split at this
          · next hh => rw [if_pos hh] at hl; exact hl rfl
          · next hh => exact hh this
      · rw [e] at hm; exact b2 (Or.inr hm)
  · exact base

theorem releaseNote_livesWf {σ : State} (w : σ.livesWf) (h : Byte) : (σ.releaseNote h).livesWf := by
  unfold State.releaseNote
  split
  · exact w
  · split
    · exact forceRelease_livesWf w _
    · exact w

theorem allRelease_livesWf {σ : State} (w : σ.livesWf) : σ.allRelease.livesWf := by
  unfold State.allRelease
  generalize σ.table.records.filter _ = rs
  induction rs generalizing σ with
  | nil => exact w
  | cons r rs ih => exact ih (forceRelease_livesWf w r)

theorem retireNote_livesWf {σ : State} (w : σ.livesWf) (h : Byte) : (σ.retireNote h).livesWf := by
  unfold State.retireNote
  split
  · exact w
  · split
    · exact w
    · exact livesWf_sameTrackers w (NoteTable.narrowsTo_free _ _) rfl

theorem lingerExpiry_livesWf {σ : State} (w : σ.livesWf) (h : Nat) : (σ.lingerExpiry h).livesWf := by
  unfold State.lingerExpiry
  split
  · exact w
  · split
    · split
      · exact livesWf_sameTrackers w (NoteTable.narrowsTo_modify _ _ _ fun r _ => r.standsAs_self) rfl
      · exact livesWf_sameTrackers w (NoteTable.narrowsTo_free _ _) rfl
    · exact w

theorem reflag_livesWf {σ : State} (w : σ.livesWf) (is : List Included) :
    (σ.setTable (is.foldl NoteTable.reflag σ.table)).livesWf :=
  livesWf_sameTrackers w (NoteTable.narrowsTo_reflagAll _ _) rfl

/-- A Tracker's channel of passed pitches, or of enable messages, is no part of the agreement. -/
theorem livesWf_channels {σ : State} (w : σ.livesWf) (s : Str) (e : List Bool) (p : List Int) :
    (σ.setTracker s { σ.trackers[s] with enables := e, passed := p }).livesWf :=
  livesWf_setTracker w s (w.1 s)

theorem snapshot_livesWf {σ : State} (w : σ.livesWf) (q : Query) : (σ.snapshot q).livesWf := by
  cases q <;> simp only [State.snapshot]
  · unfold State.snapGetNote
    split
    · exact livesWf_sameTrackers w (NoteTable.narrowsTo_deliver _ _) rfl
    · exact w
  · unfold State.snapGetString
    split
    · exact w
    · split
      · exact livesWf_sameTrackers w (NoteTable.narrowsTo_deliver _ _) rfl
      · exact w
  · exact livesWf_sameTrackers w (NoteTable.narrowsTo_deliverAll _ _) rfl
  · exact w
  · exact w
  · exact w
  · unfold State.snapGetSetting; split <;> exact w
  · unfold State.snapProbeStart State.probeStart
    split
    · exact livesWf_same (livesWf_channels w _ _ []) rfl rfl
    · exact w
  · exact w

theorem probePitch_livesWf {σ : State} (w : σ.livesWf) (s : Str) : (σ.probePitch s).livesWf := by
  unfold State.probePitch
  split
  · exact w
  · next pr rest _ =>
    have h := livesWf_channels w s (σ.trackers[s]).enables rest
    unfold State.takePitch
    split
    · unfold State.countPitch
      dsimp only
      split
      · split
        · unfold State.finishRun
          dsimp only
          split <;> exact h
        · exact h
      · exact h
    · exact h

theorem abortRun_livesWf {σ : State} (w : σ.livesWf) (tell : Notice → NoticeUnit → NoticeUnit) (r : AbortReason) :
    (σ.abortRun tell r).livesWf := by
  unfold State.abortRun
  split
  · dsimp only; split <;> exact w
  · exact w

theorem tellEnable_livesWf {σ : State} (w : σ.livesWf) (old new : BitVec 8) (s : Str) :
    (σ.tellEnable old new s).livesWf := by
  unfold State.tellEnable
  split
  · unfold State.disableString
    dsimp only
    have h : ((σ.setFrontEnd s (σ.frontEnds[s]).disable).sendEnable s false).livesWf :=
      livesWf_channels (σ := σ.setFrontEnd s (σ.frontEnds[s]).disable) w s _ _
    split
    · exact abortRun_livesWf h _ _
    · exact h
  · split
    · exact livesWf_channels (σ := σ.setFrontEnd s (σ.frontEnds[s]).enable) w s _ _
    · exact w

theorem tellAll_livesWf (old new : BitVec 8) (ks : List Str) {σ : State} (w : σ.livesWf) :
    (ks.foldl (State.tellEnable old new) σ).livesWf := by
  induction ks generalizing σ with
  | nil => exact w
  | cons k ks ih => exact ih (tellEnable_livesWf w old new k)

theorem setEnableMask_livesWf {σ : State} (w : σ.livesWf) (new : BitVec 8) : (σ.setEnableMask new).livesWf :=
  tellAll_livesWf _ _ _ (σ := σ.setSettings _) w

theorem setReference_livesWf {σ : State} (w : σ.livesWf) (n : Nat) : (σ.setReference n).livesWf := by
  unfold State.setReference
  refine abortRun_livesWf (livesWf_same w ?_ ?_) _ _
  · rw [setPitchUnit_table, setSettings_table]
  · rw [setPitchUnit_trackers, setSettings_trackers]

theorem storeSetting_livesWf {σ : State} (w : σ.livesWf) (i : SettingId) (v : Int) : (σ.storeSetting i v).livesWf := by
  unfold State.storeSetting
  split
  · exact setEnableMask_livesWf w _
  · exact setReference_livesWf w _
  · exact w

theorem livesWf_empty {σ : State} (h : σ.table = {}) (ht : ∀ k : Str, (σ.trackers[k]).awaited = none) : σ.livesWf := by
  refine ⟨fun k => ⟨asksOfLive_idle (ht k), fun r hr => ?_⟩, fun r hr => ?_⟩
  all_goals (rw [h] at hr; exact absurd hr (by simp))

theorem restart_livesWf (σ : State) : σ.restart.livesWf :=
  livesWf_empty rfl fun k => by simp only [State.restart, bank_get_ofFn]; rfl

theorem hardReset_livesWf (σ : State) : σ.hardReset.livesWf :=
  livesWf_empty rfl fun k => by
    simp only [State.hardReset, State.reset, resetTrackers, bank_get_ofFn]; split <;> rfl

theorem applyPosted_livesWf {σ : State} (w : σ.livesWf) (p : Posted) : (σ.applyPosted p).livesWf := by
  cases p <;> simp only [State.applyPosted]
  · exact tagNote_livesWf w _ _
  · exact untagNote_livesWf w _
  · exact holdNote_livesWf w _ _
  · exact releaseNote_livesWf w _
  · exact retireNote_livesWf w _
  · exact allRelease_livesWf w
  · unfold State.set
    split
    · exact w
    · split
      · exact w
      · exact storeSetting_livesWf w _ _
  · unfold State.selectProfile
    split
    · exact w
    · split <;> exact w
  · exact abortRun_livesWf w _ _
  · exact w
  · exact restart_livesWf σ

end Sys2Proof.Machine
end

