-- ==== Sys2Proof/Laws/Settings.lean ====
section
/-! SUPPORT. What a write of one setting does to every setting's reading, and that every command keeps the settings and
the probe's measurement context coherent. -/

namespace Sys2Proof.Machine

/-! ## Numbers and values of settings -/

/-- Every setting has a number (R123 to R127). -/
theorem SettingId.exists_number (i : SettingId) : ∃ n : Byte, SettingId.ofNumber n = some i := by
  rcases i with g | ⟨z, x⟩ | ⟨s, x⟩ | ⟨p, s, x⟩
  · cases g
    exacts [⟨0x00#8, rfl⟩, ⟨0x01#8, rfl⟩, ⟨0x02#8, rfl⟩, ⟨0x03#8, rfl⟩, ⟨0x04#8, rfl⟩, ⟨0x05#8, rfl⟩, ⟨0x06#8, rfl⟩,
      ⟨0x07#8, rfl⟩, ⟨0x08#8, rfl⟩, ⟨0x09#8, rfl⟩, ⟨0x0A#8, rfl⟩, ⟨0x0B#8, rfl⟩, ⟨0x0C#8, rfl⟩, ⟨0x0D#8, rfl⟩,
      ⟨0x0E#8, rfl⟩, ⟨0x0F#8, rfl⟩, ⟨0x10#8, rfl⟩]
  · cases x
    · exact ⟨BitVec.ofNat 8 (0x20 + 3 * z.val), by revert z; decide +kernel⟩
    · exact ⟨BitVec.ofNat 8 (0x21 + 3 * z.val), by revert z; decide +kernel⟩
    · exact ⟨BitVec.ofNat 8 (0x22 + 3 * z.val), by revert z; decide +kernel⟩
  · cases x
    · exact ⟨BitVec.ofNat 8 (0x40 + 4 * s.val), by revert s; decide +kernel⟩
    · exact ⟨BitVec.ofNat 8 (0x41 + 4 * s.val), by revert s; decide +kernel⟩
    · exact ⟨BitVec.ofNat 8 (0x42 + 4 * s.val), by revert s; decide +kernel⟩
    · exact ⟨BitVec.ofNat 8 (0x43 + 4 * s.val), by revert s; decide +kernel⟩
  · cases p <;> cases x
    · exact ⟨BitVec.ofNat 8 (0x80 + 4 * s.val), by revert s; decide +kernel⟩
    · exact ⟨BitVec.ofNat 8 (0x81 + 4 * s.val), by revert s; decide +kernel⟩
    · exact ⟨BitVec.ofNat 8 (0x82 + 4 * s.val), by revert s; decide +kernel⟩
    · exact ⟨BitVec.ofNat 8 (0x83 + 4 * s.val), by revert s; decide +kernel⟩
    · exact ⟨BitVec.ofNat 8 (0xA0 + 4 * s.val), by revert s; decide +kernel⟩
    · exact ⟨BitVec.ofNat 8 (0xA1 + 4 * s.val), by revert s; decide +kernel⟩
    · exact ⟨BitVec.ofNat 8 (0xA2 + 4 * s.val), by revert s; decide +kernel⟩
    · exact ⟨BitVec.ofNat 8 (0xA3 + 4 * s.val), by revert s; decide +kernel⟩

/-- The settings are within range exactly when every setting is. -/
theorem Settings.wf_iff (k : Settings) : k.wf ↔ ∀ i : SettingId, i.kind.admits (k.read i) := by
  constructor
  · intro h i
    obtain ⟨n, hn⟩ := SettingId.exists_number i
    exact h n i hn
  · exact fun h n i _ => h i

/-- Every range stated has its ends in order (R124 to R127). -/
theorem SettingId.kind_ranges (i : SettingId) :
    (∀ lo hi, i.kind = .numeric lo hi → lo ≤ hi) ∧ ∀ lo hi, i.kind = .signed lo hi → lo ≤ hi := by
  rcases i with g | ⟨z, x⟩ | ⟨s, x⟩ | ⟨p, s, x⟩
  · cases g <;> constructor <;> intro lo hi h <;> cases h <;> decide
  all_goals cases x <;> constructor <;> intro lo hi h <;> cases h <;> decide

/-- A fitted value lies within its setting's range (R128). -/
theorem fitValue_admits {i : SettingId} {v : BitVec 16} {w : Int} (h : fitValue v i.kind = some w) :
    i.kind.admits w := by
  have key : ∀ kind : SettingKind, (∀ lo hi, kind = .numeric lo hi → lo ≤ hi) → (∀ lo hi, kind = .signed lo hi → lo ≤ hi) →
      fitValue v kind = some w → kind.admits w := by
    intro kind hn hs h
    cases kind with
    | numeric lo hi =>
      have := hn lo hi rfl
      simp only [fitValue, Option.some.injEq] at h
      simp only [SettingKind.admits]
      split at h <;> [skip; split at h] <;> omega
    | signed lo hi =>
      have := hs lo hi rfl
      simp only [fitValue, Option.some.injEq] at h
      simp only [SettingKind.admits]
      split at h <;> [skip; split at h] <;> omega
    | mask bits =>
      simp only [fitValue, Option.some.injEq] at h
      simp only [SettingKind.admits]
      have := Nat.mod_lt v.toNat (Nat.two_pow_pos bits)
      subst h
      refine ⟨Int.natCast_nonneg _, ?_⟩
      exact_mod_cast this
    | enumeration codes =>
      simp only [fitValue] at h
      simp only [SettingKind.admits]
      split at h
      · obtain rfl := Option.some.inj h; omega
      · exact absurd h (by simp)
  exact key _ (SettingId.kind_ranges i).1 (SettingId.kind_ranges i).2 h

theorem toNat_ofInt {n : Nat} {w : Int} (h1 : 0 ≤ w) (h2 : w < 2 ^ n) : ((BitVec.ofInt n w).toNat : Int) = w := by
  rw [BitVec.toNat_ofInt]
  rw [Int.emod_eq_of_lt h1 (by exact_mod_cast h2)]
  omega

/-- A setting reads as what was stored in it (R128, R130). -/
theorem Settings.read_write_self (k : Settings) (i : SettingId) {w : Int} (h : i.kind.admits w) :
    (k.write w i).read i = w := by
  rcases i with g | ⟨z, x⟩ | ⟨s, x⟩ | ⟨p, s, x⟩
  · cases g <;> simp only [SettingId.kind, SettingKind.admits] at h <;>
      simp only [Settings.write, Settings.writeGlobal, Settings.read, Settings.readGlobal] <;>
      first | omega | exact toNat_ofInt h.1 h.2
  · have e : ∀ y : Zone, (k.zones.set z y)[z] = y := fun y => by
      simp only [Fin.getElem_fin, Vector.getElem_set_self]
    cases x <;> simp only [SettingId.kind, SettingKind.admits] at h <;>
      simp only [Settings.write, Settings.read, e, Zone.write, Zone.read] <;>
      first | omega | exact toNat_ofInt h.1 h.2
  · cases x <;> simp only [SettingId.kind, SettingKind.admits] at h <;>
      simp only [Settings.write, Settings.read, bank_get_set_self, Physical.write, Physical.read] <;> omega
  · have e : ∀ y, (k.setMusical p s y).musical p s = y := fun y => by
      cases p <;> simp only [Settings.setMusical, Settings.musical, Settings.profile, bank_get_set_self]
    cases x <;> simp only [SettingId.kind, SettingKind.admits] at h <;>
      simp only [Settings.write, Settings.read, e, Musical.write, Musical.read]
    · omega
    · have : w = 0 ∨ w = 1 := by omega
      rcases this with rfl | rfl <;> rfl
    · have : w = 0 ∨ w = 1 := by omega
      rcases this with rfl | rfl <;> rfl

/-- Every other setting reads as before (R128). -/
theorem Settings.read_write_ne (k : Settings) {i j : SettingId} (hij : j ≠ i) (w : Int) :
    (k.write w i).read j = k.read j := by
  have zset : ∀ (z y : Fin 4) (a : Zone), (k.zones.set z a)[y] = if z = y then a else k.zones[y] := by
    intro z y a; simp only [Fin.getElem_fin, Vector.getElem_set, Fin.ext_iff]
  rcases i with g | ⟨z, x⟩ | ⟨s, x⟩ | ⟨p, s, x⟩
  · rcases j with g' | ⟨z', x'⟩ | ⟨s', x'⟩ | ⟨p', s', x'⟩
    · cases g <;> cases g' <;> first | rfl | exact absurd rfl hij
    all_goals (cases g <;> (try cases p') <;> rfl)
  · rcases j with g' | ⟨z', x'⟩ | ⟨s', x'⟩ | ⟨p', s', x'⟩
    · cases g' <;> rfl
    · simp only [Settings.write, Settings.read, zset]
      split
      · next h =>
        subst h
        cases x <;> cases x' <;> first | rfl | exact absurd rfl hij
      · rfl
    · rfl
    · cases p' <;> rfl
  · rcases j with g' | ⟨z', x'⟩ | ⟨s', x'⟩ | ⟨p', s', x'⟩
    · cases g' <;> rfl
    · rfl
    · simp only [Settings.write, Settings.read, bank_get_set]
      split
      · next h =>
        subst h
        cases x <;> cases x' <;> first | rfl | exact absurd rfl hij
      · rfl
    · cases p' <;> rfl
  · rcases j with g' | ⟨z', x'⟩ | ⟨s', x'⟩ | ⟨p', s', x'⟩
    · cases g' <;> cases p <;> rfl
    · cases p <;> rfl
    · cases p <;> rfl
    · cases p <;> cases p' <;>
        simp only [Settings.write, Settings.read, Settings.setMusical, Settings.musical, Settings.profile, bank_get_set]
      · split
        · next h => subst h; cases x <;> cases x' <;> first | rfl | exact absurd rfl hij
        · rfl
      · split
        · next h => subst h; cases x <;> cases x' <;> first | rfl | exact absurd rfl hij
        · rfl

/-- A fitted value stored keeps the settings within range (R128). -/
theorem Settings.wf_write {k : Settings} (w : k.wf) {i : SettingId} {v : Int} (h : i.kind.admits v) :
    (k.write v i).wf := by
  rw [Settings.wf_iff] at w ⊢
  intro j
  by_cases e : j = i
  · subst e; rw [Settings.read_write_self k j h]; exact h
  · rw [Settings.read_write_ne k e]; exact w j

/-- The selected profile is no setting (R137). -/
theorem Settings.wf_selected {k : Settings} (w : k.wf) (p : Profile) : ({ k with selected := p } : Settings).wf := by
  rw [Settings.wf_iff] at w ⊢
  intro j
  have := w j
  rcases j with g' | ⟨z', x'⟩ | ⟨s', x'⟩ | ⟨p', s', x'⟩
  · cases g' <;> exact this
  · exact this
  · exact this
  · cases p' <;> exact this

/-- The transpose and bend range of every string in both profiles lie within their ranges (R127). -/
abbrev Settings.musicalWf (k : Settings) : Prop :=
  ∀ p s, captureRange (k.musical p s).transpose (k.musical p s).bendRange

/-- What the ranges say of the settings that a record captures. -/
theorem Settings.wf_musical {k : Settings} (w : k.wf) : k.musicalWf := by
  intro p s
  rw [Settings.wf_iff] at w
  have a := w (.musical p s .transpose)
  have b := w (.musical p s .bendRange)
  simp only [SettingId.kind, SettingKind.admits, Settings.read, Musical.read] at a b
  omega

/-- A fitted value stored keeps the captured settings within their ranges (R128). -/
theorem Settings.musicalWf_write {k : Settings} (w : k.musicalWf) {i : SettingId} {v : Int} (h : i.kind.admits v) :
    (k.write v i).musicalWf := by
  intro p s
  have a : ∀ x : MusicalItem, (∀ u, i ≠ .musical p s x → ((k.write u i).musical p s).read x = (k.musical p s).read x) :=
    fun x u hx => Settings.read_write_ne k (j := .musical p s x) (fun e => hx e.symm) u
  have b : ∀ x : MusicalItem, i = .musical p s x → ((k.write v i).musical p s).read x = v := by
    rintro x rfl; exact Settings.read_write_self k (.musical p s x) h
  have hw := w p s
  have t1 : -24 ≤ ((k.write v i).musical p s).transpose ∧ ((k.write v i).musical p s).transpose ≤ 24 := by
    by_cases e : i = .musical p s .transpose
    · have : ((k.write v i).musical p s).transpose = v := b .transpose e
      rw [this]; subst e; exact h
    · have : ((k.write v i).musical p s).transpose = (k.musical p s).transpose := a .transpose v e
      rw [this]; exact ⟨hw.1, hw.2.1⟩
  have t2 : 1 ≤ ((k.write v i).musical p s).bendRange ∧ ((k.write v i).musical p s).bendRange ≤ 24 := by
    by_cases e : i = .musical p s .bendRange
    · have h1 : (((k.write v i).musical p s).bendRange : Int) = v := b .bendRange e
      subst e
      have h2 : (1 : Int) ≤ v ∧ v ≤ 24 := h
      omega
    · have h1 : (((k.write v i).musical p s).bendRange : Int) = (k.musical p s).bendRange := a .bendRange v e
      have := hw.2.2
      omega
  exact ⟨t1.1, t1.2, t2.1, t2.2⟩

/-! ## The probe -/

theorem fitSize_range (v : Nat) : 4 ≤ fitSize v ∧ fitSize v ≤ 1024 ∧ fitSize v % 4 = 0 := by
  unfold fitSize clampNat
  split <;> [omega; (split <;> omega)]

theorem deviationOf_range (pr : Int) : -32 ≤ deviationOf pr ∧ deviationOf pr ≤ 31 := by
  unfold deviationOf; omega

/-- An empty context is coherent (R157). -/
theorem Probe.wf_empty : ({} : Probe).wf := by decide

/-- The context a PROBE START prepares is coherent (R146). -/
theorem Probe.wf_prepared {a : ProbeStart} (s : Str) (hl : ¬ 8 < a.slot.toNat) : (Probe.prepared s a).wf := by
  have h0 := fitSize_range a.size0.toNat
  have h1 := fitSize_range a.size1.toNat
  refine ⟨Nat.le_refl _, by simp only [Probe.prepared]; omega, ?_, fun _ => ⟨rfl, rfl⟩, ?_, ?_, ?_, ?_⟩
  · intro h; simp only [Probe.prepared] at h; omega
  · intro q hq
    obtain rfl := Option.some.inj hq
    exact ⟨h0, h1⟩
  · intro _ q hq
    obtain rfl := Option.some.inj hq
    have : ∀ b : Bool, 0 < if b then fitSize a.size1.toNat else fitSize a.size0.toNat := by
      intro b; cases b <;> simp <;> omega
    exact this _
  · intro j
    simp only [Probe.prepared, Fin.getElem_fin, Vector.getElem_replicate, Option.isSome_none, Bool.false_eq_true, false_iff]
    omega
  · simp [Probe.prepared, Probe.sumsWf]

/-- A run stopped keeps the context coherent (R155). -/
theorem Probe.wf_stopped {p : Probe} (w : p.wf) : ({ p.emptySlot with running := false } : Probe).wf := by
  obtain ⟨h1, h2, h3, h4, h5, h6, h7, h8⟩ := w
  refine ⟨h1, h2, fun _ => rfl, fun h => absurd h (by simp), h5, fun h => absurd h (by simp), h7, ?_⟩
  obtain ⟨a, b, c, d, e, f⟩ := h8
  exact ⟨by simp [Probe.emptySlot], by simp [Probe.emptySlot], c, d, by simp [Probe.emptySlot], by simp [Probe.emptySlot]⟩

/-- A pitch accumulated into a slot it does not fill (R148). -/
theorem Probe.sums_accumulate {p : Probe} (w : p.sumsWf) {d : Int} (h1 : -32 ≤ d) (h2 : d ≤ 31) :
    (p.accumulate d).sumsWf := by
  obtain ⟨a, b, c, e, f, g⟩ := w
  refine ⟨?_, ?_, c, e, by simp [Probe.accumulate], by simp [Probe.accumulate]⟩ <;>
    simp only [Probe.accumulate, Nat.cast_add, Nat.cast_one] <;> omega

/-- A completed slot (R149): the pointer moves past it and the totals take it. -/
theorem Probe.slots_complete {p : Probe} (h1 : p.start ≤ p.pointer) (w : p.slotsWf) :
    p.completeSlot.slotsWf := by
  intro j
  have := w j
  simp only [Probe.completeSlot, Probe.emptySlot, Probe.storeSlot, Fin.getElem_fin] at this ⊢
  rw [Vector.getElem_setIfInBounds]
  split
  · next h => simp only [Option.isSome_some, true_iff]; omega
  · next h => rw [this]; omega

theorem Probe.sums_complete {p : Probe} (w : p.sumsWf) : p.completeSlot.sumsWf := by
  obtain ⟨a, b, c, e, f, g⟩ := w
  refine ⟨by simp [Probe.completeSlot, Probe.emptySlot], by simp [Probe.completeSlot, Probe.emptySlot], ?_, ?_,
    by simp [Probe.completeSlot, Probe.emptySlot], by simp [Probe.completeSlot, Probe.emptySlot]⟩ <;>
    simp only [Probe.completeSlot, Nat.cast_add] <;> omega

/-- The mean deviation of a run lies from −32 to +31, and the correction with it (R150). -/
theorem Probe.correction_range {p : Probe} (w : p.sumsWf) : -31 ≤ p.correction ∧ p.correction ≤ 32 := by
  obtain ⟨_, _, c, e, _, _⟩ := w
  unfold Probe.correction roundedMean
  rcases Nat.eq_zero_or_pos p.totalCount with h | h
  · simp [h]
  · generalize hS : p.totalSum = S at *
    generalize p.totalCount = n at *
    have hn : (0 : Int) < n := by exact_mod_cast h
    have h2 : ((n / 2 : Nat) : Int) < n := by omega
    have lo : -32 ≤ (1 * S + ((n / 2 : Nat) : Int)) / (n : Int) := by
      rw [Int.le_ediv_iff_mul_le hn]; omega
    have hi : (1 * S + ((n / 2 : Nat) : Int)) / (n : Int) < 32 := by
      rw [Int.ediv_lt_iff_lt_mul hn]; omega
    omega

/-- Settings within range and the probe's context coherent. -/
abbrev State.measureOk (σ : State) : Prop := σ.settings.wf ∧ σ.probe.wf

theorem abortRun_measureOk {σ : State} (w : σ.measureOk) (tell : Notice → NoticeUnit → NoticeUnit) (r : AbortReason) :
    (σ.abortRun tell r).measureOk := by
  unfold State.abortRun
  split
  · dsimp only
    split <;> exact ⟨w.1, Probe.wf_stopped w.2⟩
  · exact w

theorem Settings.wf_writeOffset {k : Settings} (w : k.wf) (s : Str) {v : Int} (h1 : -64 ≤ v) (h2 : v ≤ 63) :
    (k.writeOffset s v).wf :=
  Settings.wf_write (i := .physical s .offset) w ⟨h1, h2⟩

theorem countPitch_measureOk {σ : State} (w : σ.measureOk) (hr : σ.probe.running = true) (s : Str) {plan : Plan}
    (hp : σ.probe.plan = some plan) (pr : Int) : (σ.countPitch s plan pr).measureOk := by
  obtain ⟨ws, h1, h2, h3, h4, h5, h6, h7, h8⟩ := w
  have hd := deviationOf_range pr
  have hsum := Probe.sums_accumulate h8 hd.1 hd.2
  have hptr : σ.probe.pointer ≤ 8 := by
    rcases Nat.lt_or_ge σ.probe.pointer 9 with h | h
    · omega
    · exact absurd (h3 (by omega)) (by simp [hr])
  have hsz := h5 plan hp
  have hlt := h6 hr plan hp
  have hslots := Probe.slots_complete (p := σ.probe.accumulate (deviationOf pr)) h1 h7
  unfold State.countPitch
  dsimp only
  split
  · next he =>
    have hwf : ∀ b, (b = true → σ.probe.pointer + 1 ≤ 8) →
        ({ (σ.probe.accumulate (deviationOf pr)).completeSlot with running := b } : Probe).wf := by
      intro b hb
      refine ⟨Nat.le_succ_of_le h1, Nat.succ_le_succ hptr, ?_, ?_, h5, ?_, hslots, Probe.sums_complete hsum⟩
      · intro h9
        cases b
        · rfl
        · have := hb rfl
          have h9 : σ.probe.pointer + 1 = 9 := h9
          omega
      · exact fun _ => h4 hr
      · intro _ q hq
        obtain ⟨⟨a, _, _⟩, ⟨b, _, _⟩⟩ := h5 q hq
        show 0 < _
        unfold Plan.sizeOf
        split <;> omega
    split
    · next h9 =>
      unfold State.finishRun
      dsimp only
      have hc := Probe.correction_range (Probe.sums_complete hsum)
      split
      · exact ⟨Settings.wf_writeOffset ws s (le_trans (by norm_num) hc.1) (le_trans hc.2 (by norm_num)), hwf false (by simp)⟩
      · exact ⟨ws, hwf false (by simp)⟩
    · next h9 =>
      have e : ({ (σ.probe.accumulate (deviationOf pr)).completeSlot with running := true } : Probe)
          = (σ.probe.accumulate (deviationOf pr)).completeSlot := by
        unfold Probe.completeSlot Probe.emptySlot Probe.storeSlot Probe.accumulate
        rw [hr]
      refine ⟨ws, e ▸ hwf true fun _ => ?_⟩
      have : ¬ 9 ≤ σ.probe.pointer + 1 := h9
      omega
  · next hne =>
    refine ⟨ws, h1, h2, h3, h4, h5, ?_, h7, hsum⟩
    intro _ q hq
    obtain rfl : plan = q := Option.some.inj (hp.symm.trans hq)
    have hne : ¬ σ.probe.count + 1 = plan.sizeOf σ.probe.pointer := hne
    exact Nat.lt_of_le_of_ne (hlt : σ.probe.count + 1 ≤ _) hne

theorem probePitch_measureOk {σ : State} (w : σ.measureOk) (s : Str) : (σ.probePitch s).measureOk := by
  unfold State.probePitch
  split
  · exact w
  · unfold State.takePitch
    split
    · next plan h1 _ h3 => exact countPitch_measureOk (σ := σ.setTracker s _) w h1 s h3 _
    · exact w

/-- A PROBE START judged OK names a string and a start slot (R145). -/
theorem judgeProbeStart_ok {σ : State} {a : ProbeStart} (h : σ.judgeProbeStart a = .ok) :
    (∃ s, stringOfNumber a.string.toNat = some s) ∧ a.slot.toNat ≤ 8 := by
  unfold State.judgeProbeStart at h
  split at h
  · exact absurd h (by simp)
  · split at h
    · exact absurd h (by simp)
    · next s hs =>
      split at h
      · exact absurd h (by simp)
      · exact ⟨⟨s, hs⟩, by omega⟩

theorem probeStart_measureOk {σ : State} (w : σ.measureOk) (a : ProbeStart) : (σ.probeStart a).measureOk := by
  unfold State.probeStart
  split
  · next s h _ => exact ⟨w.1, Probe.wf_prepared s (by have := (judgeProbeStart_ok h).2; omega)⟩
  · exact w

theorem tellAll_measureOk (old new : BitVec 8) (ks : List Str) {σ : State} (w : σ.measureOk) :
    (ks.foldl (State.tellEnable old new) σ).measureOk := by
  induction ks generalizing σ with
  | nil => exact w
  | cons s ks ih =>
    refine ih ?_
    unfold State.tellEnable
    split
    · unfold State.disableString
      dsimp only
      split
      · exact abortRun_measureOk (σ := (σ.setFrontEnd s (σ.frontEnds[s]).disable).sendEnable s false) w _ _
      · exact w
    · split <;> exact w

/-- A run aborted beside a change of the settings and of the reference term, whichever term it is. -/
theorem abortProbe_beside (σ : State) (k : Settings) (R : Int) (r : AbortReason) :
    (((σ.setSettings k).setPitchUnit { σ.pitchUnit with refTerm := R }).abortProbe r).settings = k
      ∧ ((((σ.setSettings k).setPitchUnit { σ.pitchUnit with refTerm := R }).abortProbe r).probe = σ.probe
        ∨ (((σ.setSettings k).setPitchUnit { σ.pitchUnit with refTerm := R }).abortProbe r).probe
          = { σ.probe.emptySlot with running := false }) := by
  unfold State.abortProbe State.abortRun
  split
  · dsimp only; split <;> exact ⟨rfl, Or.inr rfl⟩
  · exact ⟨rfl, Or.inl rfl⟩

/-- What a SET of the reference leaves in the settings and the probe (R136, R154). -/
theorem setReference_kept (σ : State) (n : Nat) :
    (σ.setReference n).settings = { σ.settings with reference := n }
      ∧ ((σ.setReference n).probe = σ.probe
        ∨ (σ.setReference n).probe = { σ.probe.emptySlot with running := false }) :=
  abortProbe_beside σ { σ.settings with reference := n } (referenceTerm n) .reference

theorem setReference_measureOk {σ : State} {n : Nat} (w : ({ σ.settings with reference := n } : Settings).wf)
    (w' : σ.probe.wf) : (σ.setReference n).measureOk := by
  obtain ⟨h1, h2⟩ := setReference_kept σ n
  refine ⟨by rw [h1]; exact w, ?_⟩
  rcases h2 with h | h <;> rw [h]
  · exact w'
  · exact Probe.wf_stopped w'

theorem set_measureOk {σ : State} (w : σ.measureOk) (n : Byte) (v : BitVec 16) : (σ.set n v).measureOk := by
  unfold State.set
  split
  · exact w
  · next i _ =>
    split
    · exact w
    · next x hx =>
      have hwr : (σ.settings.write x i).wf := Settings.wf_write w.1 (fitValue_admits hx)
      unfold State.storeSetting
      split
      · exact tellAll_measureOk _ _ _ (σ := σ.setSettings (σ.settings.write x (.global .enableMask))) ⟨hwr, w.2⟩
      · exact setReference_measureOk hwr w.2
      · exact ⟨hwr, w.2⟩

theorem selectProfile_measureOk {σ : State} (w : σ.measureOk) (v : Byte) : (σ.selectProfile v).measureOk := by
  unfold State.selectProfile
  split
  · exact ⟨Settings.wf_selected w.1 _, w.2⟩
  · split
    · exact ⟨Settings.wf_selected w.1 _, w.2⟩
    · exact w

end Sys2Proof.Machine
end

