-- ==== Sys2Proof/Laws/Values.lean ====
section
/-! SUPPORT. Every value on its way into a record, and every record's fields, stay within their ranges (R91). -/

namespace Sys2Proof.Machine

/-! ## Values computed -/

theorem levelOf_le (peak gain : Nat) (o : Bool) : levelOf peak gain o ≤ 127 := by
  unfold levelOf clampNat; split <;> [omega; (split <;> [omega; (split <;> omega)])]

theorem velocityOf_range (a gain : Nat) : 1 ≤ velocityOf a gain ∧ velocityOf a gain ≤ 127 := by
  unfold velocityOf clampNat; split <;> [omega; (split <;> omega)]

theorem outputPitch_range (p o t : Int) : 0 ≤ outputPitch p o t ∧ outputPitch p o t ≤ 8191 := by
  unfold outputPitch clampInt; split <;> [omega; (split <;> omega)]

theorem nearest_range (p o t : Int) :
    nearestNote (outputPitch p o t) ≤ 127
      ∧ -32 ≤ bendFrom (outputPitch p o t) (nearestNote (outputPitch p o t))
      ∧ bendFrom (outputPitch p o t) (nearestNote (outputPitch p o t)) ≤ 63 := by
  have := outputPitch_range p o t
  generalize outputPitch p o t = x at *
  unfold bendFrom nearestNote
  omega

theorem clampBend_range {b : Int} {n : Nat} (h : n ≤ 24) : -1536 ≤ clampBend b n ∧ clampBend b n ≤ 1536 := by
  unfold clampBend clampInt; split <;> [omega; (split <;> omega)]

theorem bend_range {b : Int} {n : Nat} (h : n ≤ 24) (hb : beyondRange b n = false) : -1536 ≤ b ∧ b ≤ 1536 := by
  simp only [beyondRange, decide_eq_false_iff_not] at hb; omega

theorem result_level (c : Computation) : c.result.level ≤ 127 := levelOf_le _ _ _

/-! ## One Tracker -/

/-- What a Tracker remembers and has on its way, but for the request it awaits the answer to. -/
abbrev Tracker.sentInRange (t : Tracker) : Prop :=
  ∀ v ∈ t.lastSent, recordRange v.note v.bend 1 v.level ∧ captureRange v.transpose v.bendRange

/-- An input whose level is within range. -/
abbrev TrackerInput.inRange : TrackerInput → Prop
  | .result r => r.level ≤ 127
  | _ => True

theorem Tracker.inRange_iff (t : Tracker) :
    t.inRange ↔ t.sentInRange ∧ (∀ a ∈ t.awaited, a.request.inRange) ∧ ∀ i ∈ t.deferred, i.inRange := Iff.rfl

theorem inRange_send {t : Tracker} (w : t.inRange) {q : Request} (hq : q.inRange) (c : Option Int) :
    (t.send q c).inRange := by
  refine ⟨w.1, ?_, w.2.2⟩
  intro a ha
  obtain rfl := Option.some.inj ha
  exact hq

theorem inRange_sendRelease {t : Tracker} (w : t.inRange) (r : ReleaseReason) : (t.sendRelease r).inRange := by
  unfold Tracker.sendRelease
  split
  · exact inRange_send w (by trivial) _
  · exact w

theorem inRange_enterAttack {t : Tracker} (w : t.inRange) : t.enterAttack.inRange :=
  ⟨fun v hv => absurd hv (by simp [Tracker.enterAttack]), w.2.1, w.2.2⟩

theorem inRange_enterMuted {t : Tracker} (w : t.inRange) : t.enterMuted.inRange :=
  ⟨fun v hv => absurd hv (by simp [Tracker.enterMuted]), w.2.1, w.2.2⟩

theorem inRange_enterQuiet {t : Tracker} (w : t.inRange) : t.enterQuiet.inRange :=
  inRange_enterMuted (t := t) w

theorem inRange_enterOff {t : Tracker} (w : t.inRange) : t.enterOff.inRange :=
  inRange_enterMuted (t := t) w

theorem inRange_standDown {t : Tracker} (w : t.inRange) (g : Gate) : (t.standDown g).tracker.inRange := by
  unfold Tracker.standDown
  split
  · exact w
  · cases g
    · exact inRange_enterQuiet w
    · exact inRange_enterMuted w

theorem inRange_sendUpdate {t : Tracker} (w : t.inRange) {h note : Nat} {bend : Int} {level : Nat} {b : Bool}
    {sent : LastSent} (hr : recordRange note bend 1 level) (hc : captureRange sent.transpose sent.bendRange) (c : Int) :
    (t.sendUpdate h note bend level b sent c).inRange := by
  unfold Tracker.sendUpdate
  refine inRange_send ?_ ?_ _
  · refine ⟨?_, w.2.1, w.2.2⟩
    intro v hv
    obtain rfl := Option.some.inj hv
    exact ⟨hr, hc⟩
  · exact hr

theorem inRange_sendSucceed {t : Tracker} (w : t.inRange) {h : Nat} {reason : ReleaseReason} {note : Nat} {bend : Int}
    {level : Nat} {sent : LastSent} (hr : recordRange note bend 1 level)
    (hc : captureRange sent.transpose sent.bendRange) (c : Int) :
    (t.sendSucceed h reason note bend level sent c).inRange := by
  obtain ⟨h1, h2, h3, _, _, h6⟩ := hr
  have hv : 1 ≤ max 1 level ∧ max 1 level ≤ 127 := by omega
  unfold Tracker.sendSucceed
  refine inRange_send ?_ ?_ _
  · refine ⟨?_, w.2.1, w.2.2⟩
    intro v hv
    obtain rfl := Option.some.inj hv
    exact ⟨⟨h1, h2, h3, by omega, by omega, h6⟩, hc⟩
  · exact ⟨h1, h2, h3, hv.1, hv.2, h6⟩

/-- The nearest note and its bend are within range. -/
theorem nearest_recordRange (p o t : Int) {level : Nat} (hl : level ≤ 127) :
    recordRange (nearestNote (outputPitch p o t)) (bendFrom (outputPitch p o t) (nearestNote (outputPitch p o t))) 1
      level := by
  obtain ⟨a, b, c⟩ := nearest_range p o t
  exact ⟨a, by omega, by omega, by omega, by omega, hl⟩

theorem inRange_reportTracking {t : Tracker} (w : t.inRange) (policy : Overflow) {r : PitchResult} (hl : r.level ≤ 127)
    (pitch : Int) (h : Nat) {sent : LastSent}
    (hs : recordRange sent.note sent.bend 1 sent.level ∧ captureRange sent.transpose sent.bendRange) :
    (t.reportTracking policy r pitch h sent).inRange := by
  have hn := hs.1.1
  have hb := hs.2.2.2.2
  unfold Tracker.reportTracking
  dsimp only
  split
  · cases policy
    · have := clampBend_range (b := bendFrom (outputPitch pitch r.offset sent.transpose) sent.note) hb
      exact inRange_sendUpdate w ⟨hn, this.1, this.2, by omega, by omega, hl⟩ hs.2 _
    · exact inRange_sendSucceed w (nearest_recordRange _ _ _ hl) hs.2 _
  · next hbr =>
    have := bend_range hb (by simpa using hbr)
    exact inRange_sendUpdate w ⟨hn, this.1, this.2, by omega, by omega, hl⟩ hs.2 _

theorem inRange_reportStep {t : Tracker} (w : t.inRange) (legato : Legato) (policy : Overflow) {r : PitchResult}
    (hl : r.level ≤ 127) (h : Nat) {sent : LastSent}
    (hs : recordRange sent.note sent.bend 1 sent.level ∧ captureRange sent.transpose sent.bendRange) :
    (t.reportStep legato policy r h sent).inRange := by
  unfold Tracker.reportStep
  dsimp only
  split
  · split
    · exact inRange_reportTracking w _ hl _ _ hs
    · exact inRange_sendSucceed w (nearest_recordRange _ _ _ hl) hs.2 _
  · exact inRange_reportTracking w _ hl _ _ hs

theorem inRange_pairSearch {σ : State} (k : σ.settings.musicalWf) (s : Str) {r : PitchResult} (hl : r.level ≤ 127)
    {t : Tracker} (w : t.inRange) : (σ.pairSearch s r t).tracker.inRange := by
  unfold State.pairSearch
  dsimp only
  split
  · exact w
  · split
    · unfold State.consistentPair
      dsimp only
      split
      · exact w
      · have hm := k σ.settings.selected s
        have hn := nearest_recordRange r.rawPitch r.offset (σ.settings.musical σ.settings.selected s).transpose hl
        have hv := velocityOf_range (max t.peakMax r.peak) (σ.settings.physical[s]).gain
        unfold State.createFrom
        dsimp only
        refine inRange_send ?_ ?_ _
        · refine ⟨?_, w.2.1, w.2.2⟩
          intro v hv
          obtain rfl := Option.some.inj hv
          exact ⟨hn, hm⟩
        · exact ⟨⟨hn.1, hn.2.1, hn.2.2.1, hv.1, hv.2, hl⟩, hm⟩
    · exact w

theorem inRange_takeResult {σ : State} (k : σ.settings.musicalWf) (s : Str) {r : PitchResult} (hl : r.level ≤ 127)
    {t : Tracker} (w : t.inRange) : (σ.takeResult s r t).tracker.inRange := by
  unfold State.takeResult
  split
  · exact inRange_pairSearch k s hl w
  · exact inRange_pairSearch k s hl w
  · next hsent =>
    have hs := w.1 _ hsent
    unfold State.formingResult
    split
    · exact w
    · exact inRange_sendUpdate (t := t.commit _ r) w (nearest_recordRange _ _ _ hl) hs.2 _
    · exact inRange_sendUpdate (t := t.resetFilter _ r) w (nearest_recordRange _ _ _ hl) hs.2 _
  · next hsent =>
    have hs := w.1 _ hsent
    unfold State.trackingResult
    dsimp only
    split
    · exact w
    · exact inRange_reportTracking (t := t.commit _ r) w _ hl _ _ hs
    · exact inRange_reportStep (t := t.resetFilter _ r) w _ _ hl _ hs
  · exact w

theorem inRange_takeInput {σ : State} (k : σ.settings.musicalWf) (s : Str) {i : TrackerInput} (hi : i.inRange) {t : Tracker}
    (w : t.inRange) : (σ.takeInput s i t).tracker.inRange := by
  unfold State.takeInput
  split
  · unfold Tracker.takeOnset; split <;> first | exact w | exact inRange_enterAttack w
  · unfold Tracker.takeRelease
    split <;> first | exact w | exact inRange_enterQuiet w | exact inRange_enterQuiet (inRange_sendRelease w _)
  · unfold Tracker.takeRestrike
    split <;> first
      | exact w
      | exact inRange_enterAttack w
      | exact inRange_enterAttack (t := { t.sendRelease .restrike with predecessor := t.live }) (inRange_sendRelease w _)
  · exact inRange_takeResult k s hi w
  · unfold Tracker.takeStale
    split
    · split
      · split
        · next hsent =>
          unfold Tracker.staleUpdate
          refine inRange_send ?_ ?_ _
          · exact w
          · exact (w.1 _ hsent).1
        · exact w
      · exact inRange_standDown (inRange_sendRelease w _) _
    · exact w
  · unfold Tracker.takeForced
    split
    · exact inRange_standDown w _
    · exact w
  · unfold Tracker.takeEnable
    split
    · exact inRange_enterQuiet w
    · exact w
  · unfold Tracker.takeDisable
    split
    · exact w
    · exact inRange_enterOff (inRange_sendRelease w _)

theorem inRange_receive {σ : State} (k : σ.settings.musicalWf) (s : Str) {i : TrackerInput} (hi : i.inRange) {t : Tracker}
    (w : t.inRange) : (σ.receive s i t).tracker.inRange := by
  unfold State.receive
  split
  · refine ⟨w.1, w.2.1, fun j hj => ?_⟩
    rcases List.mem_append.1 hj with h | h
    · exact w.2.2 j h
    · rw [List.mem_singleton.1 h]; exact hi
  · exact inRange_takeInput k s hi w

theorem inRange_drain {σ : State} (k : σ.settings.musicalWf) (s : Str) (is : List TrackerInput) (hi : ∀ i ∈ is, i.inRange)
    (x : Taken) (w : x.tracker.inRange) : (σ.drain s is x).tracker.inRange := by
  induction is generalizing x with
  | nil => exact ⟨w.1, w.2.1, by intro i hi; exact absurd hi (by simp [State.drain])⟩
  | cons i is ih =>
    unfold State.drain
    split
    · exact ⟨w.1, w.2.1, hi⟩
    · exact ih (fun j hj => hi j (List.mem_cons_of_mem i hj)) _
        (inRange_takeInput k s (hi i List.mem_cons_self) w)

theorem inRange_passPitch {t : Tracker} (w : t.inRange) (b : Bool) (c : Option Int) : (t.passPitch b c).inRange := by
  unfold Tracker.passPitch
  split
  · split <;> exact w
  · exact w

theorem inRange_actOnAnswer (σ : State) (s : Str) (a : Awaited) (x : Answer) {t : Tracker} (w : t.inRange) :
    (σ.actOnAnswer s a x t).tracker.inRange := by
  unfold State.actOnAnswer
  split
  · rcases takeNotLive_cases (σ.frontEnds[s]).gate a.request t with ⟨_, e⟩ | ⟨_, e⟩ <;> rw [e]
    · exact w
    · exact inRange_standDown w _
  · exact inRange_passPitch (t := { t with live := some _ }) w _ _
  · split
    · dsimp only
      unfold Tracker.updateAnswered
      dsimp only
      have hp := inRange_passPitch w (σ.probe.runsOn s) a.counted
      split
      · unfold Tracker.checkConfirm
        dsimp only
        split
        · split
          · exact inRange_send (q := .confirm _) hp (by trivial) _
          · exact hp
        · exact hp
      · exact hp
    all_goals exact w

/-! ## All Trackers -/

abbrev State.trackersInRange (σ : State) : Prop := ∀ k : Str, (σ.trackers[k]).inRange

theorem trackersInRange_set {σ : State} (w : σ.trackersInRange) (s : Str) {t : Tracker} (h : t.inRange) :
    (σ.setTracker s t).trackersInRange := by
  intro k
  simp only [setTracker_trackers, bank_get_set]
  split
  · exact h
  · exact w k

theorem trackersInRange_putTaken {σ : State} (w : σ.trackersInRange) (s : Str) {k : Taken} (h : k.tracker.inRange) :
    (σ.putTaken s k).trackersInRange := by
  unfold State.putTaken
  split
  · exact trackersInRange_set w s h
  · exact trackersInRange_set w s h

theorem trackersInRange_deliver {σ : State} (k : σ.settings.musicalWf) (w : σ.trackersInRange) (s : Str) {i : TrackerInput}
    (hi : i.inRange) : (σ.deliver s i).trackersInRange :=
  trackersInRange_putTaken w s (inRange_receive k s hi (w s))

theorem trackersInRange_eventStep {σ : State} (k : σ.settings.musicalWf) (w : σ.trackersInRange) (e : FrontEndEvent) (s : Str) :
    (σ.eventStep e s).trackersInRange := by
  unfold State.eventStep
  split
  · exact w
  · split
    · refine trackersInRange_deliver (σ := σ.setTracker s _) k (trackersInRange_set w s ?_) s (by trivial)
      exact w s
    · exact w

theorem trackersInRange_forcedStep {σ : State} (k : σ.settings.musicalWf) (w : σ.trackersInRange) (s : Str) :
    (σ.forcedStep s).trackersInRange := by
  unfold State.forcedStep
  split
  · exact w
  · refine trackersInRange_deliver (σ := σ.setTracker s _) k (trackersInRange_set w s ?_) s (by trivial)
    exact w s

theorem trackersInRange_enableStep {σ : State} (k : σ.settings.musicalWf) (w : σ.trackersInRange) (s : Str) :
    (σ.enableStep s).trackersInRange := by
  unfold State.enableStep
  split
  · refine trackersInRange_deliver (σ := σ.setTracker s _) k (trackersInRange_set w s ?_) s (by trivial)
    exact w s
  all_goals exact w

theorem trackersInRange_disableStep {σ : State} (k : σ.settings.musicalWf) (w : σ.trackersInRange) (s : Str) :
    (σ.disableStep s).trackersInRange := by
  unfold State.disableStep
  split
  · refine trackersInRange_deliver (σ := σ.setTracker s _) k (trackersInRange_set w s ?_) s (by trivial)
    exact w s
  all_goals exact w

theorem trackersInRange_staleStep {σ : State} (k : σ.settings.musicalWf) (w : σ.trackersInRange) (s : Str) :
    (σ.staleStep s).trackersInRange := by
  unfold State.staleStep
  split
  · refine trackersInRange_deliver (σ := σ.setTracker s _) k (trackersInRange_set w s ?_) s (by trivial)
    exact w s
  · exact w

theorem trackersInRange_trackerAnswer {σ : State} (k : σ.settings.musicalWf) (w : σ.trackersInRange) (s : Str) :
    (σ.trackerAnswer s).trackersInRange := by
  unfold State.trackerAnswer
  split
  · exact w
  · split
    · exact w
    · refine trackersInRange_putTaken w s (inRange_drain k s _ (w s).2.2 _ (inRange_actOnAnswer σ s _ _ ?_))
      exact ⟨(w s).1, by simp, by simp⟩

theorem trackersInRange_handResult {σ : State} (k : σ.settings.musicalWf) (w : σ.trackersInRange) (c : Computation) :
    (σ.handResult c).trackersInRange :=
  trackersInRange_deliver (σ := σ.setPitchUnit { σ.pitchUnit with computation := some { c with handed := true } }) k w _
    (i := .result c.result) (result_level c)

/-! ## Records -/

/-- Every record's fields are within range. -/
abbrev NoteTable.inRange (t : NoteTable) : Prop := ∀ r ∈ t.records, r.image.inRange

theorem NoteTable.inRange_map {t : NoteTable} (w : t.inRange) (f : Record → Record)
    (h : ∀ r, r.image.inRange → (f r).image.inRange) : ∀ r ∈ t.records.map f, r.image.inRange := by
  intro r hr
  obtain ⟨q, hq, rfl⟩ := List.mem_map.1 hr
  exact h q (w q hq)

theorem NoteTable.inRange_modify {t : NoteTable} (w : t.inRange) (h : Nat) (f : Record → Record)
    (hf : ∀ r, r.image.inRange → (f r).image.inRange) : (t.modify h f).inRange :=
  NoteTable.inRange_map w _ fun r hr => by split <;> [exact hf r hr; exact hr]

theorem NoteTable.inRange_free {t : NoteTable} (w : t.inRange) (h : Nat) : (t.free h).inRange := by
  intro r hr
  obtain ⟨q, hq, rfl⟩ := List.mem_map.1 hr
  exact w q (List.mem_of_mem_filter hq)

theorem NoteTable.inRange_makeRoom {t : NoteTable} (w : t.inRange) {keep : Option Nat} {room : NoteTable × List Notice}
    (h : t.makeRoom keep = some room) : room.1.inRange := by
  unfold NoteTable.makeRoom at h
  split at h
  · obtain rfl := Option.some.inj h; exact w
  · obtain ⟨v, _, rfl⟩ := Option.map_eq_some_iff.1 h
    exact NoteTable.inRange_free w v

theorem NoteTable.inRange_linkSuccessor {t : NoteTable} (w : t.inRange) (p : Option Nat) (h : Nat) :
    (t.linkSuccessor p h).inRange := by
  cases p with
  | none => exact w
  | some q => exact NoteTable.inRange_modify w q _ fun r hr => hr

theorem NoteTable.inRange_add {t : NoteTable} (w : t.inRange) {r : Record} (hr : r.image.inRange) : (t.add r).inRange := by
  intro q hq
  rcases List.mem_append.1 hq with h | h
  · exact w q h
  · rw [List.mem_singleton.1 h]; exact hr

theorem NoteTable.inRange_create {t : NoteTable} (w : t.inRange) {k : Settings} {s : Str} {c : CreateRequest}
    (hc : Request.inRange (.create c)) {p : Reply} (h : t.create k s c = some p) : p.table.inRange := by
  obtain ⟨room, hr, rfl⟩ := Option.map_eq_some_iff.1 h
  exact NoteTable.inRange_add (NoteTable.inRange_linkSuccessor (NoteTable.inRange_makeRoom w hr) _ _) hc

theorem NoteTable.inRange_update {t : NoteTable} (w : t.inRange) (s : Str) {u : UpdateRequest}
    (hu : Request.inRange (.update u)) : (t.update s u).table.inRange := by
  unfold NoteTable.update
  split
  · exact w
  · refine NoteTable.inRange_modify w _ _ fun r hr => ?_
    obtain ⟨⟨h1, h2, h3, h4, h5, h6⟩, hc⟩ := hr
    obtain ⟨u1, u2, u3, _, _, u6⟩ := hu
    refine ⟨⟨?_, u2, u3, h4, h5, u6⟩, hc⟩
    simp only [Record.edit, Image.updated]
    split
    · exact u1
    · exact h1

theorem NoteTable.inRange_confirm {t : NoteTable} (w : t.inRange) (s : Str) (h : Nat) : (t.confirm s h).table.inRange := by
  unfold NoteTable.confirm
  split
  · exact w
  · split
    · exact NoteTable.inRange_modify w _ _ fun r hr => hr
    · exact w

theorem NoteTable.inRange_release {t : NoteTable} (w : t.inRange) (l : Nat) (s : Str) (h : Nat) (r : ReleaseReason) :
    (t.release l s h r).table.inRange := by
  unfold NoteTable.release
  split
  · exact w
  · exact NoteTable.inRange_modify w _ _ fun r hr => hr

theorem NoteTable.inRange_succeed {t : NoteTable} (w : t.inRange) {k : Settings} {s : Str} {q : SucceedRequest}
    (hq : Request.inRange (.succeed q)) {p : Reply} (h : t.succeed k s q = some p) : p.table.inRange := by
  unfold NoteTable.succeed at h
  split at h
  · obtain rfl := Option.some.inj h; exact w
  · next old hf =>
    obtain ⟨room, hr, rfl⟩ := Option.map_eq_some_iff.1 h
    have ho : old.image.inRange := w old (List.mem_of_find?_eq_some hf)
    have hm : (t.modify q.handle (Record.release k.linger q.reason)).inRange :=
      NoteTable.inRange_modify w _ _ fun r hr => hr
    exact NoteTable.inRange_add (NoteTable.inRange_linkSuccessor (NoteTable.inRange_makeRoom hm hr) _ _) ⟨hq, ho.2⟩

theorem NoteTable.inRange_deliver {t : NoteTable} (w : t.inRange) (h : Nat) : (t.deliver h).inRange :=
  NoteTable.inRange_modify w h _ fun _ hr => hr

theorem NoteTable.inRange_deliverAll {t : NoteTable} (w : t.inRange) (rs : List Record) : (t.deliverAll rs).inRange := by
  induction rs generalizing t with
  | nil => exact w
  | cons r rs ih => exact ih (NoteTable.inRange_deliver w _)

theorem NoteTable.inRange_reflagAll {t : NoteTable} (w : t.inRange) (is : List Included) :
    (is.foldl NoteTable.reflag t).inRange := by
  induction is generalizing t with
  | nil => exact w
  | cons i is ih => exact ih (NoteTable.inRange_map w _ fun r hr => by split <;> exact hr)

/-- An application of a request within range keeps every value within range. -/
theorem serve_valuesInRange {σ : State} (w : σ.valuesInRange) (s : Str) (f : Request → Option Reply)
    (hf : ∀ q p, q.inRange → f q = some p → p.table.inRange) : (σ.serve s f).valuesInRange := by
  unfold State.serve
  split
  · exact w
  · next a ha =>
    split
    · exact w
    · split
      · exact w
      · next p hp =>
        refine ⟨hf _ p ((w.2 s).2.1 a ha) hp, trackersInRange_set (σ := (σ.setTable p.table).handAll p.notices) w.2 s ?_⟩
        refine ⟨(w.2 s).1, ?_, (w.2 s).2.2⟩
        intro b hb
        obtain rfl := Option.some.inj hb
        exact (w.2 s).2.1 a ha

theorem applyCreate_valuesInRange {σ : State} (w : σ.valuesInRange) (s : Str) : (σ.applyCreate s).valuesInRange :=
  serve_valuesInRange w s _ fun q p hq h => by
    cases q <;> first | exact NoteTable.inRange_create w.1 hq h | exact absurd h (by simp)

theorem applyUpdate_valuesInRange {σ : State} (w : σ.valuesInRange) (s : Str) : (σ.applyUpdate s).valuesInRange :=
  serve_valuesInRange w s _ fun q p hq h => by
    cases q <;> first
      | (obtain rfl := Option.some.inj h; exact NoteTable.inRange_update w.1 s hq)
      | exact absurd h (by simp)

theorem applyConfirm_valuesInRange {σ : State} (w : σ.valuesInRange) (s : Str) : (σ.applyConfirm s).valuesInRange :=
  serve_valuesInRange w s _ fun q p hq h => by
    cases q <;> first
      | (obtain rfl := Option.some.inj h; exact NoteTable.inRange_confirm w.1 s _)
      | exact absurd h (by simp)

theorem applyRelease_valuesInRange {σ : State} (w : σ.valuesInRange) (s : Str) : (σ.applyRelease s).valuesInRange :=
  serve_valuesInRange w s _ fun q p hq h => by
    cases q <;> first
      | (obtain rfl := Option.some.inj h; exact NoteTable.inRange_release w.1 _ s _ _)
      | exact absurd h (by simp)

theorem applySucceed_valuesInRange {σ : State} (w : σ.valuesInRange) (s : Str) : (σ.applySucceed s).valuesInRange :=
  serve_valuesInRange w s _ fun q p hq h => by
    cases q <;> first | exact NoteTable.inRange_succeed w.1 hq h | exact absurd h (by simp)

theorem sendForced_trackersInRange {σ : State} (w : σ.trackersInRange) (s : Str) (h : Nat) :
    (σ.sendForced s h).trackersInRange := trackersInRange_set w s (w s)

theorem forceRelease_valuesInRange {σ : State} (w : σ.valuesInRange) (r : Record) : (σ.forceRelease r).valuesInRange := by
  refine ⟨?_, ?_⟩
  · exact NoteTable.inRange_modify w.1 _ _ fun _ hr => hr
  · unfold State.forceRelease
    refine sendForced_trackersInRange ?_ _ _
    exact w.2

theorem allRelease_valuesInRange {σ : State} (w : σ.valuesInRange) : σ.allRelease.valuesInRange := by
  unfold State.allRelease
  generalize σ.table.records.filter _ = rs
  induction rs generalizing σ with
  | nil => exact w
  | cons r rs ih => exact ih (forceRelease_valuesInRange w r)

theorem tick_valuesInRange {σ : State} (w : σ.valuesInRange) : σ.millisecond.valuesInRange := by
  refine ⟨NoteTable.inRange_map w.1 _ fun _ hr => hr, fun k => ?_⟩
  simp only [State.millisecond, bank_get_ofFn]
  exact w.2 k

end Sys2Proof.Machine
end

