-- ==== Sys2Proof/Laws/Bends.lean ====
section
/-! SUPPORT. Every record's bend stays within 64 times the record's bend range (R91): what a Tracker sends is bounded by the
range it remembers, which is the range of its string's live record. -/

namespace Sys2Proof.Machine

/-! ## Values computed -/

theorem bendWithin_nearest (p o t : Int) {n : Nat} (h : 1 ≤ n) :
    bendWithin (bendFrom (outputPitch p o t) (nearestNote (outputPitch p o t))) n := by
  obtain ⟨_, b, c⟩ := nearest_range p o t
  simp only [bendWithin]; omega

theorem bendWithin_clamp (b : Int) (n : Nat) : bendWithin (clampBend b n) n := by
  simp only [bendWithin, clampBend, clampInt]; split <;> [omega; (split <;> omega)]

theorem bendWithin_not_beyond {b : Int} {n : Nat} (h : beyondRange b n = false) : bendWithin b n := by
  simp only [beyondRange, decide_eq_false_iff_not] at h; simp only [bendWithin]; omega

/-! ## One Tracker -/

/-- The range remembered afterwards was remembered before, or the Tracker owned no record. -/
abbrev Tracker.rangeKept (t u : Tracker) : Prop :=
  ∀ v ∈ u.lastSent, (∃ w ∈ t.lastSent, w.bendRange = v.bendRange) ∨ t.owned = none

/-- The Tracker's bends are in order, and it remembers no new range. -/
abbrev Tracker.bendsTo (t u : Tracker) : Prop := u.bendsWf ∧ t.rangeKept u

/-- A Tracker keeps its bends in order where its request and its last-sent values stand. -/
theorem bendsTo_same {t u : Tracker} (w : t.bendsWf) (ha : u.awaited = t.awaited) (hl : u.lastSent = t.lastSent) :
    t.bendsTo u := by
  refine ⟨?_, fun v hv => Or.inl ⟨v, hl ▸ hv, rfl⟩⟩
  unfold Tracker.bendsWf; rw [ha, hl]; exact w

/-- A Tracker that sends a CONFIRM or a RELEASE, or nothing, and remembers what it did or nothing. -/
theorem bendsTo_plain {t u : Tracker} (w : t.bendsWf)
    (ha : u.awaited = none ∨ (∃ h c, u.awaited = some { request := .confirm h, counted := c, answer := none })
      ∨ ∃ h r, u.awaited = some { request := .release h r, counted := none, answer := none })
    (hl : u.lastSent = t.lastSent ∨ u.lastSent = none) : t.bendsTo u := by
  have within : ∀ v ∈ u.lastSent, v ∈ t.lastSent := by
    rcases hl with h | h <;> rw [h] <;> simp
  refine ⟨⟨fun v hv => w.1 v (within v hv), fun a h => ?_⟩, fun v hv => Or.inl ⟨v, within v hv, rfl⟩⟩
  rcases ha with e | ⟨_, _, e⟩ | ⟨_, _, e⟩ <;> rw [e] at h
  · exact absurd h (by simp)
  all_goals (obtain rfl := Option.some.inj h; trivial)

theorem sendRelease_awaits {t : Tracker} (ha : t.awaited = none) (r : ReleaseReason) :
    (t.sendRelease r).awaited = none
      ∨ ∃ h x, (t.sendRelease r).awaited = some { request := .release h x, counted := none, answer := none } := by
  unfold Tracker.sendRelease
  split
  · exact Or.inr ⟨_, r, rfl⟩
  · exact Or.inl ha

/-- A Tracker that leaves its record, RELEASE sent or not, remembers nothing. -/
theorem bendsTo_left {t u : Tracker} (w : t.bendsWf) (ha : t.awaited = none) (r : ReleaseReason)
    (hu : u.awaited = (t.sendRelease r).awaited) (hl : u.lastSent = none) : t.bendsTo u := by
  refine bendsTo_plain w ?_ (Or.inr hl)
  rw [hu]
  rcases sendRelease_awaits ha r with e | e
  · exact Or.inl e
  · exact Or.inr (Or.inr e)

theorem bendsTo_idle {t u : Tracker} (w : t.bendsWf) (hu : u.awaited = none)
    (hl : u.lastSent = t.lastSent ∨ u.lastSent = none) : t.bendsTo u := bendsTo_plain w (Or.inl hu) hl

/-- An UPDATE sent with a bend within the range remembered. -/
theorem bendsTo_update {t u : Tracker} {sent : LastSent} (hs : t.lastSent = some sent) {x : UpdateRequest}
    {c : Option Int} (ha : u.awaited = some { request := .update x, counted := c, answer := none })
    (hl : ∀ v ∈ u.lastSent, v.bendRange = sent.bendRange ∧ v.bend = x.bend) (hb : bendWithin x.bend sent.bendRange) :
    t.bendsTo u := by
  refine ⟨⟨fun v hv => ?_, fun a h => ?_⟩, fun v hv => Or.inl ⟨sent, hs, (hl v hv).1.symm⟩⟩
  · rw [(hl v hv).1, (hl v hv).2]; exact hb
  · rw [ha] at h
    obtain rfl := Option.some.inj h
    intro v hv
    rw [(hl v hv).1]; exact hb

/-- A SUCCEED sent with the bend of a nearest note. -/
theorem bendsTo_succeed {t u : Tracker} {sent : LastSent} (hs : t.lastSent = some sent) (h1 : 1 ≤ sent.bendRange)
    {x : SucceedRequest} {c : Option Int} (ha : u.awaited = some { request := .succeed x, counted := c, answer := none })
    (hl : ∀ v ∈ u.lastSent, v.bendRange = sent.bendRange ∧ v.bend = x.bend) (hb : bendWithin x.bend 1) :
    t.bendsTo u := by
  refine ⟨⟨fun v hv => ?_, fun a h => ?_⟩, fun v hv => Or.inl ⟨sent, hs, (hl v hv).1.symm⟩⟩
  · rw [(hl v hv).1, (hl v hv).2]; simp only [bendWithin] at hb ⊢; omega
  · rw [ha] at h
    obtain rfl := Option.some.inj h
    exact hb

theorem standDown_bends {t : Tracker} (w : t.bendsWf) (ha : t.awaited = none) (gate : Gate) :
    t.bendsTo (t.standDown gate).tracker := by
  unfold Tracker.standDown
  split
  · exact bendsTo_same w rfl rfl
  · cases gate <;> exact bendsTo_idle w ha (Or.inr rfl)

/-! ## Inputs -/

theorem reportTracking_bends {t u : Tracker} (policy : Overflow) (r : PitchResult) (pitch : Int) (h : Nat)
    {sent : LastSent} (hs : t.lastSent = some sent) (h1 : 1 ≤ sent.bendRange) :
    t.bendsTo (u.reportTracking policy r pitch h sent) := by
  unfold Tracker.reportTracking
  dsimp only
  split
  · cases policy
    · exact bendsTo_update hs rfl (by rintro v hv; obtain rfl := Option.some.inj hv; exact ⟨rfl, rfl⟩) (bendWithin_clamp _ _)
    · exact bendsTo_succeed hs h1 rfl (by rintro v hv; obtain rfl := Option.some.inj hv; exact ⟨rfl, rfl⟩)
        (bendWithin_nearest _ _ _ (Nat.le_refl 1))
  · next hb =>
    exact bendsTo_update hs rfl (by rintro v hv; obtain rfl := Option.some.inj hv; exact ⟨rfl, rfl⟩)
      (bendWithin_not_beyond (by simpa using hb))

theorem pairSearch_bends {σ : State} (k : σ.settings.musicalWf) (s : Str) (r : PitchResult) {t : Tracker} (wt : t.wf)
    (ha : t.awaited = none) (hs : t.state = .attack ∨ t.state = .bleed) (w : t.bendsWf) :
    t.bendsTo (σ.pairSearch s r t).tracker := by
  have none_owned : t.owned = none := by
    rw [Tracker.owned, ha]; exact live_none wt ha (by rcases hs with e | e <;> simp [e])
  unfold State.pairSearch
  dsimp only
  split
  · exact bendsTo_same w rfl rfl
  · split
    · unfold State.consistentPair
      dsimp only
      split
      · exact bendsTo_same w rfl rfl
      · have hb := (k σ.settings.selected s).2.2.1
        refine ⟨⟨fun v hv => ?_, fun a h => ?_⟩, fun _ _ => Or.inr none_owned⟩
        · obtain rfl := Option.some.inj hv
          exact bendWithin_nearest _ _ _ hb
        · obtain rfl := Option.some.inj h
          refine ⟨bendWithin_nearest _ _ _ hb, fun v hv => ?_⟩
          obtain rfl := Option.some.inj hv
          rfl
    · exact bendsTo_same w rfl rfl

theorem takeResult_bends {σ : State} (k : σ.settings.musicalWf) (s : Str) (r : PitchResult) {t : Tracker} (wt : t.wf)
    (ha : t.awaited = none) (wr : t.sentInRange) (w : t.bendsWf) : t.bendsTo (σ.takeResult s r t).tracker := by
  unfold State.takeResult
  split
  · exact pairSearch_bends k s r wt ha (Or.inl ‹_›) w
  · exact pairSearch_bends k s r wt ha (Or.inr ‹_›) w
  · next hsent =>
    have h1 := (wr _ hsent).2.2.2.1
    unfold State.formingResult
    split
    · exact bendsTo_same w rfl rfl
    all_goals
      exact bendsTo_update hsent rfl (by rintro v hv; obtain rfl := Option.some.inj hv; exact ⟨rfl, rfl⟩)
        (bendWithin_nearest _ _ _ h1)
  · next hsent =>
    have h1 := (wr _ hsent).2.2.2.1
    unfold State.trackingResult
    dsimp only
    split
    · exact bendsTo_same w rfl rfl
    · exact reportTracking_bends _ _ _ _ hsent h1
    · unfold Tracker.reportStep
      dsimp only
      split
      · split
        · exact reportTracking_bends _ _ _ _ hsent h1
        · exact bendsTo_succeed hsent h1 rfl (by rintro v hv; obtain rfl := Option.some.inj hv; exact ⟨rfl, rfl⟩)
            (bendWithin_nearest _ _ _ (Nat.le_refl 1))
      · exact reportTracking_bends _ _ _ _ hsent h1
  · exact bendsTo_same w rfl rfl

/-- Every input taken keeps a Tracker's bends in order. -/
theorem takeInput_bends {σ : State} (k : σ.settings.musicalWf) (s : Str) (i : TrackerInput) {t : Tracker} (wt : t.wf)
    (ha : t.awaited = none) (wr : t.sentInRange) (w : t.bendsWf) : t.bendsTo (σ.takeInput s i t).tracker := by
  have same := bendsTo_same w (rfl : t.awaited = t.awaited) rfl
  unfold State.takeInput
  split
  · unfold Tracker.takeOnset
    split <;> first | exact same | exact bendsTo_idle w ha (Or.inr rfl)
  · unfold Tracker.takeRelease
    split <;> first | exact same | exact bendsTo_idle w ha (Or.inr rfl) | exact bendsTo_left w ha .decay rfl rfl
  · unfold Tracker.takeRestrike
    split <;> first | exact same | exact bendsTo_idle w ha (Or.inr rfl) | exact bendsTo_left w ha .restrike rfl rfl
  · exact takeResult_bends k s _ wt ha wr w
  · unfold Tracker.takeStale
    split
    · next hs =>
      split
      · split
        · next hsent =>
          refine bendsTo_update hsent rfl (fun v hv => ?_) (w.1 _ hsent)
          obtain rfl : _ = v := Option.some.inj (hsent.symm.trans hv)
          exact ⟨rfl, rfl⟩
        · exact same
      · have e := (sendRelease_kept t .stale).2.2
        unfold Tracker.staleRelease Tracker.standDown
        rw [if_neg (by rw [e]; rcases hs.1 with h | h <;> simp [h])]
        cases (σ.frontEnds[s]).gate <;> exact bendsTo_left w ha .stale rfl rfl
    · exact same
  · unfold Tracker.takeForced
    split
    · exact standDown_bends w ha _
    · exact same
  · unfold Tracker.takeEnable
    split
    · exact bendsTo_idle w ha (Or.inr rfl)
    · exact same
  · unfold Tracker.takeDisable
    split
    · exact same
    · exact bendsTo_left w ha .disabled rfl rfl

/-- A range remembered that was remembered before, beside a table with which the Tracker agrees. -/
theorem rangesWith_kept {t u : Tracker} {n : NoteTable} {s : Str} (h : t.rangesWith n s) (hk : t.rangeKept u)
    (ho : ∀ r ∈ n.records, r.image.string = s → r.image.state ≠ .released → t.owned = some r.image.handle) :
    u.rangesWith n s := by
  intro r hr hs hl v hv
  rcases hk v hv with ⟨x, hx, e⟩ | e
  · rw [← e]; exact h r hr hs hl x hx
  · rw [ho r hr hs hl] at e; exact absurd e (by simp)

/-- The deferred inputs taken after an answer keep a Tracker's bends in order. -/
theorem drain_bends {σ : State} (k : σ.settings.musicalWf) (s : Str) {n : NoteTable} (is : List TrackerInput)
    (hi : ∀ i ∈ is, i.inRange) (x : Taken) (wt : x.tracker.wf) (wr : x.tracker.inRange)
    (wa : x.tracker.agreesBefore n s is) (w : x.tracker.bendsWf) (wn : x.tracker.rangesWith n s) :
    (σ.drain s is x).tracker.bendsWf ∧ (σ.drain s is x).tracker.rangesWith n s := by
  induction is generalizing x with
  | nil => exact ⟨w, wn⟩
  | cons i is ih =>
    unfold State.drain
    split
    · exact ⟨w, wn⟩
    · next h =>
      have ha : x.tracker.awaited = none := by simpa using h
      have b := takeInput_bends k s i wt ha wr.1 w
      exact ih (fun j hj => hi j (List.mem_cons_of_mem i hj)) _ (takeInput_wf σ s i wt ha)
        (inRange_takeInput k s (hi i List.mem_cons_self) wr) (takeInput_agrees σ s i is wt ha wa) b.1
        (rangesWith_kept wn b.2 fun r hr hs hl => (wa.2 r hr hs hl).1)

/-- An input that reaches a Tracker, taken or deferred, keeps its bends in order. -/
theorem receive_bends {σ : State} (k : σ.settings.musicalWf) (s : Str) (i : TrackerInput) {t : Tracker} (wt : t.wf)
    (wr : t.inRange) (w : t.bendsWf) : t.bendsTo (σ.receive s i t).tracker := by
  unfold State.receive
  split
  · exact bendsTo_same w rfl rfl
  · next h => exact takeInput_bends k s i wt (by simpa using h) wr.1 w

theorem passPitch_sent (t : Tracker) (b : Bool) (c : Option Int) :
    (t.passPitch b c).lastSent = t.lastSent ∧ (t.passPitch b c).awaited = t.awaited := by
  unfold Tracker.passPitch
  split
  · split <;> exact ⟨rfl, rfl⟩
  · exact ⟨rfl, rfl⟩

/-- An answer acted on keeps a Tracker's bends in order, and it remembers no new range. -/
theorem actOnAnswer_bends (σ : State) (s : Str) (a : Awaited) (x : Answer) {t : Tracker} (ha : t.awaited = none)
    (w : t.bendsWf) :
    (σ.actOnAnswer s a x t).tracker.bendsWf
      ∧ ∀ v ∈ (σ.actOnAnswer s a x t).tracker.lastSent, v ∈ t.lastSent := by
  have keep : ∀ u : Tracker, t.bendsTo u → (u.lastSent = t.lastSent ∨ u.lastSent = none) →
      u.bendsWf ∧ ∀ v ∈ u.lastSent, v ∈ t.lastSent := by
    rintro u b (h | h)
    · exact ⟨b.1, fun v hv => h ▸ hv⟩
    · exact ⟨b.1, fun v hv => absurd (h ▸ hv) (by simp)⟩
  unfold State.actOnAnswer
  split
  · rcases takeNotLive_cases (σ.frontEnds[s]).gate a.request t with ⟨_, e⟩ | ⟨_, e⟩ <;> rw [e]
    · exact ⟨w, fun _ h => h⟩
    · refine keep _ (standDown_bends w ha _) ?_
      unfold Tracker.standDown
      split
      · exact Or.inl rfl
      · split <;> exact Or.inr rfl
  · next h =>
    have p := passPitch_sent { t with live := some h } (σ.probe.runsOn s) a.counted
    exact keep _ (bendsTo_same w p.2 p.1) (Or.inl p.1)
  · split
    · dsimp only
      have p := passPitch_sent t (σ.probe.runsOn s) a.counted
      have base := keep _ (bendsTo_same w p.2 p.1) (Or.inl p.1)
      unfold Tracker.updateAnswered
      dsimp only
      split
      · unfold Tracker.checkConfirm
        dsimp only
        split
        · split
          · exact keep _ (bendsTo_plain w (Or.inr (Or.inl ⟨_, _, rfl⟩)) (Or.inl p.1)) (Or.inl p.1)
          · exact base
        · exact base
      · exact base
    all_goals exact ⟨w, fun _ h => h⟩

/-! ## Steps at the Trackers -/

/-- What a step at a Tracker asks of the state. -/
structure State.bendReady (σ : State) : Prop where
  musical : σ.settings.musicalWf
  trackers : σ.trackersWf
  ranges : σ.trackersInRange
  agrees : ∀ k : Str, (σ.trackers[k]).agreesWith σ.table k
  bends : σ.bendsWf

theorem bendsWf_setTracker {σ : State} (w : σ.bendsWf) (s : Str) {t : Tracker} (h : t.bendsWf)
    (h' : t.rangesWith σ.table s) : (σ.setTracker s t).bendsWf := by
  refine ⟨w.1, fun k => ?_⟩
  simp only [setTracker_trackers, setTracker_table, bank_get_set]
  split
  · next e => rw [← e]; exact ⟨h, h'⟩
  · exact w.2 k

theorem bendsWf_putTaken {σ : State} (w : σ.bendsWf) (s : Str) {x : Taken} (h : x.tracker.bendsWf)
    (h' : x.tracker.rangesWith σ.table s) : (σ.putTaken s x).bendsWf := by
  unfold State.putTaken
  split
  · exact bendsWf_setTracker w s h h'
  · exact bendsWf_setTracker w s h h'

theorem deliver_bendsWf {σ : State} (w : σ.bendReady) (s : Str) (i : TrackerInput) : (σ.deliver s i).bendsWf := by
  have b := receive_bends w.musical s i (w.trackers s) (w.ranges s) (w.bends.2 s).1
  exact bendsWf_putTaken w.bends s b.1
    (rangesWith_kept (w.bends.2 s).2 b.2 fun r hr hs hl => ((w.agrees s).2 r hr hs hl).1)

/-- A Tracker whose own messages or timer have moved is as ready as before. -/
theorem bendReady_set {σ : State} (w : σ.bendReady) (s : Str) {t : Tracker} (wt : t.wf) (wr : t.inRange)
    (wa : t.agreesWith σ.table s) (ha : t.awaited = (σ.trackers[s]).awaited)
    (hl : t.lastSent = (σ.trackers[s]).lastSent) : (σ.setTracker s t).bendReady := by
  refine ⟨w.musical, State.trackersWf_set w.trackers s wt, trackersInRange_set w.ranges s wr, fun k => ?_,
    bendsWf_setTracker w.bends s (bendsTo_same (w.bends.2 s).1 ha hl).1 ?_⟩
  · simp only [setTracker_trackers, setTracker_table, bank_get_set]
    split
    · next e => rw [← e]; exact wa
    · exact w.agrees k
  · unfold Tracker.rangesWith; rw [hl]; exact (w.bends.2 s).2

theorem eventStep_bendsWf {σ : State} (w : σ.bendReady) (e : FrontEndEvent) (s : Str) : (σ.eventStep e s).bendsWf := by
  unfold State.eventStep
  split
  · exact w.bends
  · split
    · exact deliver_bendsWf (bendReady_set w s (by exact w.trackers s) (by exact w.ranges s) (by exact w.agrees s) rfl rfl) s _
    · exact w.bends

theorem enableStep_bendsWf {σ : State} (w : σ.bendReady) (s : Str) : (σ.enableStep s).bendsWf := by
  unfold State.enableStep
  split
  · exact deliver_bendsWf (bendReady_set w s (by exact w.trackers s) (by exact w.ranges s) (by exact w.agrees s) rfl rfl) s _
  all_goals exact w.bends

theorem disableStep_bendsWf {σ : State} (w : σ.bendReady) (s : Str) : (σ.disableStep s).bendsWf := by
  unfold State.disableStep
  split
  · exact deliver_bendsWf (bendReady_set w s (by exact w.trackers s) (by exact w.ranges s) (by exact w.agrees s) rfl rfl) s _
  all_goals exact w.bends

theorem forcedStep_bendsWf {σ : State} (w : σ.bendReady) (s : Str) : (σ.forcedStep s).bendsWf := by
  unfold State.forcedStep
  split
  · exact w.bends
  · next h rest he =>
    refine deliver_bendsWf (bendReady_set w s (by exact w.trackers s) (by exact w.ranges s) ?_ rfl rfl) s _
    refine ⟨(w.agrees s).1, fun r hr hk hl => ⟨((w.agrees s).2 r hr hk hl).1, ?_⟩⟩
    have := ((w.agrees s).2 r hr hk hl).2
    rintro (hm | hm)
    · exact this (Or.inl (by rw [he]; exact List.mem_cons_of_mem _ hm))
    · exact this (Or.inr hm)

theorem staleStep_bendsWf {σ : State} (w : σ.bendReady) (s : Str) : (σ.staleStep s).bendsWf := by
  unfold State.staleStep
  split
  · next h =>
    refine deliver_bendsWf (bendReady_set w s ?_ (by exact w.ranges s) (by exact w.agrees s) rfl rfl) s _
    obtain ⟨h1, h2, h3, h4, h5, h6, h7, h8, h9, h10⟩ := w.trackers s
    refine ⟨h1, h2, h3, h4, h5, h6, ?_, h8, h9, h10⟩
    rw [h] at h7
    simpa using h7
  · exact w.bends

theorem handResult_bendsWf {σ : State} (w : σ.bendReady) (c : Computation) : (σ.handResult c).bendsWf :=
  deliver_bendsWf (σ := σ.setPitchUnit { σ.pitchUnit with computation := some { c with handed := true } })
    ⟨w.musical, w.trackers, w.ranges, w.agrees, w.bends⟩ _ _

theorem bendsWf_same {σ τ : State} (w : σ.bendsWf) (h : τ.table = σ.table) (h' : τ.trackers = σ.trackers) :
    τ.bendsWf := by
  unfold State.bendsWf; rw [h, h']; exact w

theorem resultStep_bendsWf {σ : State} (w : σ.bendReady) (s : Str) : (σ.resultStep s).bendsWf := by
  unfold State.resultStep
  split
  · exact w.bends
  · split
    · exact handResult_bendsWf w _
    · exact w.bends

theorem completeComputation_bendsWf {σ : State} (w : σ.bendReady) : σ.completeComputation.bendsWf := by
  unfold State.completeComputation
  split
  · exact w.bends
  · next c _ =>
    refine bendsWf_same (σ := if c.handed then σ else σ.handResult c) ?_ ?_ (decideContinuation_trackers _ _)
    · split <;> [exact w.bends; exact handResult_bendsWf w c]
    · have := decideContinuation_frame (if c.handed then σ else σ.handResult c) c.string
      exact (congrArg State.table this).trans rfl

theorem trackerAnswer_bendsWf {σ : State} (w : σ.bendReady) (s : Str) : (σ.trackerAnswer s).bendsWf := by
  unfold State.trackerAnswer
  split
  · exact w.bends
  · next a ha =>
    split
    · exact w.bends
    · next x hx =>
      have idle : ({ σ.trackers[s] with awaited := none, deferred := [] } : Tracker).bendsWf :=
        ⟨(w.bends.2 s).1.1, fun a h => absurd h (by simp)⟩
      have b := actOnAnswer_bends σ s a x (t := { σ.trackers[s] with awaited := none, deferred := [] }) rfl idle
      have d := drain_bends w.musical s (n := σ.table) (σ.trackers[s]).deferred (w.ranges s).2.2 _
        (actOnAnswer_wf σ s (w.trackers s) ha hx)
        (inRange_actOnAnswer σ s a x (t := { σ.trackers[s] with awaited := none, deferred := [] })
          ⟨(w.ranges s).1, by simp, by simp⟩)
        (actOnAnswer_agrees σ s ha hx (w.agrees s)) b.1
        fun r hr hk hl v hv => (w.bends.2 s).2 r hr hk hl v (b.2 v hv)
      exact bendsWf_putTaken w.bends s d.1 d.2

/-! ## Changes of the table -/

/-- Every record afterwards was there before, with its bend, its bend range and its string, and none has become live. -/
abbrev NoteTable.bendsOf (t t' : NoteTable) : Prop :=
  ∀ r' ∈ t'.records, ∃ r ∈ t.records, r'.image.bend = r.image.bend ∧ r'.image.bendRange = r.image.bendRange
    ∧ r'.image.string = r.image.string ∧ (r'.image.state ≠ .released → r.image.state ≠ .released)

theorem NoteTable.bendsOf_self (t : NoteTable) : t.bendsOf t := fun r hr => ⟨r, hr, rfl, rfl, rfl, id⟩

theorem NoteTable.bendsOf.trans {t u v : NoteTable} (h : t.bendsOf u) (h' : u.bendsOf v) : t.bendsOf v := by
  intro r hr
  obtain ⟨q, hq, a1, a2, a3, a4⟩ := h' r hr
  obtain ⟨p, hp, b1, b2, b3, b4⟩ := h q hq
  exact ⟨p, hp, a1.trans b1, a2.trans b2, a3.trans b3, fun x => b4 (a4 x)⟩

theorem NoteTable.bendsOf_map (t : NoteTable) (f : Record → Record)
    (hf : ∀ r ∈ t.records, (f r).image.bend = r.image.bend ∧ (f r).image.bendRange = r.image.bendRange
      ∧ (f r).image.string = r.image.string ∧ ((f r).image.state ≠ .released → r.image.state ≠ .released))
    (rec : List Nat) (n c : Nat) :
    t.bendsOf { records := t.records.map f, recency := rec, nextHandle := n, created := c } := by
  intro r hr
  obtain ⟨q, hq, rfl⟩ := List.mem_map.1 hr
  exact ⟨q, hq, hf q hq⟩

theorem NoteTable.bendsOf_modify (t : NoteTable) (h : Nat) (f : Record → Record)
    (hf : ∀ r ∈ t.records, r.image.handle = h → (f r).image.bend = r.image.bend
      ∧ (f r).image.bendRange = r.image.bendRange ∧ (f r).image.string = r.image.string
      ∧ ((f r).image.state ≠ .released → r.image.state ≠ .released)) : t.bendsOf (t.modify h f) :=
  NoteTable.bendsOf_map t _ (fun r hr => by split <;> [exact hf r hr ‹_›; exact ⟨rfl, rfl, rfl, id⟩]) _ _ _

theorem NoteTable.bendsOf_free (t : NoteTable) (h : Nat) : t.bendsOf (t.free h) := by
  intro r hr
  obtain ⟨q, hq, rfl⟩ := List.mem_map.1 hr
  exact ⟨q, List.mem_of_mem_filter hq, rfl, rfl, rfl, id⟩

theorem NoteTable.bendsOf_makeRoom {t : NoteTable} {keep : Option Nat} {room : NoteTable × List Notice}
    (h : t.makeRoom keep = some room) : t.bendsOf room.1 := by
  unfold NoteTable.makeRoom at h
  split at h
  · obtain rfl := Option.some.inj h; exact NoteTable.bendsOf_self t
  · obtain ⟨v, _, rfl⟩ := Option.map_eq_some_iff.1 h
    exact NoteTable.bendsOf_free t v

theorem NoteTable.bendsOf_linkSuccessor (t : NoteTable) (p : Option Nat) (h : Nat) : t.bendsOf (t.linkSuccessor p h) := by
  cases p with
  | none => exact NoteTable.bendsOf_self t
  | some q => exact NoteTable.bendsOf_modify t q _ fun r _ _ => ⟨rfl, rfl, rfl, id⟩

theorem NoteTable.bendsOf_deliverAll (t : NoteTable) (rs : List Record) : t.bendsOf (t.deliverAll rs) := by
  induction rs generalizing t with
  | nil => exact NoteTable.bendsOf_self t
  | cons r rs ih =>
    exact (NoteTable.bendsOf_modify t r.image.handle (fun r => { r with changed := false })
      fun r _ _ => ⟨rfl, rfl, rfl, id⟩).trans (ih (t.deliver r.image.handle))

theorem NoteTable.bendsOf_reflagAll (t : NoteTable) (is : List Included) : t.bendsOf (is.foldl NoteTable.reflag t) := by
  induction is generalizing t with
  | nil => exact NoteTable.bendsOf_self t
  | cons i is ih =>
    exact (NoteTable.bendsOf_map t _ (fun r _ => by split <;> exact ⟨rfl, rfl, rfl, id⟩) _ _ _).trans (ih (t.reflag i))

theorem rangesWith_of {u : Tracker} {t t' : NoteTable} {k : Str} (h : u.rangesWith t k) (n : t.bendsOf t') :
    u.rangesWith t' k := by
  intro r' hr' hk hl v hv
  obtain ⟨r, hr, _, e2, e3, e4⟩ := n r' hr'
  rw [e2]
  exact h r hr (e3 ▸ hk) (e4 hl) v hv

/-- A step that changes the table so, and leaves every Tracker's request and last-sent values. -/
theorem bendsWf_of {σ τ : State} (w : σ.bendsWf) (n : σ.table.bendsOf τ.table)
    (h : ∀ k : Str, (τ.trackers[k]).awaited = (σ.trackers[k]).awaited
      ∧ (τ.trackers[k]).lastSent = (σ.trackers[k]).lastSent) : τ.bendsWf := by
  refine ⟨fun r' hr' => ?_, fun k => ⟨(bendsTo_same (w.2 k).1 (h k).1 (h k).2).1, ?_⟩⟩
  · obtain ⟨r, hr, e1, e2, _⟩ := n r' hr'
    rw [e1, e2]; exact w.1 r hr
  · unfold Tracker.rangesWith; rw [(h k).2]
    exact rangesWith_of (w.2 k).2 n

theorem bendsWf_sameTrackers {σ τ : State} (w : σ.bendsWf) (n : σ.table.bendsOf τ.table) (h : τ.trackers = σ.trackers) :
    τ.bendsWf := bendsWf_of w n fun k => by rw [h]; exact ⟨rfl, rfl⟩

/-! ## Requests at the table -/

/-- An application of a Tracker's request: the reply's records have their bends within range, and every Tracker still
remembers the range of its live record. -/
theorem serve_bendsWf {σ : State} (w : σ.bendsWf) (s : Str) (f : Request → Option Reply)
    (hf : ∀ a p, (σ.trackers[s]).awaited = some a → f a.request = some p →
      (∀ r ∈ p.table.records, bendWithin r.image.bend r.image.bendRange)
        ∧ ∀ k : Str, (σ.trackers[k]).rangesWith p.table k) : (σ.serve s f).bendsWf := by
  unfold State.serve
  split
  · exact w
  · next a ha =>
    split
    · exact w
    · split
      · exact w
      · next p hp =>
        obtain ⟨h1, h2⟩ := hf a p ha hp
        refine ⟨h1, fun k => ?_⟩
        simp only [setTracker_trackers, bank_get_set]
        split
        · next e =>
          rw [← e]
          refine ⟨⟨(w.2 s).1.1, fun b hb => ?_⟩, h2 s⟩
          obtain rfl := Option.some.inj hb
          exact (w.2 s).1.2 a ha
        · exact ⟨(w.2 k).1, h2 k⟩

/-- A table changed so keeps both. -/
theorem bendsWf_table {σ : State} (w : σ.bendsWf) {t : NoteTable} (n : σ.table.bendsOf t) :
    (∀ r ∈ t.records, bendWithin r.image.bend r.image.bendRange) ∧ ∀ k : Str, (σ.trackers[k]).rangesWith t k := by
  have h : (σ.setTable t).bendsWf := bendsWf_of w n fun _ => ⟨rfl, rfl⟩
  exact ⟨h.1, fun k => (h.2 k).2⟩

/-- A new record beside such a table. -/
theorem bendsWf_add {σ : State} (w : σ.bendsWf) {t : NoteTable} (n : σ.table.bendsOf t) {r : Record}
    (hb : bendWithin r.image.bend r.image.bendRange)
    (hr : ∀ v ∈ (σ.trackers[r.image.string]).lastSent, r.image.bendRange = v.bendRange) :
    (∀ q ∈ (t.add r).records, bendWithin q.image.bend q.image.bendRange)
      ∧ ∀ k : Str, (σ.trackers[k]).rangesWith (t.add r) k := by
  obtain ⟨h1, h2⟩ := bendsWf_table w n
  refine ⟨fun q hq => ?_, fun k q hq hk hl v hv => ?_⟩
  · rcases List.mem_append.1 hq with hq | hq
    · exact h1 q hq
    · rw [List.mem_singleton.1 hq]; exact hb
  · rcases List.mem_append.1 hq with hq | hq
    · exact h2 k q hq hk hl v hv
    · obtain rfl := List.mem_singleton.1 hq
      obtain rfl := hk
      exact hr v hv

theorem applyCreate_bendsWf {σ : State} (w : σ.bendsWf) (s : Str) : (σ.applyCreate s).bendsWf :=
  serve_bendsWf w s _ fun a p ha hp => by
    obtain ⟨q, c, x⟩ := a
    cases q <;> simp only [reduceCtorEq] at hp
    next c =>
    obtain ⟨room, hr, rfl⟩ := Option.map_eq_some_iff.1 hp
    have b := (w.2 s).1.2 _ ha
    exact bendsWf_add w ((NoteTable.bendsOf_makeRoom hr).trans (NoteTable.bendsOf_linkSuccessor _ _ _)) b.1
      fun v hv => (b.2 v hv).symm

theorem applyUpdate_bendsWf {σ : State} (wt : σ.trackersWf) (wo : σ.table.wf) (wl : σ.livesWf) (w : σ.bendsWf) (s : Str) :
    (σ.applyUpdate s).bendsWf :=
  serve_bendsWf w s _ fun a p ha hp => by
    obtain ⟨q, c, x⟩ := a
    cases q <;> simp only [reduceCtorEq] at hp
    next u =>
    obtain rfl := Option.some.inj hp
    have hl : (σ.trackers[s]).live = some u.handle := (wl.1 s).1 _ ha
    obtain ⟨v, hv⟩ := Option.isSome_iff_exists.1 ((wt s).1.2 ((wt s).2.1 (by simp [-Fin.getElem_fin, hl])))
    unfold NoteTable.update
    split
    · exact ⟨w.1, fun k => (w.2 k).2⟩
    · next old hf =>
      have hold := NoteTable.findLive_some hf
      refine ⟨fun r hr => ?_, fun k r hr hk hrl v' hv' => ?_⟩
      · obtain ⟨q, hq, rfl⟩ := List.mem_map.1 hr
        split
        · next e =>
          obtain rfl := NoteTable.eq_of_handle wo.2.1 hq hold.1 (e.trans hold.2.1.symm)
          have e' := (w.2 s).2 q hq hold.2.2.1 hold.2.2.2 v hv
          show bendWithin u.bend q.image.bendRange
          rw [e']
          exact (w.2 s).1.2 _ ha v hv
        · exact w.1 q hq
      · obtain ⟨q, hq, rfl⟩ := List.mem_map.1 hr
        revert hk hrl
        split
        · intro hk hrl; exact (w.2 k).2 q hq hk hrl v' hv'
        · intro hk hrl; exact (w.2 k).2 q hq hk hrl v' hv'

theorem applyConfirm_bendsWf {σ : State} (wo : σ.table.wf) (w : σ.bendsWf) (s : Str) : (σ.applyConfirm s).bendsWf :=
  serve_bendsWf w s _ fun a p ha hp => by
    obtain ⟨q, c, x⟩ := a
    cases q <;> simp only [reduceCtorEq] at hp
    next h =>
    obtain rfl := Option.some.inj hp
    unfold NoteTable.confirm
    split
    · exact ⟨w.1, fun k => (w.2 k).2⟩
    · next r hf =>
      split
      · have hr := NoteTable.findLive_some hf
        refine bendsWf_table w (NoteTable.bendsOf_modify _ _ _ fun q hq e => ⟨rfl, rfl, rfl, fun _ => ?_⟩)
        rw [NoteTable.eq_of_handle wo.2.1 hq hr.1 (e.trans hr.2.1.symm)]
        exact hr.2.2.2
      · exact ⟨w.1, fun k => (w.2 k).2⟩

theorem applyRelease_bendsWf {σ : State} (w : σ.bendsWf) (s : Str) : (σ.applyRelease s).bendsWf :=
  serve_bendsWf w s _ fun a p ha hp => by
    obtain ⟨q, c, x⟩ := a
    cases q <;> simp only [reduceCtorEq] at hp
    obtain rfl := Option.some.inj hp
    unfold NoteTable.release
    split
    · exact ⟨w.1, fun k => (w.2 k).2⟩
    · exact bendsWf_table w (NoteTable.bendsOf_modify _ _ _ fun q _ _ => ⟨rfl, rfl, rfl, fun h => absurd rfl h⟩)

theorem applySucceed_bendsWf {σ : State} (wr : σ.valuesInRange) (w : σ.bendsWf) (s : Str) : (σ.applySucceed s).bendsWf :=
  serve_bendsWf w s _ fun a p ha hp => by
    obtain ⟨q, c, x⟩ := a
    cases q <;> simp only [reduceCtorEq] at hp
    next q =>
    unfold NoteTable.succeed at hp
    split at hp
    · obtain rfl := Option.some.inj hp; exact ⟨w.1, fun k => (w.2 k).2⟩
    · next old hf =>
      obtain ⟨room, hr, rfl⟩ := Option.map_eq_some_iff.1 hp
      have hold := NoteTable.findLive_some hf
      have h1 : 1 ≤ old.image.bendRange := (wr.1 old hold.1).2.2.2.1
      have b : bendWithin q.bend 1 := (w.2 s).1.2 _ ha
      have n := ((NoteTable.bendsOf_modify σ.table q.handle (Record.release σ.settings.linger q.reason)
        fun q _ _ => ⟨rfl, rfl, rfl, fun h => absurd rfl h⟩).trans (NoteTable.bendsOf_makeRoom hr)).trans
        (NoteTable.bendsOf_linkSuccessor _ (some q.handle) room.1.nextGiven)
      refine bendsWf_add w n ?_ fun v hv => ?_
      · show bendWithin q.bend old.image.bendRange
        simp only [bendWithin] at b ⊢; omega
      · exact (w.2 old.image.string).2 old hold.1 rfl hold.2.2.2 v hv

/-! ## The other steps -/

theorem tick_bendsWf {σ : State} (w : σ.bendsWf) : σ.millisecond.bendsWf := by
  refine bendsWf_of w (NoteTable.bendsOf_map σ.table Record.tick (fun r _ => ⟨rfl, rfl, rfl, id⟩) _ _ _) fun k => ?_
  simp only [State.millisecond, bank_get_ofFn]
  exact ⟨rfl, rfl⟩

theorem sampleStep_bendsWf {σ : State} (w : σ.bendsWf) (s : Str) (v : Int) : (σ.sampleStep s v).bendsWf :=
  bendsWf_same w ((congrArg State.table (sampleStep_frame σ s v)).trans rfl) (sampleStep_trackers σ s v)

theorem tagNote_bendsWf {σ : State} (w : σ.bendsWf) (h tag : Byte) : (σ.tagNote h tag).bendsWf := by
  unfold State.tagNote
  split
  · exact w
  · exact bendsWf_sameTrackers w
      (by exact NoteTable.bendsOf_modify σ.table h.toNat _ fun r _ _ => ⟨rfl, rfl, rfl, id⟩) rfl

theorem untagNote_bendsWf {σ : State} (w : σ.bendsWf) (h : Byte) : (σ.untagNote h).bendsWf := by
  unfold State.untagNote
  split
  · exact w
  · exact bendsWf_sameTrackers w
      (by exact NoteTable.bendsOf_modify σ.table h.toNat _ fun r _ _ => ⟨rfl, rfl, rfl, id⟩) rfl

theorem holdNote_bendsWf {σ : State} (w : σ.bendsWf) (h v : Byte) : (σ.holdNote h v).bendsWf := by
  unfold State.holdNote
  split
  · exact w
  · split
    · exact w
    · refine bendsWf_sameTrackers w ?_ rfl
      refine NoteTable.bendsOf_modify σ.table h.toNat _ fun r _ _ => ?_
      split <;> exact ⟨rfl, rfl, rfl, id⟩

theorem forceRelease_bendsWf {σ : State} (w : σ.bendsWf) (r : Record) : (σ.forceRelease r).bendsWf := by
  refine bendsWf_of w (NoteTable.bendsOf_modify σ.table r.image.handle (Record.release σ.settings.linger .forced)
    fun q _ _ => ⟨rfl, rfl, rfl, fun h => absurd rfl h⟩) fun k => ?_
  simp only [State.forceRelease, State.sendForced, setTracker_trackers, bank_get_set]
  split
  · next e => rw [← e]; exact ⟨rfl, rfl⟩
  · exact ⟨rfl, rfl⟩

theorem allRelease_bendsWf {σ : State} (w : σ.bendsWf) : σ.allRelease.bendsWf := by
  unfold State.allRelease
  generalize σ.table.records.filter _ = rs
  induction rs generalizing σ with
  | nil => exact w
  | cons r rs ih => exact ih (forceRelease_bendsWf w r)

theorem releaseNote_bendsWf {σ : State} (w : σ.bendsWf) (h : Byte) : (σ.releaseNote h).bendsWf := by
  unfold State.releaseNote
  split
  · exact w
  · split
    · exact forceRelease_bendsWf w _
    · exact w

theorem retireNote_bendsWf {σ : State} (w : σ.bendsWf) (h : Byte) : (σ.retireNote h).bendsWf := by
  unfold State.retireNote
  split
  · exact w
  · split
    · exact w
    · exact bendsWf_sameTrackers w (NoteTable.bendsOf_free _ _) rfl

theorem lingerExpiry_bendsWf {σ : State} (w : σ.bendsWf) (h : Nat) : (σ.lingerExpiry h).bendsWf := by
  unfold State.lingerExpiry
  split
  · exact w
  · split
    · split
      · exact bendsWf_sameTrackers w (NoteTable.bendsOf_modify _ _ _ fun r _ _ => ⟨rfl, rfl, rfl, id⟩) rfl
      · exact bendsWf_sameTrackers w (NoteTable.bendsOf_free _ _) rfl
    · exact w

theorem bendsWf_channels {σ : State} (w : σ.bendsWf) (s : Str) (e : List Bool) (p : List Int) :
    (σ.setTracker s { σ.trackers[s] with enables := e, passed := p }).bendsWf :=
  bendsWf_setTracker w s (w.2 s).1 (w.2 s).2

theorem snapshot_bendsWf {σ : State} (w : σ.bendsWf) (q : Query) : (σ.snapshot q).bendsWf := by
  have one : ∀ h, σ.table.bendsOf (σ.table.deliver h) := fun h =>
    NoteTable.bendsOf_modify σ.table h (fun r => { r with changed := false }) fun r _ _ => ⟨rfl, rfl, rfl, id⟩
  cases q <;> simp only [State.snapshot]
  · unfold State.snapGetNote
    split
    · exact bendsWf_sameTrackers w (one _) rfl
    · exact w
  · unfold State.snapGetString
    split
    · exact w
    · split
      · exact bendsWf_sameTrackers w (one _) rfl
      · exact w
  · exact bendsWf_sameTrackers w (NoteTable.bendsOf_deliverAll _ _) rfl
  · exact w
  · exact w
  · exact w
  · unfold State.snapGetSetting; split <;> exact w
  · unfold State.snapProbeStart State.probeStart
    split
    · exact bendsWf_same (bendsWf_channels w _ _ []) rfl rfl
    · exact w
  · exact w

theorem probePitch_bendsWf {σ : State} (w : σ.bendsWf) (s : Str) : (σ.probePitch s).bendsWf := by
  unfold State.probePitch
  split
  · exact w
  · next pr rest _ =>
    have h := bendsWf_channels w s (σ.trackers[s]).enables rest
    unfold State.takePitch
    split
    · unfold State.countPitch
      dsimp only
      split
      · split
        · unfold State.finishRun
          dsimp only
          split <;> exact h
        · exact h
      · exact h
    · exact h

theorem abortRun_bendsWf {σ : State} (w : σ.bendsWf) (tell : Notice → NoticeUnit → NoticeUnit) (r : AbortReason) :
    (σ.abortRun tell r).bendsWf := by
  unfold State.abortRun
  split
  · dsimp only; split <;> exact w
  · exact w

theorem tellEnable_bendsWf {σ : State} (w : σ.bendsWf) (old new : BitVec 8) (s : Str) :
    (σ.tellEnable old new s).bendsWf := by
  unfold State.tellEnable
  split
  · unfold State.disableString
    dsimp only
    have h : ((σ.setFrontEnd s (σ.frontEnds[s]).disable).sendEnable s false).bendsWf :=
      bendsWf_channels (σ := σ.setFrontEnd s (σ.frontEnds[s]).disable) w s _ _
    split
    · exact abortRun_bendsWf h _ _
    · exact h
  · split
    · exact bendsWf_channels (σ := σ.setFrontEnd s (σ.frontEnds[s]).enable) w s _ _
    · exact w

theorem tellAll_bendsWf (old new : BitVec 8) (ks : List Str) {σ : State} (w : σ.bendsWf) :
    (ks.foldl (State.tellEnable old new) σ).bendsWf := by
  induction ks generalizing σ with
  | nil => exact w
  | cons k ks ih => exact ih (tellEnable_bendsWf w old new k)

theorem storeSetting_bendsWf {σ : State} (w : σ.bendsWf) (i : SettingId) (v : Int) : (σ.storeSetting i v).bendsWf := by
  unfold State.storeSetting
  split
  · exact tellAll_bendsWf _ _ _ (σ := σ.setSettings _) w
  · unfold State.setReference
    refine abortRun_bendsWf (bendsWf_same w ?_ ?_) _ _
    · rw [setPitchUnit_table, setSettings_table]
    · rw [setPitchUnit_trackers, setSettings_trackers]
  · exact w

theorem bendsWf_empty {σ : State} (h : σ.table = {})
    (ht : ∀ k : Str, (σ.trackers[k]).awaited = none ∧ (σ.trackers[k]).lastSent = none) : σ.bendsWf := by
  refine ⟨fun r hr => ?_, fun k => ⟨⟨fun v hv => ?_, fun a ha => ?_⟩, fun r hr => ?_⟩⟩
  · rw [h] at hr; exact absurd hr (by simp)
  · rw [(ht k).2] at hv; exact absurd hv (by simp)
  · rw [(ht k).1] at ha; exact absurd ha (by simp)
  · rw [h] at hr; exact absurd hr (by simp)

theorem restart_bendsWf (σ : State) : σ.restart.bendsWf :=
  bendsWf_empty rfl fun k => by simp only [State.restart, bank_get_ofFn]; exact ⟨rfl, rfl⟩

theorem hardReset_bendsWf (σ : State) : σ.hardReset.bendsWf :=
  bendsWf_empty rfl fun k => by
    simp only [State.hardReset, State.reset, resetTrackers, bank_get_ofFn]; split <;> exact ⟨rfl, rfl⟩

theorem applyPosted_bendsWf {σ : State} (w : σ.bendsWf) (p : Posted) : (σ.applyPosted p).bendsWf := by
  cases p <;> simp only [State.applyPosted]
  · exact tagNote_bendsWf w _ _
  · exact untagNote_bendsWf w _
  · exact holdNote_bendsWf w _ _
  · exact releaseNote_bendsWf w _
  · exact retireNote_bendsWf w _
  · exact allRelease_bendsWf w
  · unfold State.set
    split
    · exact w
    · split
      · exact w
      · exact storeSetting_bendsWf w _ _
  · unfold State.selectProfile
    split
    · exact w
    · split <;> exact w
  · exact abortRun_bendsWf w _ _
  · exact w
  · exact restart_bendsWf σ

end Sys2Proof.Machine
end

