-- ==== Sys2Proof/Laws/FrontEnds.lean ====
section
/-! SUPPORT. Every step keeps the Front Ends within their ranges and the Pitch Unit BUSY while a string asks for it. -/

namespace Sys2Proof.Machine

/-! ## One Front End -/

/-- A Front End with part of its queue gone is well formed. -/
theorem FrontEnd.wf_queue {f : FrontEnd} (w : f.wf) {q : List CycleReport} (hq : q.Sublist f.queue) :
    ({ f with queue := q } : FrontEnd).wf := by
  obtain ⟨h1, h2, h3, h4, h5, h6, h7, h8⟩ := w
  refine ⟨h1, h2, h3, h4, h5, hq.length_le.trans h6, fun r hr => h7 r (hq.subset hr), fun hc => ?_⟩
  obtain ⟨a, b, c⟩ := h8 hc
  exact ⟨a, b, List.sublist_nil.1 (c ▸ hq)⟩

/-- An atRest Front End has an empty queue, and keeps none. -/
theorem FrontEnd.atRest_queue {f : FrontEnd} (w : f.atRest) {q : List CycleReport} (hq : q.Sublist f.queue) :
    ({ f with queue := q } : FrontEnd).atRest := by
  have he : f.queue = [] := by rw [w]
  have : q = [] := List.sublist_nil.1 (he ▸ hq)
  subst this
  unfold FrontEnd.atRest at w ⊢
  rw [w]

theorem FrontEnd.wf_initial (a b : Bool) : ({ overloadMark := a, overrunMark := b } : FrontEnd).wf := by
  simp [FrontEnd.wf]

/-- Marks are no part of a Front End's ranges. -/
theorem FrontEnd.wf_marks {f : FrontEnd} (w : f.wf) (a b : Bool) :
    ({ f with overloadMark := a, overrunMark := b } : FrontEnd).wf := w

theorem sampleValue_bound (v : Int) : (sampleValue v).natAbs ≤ 4095 := by
  unfold sampleValue clampInt; split <;> [omega; (split <;> omega)]

/-- A sample noted (R3, R4, R12). -/
theorem FrontEnd.wf_note {f : FrontEnd} (w : f.wf) {v : Int} (hv : v.natAbs ≤ 4095) : (f.note v).wf := by
  obtain ⟨h1, h2, h3, h4, h5, h6, h7, h8⟩ := w
  exact ⟨h1, h2, Nat.max_le.2 ⟨h3, hv⟩, hv, h5, h6, h7, h8⟩

/-- A sample examined, and the report of a cycle that it ends (R12 to R15). -/
theorem FrontEnd.wf_timed {f : FrontEnd} (w : f.wf) {v : Int} (hv : v.natAbs ≤ 4095) :
    (f.timed v).1.wf ∧ (f.timed v).1.queue = f.queue
      ∧ ∀ r, (f.timed v).2 = some r → r.inRange ∧ (f.timed v).1.gate = .opened := by
  obtain ⟨h1, h2, h3, h4, h5, h6, h7, h8⟩ := w
  unfold FrontEnd.timed
  split
  · next hg =>
    have hne : f.gate ≠ .closed := by rw [hg]; simp
    unfold FrontEnd.examine
    split
    · next ticks _ =>
      refine ⟨⟨h1, h2, h3, h4, ?_, h6, h7, fun h => absurd h hne⟩, rfl, fun r hr => ⟨?_, hg⟩⟩
      · simp only [CycleTiming.begun, CycleTiming.inRange, Bool.false_eq_true, false_imp_iff, and_true]; omega
      · dsimp only at hr
        revert hr h5
        rcases f.timing with _ | ⟨e, p, o⟩
        · simp [CycleTiming.finish]
        · intro h5 hr
          simp only [CycleTiming.inRange] at h5
          simp only [CycleTiming.finish, Config.shortestPeriod, Config.elapsedStop] at hr
          split at hr
          · obtain rfl := Option.some.inj hr
            simp only [CycleReport.inRange, fullScale, Config.fullScale, Bool.or_eq_true, decide_eq_true_eq]
            refine ⟨by omega, by omega, by omega, ?_⟩
            rintro (h | h)
            · have := h5.2.2 h; omega
            · omega
          · exact absurd hr (by simp)
    · refine ⟨⟨h1, h2, h3, h4, ?_, h6, h7, fun h => absurd h hne⟩, rfl, fun r hr => absurd hr (by simp)⟩
      revert h5
      rcases f.timing with _ | ⟨e, p, o⟩
      · exact id
      · intro h5
        simp only [CycleTiming.inRange] at h5
        simp only [CycleTiming.advance, CycleTiming.inRange, Config.elapsedStop, fullScale, Config.fullScale,
          Bool.or_eq_true, decide_eq_true_eq]
        refine ⟨by omega, by omega, ?_⟩
        rintro (h | h)
        · have := h5.2.2 h; omega
        · omega
  · exact ⟨⟨h1, h2, h3, h4, h5, h6, h7, h8⟩, rfl, fun r hr => absurd hr (by simp)⟩

/-- A report appended to an OPEN Front End's queue (R16, R17). -/
theorem FrontEnd.wf_append {f : FrontEnd} (w : f.wf) (hg : f.gate = .opened) {r : CycleReport} (hr : r.inRange) :
    (f.append r).wf := by
  obtain ⟨h1, h2, h3, h4, h5, h6, h7, h8⟩ := w
  have hne : f.gate ≠ .closed := by rw [hg]; simp
  unfold FrontEnd.append
  split
  · next hl =>
    simp only [Config.cycleQueueDepth] at hl
    refine ⟨h1, h2, h3, h4, h5, by simp; omega, ?_, fun h => absurd h hne⟩
    intro q hq
    rcases List.mem_append.1 hq with h | h
    · exact h7 q h
    · rw [List.mem_singleton.1 h]; exact hr
  · refine ⟨h1, h2, h3, h4, h5, by simp; omega, ?_, fun h => absurd h hne⟩
    intro q hq
    rcases List.mem_append.1 hq with h | h
    · exact h7 q (List.mem_of_mem_drop h)
    · rw [List.mem_singleton.1 h]; exact hr

/-- A millisecond tick keeps a Front End's ranges, and never grows its queue (R4 to R10). -/
theorem FrontEnd.wf_tick {f : FrontEnd} (w : f.wf) (g : GateSettings) :
    (f.tick g).1.wf ∧ (f.tick g).1.queue.Sublist f.queue := by
  obtain ⟨h1, h2, h3, h4, h5, h6, h7, h8⟩ := w
  have he : max f.peak (f.env * 15 / 16) ≤ 4095 := by omega
  unfold FrontEnd.tick
  split
  · next hg =>
    obtain ⟨a, b, c⟩ := h8 hg
    unfold FrontEnd.onsetRule
    dsimp only
    generalize (if g.onset ≤ f.updateEnvelope.env then f.updateEnvelope.onsetCount + 1 else 0) = count
    split
    · exact ⟨⟨he, rfl, Nat.zero_le _, h4, trivial, h6, h7, fun _ => ⟨rfl, rfl, c⟩⟩, List.Sublist.refl _⟩
    · exact ⟨⟨he, rfl, Nat.zero_le _, h4, h5, h6, h7, fun _ => ⟨a, b, c⟩⟩, List.Sublist.refl _⟩
  · next hg =>
    have hne : f.gate ≠ .closed := by rw [hg]; simp
    unfold FrontEnd.releaseRule
    dsimp only
    generalize (if f.updateEnvelope.env < g.effectiveRelease then f.updateEnvelope.releaseCount + 1 else 0) = count
    split
    · exact ⟨⟨he, rfl, Nat.zero_le _, h4, trivial, Nat.zero_le _, by simp [FrontEnd.close], fun _ => ⟨rfl, rfl, rfl⟩⟩,
        List.nil_sublist _⟩
    · unfold FrontEnd.restrikeRule FrontEnd.trackRestrike
      dsimp only
      split <;> split <;>
        exact ⟨⟨he, rfl, Nat.zero_le _, h4, h5, h6, h7, fun h => absurd h hne⟩, List.Sublist.refl _⟩

/-! ## All Front Ends -/

/-- The Front Ends are in range and the Pitch Unit is FREE only when nothing asks for it. -/
abbrev State.channelsOk (σ : State) : Prop := σ.frontEndsWf ∧ σ.freeMeansIdle

theorem frontEndsWf_set {σ : State} (w : σ.frontEndsWf) (s : Str) {f : FrontEnd} (hf : f.wf)
    (hr : maskHas σ.settings.enableMask s = false → f.atRest) : (σ.setFrontEnd s f).frontEndsWf := by
  intro k
  simp only [setFrontEnd_frontEnds, setFrontEnd_settings, bank_get_set]
  split
  · next h => subst h; exact ⟨hf, hr⟩
  · exact w k

/-- A string's queue shortened. -/
theorem frontEndsWf_shorten {σ : State} (w : σ.frontEndsWf) (s : Str) {q : List CycleReport}
    (hq : q.Sublist (σ.frontEnds[s]).queue) : (σ.setFrontEnd s { σ.frontEnds[s] with queue := q }).frontEndsWf :=
  frontEndsWf_set w s (FrontEnd.wf_queue (w s).1 hq) fun h => FrontEnd.atRest_queue ((w s).2 h) hq

theorem channelsOk_shorten {σ : State} (w : σ.channelsOk) (s : Str) {q : List CycleReport}
    (hq : q.Sublist (σ.frontEnds[s]).queue) : (σ.setFrontEnd s { σ.frontEnds[s] with queue := q }).channelsOk := by
  refine ⟨frontEndsWf_shorten w.1 s hq, fun hc => ?_⟩
  obtain ⟨h1, h2⟩ := w.2 hc
  refine ⟨h1, fun k => ?_⟩
  simp only [setFrontEnd_frontEnds, bank_get_set]
  split
  · have := h2 s
    rw [this] at hq
    exact List.sublist_nil.1 hq
  · exact h2 k

theorem putTaken_channelsOk {σ : State} (w : σ.channelsOk) (s : Str) (k : Taken) : (σ.putTaken s k).channelsOk := by
  unfold State.putTaken
  split
  · exact channelsOk_shorten (σ := σ.setTracker s k.tracker) w s (q := []) (List.nil_sublist _)
  · exact w

/-! ## Grants -/

theorem nextGranted_requester {σ : State} {s : Str} (h : σ.nextGranted = some s) : σ.requester s = true := by
  unfold State.nextGranted at h
  rcases Option.or_eq_some_iff.1 h with h | ⟨_, h⟩
  · have := List.find?_some h
    simp only [Bool.and_eq_true] at this
    exact this.1
  · exact List.find?_some h

theorem mem_roundRobin : ∀ s k : Str, k ∈ roundRobin s := by decide +kernel

theorem nextGranted_none {σ : State} (h : σ.nextGranted = none) (k : Str) : (σ.frontEnds[k]).queue = [] := by
  unfold State.nextGranted at h
  rw [Option.or_eq_none_iff] at h
  have := List.find?_eq_none.1 h.2 k (mem_roundRobin _ k)
  simpa [State.requester] using this

/-- A computation begun on a requester makes the unit BUSY (R27). -/
theorem beginComputation_channelsOk {σ : State} (w : σ.frontEndsWf) {s : Str} (hs : σ.requester s = true) (n : Nat) :
    (σ.beginComputation s n).channelsOk := by
  unfold State.beginComputation
  split
  · next h => simp only [State.requester, h, List.isEmpty_nil, Bool.not_true, Bool.false_eq_true] at hs
  · next r rest h =>
    refine ⟨frontEndsWf_shorten w s (q := rest) (by rw [h]; exact List.sublist_cons_self _ _), fun hc => ?_⟩
    exact absurd hc (by simp [State.setPitchUnit])

/-- The grant of a FREE unit without tenure used (R26). -/
theorem grant_channelsOk {σ : State} (w : σ.frontEndsWf) (ht : σ.pitchUnit.computation = none → σ.pitchUnit.tenureUsed = 0) :
    σ.grant.channelsOk := by
  unfold State.grant
  split
  · next h => exact ⟨w, fun hc => ⟨ht hc, nextGranted_none h⟩⟩
  · next s h => exact beginComputation_channelsOk w (nextGranted_requester h) 1

theorem decideContinuation_channelsOk {σ : State} (w : σ.frontEndsWf) (s : Str) : (σ.decideContinuation s).channelsOk := by
  unfold State.decideContinuation
  split
  · next h =>
    refine beginComputation_channelsOk w ?_ _
    simp only [State.continues, Bool.and_eq_true] at h
    exact h.1.1
  · exact grant_channelsOk (σ := σ.setPitchUnit { σ.pitchUnit with computation := none, tenureUsed := 0 }) w fun _ => rfl

theorem report_channelsOk {σ : State} (w : σ.channelsOk) (c : FaultCause) (d : Byte) : (σ.report c d).channelsOk := w

/-- A cycle report written leaves the unit BUSY (R16, R17, R26). -/
theorem writeReport_channelsOk {σ : State} (w : σ.frontEndsWf)
    (ht : σ.pitchUnit.computation = none → σ.pitchUnit.tenureUsed = 0) (s : Str)
    (hg : (σ.frontEnds[s]).gate = .opened) (he : maskHas σ.settings.enableMask s = true) {r : CycleReport}
    (hr : r.inRange) : (σ.writeReport s r).channelsOk := by
  have w' : (σ.setFrontEnd s ((σ.frontEnds[s]).append r)).frontEndsWf :=
    frontEndsWf_set w s (FrontEnd.wf_append (w s).1 hg hr) fun h => absurd (h.symm.trans he) (by simp)
  have key : ∀ τ : State, τ.frontEndsWf → τ.pitchUnit = σ.pitchUnit → τ.grantIfFree.channelsOk := by
    intro τ hτ hp
    unfold State.grantIfFree
    split
    · exact grant_channelsOk hτ (by rw [hp]; exact ht)
    · next h => exact ⟨hτ, fun hc => absurd (by rw [hc]; rfl) h⟩
  unfold State.writeReport
  dsimp only
  split
  · exact key _ w' rfl
  · exact key _ w' rfl

theorem sampleStep_channelsOk {σ : State} (w : σ.channelsOk) (s : Str) (v : Int) : (σ.sampleStep s v).channelsOk := by
  unfold State.sampleStep
  split
  · next he =>
    have hv := sampleValue_bound v
    generalize sampleValue v = x at hv
    have hen : maskHas σ.settings.enableMask s = true := he
    have ht := FrontEnd.wf_timed (w.1 s).1 hv
    have base : ∀ τ : State, τ = (σ.setFrontEnd s (((σ.frontEnds[s]).timed x).1.note x)).reportOverload s x →
        τ.channelsOk ∧ τ.frontEnds[s] = ((σ.frontEnds[s]).timed x).1.note x ∧ τ.settings = σ.settings := by
      intro τ hτ
      have h1 : (σ.setFrontEnd s (((σ.frontEnds[s]).timed x).1.note x)).channelsOk := by
        refine ⟨frontEndsWf_set w.1 s (FrontEnd.wf_note ht.1 hv) fun h => absurd (h.symm.trans hen) (by simp), fun hc => ?_⟩
        obtain ⟨a, b⟩ := w.2 hc
        refine ⟨a, fun k => ?_⟩
        simp only [setFrontEnd_frontEnds, bank_get_set]
        split
        · show ((σ.frontEnds[s]).timed x).1.queue = []
          rw [ht.2.1]; exact b s
        · exact b k
      unfold State.reportOverload at hτ
      split at hτ <;> subst hτ
      · exact ⟨h1, bank_get_set_self _ _ _, rfl⟩
      · exact ⟨h1, bank_get_set_self _ _ _, rfl⟩
    unfold State.takeSample
    dsimp only
    split
    · exact (base _ rfl).1
    · next r hr =>
      obtain ⟨b1, b2, b3⟩ := base _ rfl
      refine writeReport_channelsOk b1.1 (fun hc => (b1.2 hc).1) s ?_ (by rw [b3]; exact hen) (ht.2.2 r hr).1
      rw [b2]; exact (ht.2.2 r hr).2
  · exact w

theorem tick_channelsOk {σ : State} (w : σ.channelsOk) : σ.millisecond.channelsOk := by
  have key : ∀ k, (σ.tickFrontEnd k).1.wf ∧ (σ.tickFrontEnd k).1.queue.Sublist (σ.frontEnds[k]).queue
      ∧ (maskHas σ.settings.enableMask k = false → (σ.tickFrontEnd k).1.atRest) := by
    intro k
    unfold State.tickFrontEnd
    split
    · next he =>
      have := FrontEnd.wf_tick (w.1 k).1 (σ.settings.gateOf k)
      exact ⟨this.1, this.2, fun h => absurd (h.symm.trans he) (by simp)⟩
    · exact ⟨(w.1 k).1, List.Sublist.refl _, (w.1 k).2⟩
  constructor
  · intro k
    simp only [State.millisecond, bank_get_ofFn]
    exact ⟨(key k).1, (key k).2.2⟩
  · intro hc
    obtain ⟨a, b⟩ := w.2 hc
    refine ⟨a, fun k => ?_⟩
    simp only [State.millisecond, bank_get_ofFn]
    have := (key k).2.1
    rw [b k] at this
    exact List.sublist_nil.1 this

theorem handResult_channelsOk {σ : State} (w : σ.channelsOk) (c : Computation) : (σ.handResult c).channelsOk :=
  putTaken_channelsOk (σ := σ.setPitchUnit { σ.pitchUnit with computation := some { c with handed := true } })
    ⟨w.1, fun h => absurd h (by simp [State.setPitchUnit])⟩ _ _

theorem resultStep_channelsOk {σ : State} (w : σ.channelsOk) (s : Str) : (σ.resultStep s).channelsOk := by
  unfold State.resultStep
  split
  · exact w
  · split
    · exact handResult_channelsOk w _
    · exact w

theorem completeComputation_channelsOk {σ : State} (w : σ.channelsOk) : σ.completeComputation.channelsOk := by
  unfold State.completeComputation
  split
  · exact w
  · refine decideContinuation_channelsOk ?_ _
    split
    · exact w.1
    · exact (handResult_channelsOk w _).1

/-! ## Settings and faults -/

theorem tellEnable_frontEnds (old new : BitVec 8) (σ : State) (s k : Str) :
    (σ.tellEnable old new s).frontEnds[k] =
      if s = k then
        if maskHas old s = true ∧ maskHas new s = false then (σ.frontEnds[k]).disable
        else if maskHas old s = false ∧ maskHas new s = true then (σ.frontEnds[k]).enable
        else σ.frontEnds[k]
      else σ.frontEnds[k] := by
  unfold State.tellEnable
  split
  · next h =>
    have e : (σ.disableString s).frontEnds = σ.frontEnds.set s (σ.frontEnds[s]).disable := by
      unfold State.disableString
      dsimp only
      split
      · unfold State.abortRun
        split
        · dsimp only; split <;> rfl
        · rfl
      · rfl
    simp only [e, bank_get_set]
    split
    · next hk => subst hk; rfl
    · rfl
  · split
    · show (σ.frontEnds.set s (σ.frontEnds[s]).enable)[k] = _
      rw [bank_get_set]
      split
      · next hk => subst hk; rfl
      · rfl
    · split <;> rfl

theorem tellAll_frontEnds (old new : BitVec 8) (ks : List Str) (hn : ks.Nodup) (σ : State) (k : Str) :
    (ks.foldl (State.tellEnable old new) σ).frontEnds[k] =
      if k ∈ ks then
        if maskHas old k = true ∧ maskHas new k = false then (σ.frontEnds[k]).disable
        else if maskHas old k = false ∧ maskHas new k = true then (σ.frontEnds[k]).enable
        else σ.frontEnds[k]
      else σ.frontEnds[k] := by
  induction ks generalizing σ with
  | nil => simp
  | cons s ks ih =>
    rw [List.foldl_cons, ih (List.nodup_cons.1 hn).2, tellEnable_frontEnds]
    by_cases h : s = k
    · subst h
      simp [(List.nodup_cons.1 hn).1]
    · simp [h, Ne.symm h, List.mem_cons]

/-- After a write of the enable mask each string's Front End has been told of its bit (R134). -/
theorem setEnableMask_frontEnds (σ : State) (new : BitVec 8) (k : Str) :
    (σ.setEnableMask new).frontEnds[k] =
      if maskHas σ.settings.enableMask k = true ∧ maskHas new k = false then (σ.frontEnds[k]).disable
      else if maskHas σ.settings.enableMask k = false ∧ maskHas new k = true then (σ.frontEnds[k]).enable
      else σ.frontEnds[k] := by
  have hall : ∀ k : Str, k ∈ allStrings := by decide
  unfold State.setEnableMask
  rw [tellAll_frontEnds _ _ _ (by decide), if_pos (hall k)]
  rfl

theorem tellAll_kept (old new : BitVec 8) (ks : List Str) (σ : State) :
    (ks.foldl (State.tellEnable old new) σ).settings = σ.settings
      ∧ (ks.foldl (State.tellEnable old new) σ).pitchUnit = σ.pitchUnit := by
  have one : ∀ (σ : State) (s : Str), (σ.tellEnable old new s).settings = σ.settings
      ∧ (σ.tellEnable old new s).pitchUnit = σ.pitchUnit := by
    intro σ s
    unfold State.tellEnable
    split
    · unfold State.disableString
      dsimp only
      split
      · unfold State.abortRun
        split
        · dsimp only; split <;> exact ⟨rfl, rfl⟩
        · exact ⟨rfl, rfl⟩
      · exact ⟨rfl, rfl⟩
    · split <;> exact ⟨rfl, rfl⟩
  induction ks generalizing σ with
  | nil => exact ⟨rfl, rfl⟩
  | cons s ks ih => exact ⟨(ih _).1.trans (one σ s).1, (ih _).2.trans (one σ s).2⟩

theorem setEnableMask_channelsOk {σ : State} (w : σ.channelsOk) (new : BitVec 8) : (σ.setEnableMask new).channelsOk := by
  have hs : (σ.setEnableMask new).settings = { σ.settings with enableMask := new } := (tellAll_kept _ _ _ _).1
  have hp : (σ.setEnableMask new).pitchUnit = σ.pitchUnit := (tellAll_kept _ _ _ _).2
  have hw : ∀ k, ((σ.setEnableMask new).frontEnds[k]).wf
      ∧ ((σ.setEnableMask new).frontEnds[k]).queue.Sublist (σ.frontEnds[k]).queue
      ∧ (maskHas new k = false → ((σ.setEnableMask new).frontEnds[k]).atRest) := by
    intro k
    obtain ⟨a, b⟩ := w.1 k
    rw [setEnableMask_frontEnds]
    split
    · exact ⟨FrontEnd.wf_initial _ _, List.nil_sublist _, fun _ => rfl⟩
    · next h =>
      split
      · next h' =>
        obtain ⟨h1, h2, h3, h4, h5, h6, h7, h8⟩ := a
        exact ⟨⟨h1, h2, Nat.zero_le _, h4, h5, h6, h7, h8⟩, List.Sublist.refl _,
          fun h => absurd (h.symm.trans h'.2) (by simp)⟩
      · refine ⟨a, List.Sublist.refl _, fun hn => b ?_⟩
        cases ho : maskHas σ.settings.enableMask k with
        | false => rfl
        | true => exact absurd ⟨ho, hn⟩ h
  constructor
  · intro k
    rw [hs]
    exact ⟨(hw k).1, (hw k).2.2⟩
  · intro hc
    rw [hp] at hc ⊢
    obtain ⟨a, b⟩ := w.2 hc
    refine ⟨a, fun k => ?_⟩
    have := (hw k).2.1
    rw [b k] at this
    exact List.sublist_nil.1 this

theorem clearFaults_channelsOk {σ : State} (w : σ.channelsOk) (m : Byte) : (σ.clearFaults m).channelsOk := by
  constructor
  · intro k
    simp only [State.clearFaults, bank_get_ofFn]
    refine ⟨FrontEnd.wf_marks (w.1 k).1 _ _, fun h => ?_⟩
    have := (w.1 k).2 h
    unfold FrontEnd.atRest at this ⊢
    rw [this]
  · intro hc
    obtain ⟨a, b⟩ := w.2 hc
    refine ⟨a, fun k => ?_⟩
    simp only [State.clearFaults, bank_get_ofFn]
    exact b k

theorem abortRun_channelsOk {σ : State} (w : σ.channelsOk) (tell : Notice → NoticeUnit → NoticeUnit) (r : AbortReason) :
    (σ.abortRun tell r).channelsOk := by
  unfold State.abortRun
  split
  · dsimp only; split <;> exact w
  · exact w

theorem restart_channelsOk (σ : State) : σ.restart.channelsOk := by
  constructor
  · intro k
    simp only [State.restart, bank_get_replicate]
    exact ⟨FrontEnd.wf_initial _ _, fun _ => trivial⟩
  · intro _
    refine ⟨rfl, fun k => ?_⟩
    simp only [State.restart, bank_get_replicate]

end Sys2Proof.Machine
end

