-- ==== Sys2Proof/Laws/Link.lean ====
section
/-! SUPPORT. The Control Link: bytes as numbers, the fault-flag byte and the masks bit by bit, when a snapshot is taken or
waits, and what a PROBE START does. -/

namespace Sys2Proof.Machine

/-! ## Bytes -/

/-- Two bytes as a number, the first the more significant (R171). -/
theorem wordOfBytes_eq (p : BytePair) : wordOfBytes p = BitVec.ofNat 16 (p.1.toNat * 256 + p.2.toNat) := by
  apply BitVec.eq_of_toNat_eq
  have h1 := p.1.isLt
  have h2 := p.2.isLt
  simp only [wordOfBytes, BitVec.toNat_append, BitVec.toNat_ofNat]
  rw [Nat.shiftLeft_eq, ← Nat.mul_comm, ← Nat.two_pow_add_eq_or_of_lt h2]
  omega

theorem wordOfBytes_toNat (p : BytePair) : (wordOfBytes p).toNat = p.1.toNat * 256 + p.2.toNat := by
  have h1 := p.1.isLt
  have h2 := p.2.isLt
  rw [wordOfBytes_eq, BitVec.toNat_ofNat]
  omega

/-- The bytes that spell a word spell it. -/
theorem wordOfBytes_bytesOfWord (w : BitVec 16) : wordOfBytes (bytesOfWord w) = w := by
  apply BitVec.eq_of_toNat_eq
  have h := w.isLt
  rw [wordOfBytes_toNat]
  simp only [bytesOfWord, BitVec.extractLsb'_toNat, Nat.shiftRight_eq_div_pow]
  omega

/-- The nine bytes that the row of a PROBE START carries spell its parameters. -/
theorem probeStart_ofBytes (a : ProbeStart) :
    ProbeStart.ofBytes a.string a.slot (bytesOfWord a.size0) (bytesOfWord a.size1) (bytesOfWord a.mask) a.auto = a := by
  simp only [ProbeStart.ofBytes, wordOfBytes_bytesOfWord]

/-- The fault flags in bits 0 to 4 (R178). -/
theorem flagByte_eq (u : NoticeUnit) :
    u.flagByte = BitVec.ofNat 8 (u.overload.toNat + 2 * u.overrun.toNat + 4 * u.noticeLoss.toNat + 8 * u.refused.toNat
      + 16 * u.frame.toNat) := by
  unfold NoticeUnit.flagByte byteOfBits
  congr 1
  simp only [Bool.toNat_false]
  omega

/-- A mask of strings, string s in bit s − 1 (R178). -/
theorem stringMask_eq (p : Str → Bool) :
    stringMask p = BitVec.ofNat 8 ((List.finRange 8).map fun k : Str => if p k then 2 ^ k.val else 0).sum := by
  have e : List.finRange 8 = [0, 1, 2, 3, 4, 5, 6, 7] := by decide
  rw [e]
  unfold stringMask byteOfBits
  congr 1
  have b : ∀ (x : Bool) (n : Nat), (if x then n else 0) = n * x.toNat := by intro x n; cases x <;> simp
  simp only [List.map_cons, List.map_nil, List.sum_cons, List.sum_nil, b]
  norm_num
  omega

/-! ## Snapshots (R165) -/

/-- A command just complete, or waited for, takes its snapshot where the posted buffer is empty. -/
theorem completeQuery_due {σ : State} {q : Query} (hp : σ.link.phase = .params q.code ∨ σ.link.phase = .waiting q)
    (hb : σ.link.buffer = []) : σ.completeQuery q = (σ.setPhase (.waiting q)).snapshot q := by
  unfold State.completeQuery
  rw [if_pos hp]
  simp [State.takeDue, State.setPhase, hb]

/-- It waits where the posted buffer is not empty. -/
theorem completeQuery_waits {σ : State} {q : Query} (hp : σ.link.phase = .params q.code ∨ σ.link.phase = .waiting q)
    (hb : σ.link.buffer ≠ []) : σ.completeQuery q = σ.setPhase (.waiting q) := by
  unfold State.completeQuery
  rw [if_pos hp]
  simp [State.takeDue, State.setPhase, hb]

/-- In any other phase the command of the row is not there to be completed. -/
theorem completeQuery_none {σ : State} {q : Query} (hp : σ.link.phase ≠ .params q.code) (hw : σ.link.phase ≠ .waiting q) :
    σ.completeQuery q = σ := by
  unfold State.completeQuery
  rw [if_neg (by simp [hp, hw])]

/-! ## PROBE START (R145, R146) -/

/-- Answered OK, it starts a run on its string. -/
theorem probeStart_ok {σ : State} {a : ProbeStart} {s : Str} (h : σ.judgeProbeStart a = .ok)
    (hs : stringOfNumber a.string.toNat = some s) : σ.probeStart a = σ.startRun s a := by
  unfold State.probeStart
  rw [h, hs]

/-- Any other answer changes nothing. -/
theorem probeStart_refused {σ : State} {a : ProbeStart} (h : σ.judgeProbeStart a ≠ .ok) : σ.probeStart a = σ := by
  unfold State.probeStart
  split
  · next h' _ => exact absurd h' h
  · rfl

end Sys2Proof.Machine
end

