-- ==== Sys2Proof/Laws/Steps.lean ====
section
/-! SUPPORT. What a step can do, said once: a property that every operation of the blocks keeps is kept by every command
and by every step. -/

namespace Sys2Proof.Machine

/-- Every operation of the blocks keeps a property, but for the two that create a record. -/
structure KeptApart (P : State → Prop) : Prop where
  pending : ∀ s cs, P s → P { s with pending := cs }
  hardReset : ∀ s, P s → P s.hardReset
  hardResetEnd : ∀ s, P s → P s.hardResetEnd
  sample : ∀ k v s, P s → P (s.sampleStep k v)
  tick : ∀ s, P s → P s.millisecond
  stale : ∀ k s, P s → P (s.staleStep k)
  linger : ∀ h s, P s → P (s.lingerExpiry h)
  complete : ∀ s, P s → P s.completeComputation
  result : ∀ k s, P s → P (s.resultStep k)
  event : ∀ e k s, P s → P (s.eventStep e k)
  answer : ∀ k s, P s → P (s.trackerAnswer k)
  forced : ∀ k s, P s → P (s.forcedStep k)
  enable : ∀ k s, P s → P (s.enableStep k)
  disable : ∀ k s, P s → P (s.disableStep k)
  update : ∀ k s, P s → P (s.applyUpdate k)
  confirm : ∀ k s, P s → P (s.applyConfirm k)
  release : ∀ k s, P s → P (s.applyRelease k)
  pitch : ∀ k s, P s → P (s.probePitch k)
  posted : ∀ p s, P s → P (s.applyPosted p)
  snapshot : ∀ q s, P s → P (s.snapshot q)
  link : ∀ s l, P s → P (s.setLink l)
  arrive : ∀ s, P s → P s.noticesArrive
  report : ∀ c d s, P s → P (s.report c d)
  refuse : ∀ c b r s, P s → P (s.refuse c b r)
  drop : ∀ s : State, P s → P (s.setNotices { s.notices with queue := s.notices.queue.drop 1 })
  reflag : ∀ (s : State) (is : List Included), P s → P (s.setTable (is.foldl NoteTable.reflag s.table))

/-- Every operation of the blocks keeps a property. -/
structure Kept (P : State → Prop) : Prop extends KeptApart P where
  create : ∀ k s, P s → P (s.applyCreate k)
  succeed : ∀ k s, P s → P (s.applySucceed k)

theorem whenRunning_kept {P : State → Prop} {f : State → State} {s t : State} (hs : P s) (hf : P (f s))
    (he : whenRunning f s = .next t) : P t := by
  obtain rfl := Host.Outcome.next.inj he
  split <;> assumption

theorem applyWhen_kept {P : State → Prop} (k : KeptApart P) (kind : Posted → Bool) {s : State} (hs : P s) :
    P (s.applyWhen kind) := by
  unfold State.applyWhen
  split
  · split
    · exact k.link _ _ (k.posted _ _ hs)
    · exact hs
  · exact hs

theorem takeDue_kept {P : State → Prop} (k : KeptApart P) {s : State} (hs : P s) : P s.takeDue := by
  unfold State.takeDue
  split
  · split
    · exact k.snapshot _ _ hs
    · exact hs
  all_goals exact hs

theorem postedComplete_kept {P : State → Prop} (k : KeptApart P) {s : State} (hs : P s) : P s.postedComplete := by
  unfold State.postedComplete
  split
  · exact hs
  · exact takeDue_kept k (k.link _ _ (k.arrive _ (applyWhen_kept k _ hs)))

theorem completeQuery_kept {P : State → Prop} (k : KeptApart P) (q : Query) {s : State} (hs : P s) :
    P (s.completeQuery q) := by
  unfold State.completeQuery
  split
  · exact takeDue_kept k (k.link _ _ hs)
  · exact hs

theorem arrive_kept {P : State → Prop} (k : KeptApart P) (p : Posted) {s : State} (hs : P s) : P (s.arrive p) := by
  unfold State.arrive
  split
  · exact k.link _ _ hs
  · exact k.refuse _ _ _ _ (k.link _ _ hs)

/-- A property that every operation keeps is kept by every command; for the two that create a record it is enough that
the state they leave has it. -/
theorem exec_keptApart {P : State → Prop} (k : KeptApart P) (c : Instr) {s t : State} (hs : P s) (he : exec c s = .next t)
    (hc : ∀ j, c = .create j → P t) (hq : ∀ j, c = .succeed j → P t) : P t := by
  cases c
  case hardReset => obtain rfl := Host.Outcome.next.inj he; exact k.hardReset s hs
  case hardResetEnd => obtain rfl := Host.Outcome.next.inj he; exact k.hardResetEnd s hs
  case sample => exact whenRunning_kept hs (k.sample _ _ _ hs) he
  case millisecondTick => exact whenRunning_kept hs (k.tick _ hs) he
  case staleTimerExpiry => exact whenRunning_kept hs (k.stale _ _ hs) he
  case lingerTimerExpiry => exact whenRunning_kept hs (k.linger _ _ hs) he
  case computationComplete => exact whenRunning_kept hs (k.complete _ hs) he
  case trackerResult => exact whenRunning_kept hs (k.result _ _ hs) he
  case trackerOnset => exact whenRunning_kept hs (k.event _ _ _ hs) he
  case trackerReleaseEvent => exact whenRunning_kept hs (k.event _ _ _ hs) he
  case trackerRestrike => exact whenRunning_kept hs (k.event _ _ _ hs) he
  case trackerAnswer => exact whenRunning_kept hs (k.answer _ _ hs) he
  case forcedReleaseMessage => exact whenRunning_kept hs (k.forced _ _ hs) he
  case trackerEnable => exact whenRunning_kept hs (k.enable _ _ hs) he
  case trackerDisable => exact whenRunning_kept hs (k.disable _ _ hs) he
  case create => exact hc _ rfl
  case update => exact whenRunning_kept hs (k.update _ _ hs) he
  case confirm => exact whenRunning_kept hs (k.confirm _ _ hs) he
  case release => exact whenRunning_kept hs (k.release _ _ hs) he
  case succeed => exact hq _ rfl
  case probePitch => exact whenRunning_kept hs (k.pitch _ _ hs) he
  case frameStart =>
    obtain rfl := Host.Outcome.next.inj he
    unfold State.frameStart State.startFrame
    split
    · exact k.link _ _ hs
    · split
      · exact k.link _ _ hs
      · exact hs
  case commandByte =>
    refine whenRunning_kept hs ?_ he
    unfold State.commandByte
    split
    · split
      · exact k.link _ _ hs
      · exact k.report _ _ _ (k.link _ _ hs)
    · exact hs
  case postedCommandArrival =>
    refine whenRunning_kept hs ?_ he
    unfold State.postedArrival
    split
    · split
      · exact arrive_kept k _ hs
      · exact hs
    all_goals exact hs
  case postedApplicationComplete =>
    exact whenRunning_kept hs (postedComplete_kept k hs) he
  case turnaroundBusy =>
    refine whenRunning_kept hs ?_ he
    unfold State.turnaround
    dsimp only
    have := takeDue_kept k hs
    split <;> exact k.link _ _ this
  case noticeEntryDelivered =>
    refine whenRunning_kept hs ?_ he
    unfold State.noticeDelivered
    split
    · split
      · exact k.link _ _ (k.drop _ hs)
      · exact hs
    all_goals exact hs
  case frameEnd =>
    obtain rfl := Host.Outcome.next.inj he
    unfold State.frameEnd
    split
    · exact k.link _ _ hs
    · refine k.link _ _ ?_
      unfold State.endPhase
      dsimp only
      have := takeDue_kept k hs
      split
      · exact k.reflag _ _ this
      · unfold State.endIncomplete
        split
        · exact arrive_kept k _ this
        · exact k.report _ _ _ this
      all_goals exact this
  case restart =>
    refine whenRunning_kept hs ?_ he
    unfold State.restartComplete
    split
    · exact postedComplete_kept k hs
    · exact hs
  case setEnableMask =>
    refine whenRunning_kept hs ?_ he
    unfold State.applyEnableMask
    split
    · exact k.arrive _ (applyWhen_kept k _ hs)
    · exact hs
  all_goals first
    | exact whenRunning_kept hs (completeQuery_kept k _ hs) he
    | exact whenRunning_kept hs (applyWhen_kept k _ hs) he

/-- A property that every operation keeps is kept by every command. -/
theorem exec_kept {P : State → Prop} (k : Kept P) (c : Instr) {s t : State} (hs : P s) (he : exec c s = .next t) :
    P t :=
  exec_keptApart k.toKeptApart c hs he
    (fun j h => by subst h; exact whenRunning_kept hs (k.create j _ hs) he)
    fun j h => by subst h; exact whenRunning_kept hs (k.succeed j _ hs) he

/-- A property that every operation keeps is kept by every step. -/
theorem step_kept {P : State → Prop} (k : Kept P) {s t : State} (hs : P s) (he : step s = .next t) : P t := by
  unfold step at he
  split at he
  · obtain rfl := Host.Outcome.next.inj he; exact hs
  · exact exec_kept k _ (k.pending _ _ hs) he

end Sys2Proof.Machine
end

