-- ==== Sys2Proof/WellFormed.lean ====
section
/-! DEFINITION. Which commands name something the part can be given. -/

namespace Sys2Proof

/-- The bounds the spec puts on what a command carries: a sample lies on the envelope scale (R2), a handle is 1 to
255 (R93), and no posted command has more than three parameter bytes (R160). Every other operand is a string or a
byte, which its type bounds. -/
def Instr.wellFormed : Instr → Bool
  | .sample _ value => decide (-4095 ≤ value) && decide (value ≤ 4095)
  | .lingerTimerExpiry handle => decide (1 ≤ handle) && decide (handle ≤ 255)
  | .postedCommandArrival params => decide (params.length ≤ 3)
  | .hardReset | .hardResetEnd | .millisecondTick | .staleTimerExpiry _ | .computationComplete => true
  | .trackerResult _ | .trackerOnset _ | .trackerReleaseEvent _ | .trackerRestrike _ | .trackerAnswer _ => true
  | .forcedReleaseMessage _ | .trackerEnable _ | .trackerDisable _ => true
  | .create _ | .update _ | .confirm _ | .release _ | .succeed _ | .probePitch _ => true
  | .frameStart | .commandByte _ | .postedApplicationComplete | .turnaroundBusy | .noticeEntryDelivered => true
  | .frameEnd _ | .getNote _ | .getString _ | .getChanged | .listNotes | .takeNotices _ | .getStatus => true
  | .getSetting _ | .probeStart _ _ _ _ _ _ | .probeResults => true
  | .tagNote | .untagNote | .holdNote | .releaseNote | .retireNote | .allRelease => true
  | .set | .setEnableMask | .setReference | .selectProfile | .probeStop | .clearFaults | .restart => true

end Sys2Proof
end

