-- ==== Sys2Proof/Tests/Slice0.lean ====
section
/-! SUPPORT. Small tests: the checks of well-formedness, the spec's worked figures, one step of the commands, and for
each statement with hypotheses a concrete state that meets them. -/

namespace Sys2Proof.Tests

open Sys2Proof.Machine

/-! ## Small states -/

/-- The state a command leaves. -/
def next (c : Instr) (s : State) : State :=
  match exec c s with
  | .next t => t
  | .fault _ | .refused _ => s

/-- A record's image with middling values. -/
def image (h : Nat) (st : RecordState) (k : Str) : Image :=
  { handle := h, state := st, string := k, note := 60, bend := 0, velocity := 62, level := 62, zone := some 0, tag := none
    hold := false, stale := false, corrected := false, saturated := false, profile := .A, transpose := 0, bendRange := 2
    predecessor := none, successor := none, reason := if st = .released then some .decay else none, age := 0 }

/-- A record with its flag clear and its serial number the handle's. -/
def record (h : Nat) (st : RecordState) (k : Str) (linger : Timer) : Record :=
  { image := image h st k, changed := false, linger := linger, serial := h }

/-- The state after a reset with these records, used in their order. -/
def holding (rs : List Record) : State :=
  State.reset.setTable { records := rs, recency := rs.map (·.image.handle), nextHandle := 20, created := 100 }

/-- A live record in each state, and a RELEASED one unheld and one held, both with their linger timers at expiry. -/
def four : State :=
  holding
    [record 1 .provisional 0 .stopped, record 2 .sounding 1 .stopped, record 3 .released 2 (.running 0),
      { record 4 .released 3 (.running 0) with image := { image 4 .released 3 with hold := true } }]

/-- Sixteen records, one live on each string. -/
def full : State :=
  holding ((List.range 16).map fun n => record (n + 1) (if n < 8 then .released else .sounding) (Fin.ofNat 8 n) .stopped)

/-- A Tracker that awaits the answer to a request. -/
def asking (q : Request) : Tracker := { awaited := some { request := q, counted := some 4421, answer := none } }

/-- A posted command alone in the buffer. -/
def posting (p : Posted) (s : State) : State := s.setLink { s.link with buffer := [p] }

/-- A cycle's computation on string 1, at 440 Hz and a shift of 2. -/
def cycle (period : Nat) (committed : Option Nat) : Computation :=
  { string := 0, report := { period := period, peak := 2000, overload := false }, refTerm := 18063, gain := 32, offset := 0
    committed := committed, shift := 2 }

/-- The Pitch Unit BUSY on string 1 with a period, the Tracker being this one. -/
def computing (period : Nat) (t : Tracker) : State :=
  ((State.reset.setTracker 0 t).setPitchUnit
    { State.reset.pitchUnit with computation := some (cycle period none), tenureUsed := 1, lastGranted := 0 })

/-- The last-sent values of note 69 with a bend range of 2. -/
def sent : LastSent := { note := 69, bend := 2, level := 62, saturated := false, transpose := 0, bendRange := 2 }

/-- A Tracker that follows record 1 in a state, committed to 4,421. -/
def following (st : ChannelState) : Tracker :=
  { state := st, live := some 1, lastSent := some sent, committed := some { period := 222400, pitch := 4421 }
    staleTimer := .running 100 }

/-- An OPEN gate. -/
def opened : FrontEnd := { env := 1000, level := 250, gate := .opened, envHi := 1000, envLo := 1000 }

/-- A state whose string 1 has this Front End. -/
def hearing (f : FrontEnd) : State := { State.reset with frontEnds := State.reset.frontEnds.set 0 f }

/-- The link in a phase. -/
def inFrame (p : Phase) (s : State) : State := s.setPhase p

/-! ## Well-formedness -/

theorem test_refuses_a_sample_beyond_the_scale :
    (Instr.sample 0 4096).wellFormed = false ∧ (Instr.sample 0 (-4096)).wellFormed = false := by decide

theorem test_admits_a_sample_at_full_scale :
    (Instr.sample 0 4095).wellFormed = true ∧ (Instr.sample 7 (-4095)).wellFormed = true := by decide

theorem test_refuses_a_handle_that_is_none :
    (Instr.lingerTimerExpiry 0).wellFormed = false ∧ (Instr.lingerTimerExpiry 256).wellFormed = false
      ∧ (Instr.lingerTimerExpiry 255).wellFormed = true := by decide

theorem test_refuses_a_fourth_parameter :
    (Instr.postedCommandArrival [0#8, 0#8, 0#8, 0#8]).wellFormed = false
      ∧ (Instr.postedCommandArrival [0#8, 0#8, 0#8]).wellFormed = true := by decide

/-! ## Worked figures of the arithmetic -/

theorem test_log768_worked_cases : log768 4400 = 9295 ∧ log768 223424 = 13647 := by decide

theorem test_reference_terms :
    referenceTerm 4000 = 18168 ∧ referenceTerm 4400 = 18063 ∧ referenceTerm 4420 = 18058
      ∧ referenceTerm 4800 = 17966 := by decide

theorem test_cycle_of_13900 :
    rawPitchOf 18063 13900 = 4421 ∧ candidatePeriodOf (some 223424) 2 13900 = 223168
      ∧ (18063 - (log768 223168 : Int)) = 4417 := by decide

theorem test_note_and_bend : nearestNote 4421 = 69 ∧ bendFrom 4421 69 = 5 ∧ nearestNote 8191 = 127 := by decide

theorem test_velocities_and_levels :
    velocityOf 2000 32 = 62 ∧ velocityOf 10 32 = 1 ∧ velocityOf 4095 32 = 127 ∧ levelOf 1000 32 false = 31
      ∧ levelOf 4095 32 true = 127 := by decide

theorem test_folded_distances : foldedDistance 3400 2640 = 8 ∧ foldedDistance 3400 4170 = 2 := by decide

theorem test_deviations :
    deviationOf 4421 = 5 ∧ deviationOf 4447 = 31 ∧ deviationOf 4448 = -32 ∧ deviationOf 4411 = -5 := by decide

theorem test_slot_sizes : fitSize 0 = 4 ∧ fitSize 101 = 100 ∧ fitSize 1023 = 1020 ∧ fitSize 5000 = 1024 := by decide

/-! ## One step of the commands -/

theorem test_crossing_37_ticks_after_its_sample :
    (next (.sample 0 420)
        { State.reset with
          frontEnds := State.reset.frontEnds.set 0
            { opened with armed := true, previous := 180, timing := .timing 13863 900 false } }).pitchUnit.computation
      = some { string := 0, report := { period := 13900, peak := 900, overload := false }, refTerm := 18063, gain := 32
               offset := 0, committed := none, shift := 0 } := by decide

theorem test_onset_opens_the_gate :
    let t := next .millisecondTick
      { State.reset with frontEnds := State.reset.frontEnds.set 0 { peak := 300, env := 290, onsetCount := 1 } }
    t.frontEnds[(0 : Str)] = { env := 300, gate := .opened, envHi := 300, envLo := 300, level := 75 }
      ∧ (t.trackers[(0 : Str)]).events = [.onset] := by decide

theorem test_sample_of_full_scale_is_an_overload :
    let t := next (.sample 0 (-4095)) State.reset
    (t.frontEnds[(0 : Str)]).overloadMark = true ∧ t.notices.queue = [.fault .overload 1#8] ∧ t.attn = true := by
  decide

theorem test_second_onset_result_creates :
    let t := next (.trackerResult 0) (computing 13900 { state := .attack, firstPair := some 4430, peakMax := 1000 })
    (t.trackers[(0 : Str)]).state = .forming
      ∧ ((t.trackers[(0 : Str)]).awaited.map (·.request)) = some (.create
          { note := 69, bend := 5, velocity := 62, level := 62, profile := .A, transpose := 0, bendRange := 2
            predecessor := none }) := by decide

theorem test_step_of_two_notes_succeeds :
    ((next (.trackerResult 0) (computing 12486 { following .tracking with held := some 4543 })).trackers[(0 : Str)]).awaited
      = some { request := .succeed { handle := 1, reason := .legato, note := 71, bend := -4, velocity := 62, level := 62 }
               counted := some 4540, answer := none } := by decide

theorem test_computation_complete_frees_the_unit :
    (next .computationComplete (computing 13900 {})).pitchUnit.computation = none := by decide

theorem test_release_event_sends_decay :
    let t := next (.trackerReleaseEvent 0) (State.reset.setTracker 0 { following .tracking with events := [.release] })
    (t.trackers[(0 : Str)]).state = .quiet
      ∧ (t.trackers[(0 : Str)]).awaited = some { request := .release 1 .decay, counted := none, answer := none } := by
  decide

theorem test_not_live_to_a_stale_release_leaves_the_tracker :
    let waits (reason : ReleaseReason) : Tracker :=
      { state := .quiet, awaited := some { request := .release 1 reason, counted := none, answer := some .notLive } }
    let answered (reason : ReleaseReason) : Tracker :=
      (next (.trackerAnswer 0) ((hearing opened).setTracker 0 (waits reason))).trackers[(0 : Str)]
    (answered .stale).state = .quiet ∧ (answered .decay).state = .muted ∧ (answered .stale).awaited = none := by decide

theorem test_restrike_keeps_the_predecessor :
    let t := next (.trackerRestrike 0) (State.reset.setTracker 0 { following .forming with events := [.restrike] })
    (t.trackers[(0 : Str)]).state = .attack ∧ (t.trackers[(0 : Str)]).predecessor = some 1 := by decide

theorem test_create_answers_the_handle :
    let t := next (.create 0) (four.setTracker 0 (asking (.create
      { note := 69, bend := 5, velocity := 62, level := 62, profile := .A, transpose := 0, bendRange := 2
        predecessor := none })))
    t.table.handles = [1, 2, 3, 4, 20] ∧ t.table.recency = [1, 2, 3, 4, 20] ∧ t.table.nextHandle = 21
      ∧ t.notices.queue = [.new 20 .provisional 0 69] := by decide

theorem test_succeed_links_both_records :
    let t := next (.succeed 1) (four.setTracker 1 (asking (.succeed
      { handle := 2, reason := .legato, note := 71, bend := -4, velocity := 43, level := 43 })))
    (t.table.records.map fun r => (r.image.handle, r.image.state, r.image.predecessor, r.image.successor))
      = [(1, .provisional, none, none), (2, .released, none, some 20), (3, .released, none, none),
          (4, .released, none, none), (20, .sounding, some 2, none)]
      ∧ t.notices.queue = [.released 2 .legato 20, .new 20 .sounding 1 71] := by decide

theorem test_handles_skip_the_held_ones :
    ({ records := [record 254 .released 0 .stopped, record 1 .released 0 .stopped], nextHandle := 254 } : NoteTable).nextGiven
        = 255
      ∧ ({ records := [record 255 .released 0 .stopped, record 1 .released 0 .stopped], nextHandle := 255 }
          : NoteTable).nextGiven = 2 := by decide

theorem test_full_table_evicts_the_least_recently_used :
    full.table.victim none = some 1 ∧ full.table.victim (some 1) = some 2 := by decide

theorem test_linger_expiry_frees :
    (next (.lingerTimerExpiry 3) four).table.handles = [1, 2, 4]
      ∧ (next (.lingerTimerExpiry 4) four).table.handles = [1, 2, 3, 4] := by decide

theorem test_hold_off_ends_the_earlier_running :
    let held (linger : Nat) : State :=
      next .holdNote (posting (.holdNote 4#8 0#8) { four with settings := { four.settings with linger := linger } })
    ((held 0).table.records.map (·.linger)) = [.stopped, .stopped, .running 0, .stopped]
      ∧ ((held 5).table.records.map (·.linger)) = [.stopped, .stopped, .running 0, .running 50]
      ∧ (next (.lingerTimerExpiry 4) (held 0)).table.handles = [1, 2, 3, 4] := by decide

theorem test_all_release_forces_both_live_records :
    let t := next .allRelease (posting .allRelease four)
    t.notices.queue = [.released 1 .forced 0, .released 2 .forced 0] ∧ (t.trackers[(1 : Str)]).forced = [2] := by
  decide

theorem test_set_clamps_and_masks :
    (next .set (posting (.set 0x02#8 300#16) State.reset)).settings.linger = 255
      ∧ (next .set (posting (.set 0x43#8 0xFFC0#16) State.reset)).settings.physical[(0 : Str)].offset = -64
      ∧ (next .set (posting (.set 0x10#8 0xFFFE#16) State.reset)).settings.attention = 6#3 := by decide

theorem test_set_refuses_no_code :
    (next .set (posting (.set 0x82#8 2#16) State.reset)).notices.lastRefusal
      = some { code := 0x26#8, param := 0x82#8, reason := .badValue } := by decide

theorem test_probe_start_reads_words_high_byte_first :
    let t := next (.probeStart 1#8 7#8 (1#8, 4#8) (0#8, 3#8) (1#8, 0#8) 1#8)
      (inFrame (.params .probeStart) (State.reset.setTracker 0 { passed := [4421] }))
    t.probe.running = true ∧ t.probe.plan = some { size0 := 260, size1 := 4, select := 0x100#9, auto := true }
      ∧ (t.trackers[(0 : Str)]).passed = [] ∧ t.miso 11 = some 1#8 := by decide

theorem test_probe_slot_of_four :
    let p : Probe :=
      { running := true, string := some 0, start := 7, pointer := 7
        plan := some { size0 := 4, size1 := 4, select := 0#9, auto := true }, sum := -12, count := 3, least := some (-5)
        greatest := some (-3) }
    let t := next (.probePitch 0) ((State.reset.setTracker 0 { passed := [4860] }).setProbe p)
    t.probe.slots[7] = some { mean16 := -64, least := -5, greatest := -3, count := 4 } ∧ t.probe.pointer = 8 := by
  decide

theorem test_probe_run_writes_the_correction :
    let p : Probe :=
      { running := true, string := some 0, start := 7, pointer := 8
        plan := some { size0 := 4, size1 := 4, select := 0#9, auto := true }, sum := -9, count := 3, least := some (-4)
        greatest := some (-2), totalSum := -16, totalCount := 4 }
    let t := next (.probePitch 0) ((State.reset.setTracker 0 { passed := [4860] }).setProbe p)
    t.settings.physical[(0 : Str)].offset = 4 ∧ t.notices.queue = [.probeDone 0 2] ∧ t.probe.running = false := by
  decide

theorem test_get_changed_clears_the_flags :
    let rs := [{ record 7 .sounding 1 .stopped with changed := true }, record 3 .released 3 .stopped,
      { record 9 .sounding 4 .stopped with changed := true }]
    let t := next .getChanged (inFrame (.waiting .getChanged) (holding rs))
    t.table.recency = [3, 7, 9] ∧ t.table.anyChanged = false ∧ t.miso 2 = some 1#8 ∧ t.miso 3 = some 2#8
      ∧ t.miso 4 = some 7#8 ∧ t.miso 22 = some 9#8 := by decide

theorem test_image_cut_short_is_flagged_again :
    let r : Response := { params := 0, result := .ok, images := [⟨1, 1⟩, ⟨2, 2⟩] }
    ((next (.frameEnd 39) (inFrame (.responding r) four)).table.records.map (·.changed)) = [false, true, false, false]
      ∧ ((next (.frameEnd 40) (inFrame (.responding r) four)).table.records.map (·.changed))
        = [false, false, false, false] := by decide

theorem test_short_frame_reports_its_command :
    (next (.frameEnd 2) (inFrame (.params .tagNote) State.reset)).notices.queue = [.fault .frame 0x20#8] := by decide

theorem test_restart_keeps_the_enable_mask :
    let t := next .restart (posting .restart { full with settings := { full.settings with enableMask := 0x03#8 } })
    t.table.handles = [] ∧ t.settings.enableMask = 0x03#8 ∧ (t.trackers[(2 : Str)]).state = .off ∧ t.link.buffer = [] := by
  decide

theorem test_restart_leaves_the_buffer_as_it_completes :
    let s (ps : List Posted) (p : Phase) : State :=
      next .restart (inFrame p (four.setLink { four.link with buffer := .restart :: ps }))
    (s [.allRelease] .idle).link.buffer = [.allRelease] ∧ (s [.allRelease] .idle).link.applied = false
      ∧ (s [.allRelease] (.waiting .listNotes)).link.phase = .waiting .listNotes
      ∧ (s [] (.waiting .listNotes)).miso 3 = some 0#8 ∧ (s [] (.waiting .listNotes)).miso 2 = some 1#8 := by decide

/-! ## States that meet the hypotheses of the statements, clause by clause -/

theorem test_meets_StepTakesTheFrontCommand : State.reset.pending = [] := rfl

theorem test_meets_HardResetHoldsThePart :
    State.reset.link.csnLow = false ∧ (next .hardReset State.reset).inReset = true
      ∧ Instr.millisecondTick ≠ .hardReset ∧ Instr.millisecondTick ≠ .hardResetEnd ∧ Instr.millisecondTick ≠ .frameStart
      ∧ ∀ n, Instr.millisecondTick ≠ .frameEnd n :=
  ⟨by decide, by decide, by decide, by decide, by decide, fun _ h => Instr.noConfusion h⟩

theorem test_meets_RestartKeepsTheSettings :
    let s := posting .restart State.reset
    s.inReset = false ∧ s.link.applied = false ∧ s.link.buffer = [.restart] ∧ [Posted.allRelease] ≠ []
      ∧ (∀ q : Query, s.link.phase ≠ .waiting q)
      ∧ (inFrame (.waiting .getStatus) s).link.phase = .waiting .getStatus :=
  ⟨by decide, by decide, by decide, by decide, fun _ h => Phase.noConfusion h, by decide⟩

theorem test_meets_SampleThatEndsNoCycle :
    (-4095 : Int) ≤ -4095 ∧ (4095 : Int) ≤ 4095 ∧ State.reset.inReset = false
      ∧ maskHas State.reset.settings.enableMask 6 = false ∧ maskHas State.reset.settings.enableMask 0 = true
      ∧ (State.reset.frontEnds[(0 : Str)]).gate = .closed
      ∧ (let f := (hearing opened).frontEnds[(0 : Str)]
        f.gate = .opened ∧ ¬ (f.armed = true ∧ f.previous < f.level ∧ (f.level : Int) ≤ 4095))
      ∧ (let f := (hearing { opened with armed := true, previous := 249 }).frontEnds[(0 : Str)]
        f.gate = .opened ∧ (f.armed = true ∧ f.previous < f.level ∧ (f.level : Int) ≤ 250) ∧ f.timing = .waiting) := by
  decide

/-- A Front End about to cross, with a period of `e` ticks at its latest sample and a queue. -/
def crossing (e : Nat) (queue : List CycleReport) : FrontEnd :=
  { opened with armed := true, previous := 180, timing := .timing e 900 false, queue := queue }

/-- A cycle report of middling values. -/
def waitingReport : CycleReport := { period := 13900, peak := 900, overload := false }

theorem test_meets_CrossingEndsACycle :
    let f := crossing 13863 []
    let ticks := ((128 * ((f.level : Int) - f.previous)) / (420 - f.previous)).toNat
    f.gate = .opened ∧ f.armed = true ∧ f.previous < f.level ∧ (f.level : Int) ≤ 420 ∧ f.timing = .timing 13863 900 false
      ∧ ticks = 37 ∧ ¬ (2048 ≤ 2010 + ticks ∧ 2010 + ticks < 196608) ∧ (2048 ≤ 2011 + ticks ∧ 2011 + ticks < 196608)
      ∧ (2048 ≤ 196570 + ticks ∧ 196570 + ticks < 196608) ∧ ¬ (2048 ≤ 196571 + ticks ∧ 196571 + ticks < 196608)
      ∧ (computing 13900 {}).pitchUnit.computation.isSome
      ∧ ((hearing (crossing 13863 (List.replicate 3 waitingReport))).frontEnds[(0 : Str)]).queue.length < 4
      ∧ 4 ≤ ((hearing (crossing 13863 (List.replicate 4 waitingReport))).frontEnds[(0 : Str)]).queue.length
      ∧ (hearing f).pitchUnit.computation = none ∧ ∀ j : Str, ((hearing f).frontEnds[j]).queue = [] := by decide

theorem test_meets_OnsetOpensTheGate :
    let g := State.reset.settings
    (State.reset.frontEnds[(0 : Str)]).gate = .closed
      ∧ (let count := if g.physical[(0 : Str)].onset ≤ max 256 (0 * 15 / 16) then 1 + 1 else 0
        g.onsetConfirm ≤ count)
      ∧ (let count := if g.physical[(0 : Str)].onset ≤ max 255 (0 * 15 / 16) then 1 + 1 else 0
        count < g.onsetConfirm) := by decide

theorem test_meets_OpenGateClosesOrRestrikes :
    let g := State.reset.settings.physical[(0 : Str)]
    let count (env before : Nat) := if env < min g.release (g.onset - 1) then before + 1 else 0
    State.reset.settings.releaseConfirm ≤ count 95 7 ∧ count 96 7 < State.reset.settings.releaseConfirm
      ∧ count 95 6 < State.reset.settings.releaseConfirm
      ∧ (g.onset ≤ 1500 ∧ 1000 * State.reset.settings.restrikeRatio ≤ 1500 * 8)
      ∧ ¬ (g.onset ≤ 1499 ∧ 1000 * State.reset.settings.restrikeRatio ≤ 1499 * 8)
      ∧ 9 ≤ State.reset.settings.restrikeRatio ∧ (1000 : Nat) < 1499 := by decide

theorem test_meets_TickAdvancesEveryTimer :
    State.reset.inReset = false ∧ maskHas State.reset.settings.enableMask 6 = false := by decide

theorem test_meets_LogarithmFollowsItsTable :
    (2048 : Nat) ≤ 2048 ∧ 4194303 ≤ 4194303 ∧ (2048 : Nat) ≤ 2097151 ∧ (0 : Fin 257).val ≠ 181 := by decide

theorem test_meets_RawPitchOfACycle :
    (17966 : Int) ≤ 17966 ∧ (18168 : Int) ≤ 18168 ∧ (2048 : Nat) ≤ 2048 ∧ (2048 : Nat) ≤ 98303 ∧ (98303 : Nat) ≤ 196607
      ∧ (4000 : Nat) ≤ 4800 := by decide

theorem test_meets_SmoothingFilterMovesTowardTheCycle :
    (32768 : Nat) ≤ 32768 ∧ (3145712 : Nat) ≤ 3145712 ∧ (0 : Nat) ≤ 3 ∧ (3 : Nat) ≤ 3 ∧ (2048 : Nat) ≤ 196607
      ∧ (0 : Int) ≤ 16 * (2048 : Nat) - (32768 : Nat) ∧ 16 * ((2048 : Nat) : Int) - (3145712 : Nat) ≤ 0 := by decide

theorem test_meets_FiguresDerivedFromPitchAndPeak :
    (0 : Int) ≤ 8191 ∧ (8191 : Int) ≤ 8191 ∧ 32 ≤ bendFrom 8191 (nearestNote 8191) ∧ (126 : Nat) < 127 := by decide

/-- Strings 1 and 2 both ask for the unit, string 2 in ATTACK. -/
def twoAsk : State :=
  { State.reset with
    frontEnds := (State.reset.frontEnds.set 0 (crossing 0 [waitingReport])).set 1 (crossing 0 [waitingReport])
    trackers := (State.reset.trackers.set 0 (following .tracking)).set 1 { state := .attack }
    pitchUnit := { State.reset.pitchUnit with computation := some (cycle 13900 none), tenureUsed := 1, lastGranted := 0 } }

theorem test_meets_GrantGoesToTheFirstUrgentRequester :
    twoAsk.nextGranted = some 1 ∧ (twoAsk.setTracker 1 (following .tracking)).nextGranted = some 1
      ∧ (twoAsk.setTracker 0 { state := .attack }).nextGranted = some 1 := by decide

theorem test_meets_ResultReachesItsTracker :
    let waits := computing 13900 { following .tracking with
      awaited := some { request := .confirm 1, counted := none, answer := none } }
    waits.pitchUnit.computation = some (cycle 13900 none) ∧ (cycle 13900 none).handed = false
      ∧ (waits.trackers[(0 : Str)]).awaited.isSome
      ∧ (∀ st ∈ [ChannelState.off, .quiet, .muted],
        ((computing 13900 { state := st }).trackers[(0 : Str)]).awaited = none
          ∧ ((computing 13900 { state := st }).trackers[(0 : Str)]).state = st)
      ∧ (1 : Str) ≠ (cycle 13900 none).string := by decide

/-- String 1's result has been handed over, with these reports waiting and this tenure used. -/
def deciding (reports : List CycleReport) (tenure : Nat) (s : State) : State :=
  { s with
    frontEnds := s.frontEnds.set 0 (crossing 0 reports)
    pitchUnit := { s.pitchUnit with computation := some { cycle 13900 none with handed := true }, tenureUsed := tenure } }

theorem test_meets_CompletionContinuesOrGrantsAnew :
    let asks (s : State) (u : Str) : Prop := (s.frontEnds[u]).queue ≠ []
    let urgent (s : State) (u : Str) : Prop :=
      (s.trackers[u]).state = .attack ∨ (s.trackers[u]).state = .bleed ∨ (s.trackers[u]).state = .forming
    let continues (s : State) : Prop :=
      asks s 0 ∧ s.pitchUnit.tenureUsed < s.settings.tenure ∧ (urgent s 0 ∨ ∀ u, asks s u → ¬ urgent s u)
    continues (deciding [waitingReport] 1 State.reset) ∧ ¬ continues (deciding [waitingReport] 2 State.reset)
      ∧ ¬ continues (deciding [waitingReport] 1 twoAsk)
      ∧ (¬ continues (deciding [] 1 State.reset) ∧ ∀ u, ¬ asks (deciding [] 1 State.reset) u)
      ∧ (deciding [waitingReport] 2 State.reset).nextGranted = some 0
      ∧ (deciding [waitingReport] 1 twoAsk).nextGranted = some 1
      ∧ ((twoAsk.pitchUnit.computation.map (·.handed)) = some false)
      ∧ exec (.trackerResult 0) twoAsk = .next (next (.trackerResult 0) twoAsk) :=
  ⟨by decide, by decide +kernel, by decide +kernel, by decide +kernel, by decide +kernel, by decide +kernel,
    by decide, rfl⟩

/-- A neighbour in TRACKING whose envelope is four times as large, beside string 1. -/
def bleeding (s : State) : State :=
  { s with
    frontEnds := (s.frontEnds.set 0 { opened with env := 250 }).set 1 opened
    trackers := s.trackers.set 1 (following .tracking) }

theorem test_meets_PairSearchLeadsToBleedOrCreate :
    let first := computing 13900 { state := .attack }
    let pair (held : Int) := computing 13900 { state := .bleed, firstPair := some held, committed := some ⟨222400, held⟩ }
    let pr := (cycle 13900 none).result.rawPitch
    (first.trackers[(0 : Str)]).awaited = none ∧ (first.trackers[(0 : Str)]).firstPair = none
      ∧ first.settings.onsetTolerance < (pr - 4446).natAbs ∧ (pr - 4445).natAbs ≤ first.settings.onsetTolerance
      ∧ (bleeding (pair 4445)).bleedTest 0 (pair 4445).trackers[(0 : Str)] pr = true
      ∧ (pair 4445).bleedTest 0 (pair 4445).trackers[(0 : Str)] pr = false
      ∧ ((pair 4445).trackers[(0 : Str)]).firstPair = some 4445 ∧ ((pair 4445).trackers[(0 : Str)]).state = .bleed := by
  decide

theorem test_meets_BleedTestNeedsBothConditionsOfOneReference :
    let t : Tracker := { state := .attack }
    (bleeding State.reset).bleedTest 0 t 4421 = true ∧ (bleeding State.reset).bleedTest 0 t 4437 = true
      ∧ (bleeding State.reset).bleedTest 0 t 4438 = false ∧ (bleeding State.reset).bleedTest 2 t 4421 = true
      ∧ (bleeding State.reset).bleedTest 3 t 4421 = false := by decide

/-- Strings 1 and 2 in ATTACK, each with its second result at hand: string 1's is deferred, and string 2's computed. -/
def together : State :=
  { State.reset with
    frontEnds := (State.reset.frontEnds.set 0 { opened with env := 250 }).set 1 opened
    trackers := (State.reset.trackers.set 0
      { state := .attack, firstPair := some 4421, tests := 4, deferred := [.result (cycle 13900 none).result]
        awaited := some { request := .release 9 .restrike, counted := none, answer := some .ok } }).set 1
      { state := .attack, firstPair := some 4421 }
    pitchUnit := { State.reset.pitchUnit with computation := some { cycle 13900 none with string := 1 }, tenureUsed := 1 } }

/-- String 2 has formed its pair and entered FORMING. -/
def entered : State := next (.trackerResult 1) together

theorem test_pairs_formed_together_take_either_order :
    (entered.trackers[(1 : Str)]).state = .forming ∧ (entered.trackers[(1 : Str)]).entry = some together.newEntry
      ∧ together.newEntry.number = 1
      ∧ (entered.reference 0 1 && entered.pitchCondition 1 4421 && entered.envelopeCondition 0 1) = true
      ∧ (∀ u : Str, u ≠ 1 → entered.reference 0 u = false)
      ∧ entered.entersFirst 0 entered.trackers[(0 : Str)] 1 = decide (1 < Config.entriesSeen 0 4 0) :=
  ⟨by decide, by decide +kernel, by decide, by decide, by decide, rfl⟩

theorem test_an_entry_is_seen_once_anything_could_tell :
    let t := entered.trackers[(0 : Str)]
    entered.entersFirst 0 { t with state := .bleed } 1 = true ∧ entered.entersFirst 0 { t with tests := 5 } 1 = true
      ∧ (next .millisecondTick entered).entersFirst 0 t 1 = true
      ∧ (next .computationComplete entered).entersFirst 0 t 1 = true
      ∧ (next .set (posting (.set 0x0C#8 20#16) entered)).entersFirst 0 t 1 = true
      ∧ (next (.create 1) entered).entersFirst 0 t 1 = true := by decide +kernel

theorem test_meets_FormingFollowsTheNearestNote :
    let s (held : Option Int) := computing 13900 { following .forming with
      committed := some { period := 220000, pitch := 4380 }, held := held }
    let pr := (cycle 13900 none).result.rawPitch
    ((s none).trackers[(0 : Str)]).awaited = none ∧ ((s none).trackers[(0 : Str)]).state = .forming
      ∧ ((s none).trackers[(0 : Str)]).live = some 1 ∧ ((s none).trackers[(0 : Str)]).lastSent = some sent
      ∧ (s none).settings.stepThreshold < (pr - 4380).natAbs ∧ ¬ (s none).settings.stepThreshold < (pr - 4381).natAbs
      ∧ (pr - 4445).natAbs ≤ (s none).settings.onsetTolerance ∧ ¬ (pr - 4446).natAbs ≤ (s none).settings.onsetTolerance := by
  decide

theorem test_meets_TrackingFollowsItsPolicies :
    let s := computing 12486 { following .tracking with held := some 4543 }
    let pr := (cycle 12486 none).result.rawPitch
    let k := s.settings
    (s.trackers[(0 : Str)]).state = .tracking ∧ (s.trackers[(0 : Str)]).awaited = none ∧ pr = 4540
      ∧ k.stepThreshold < (pr - 4421).natAbs ∧ (pr - 4543).natAbs ≤ k.onsetTolerance
      ∧ ¬ k.stepThreshold < (pr - 4500).natAbs ∧ ¬ (pr - 4515).natAbs ≤ k.onsetTolerance
      ∧ (k.musical .A 0).legato = .newNote ∧ nearestNote (outputPitch pr 0 0) ≠ sent.note
      ∧ nearestNote (outputPitch 4447 0 0) = sent.note
      ∧ ({ k.musical .A 0 with legato := .bend } : Musical).legato = .bend := by decide

/-- String 1's Tracker with one event on its way. -/
def told (e : FrontEndEvent) (t : Tracker) : State := State.reset.setTracker 0 { t with events := [e] }

theorem test_meets_FrontEndEventsMoveTheTracker :
    (∀ e ∈ [FrontEndEvent.onset, .release, .restrike], ∀ st ∈ [ChannelState.off, .quiet, .attack, .bleed, .muted],
        ((told e { state := st }).trackers[(0 : Str)]).events = [e]
          ∧ ((told e { state := st }).trackers[(0 : Str)]).awaited = none
          ∧ ((told e { state := st }).trackers[(0 : Str)]).state = st)
      ∧ ∀ e ∈ [FrontEndEvent.onset, .release, .restrike], ∀ st ∈ [ChannelState.forming, .tracking],
        ((told e (following st)).trackers[(0 : Str)]).state = st := by decide

theorem test_meets_InputsWaitForTheAnswer :
    let a : Awaited := { request := .confirm 1, counted := none, answer := none }
    let t : Tracker := { following .forming with
      awaited := some a, events := [.restrike], forced := [1], enables := [false], staleTimer := .running 0 }
    ((State.reset.setTracker 0 t).trackers[(0 : Str)]).awaited = some a ∧ t.events = .restrike :: [] ∧ t.forced = 1 :: []
      ∧ t.enables = false :: [] ∧ t.staleTimer = .running 0
      ∧ (∀ e ∈ [FrontEndEvent.onset, .release], ({ t with events := [e] } : Tracker).events = e :: [])
      ∧ ({ t with enables := [true] } : Tracker).enables = true :: [] ∧ t.awaited.isSome ∧ (following .forming).awaited = none := by
  decide

theorem test_meets_AnswersAreActedOn :
    let update : Request :=
      .update { handle := 1, note := 69, bend := 5, level := 62, stale := false, saturated := false }
    let s (q : Request) (counted : Option Int) (a : Answer) (st : ChannelState) (n : Nat) : State :=
      State.reset.setTracker 0 { following st with
        awaited := some { request := q, counted := counted, answer := some a }, confirmCount := n }
    (∀ h, update ≠ .release h .stale) ∧ (∀ h, Request.release 1 .decay ≠ .release h .stale)
      ∧ (∀ q ∈ [update, .confirm 1, .release 1 .stale, .release 1 .decay], ∀ a ∈ [Answer.ok, .notLive, .handle 5],
        ((s q none a .forming 0).trackers[(0 : Str)]).awaited
          = some { request := q, counted := none, answer := some a })
      ∧ ((s update (some 4421) .ok .forming 0).trackers[(0 : Str)]).confirmCount + 1 < State.reset.settings.confirmCount
      ∧ State.reset.settings.confirmCount
        ≤ ((s update (some 4421) .ok .forming 1).trackers[(0 : Str)]).confirmCount + 1
      ∧ ((s update (some 4421) .ok .forming 1).trackers[(0 : Str)]).live = some 1
      ∧ ((s update (some 4421) .ok .tracking 2).trackers[(0 : Str)]).state ≠ .forming := by
  refine ⟨fun _ e => ?_, fun _ e => ?_, ?_⟩
  · cases e
  · cases e
  · decide

theorem test_meets_StaleGuardWarnsThenReleases :
    let due : Tracker := { following .forming with staleTimer := .taken, staleRun := 3 }
    (2 ≠ due.staleRun ∧ due.staleTimer = .taken ∧ due.state = .forming ∧ due.live = some 1 ∧ due.lastSent = some sent)
      ∧ (following .forming).staleTimer ≠ .running 0
      ∧ ∀ n ∈ [0, 1], ∀ st ∈ [ChannelState.forming, .tracking],
        let t : Tracker := { following st with staleTimer := .running 0, staleExpiries := n }
        t.awaited = none ∧ t.state = st ∧ t.live = some 1 ∧ t.lastSent = some sent ∧ t.staleExpiries = n := by
  decide

theorem test_meets_ForcedReleaseEnableAndDisable :
    let t : Tracker := { following .tracking with forced := [1], enables := [false] }
    t.awaited = none ∧ ((t.state = .forming ∨ t.state = .tracking) ∧ t.live = some 1)
      ∧ ¬ ((t.state = .forming ∨ t.state = .tracking) ∧ t.live = some 2)
      ∧ (State.reset.trackers[(6 : Str)]).state = .off ∧ (State.reset.trackers[(0 : Str)]).state ≠ .off
      ∧ (State.reset.trackers[(0 : Str)]).live = none ∧ (t.state ≠ .off ∧ t.live = some 1) := by decide

theorem test_meets_HandleAndZoneOfANewRecord :
    four.table.wf ∧ full.table.wf ∧ State.reset.settings.zoneOf 0 127 = some 0
      ∧ ({ State.reset.settings with zones := State.reset.settings.zones.set 0 ⟨61, 127, 0xFF#8⟩ } : Settings).zoneOf 0 60
        = none := by decide

theorem test_meets_EvictionTakesTheLeastRecentlyUsed :
    full.table.wf ∧ full.table.records.length = 16
      ∧ (full.table.records.filter fun r => decide (r.image.state ≠ .released)).length ≤ 8
      ∧ full.table.victim none = some 1 ∧ four.table.victim none = some 3 ∧ four.table.victim (some 3) = some 4 := by
  decide

theorem test_meets_CreateMakesAProvisionalRecord :
    four.table.wf ∧ four.table.records.length < 16 ∧ full.table.wf ∧ full.table.records.length = 16
      ∧ full.table.victim none = some 1
      ∧ (let c : CreateRequest :=
          { note := 69, bend := 5, velocity := 62, level := 62, profile := .A, transpose := 0, bendRange := 2
            predecessor := some 3 }
        ((full.setTracker 2 (asking (.create c))).trackers[(2 : Str)]).awaited
          = some { request := .create c, counted := some 4421, answer := none }) := by decide

theorem test_meets_UpdateSetsALiveRecord :
    let u (h : Nat) : UpdateRequest := { handle := h, note := 69, bend := 5, level := 62, stale := false, saturated := false }
    four.table.wf
      ∧ (∃ r ∈ four.table.records, r.image.handle = (u 1).handle ∧ r.image.string = 0 ∧ r.image.state ≠ .released)
      ∧ (∀ r ∈ four.table.records, r.image.handle = (u 3).handle → r.image.string = 2 → r.image.state = .released)
      ∧ ((four.setTracker 0 (asking (.update (u 1)))).trackers[(0 : Str)]).awaited
        = some { request := .update (u 1), counted := some 4421, answer := none } := by decide

theorem test_meets_ConfirmAndReleaseFromATracker :
    four.table.wf ∧ (∀ r ∈ four.table.records, r.wf)
      ∧ (∃ r ∈ four.table.records, r.image.handle = 1 ∧ r.image.string = 0 ∧ r.image.state = .provisional)
      ∧ (∃ r ∈ four.table.records, r.image.handle = 2 ∧ r.image.string = 1 ∧ r.image.state = .sounding)
      ∧ (∃ r ∈ four.table.records, r.image.handle = 3 ∧ r.image.string = 2 ∧ r.image.state = .released)
      ∧ (∀ r ∈ four.table.records, r.image.handle = 1 → r.image.string ≠ 5)
      ∧ ((four.setTracker 0 (asking (.confirm 1))).trackers[(0 : Str)]).awaited
        = some { request := .confirm 1, counted := some 4421, answer := none }
      ∧ ((four.setTracker 0 (asking (.release 1 .decay))).trackers[(0 : Str)]).awaited
        = some { request := .release 1 .decay, counted := some 4421, answer := none } := by decide

theorem test_meets_SucceedReleasesAndLinks :
    four.table.wf ∧ (∀ r ∈ four.table.records, r.wf) ∧ full.table.wf ∧ (∀ r ∈ full.table.records, r.wf)
      ∧ (∃ r ∈ four.table.records, r.image.handle = 2 ∧ r.image.string = 1 ∧ r.image.state ≠ .released)
      ∧ (∃ r ∈ full.table.records, r.image.handle = 9 ∧ r.image.string = 0 ∧ r.image.state ≠ .released)
      ∧ ({ full.table with
          records := full.table.records.map fun r =>
            if r.image.handle = 9 then r.release 100 .legato else r } : NoteTable).victim (some 9) = some 1
      ∧ (∀ r ∈ four.table.records, r.image.handle = 3 → r.image.string = 2 → r.image.state = .released) := by
  decide

theorem test_meets_ExpiryAndRetireFreeReleasedRecords :
    four.table.wf
      ∧ (∃ r ∈ four.table.records,
        r.image.handle = 3 ∧ r.image.state = .released ∧ r.linger = .running 0 ∧ r.image.hold = false)
      ∧ (∃ r ∈ four.table.records,
        r.image.handle = 4 ∧ r.image.state = .released ∧ r.linger = .running 0 ∧ r.image.hold = true)
      ∧ (∀ r ∈ four.table.records, r.image.handle = 1 → r.image.state ≠ .released ∨ r.linger ≠ .running 0)
      ∧ (posting (.retireNote 3#8) four).link.buffer = [.retireNote 3#8]
      ∧ (∃ r ∈ four.table.records, r.image.handle = (1#8).toNat ∧ r.image.state ≠ .released)
      ∧ (∀ r ∈ four.table.records, r.image.handle ≠ (9#8).toNat) := by decide

theorem test_meets_TagAndUntagMoveToTheTail :
    (∃ b, Posted.tagNote 3#8 7#8 = .tagNote 3#8 b ∧ some 7#8 = some b) ∧ four.table.wf
      ∧ (∃ r ∈ four.table.records, r.image.handle = (3#8).toNat)
      ∧ (∀ r ∈ four.table.records, r.image.handle ≠ (0#8).toNat)
      ∧ (posting (.untagNote 3#8) four).link.buffer = [.untagNote 3#8] :=
  ⟨⟨7#8, rfl, rfl⟩, by decide, by decide +kernel, by decide +kernel, by decide +kernel⟩

theorem test_meets_HoldDefersAndRestartsLinger :
    (2#8 ≠ 0#8 ∧ 2#8 ≠ 1#8) ∧ four.table.wf
      ∧ (∀ r ∈ four.table.records, r.image.handle ≠ (9#8).toNat)
      ∧ (∃ r ∈ four.table.records, r.image.handle = (4#8).toNat ∧ r.image.state = .released ∧ r.image.hold = true)
      ∧ (∃ r ∈ four.table.records, r.image.handle = (3#8).toNat ∧ r.image.hold = false)
      ∧ (posting (.holdNote 4#8 0#8) four).link.buffer = [.holdNote 4#8 0#8] := by decide

theorem test_meets_ControllerReleasesForceLiveRecords :
    four.table.wf ∧ (∀ r ∈ four.table.records, r.wf)
      ∧ (∃ r ∈ four.table.records, r.image.handle = (1#8).toNat ∧ r.image.state ≠ .released)
      ∧ (∃ r ∈ four.table.records, r.image.handle = (3#8).toNat ∧ r.image.state = .released)
      ∧ (∀ r ∈ four.table.records, r.image.handle ≠ (9#8).toNat)
      ∧ (posting (.releaseNote 1#8) four).link.buffer = [.releaseNote 1#8]
      ∧ (posting .allRelease four).link.buffer = [.allRelease] := by decide

theorem test_meets_SetStoresAFittedValue :
    SettingId.ofNumber 0x11#8 = none ∧ SettingId.ofNumber 0xBF#8 = some (.musical .B 7 .overflow)
      ∧ (SettingId.musical .B 7 .overflow).kind = .enumeration 2 ∧ 2 ≤ (2#16).toNat ∧ (1#16).toNat < 2
      ∧ SettingId.ofNumber 0x00#8 = some (.global .enableMask) ∧ SettingId.ofNumber 0x01#8 = some (.global .reference)
      ∧ (0x10#8 ≠ 0x00#8 ∧ 0x10#8 ≠ 0x01#8) ∧ (posting (.set 0x02#8 0#16) four).link.buffer = [.set 0x02#8 0#16]
      ∧ fitValue 0xFFC0#16 (SettingId.physical 0 .offset).kind = some (-64)
      ∧ (SettingId.physical 0 .offset) ≠ .global .linger
      ∧ (∀ n ∈ [0x11#8, 0x1F#8, 0x2C#8, 0x3F#8, 0x60#8, 0x7F#8, 0xC0#8, 0xFF#8], SettingId.ofNumber n = none)
      ∧ (∀ n ∈ [0x00#8, 0x10#8, 0x20#8, 0x2B#8, 0x40#8, 0x5F#8, 0x80#8, 0x9F#8, 0xA0#8, 0xBF#8],
        (SettingId.ofNumber n).isSome) := by
  decide +kernel

theorem test_meets_EnableMaskTellsEachChangedString :
    let s := (posting (.set 0x00#8 0x7E#16) four).setProbe
      { running := true, string := some 0, start := 0, pointer := 0
        plan := some { size0 := 4, size1 := 4, select := 0#9, auto := false } }
    let old := s.settings.enableMask
    let new : BitVec 8 := (0x7E#16).setWidth 8
    s.link.buffer = [.set 0x00#8 0x7E#16] ∧ (maskHas old 0 = true ∧ maskHas new 0 = false)
      ∧ (maskHas old 6 = false ∧ maskHas new 6 = true) ∧ maskHas old 7 = maskHas new 7
      ∧ s.probe.running = true ∧ s.probe.string = some 0 ∧ four.probe.running = false := by decide

theorem test_probe_aborted_comes_at_once_or_as_the_set_completes :
    let s := (posting (.set 0x00#8 0x7E#16) four).setProbe
      { running := true, string := some 0, start := 0, pointer := 0
        plan := some { size0 := 4, size1 := 4, select := 0#9, auto := false } }
    s.notices.coming = [] ∧ (next .setEnableMask s).notices.queue = [.probeAborted 0 .disabled]
      ∧ ((next .set s).probe.running = false ∧ (next .set s).notices.queue = [])
      ∧ (next .set s).notices.coming = [.probeAborted 0 .disabled]
      ∧ ((next .postedApplicationComplete (next .set s)).notices.queue = [.probeAborted 0 .disabled]
        ∧ (next .postedApplicationComplete (next .set s)).notices.coming = []) := by decide

theorem test_meets_ReferenceAndProfileTakeEffect :
    (posting (.set 0x01#8 4400#16) four).link.buffer = [.set 0x01#8 4400#16]
      ∧ (posting (.selectProfile 2#8) four).link.buffer = [.selectProfile 2#8] ∧ (2#8 ≠ 0#8 ∧ 2#8 ≠ 1#8) := by
  decide

theorem test_meets_ProbeStartIsJudgedInOrder :
    let bad (string slot auto : Byte) : Prop := string.toNat = 0 ∨ 8 < string.toNat ∨ 8 < slot.toNat ∨ 1 < auto.toNat
    (inFrame (.params .probeStart) four).link.phase = .params .probeStart
      ∧ (let waits : Query := .probeStart
          { string := 1#8, slot := 0#8, size0 := 260#16, size1 := 4#16, mask := 256#16, auto := 1#8 }
        (inFrame (.waiting waits) four).link.phase = .waiting (.probeStart
          { string := 1#8, slot := 0#8, size0 := BitVec.ofNat 16 ((1#8).toNat * 256 + (4#8).toNat)
            size1 := BitVec.ofNat 16 ((0#8).toNat * 256 + (4#8).toNat)
            mask := BitVec.ofNat 16 ((1#8).toNat * 256 + (0#8).toNat), auto := 1#8 }))
      ∧ four.link.buffer = []
      ∧ ({ running := true } : Probe).running = true ∧ four.probe.running = false
      ∧ bad 0#8 0#8 0#8 ∧ bad 9#8 0#8 0#8 ∧ bad 1#8 9#8 0#8 ∧ bad 1#8 0#8 2#8 ∧ ¬ bad 8#8 8#8 1#8 ∧ ¬ bad 1#8 0#8 0#8
      ∧ (8#8).toNat = (7 : Str).val + 1 ∧ maskHas four.settings.enableMask 7 = false
      ∧ maskHas four.settings.enableMask 0 = true := by decide

theorem test_meets_ProbeCountsPitchesIntoItsSlots :
    let p (n pointer : Nat) : Probe :=
      { running := true, string := some 0, start := 0, pointer := pointer, count := n
        plan := some { size0 := 4, size1 := 8, select := 0x100#9, auto := true } }
    ({ passed := [4421] } : Tracker).passed = 4421 :: [] ∧ (p 0 0).running = true ∧ (p 0 0).string = some 0
      ∧ (p 3 7).count + 1 = 4 ∧ (p 3 7).pointer < 8 ∧ (p 2 7).count + 1 ≠ 4 ∧ (p 7 8).count + 1 = 8
      ∧ 8 ≤ (p 7 8).pointer ∧ ¬ ((p 0 0).running = true ∧ (p 0 0).string = some 1) := by decide

theorem test_meets_ProbeStopAbortsARun :
    (posting .probeStop four).link.buffer = [.probeStop] ∧ four.probe.running = false
      ∧ (let p : Probe := { running := true, string := some 0 }
        p.running = true ∧ p.string = some 0) := by decide

theorem test_meets_FrameStartAndCommandByte :
    four.link.phase = .idle ∧ (inFrame .ignoring four).link.phase ≠ .idle ∧ (next .hardReset four).inReset = true
      ∧ four.link.phase ≠ .begun ∧ (inFrame .begun four).link.phase = .begun
      ∧ (0x0F#8).toNat < 0x10 ∧ (0x18 < (0x19#8).toNat ∧ (0x1F#8).toNat < 0x20) ∧ 0x2A < (0x2B#8).toNat := by
  decide

theorem test_meets_PostedBufferIsFirstInFirstOut :
    let s := inFrame (.params .set) four
    s.link.phase = .params .set ∧ Posted.ofBytes .set [0x02#8, 0#8, 1#8] = some (.set 0x02#8 1#16)
      ∧ s.link.buffer.length < 8 ∧ (List.replicate 7 Posted.allRelease).length < 8
      ∧ 8 ≤ (List.replicate 8 Posted.allRelease).length
      ∧ [0x02#8, 0#8].length < CommandCode.set.params ∧ CommandCode.getNote.posted = false
      ∧ Posted.allRelease ≠ .restart ∧ (posting .restart four).link.applied = false
      ∧ (posting .allRelease four).link.applied = false ∧ (next .allRelease (posting .allRelease four)).link.applied = true
      ∧ (∀ q : Query, four.link.phase ≠ .waiting q) ∧ [Posted.restart] ≠ []
      ∧ (inFrame (.waiting .getStatus) four).link.phase = .waiting .getStatus :=
  ⟨by decide, by decide, by decide, by decide, by decide, by decide, by decide, by decide, by decide, by decide,
    by decide +kernel, fun _ h => Phase.noConfusion h, by decide, by decide⟩

theorem test_meets_SnapshotWaitsOrIsAbandoned :
    let s := inFrame (.waiting .getStatus) (posting .allRelease four)
    s.link.phase = .waiting .getStatus ∧ s.link.buffer ≠ []
      ∧ (inFrame (.params .getNote) (posting .allRelease four)).link.phase = .params (Query.getNote 1#8).code
      ∧ (four.link.phase ≠ .params .getStatus ∧ four.link.phase ≠ .waiting .getStatus)
      ∧ (inFrame (.waiting .getStatus) four).link.buffer = []
      ∧ (∀ q : Query, four.link.phase ≠ .waiting q)
      ∧ (let r : Response := { params := 0, result := .ok }
        (inFrame (.responding r) four).link.phase = .responding r ∧ 1 ≤ r.params + 1)
      ∧ (let drives (x : State) : Prop := x.link.phase = .begun ∨ (∃ c, x.link.phase = .params c)
          ∨ (∃ q, x.link.phase = .waiting q) ∨ x.link.phase = .ignoring
        four.inReset = false ∧ drives (inFrame .begun four) ∧ drives (inFrame (.params .set) four) ∧ drives s
          ∧ drives (inFrame .ignoring four))
      ∧ (next .hardReset four).inReset = true ∧ four.link.phase = .idle
      ∧ (next .hardReset (next .frameStart four)).link.phase = .awaitHigh :=
  ⟨by decide, by decide, by decide, by decide, by decide, fun _ h => Phase.noConfusion h, by decide,
    ⟨by decide, .inl rfl, .inr (.inl ⟨_, rfl⟩), .inr (.inr (.inl ⟨_, rfl⟩)), .inr (.inr (.inr rfl))⟩, by decide,
    by decide, by decide⟩

theorem test_meets_FrameEndSettlesTheFrame :
    (next .hardReset four).inReset = true ∧ four.inReset = false
      ∧ (CommandCode.tagNote.params ≠ 0 ∨ CommandCode.tagNote.posted = false)
      ∧ (inFrame (.params Posted.restart.code) four).link.phase = .params Posted.restart.code
      ∧ four.link.buffer.length < 8 ∧ 8 ≤ (List.replicate 8 Posted.allRelease).length
      ∧ (posting .allRelease four).link.buffer ≠ []
      ∧ (inFrame (.waiting .listNotes) four).link.buffer = []
      ∧ exec .listNotes (inFrame (.waiting .listNotes) four)
        = .next (next .listNotes (inFrame (.waiting .listNotes) four))
      ∧ four.link.phase = .idle :=
  ⟨by decide, by decide, by decide, by decide, by decide, by decide, by decide, by decide, rfl, by decide⟩

theorem test_meets_RecordReadsDeliverImages :
    four.table.wf ∧ four.link.buffer = [] ∧ (∃ r ∈ four.table.records, r.image.handle = (4#8).toNat)
      ∧ (∀ r ∈ four.table.records, r.image.handle ≠ (0#8).toNat) ∧ ((0#8).toNat = 0 ∨ 8 < (0#8).toNat) ∧ 8 < (9#8).toNat
      ∧ (∃ r ∈ four.table.records, (1#8).toNat = r.image.string.val + 1 ∧ r.image.state ≠ .released
        ∧ ∀ q ∈ four.table.records, q.image.string = r.image.string → q.image.state ≠ .released → q = r)
      ∧ (∀ r ∈ four.table.records, (3#8).toNat = r.image.string.val + 1 → r.image.state = .released)
      ∧ (inFrame (.params .getNote) four).link.phase = .params .getNote
      ∧ (inFrame (.params .getString) four).link.phase = .params .getString
      ∧ (inFrame (.waiting (.getNote 4#8)) four).link.phase = .waiting (.getNote 4#8)
      ∧ (inFrame (.waiting (.getString 1#8)) four).link.phase = .waiting (.getString 1#8)
      ∧ (inFrame (.waiting .getChanged) four).link.phase = .waiting .getChanged := by decide

theorem test_meets_PlainReadsChangeNothing :
    four.link.buffer = [] ∧ (inFrame (.waiting .listNotes) four).link.phase = .waiting .listNotes
      ∧ (inFrame (.waiting .getStatus) four).link.phase = .waiting .getStatus
      ∧ (inFrame (.params .getSetting) four).link.phase = .params .getSetting
      ∧ (inFrame (.waiting (.getSetting 0xC0#8)) four).link.phase = .waiting (.getSetting 0xC0#8)
      ∧ SettingId.ofNumber 0x10#8 = some (.global .attention) ∧ SettingId.ofNumber 0xC0#8 = none
      ∧ (inFrame (.waiting .probeResults) four).link.phase = .waiting .probeResults := by decide

theorem test_meets_NoticesLeaveAsTheyAreDelivered :
    (inFrame (.params .takeNotices) four).link.phase = .params .takeNotices
      ∧ (inFrame (.waiting (.takeNotices 0#8)) four).link.phase = .waiting (.takeNotices 0#8) ∧ four.link.buffer = []
      ∧ (let r : Response := { params := 1, result := .ok, entries := 1 }
        (inFrame (.responding r) four).link.phase = .responding r ∧ 0 < r.entries)
      ∧ ({ params := 1, result := .ok } : Response).entries = 0 ∧ (∀ r : Response, four.link.phase ≠ .responding r) :=
  ⟨by decide, by decide, by decide, by decide, by decide, fun _ h => Phase.noConfusion h⟩

theorem test_meets_NoticesAndCausesAreHandedOn :
    let n : Notice := .expired 3
    (0x1EF#9).getLsbD n.enableBit = false ∧ (0x010#9).getLsbD n.enableBit = true
      ∧ (List.replicate 31 n).length < 32 ∧ 32 ≤ (List.replicate 32 n).length
      ∧ ({ overload := true } : NoticeUnit).flag .overload = true ∧ ({} : NoticeUnit).flag .overload = false
      ∧ FaultCause.overload ≠ .noticeLoss ∧ ({} : NoticeUnit).flag .noticeLoss = false := by decide

theorem test_meets_ClearFaultsClearsWhatItNames :
    (posting (.clearFaults 0x1F#8) four).link.buffer = [.clearFaults 0x1F#8]
      ∧ (posting (.clearFaults 0x1F#8) four).inReset = false := by decide

theorem test_meets_the_invariants_of_a_step :
    (∀ k : Str, (four.trackers[k]).wf) ∧ four.table.wf ∧ (∀ r ∈ four.table.records, r.wf) ∧ four.probe.wf
      ∧ four.queuesWf ∧ four.heldWf ∧ four.freeMeansIdle
      ∧ step { four with pending := [.lingerTimerExpiry 3] } = .next (next (.lingerTimerExpiry 3) four) :=
  ⟨by decide, by decide +kernel, by decide +kernel, by decide +kernel, by decide +kernel, by decide +kernel,
    by decide, rfl⟩

theorem test_meets_StepKeepsFrontEndsAndGrants : four.frontEndsWf ∧ four.freeMeansIdle :=
  ⟨fun k => by
      have h : four.frontEnds[k] = {} := by revert k; decide
      rw [h]
      exact ⟨⟨by decide, by decide, by decide, by decide, trivial, by decide, by decide, fun _ => by decide⟩,
        fun _ => by decide⟩,
    by decide⟩

theorem test_meets_StepKeepsSettingsWithinRange : four.settings.wf := by
  have h : ∀ n : Byte, ((SettingId.ofNumber n).all fun i =>
      match i.kind with
      | .numeric lo hi => decide ((lo : Int) ≤ four.settings.read i ∧ four.settings.read i ≤ hi)
      | .signed lo hi => decide (lo ≤ four.settings.read i ∧ four.settings.read i ≤ hi)
      | .mask bits => decide (0 ≤ four.settings.read i ∧ four.settings.read i < 2 ^ bits)
      | .enumeration codes => decide (0 ≤ four.settings.read i ∧ four.settings.read i < codes)) = true := by
    decide +kernel
  intro n i hi
  have hn := h n
  rw [Option.mem_def.mp hi] at hn
  cases hk : i.kind <;> simpa [hk, SettingKind.admits] using hn

/-- A request to succeed record 1, not answered yet. -/
def succession : Awaited :=
  { request := .succeed { handle := 1, reason := .legato, note := 71, bend := -4, velocity := 43, level := 43 }
    counted := some 4540, answer := none }

/-- String 1 sounds record 1, which succeeded record 2, and asks to be succeeded; a forced-release message that names
record 7 is on its way. -/
def lively : State :=
  (holding
    [{ record 2 .released 0 .stopped with image := { image 2 .released 0 with successor := some 1 } },
      { record 1 .sounding 0 .stopped with image := { image 1 .sounding 0 with predecessor := some 2 } }]).setTracker 0
    { following .tracking with
      forced := [7]
      awaited := some succession }

/-- The same, each record bent to the end of its bend range. -/
def strained : State :=
  lively.setTable
    { lively.table with
      records := lively.table.records.map fun r => { r with image := { r.image with bend := 128 } } }

theorem test_meets_StepKeepsRecordFieldsWithinRange :
    strained.settings.wf ∧ strained.valuesInRange ∧ (∀ k : Str, (strained.trackers[k]).wf) ∧ strained.table.wf
      ∧ strained.livesWf ∧ strained.bendsWf
      ∧ step { strained with pending := [.succeed 0] } = .next (next (.succeed 0) strained)
      ∧ (next (.succeed 0) strained).table.records.length = 3 := by
  have each : ∀ k : Str, (strained.trackers[k]).deferred = []
      ∧ ((strained.trackers[k]).lastSent = none ∧ (strained.trackers[k]).awaited = none
        ∨ (strained.trackers[k]).lastSent = some sent ∧ (strained.trackers[k]).awaited = some succession
          ∧ (strained.trackers[k]).live = some 1) := by decide
  refine ⟨test_meets_StepKeepsSettingsWithinRange, ⟨by decide, fun k => ?_⟩, by decide, by decide +kernel,
    ⟨fun k => ⟨fun a ha => ?_, ?_⟩, by decide +kernel⟩, ⟨by decide, fun k => ⟨?_, ?_⟩⟩, rfl, by decide⟩
  · rcases each k with ⟨hd, ⟨hl, ha⟩ | ⟨hl, ha, -⟩⟩ <;>
      simp [-Fin.getElem_fin, Tracker.inRange, Request.inRange, hd, hl, ha, sent, succession, recordRange, captureRange]
  · rcases each k with ⟨-, ⟨-, h⟩ | ⟨-, h, l⟩⟩ <;> rw [h] at ha <;> cases ha
    exact l
  · revert k
    decide +kernel
  · rcases each k with ⟨-, ⟨hl, ha⟩ | ⟨hl, ha, -⟩⟩ <;>
      simp [-Fin.getElem_fin, Tracker.bendsWf, hl, ha, sent, succession]
  · revert k
    decide +kernel

/-- The full table, each Tracker following its string's live record. -/
def fullyLive : State := { full with trackers := Vector.ofFn fun k => { following .tracking with live := some (k.val + 9) } }

theorem test_meets_StepKeepsOneLiveRecordOnAString :
    (∀ k : Str, (lively.trackers[k]).wf) ∧ lively.table.wf ∧ (∀ r ∈ lively.table.records, r.wf) ∧ lively.livesWf
      ∧ step { lively with pending := [.succeed 0] } = .next (next (.succeed 0) lively)
      ∧ (next (.succeed 0) lively).table.handles = [2, 1, 20]
      ∧ (∀ r ∈ (next (.succeed 0) lively).table.records, lively.table.created ≤ r.serial →
        ¬ (lively.trackers[r.image.string]).toldOf r.image.handle)
      ∧ fullyLive.table.wf ∧ fullyLive.livesWf ∧ fullyLive.table.records.length = 16 := by
  refine ⟨by decide, by decide +kernel, by decide +kernel, ?_, rfl, by decide, by decide +kernel, by decide +kernel, ?_,
    by decide⟩
  · refine ⟨fun k => ⟨fun a ha => ?_, ?_⟩, by decide +kernel⟩
    · have asks : ∀ j : Str, (lively.trackers[j]).awaited = none
          ∨ (lively.trackers[j]).awaited = some succession ∧ (lively.trackers[j]).live = some 1 := by decide
      rcases asks k with e | ⟨e, l⟩
      · rw [e] at ha
        cases ha
      · rw [e] at ha
        cases ha
        exact l
    · revert k
      decide +kernel
  · refine ⟨fun k => ⟨fun a ha => ?_, ?_⟩, by decide +kernel⟩
    · have asks : ∀ j : Str, (fullyLive.trackers[j]).awaited = none := by decide
      rw [asks k] at ha
      cases ha
    · revert k
      decide +kernel

end Sys2Proof.Tests
end

/-! SUPPORT. O53: every operation of the blocks keeps the Front Ends within their ranges and the Pitch Unit BUSY while a
string asks for it. The operations that touch neither are carried over by their frame equations. -/

namespace Sys2Proof.Machine

/-- The invariant reads the Front Ends, the enable mask and the Pitch Unit's computation and tenure alone. -/
theorem channelsOk_congr {σ τ : State} (w : σ.channelsOk) (hf : τ.frontEnds = σ.frontEnds)
    (hm : τ.settings.enableMask = σ.settings.enableMask)
    (hc : τ.pitchUnit.computation = σ.pitchUnit.computation)
    (ht : τ.pitchUnit.tenureUsed = σ.pitchUnit.tenureUsed) : τ.channelsOk := by
  unfold State.channelsOk State.frontEndsWf State.freeMeansIdle
  rw [hf, hm, hc, ht]
  exact w

/-- A step at the Note Table touches neither a Front End nor the Pitch Unit. -/
theorem State.tabledTo.channelsOk {σ τ : State} (h : σ.tabledTo τ) (w : σ.channelsOk) : τ.channelsOk := by
  rw [h]; exact w

/-- A step on the Control Link touches neither a Front End nor the Pitch Unit. -/
theorem State.linkedTo.channelsOk {σ τ : State} (h : σ.linkedTo τ) (w : σ.channelsOk) : τ.channelsOk := by
  rw [h]; exact w

/-! ## The two resets -/

theorem hardReset_channelsOk (σ : State) : σ.hardReset.channelsOk := by
  refine ⟨fun k => ?_, fun _ => ⟨rfl, fun k => ?_⟩⟩
  · simp only [State.hardReset, State.reset, bank_get_replicate]
    exact ⟨FrontEnd.wf_initial false false, fun _ => trivial⟩
  · simp only [State.hardReset, State.reset, bank_get_replicate]

/-! ## Inputs and answers of the Trackers -/

theorem deliver_channelsOk {σ : State} (w : σ.channelsOk) (s : Str) (i : TrackerInput) : (σ.deliver s i).channelsOk :=
  putTaken_channelsOk w s _

/-- An input taken off the Tracker's channel, and then delivered. -/
theorem setTracker_deliver_channelsOk {σ : State} (w : σ.channelsOk) (s : Str) (t : Tracker) (i : TrackerInput) :
    ((σ.setTracker s t).deliver s i).channelsOk :=
  deliver_channelsOk (σ := σ.setTracker s t) w s i

theorem eventStep_channelsOk {σ : State} (w : σ.channelsOk) (e : FrontEndEvent) (s : Str) :
    (σ.eventStep e s).channelsOk := by
  unfold State.eventStep
  split
  · exact w
  · split
    · exact setTracker_deliver_channelsOk w s _ _
    · exact w

theorem forcedStep_channelsOk {σ : State} (w : σ.channelsOk) (s : Str) : (σ.forcedStep s).channelsOk := by
  unfold State.forcedStep
  split
  · exact w
  · exact setTracker_deliver_channelsOk w s _ _

theorem enableStep_channelsOk {σ : State} (w : σ.channelsOk) (s : Str) : (σ.enableStep s).channelsOk := by
  unfold State.enableStep
  split
  · exact setTracker_deliver_channelsOk w s _ _
  all_goals exact w

theorem disableStep_channelsOk {σ : State} (w : σ.channelsOk) (s : Str) : (σ.disableStep s).channelsOk := by
  unfold State.disableStep
  split
  · exact setTracker_deliver_channelsOk w s _ _
  all_goals exact w

theorem staleStep_channelsOk {σ : State} (w : σ.channelsOk) (s : Str) : (σ.staleStep s).channelsOk := by
  unfold State.staleStep
  split
  · exact setTracker_deliver_channelsOk w s _ _
  · exact w

theorem trackerAnswer_channelsOk {σ : State} (w : σ.channelsOk) (s : Str) : (σ.trackerAnswer s).channelsOk := by
  unfold State.trackerAnswer
  split
  · exact w
  · split
    · exact w
    · exact putTaken_channelsOk w s _

/-! ## The probe and the Settings Store -/

theorem finishRun_channelsOk {σ : State} (w : σ.channelsOk) (s : Str) (plan : Plan) :
    (σ.finishRun s plan).channelsOk := by
  unfold State.finishRun
  dsimp only
  split <;> exact w

theorem countPitch_channelsOk {σ : State} (w : σ.channelsOk) (s : Str) (plan : Plan) (pr : Int) :
    (σ.countPitch s plan pr).channelsOk := by
  unfold State.countPitch
  dsimp only
  split
  · split
    · refine finishRun_channelsOk ?_ s plan
      exact w
    · exact w
  · exact w

theorem probePitch_channelsOk {σ : State} (w : σ.channelsOk) (s : Str) : (σ.probePitch s).channelsOk := by
  unfold State.probePitch
  split
  · exact w
  · unfold State.takePitch
    split
    · exact countPitch_channelsOk (σ := σ.setTracker s _) w s _ _
    · exact w

/-- Only a write of the enable mask changes it (R128). -/
theorem Settings.write_enableMask (k : Settings) (v : Int) {i : SettingId} (hi : i ≠ .global .enableMask) :
    (k.write v i).enableMask = k.enableMask := by
  cases i with
  | global g =>
    cases g with
    | enableMask => exact absurd rfl hi
    | _ => rfl
  | zone z g => rfl
  | physical s g => rfl
  | musical p s g => cases p <;> rfl

/-- Another reference, and another reference term, whichever it is (R136). -/
theorem retune_channelsOk {σ : State} (w : σ.channelsOk) (n : Nat) (R : Int) :
    ((σ.setSettings { σ.settings with reference := n }).setPitchUnit { σ.pitchUnit with refTerm := R }).channelsOk :=
  channelsOk_congr w rfl rfl rfl rfl

theorem setReference_channelsOk {σ : State} (w : σ.channelsOk) (n : Nat) : (σ.setReference n).channelsOk := by
  unfold State.setReference State.abortProbe
  exact abortRun_channelsOk (retune_channelsOk w n (referenceTerm n)) _ _

theorem storeSetting_channelsOk {σ : State} (w : σ.channelsOk) (i : SettingId) (v : Int) :
    (σ.storeSetting i v).channelsOk := by
  unfold State.storeSetting
  split
  · exact setEnableMask_channelsOk w _
  · exact setReference_channelsOk w _
  · next hi _ => exact channelsOk_congr w rfl (Settings.write_enableMask σ.settings v hi) rfl rfl

theorem set_channelsOk {σ : State} (w : σ.channelsOk) (n : Byte) (v : BitVec 16) : (σ.set n v).channelsOk := by
  unfold State.set
  split
  · exact w
  · split
    · exact w
    · exact storeSetting_channelsOk w _ _

theorem selectProfile_channelsOk {σ : State} (w : σ.channelsOk) (v : Byte) : (σ.selectProfile v).channelsOk := by
  unfold State.selectProfile
  split
  · exact w
  · split <;> exact w

/-! ## Posted commands and the step -/

theorem applyPosted_channelsOk {σ : State} (w : σ.channelsOk) (p : Posted) : (σ.applyPosted p).channelsOk := by
  cases p with
  | tagNote h t => exact (tagNote_frame σ h t).channelsOk w
  | untagNote h => exact (untagNote_frame σ h).channelsOk w
  | holdNote h v => exact (holdNote_frame σ h v).channelsOk w
  | releaseNote h => exact (releaseNote_frame σ h).channelsOk w
  | retireNote h => exact (retireNote_frame σ h).channelsOk w
  | allRelease => exact (allRelease_frame σ).channelsOk w
  | set n v => exact set_channelsOk w n v
  | selectProfile v => exact selectProfile_channelsOk w v
  | probeStop => exact abortRun_channelsOk w _ _
  | clearFaults m => exact clearFaults_channelsOk w m
  | restart => exact restart_channelsOk σ

/-- Every operation of the blocks keeps the Front Ends in range and the Pitch Unit BUSY while a string asks. -/
theorem channelsOk_kept : Kept State.channelsOk where
  pending _ _ w := w
  hardReset σ _ := hardReset_channelsOk σ
  hardResetEnd _ w := w
  sample k v _ w := sampleStep_channelsOk w k v
  tick _ w := tick_channelsOk w
  stale k _ w := staleStep_channelsOk w k
  linger h σ w := (lingerExpiry_frame σ h).channelsOk w
  complete _ w := completeComputation_channelsOk w
  result k _ w := resultStep_channelsOk w k
  event e k _ w := eventStep_channelsOk w e k
  answer k _ w := trackerAnswer_channelsOk w k
  forced k _ w := forcedStep_channelsOk w k
  enable k _ w := enableStep_channelsOk w k
  disable k _ w := disableStep_channelsOk w k
  update k σ w := (serve_frame σ k _).channelsOk w
  confirm k σ w := (serve_frame σ k _).channelsOk w
  release k σ w := (serve_frame σ k _).channelsOk w
  create k σ w := (serve_frame σ k _).channelsOk w
  succeed k σ w := (serve_frame σ k _).channelsOk w
  pitch k _ w := probePitch_channelsOk w k
  posted p _ w := applyPosted_channelsOk w p
  snapshot q σ w := (snapshot_frame σ q).channelsOk w
  link _ _ w := w
  arrive _ w := w
  report c d _ w := report_channelsOk w c d
  refuse _ _ _ _ w := w
  drop _ w := w
  reflag _ _ w := w

/-- Settles O53: both invariants together are kept by every operation of the blocks, and so by every step. -/
theorem stepKeepsFrontEndsAndGrants : Obligations.StepKeepsFrontEndsAndGrants := by
  unfold Obligations.StepKeepsFrontEndsAndGrants
  intro s t hf hi he
  exact step_kept channelsOk_kept ⟨hf, hi⟩ he

end Sys2Proof.Machine

/-! SUPPORT. O6 and O7: what a sample does at the Front End, case by case, and what a cycle report that it writes
does at the queue and at the Pitch Unit. -/

namespace Sys2Proof.Machine

/-- Outside hard reset a step is taken (R186). -/
theorem whenRunning_running {f : State → State} {σ : State} (h : σ.inReset = false) : whenRunning f σ = .next (f σ) := by
  simp only [whenRunning, h, Bool.false_eq_true, if_false]

/-! ## The sample at the Front End -/

/-- A sample on the envelope scale is taken as it is (R2). -/
theorem sampleValue_of_range {v : Int} (h1 : -4095 ≤ v) (h2 : v ≤ 4095) : sampleValue v = v := by
  unfold sampleValue clampInt
  split
  · omega
  · split <;> omega

/-- A CLOSED gate examines nothing (R12). -/
theorem FrontEnd.timed_closed {f : FrontEnd} (hg : f.gate = .closed) (v : Int) : f.timed v = (f, none) := by
  simp only [FrontEnd.timed, hg]

/-- Without a crossing the detector may be armed, and the timing follows (R12, R13). -/
theorem FrontEnd.timed_passes {f : FrontEnd} (hg : f.gate = .opened) {v : Int}
    (hc : ¬ (f.armed = true ∧ f.previous < f.level ∧ (f.level : Int) ≤ v)) :
    f.timed v = ({ f with armed := f.armed || f.arms v, timing := f.timing.advance v }, none) := by
  simp only [FrontEnd.timed, hg, FrontEnd.examine, FrontEnd.crossing, if_neg hc]

/-- The ticks from the previous sample to the instant of the crossing (R12). -/
def FrontEnd.ticksTo (f : FrontEnd) (v : Int) : Nat :=
  ((128 * ((f.level : Int) - f.previous)) / (v - f.previous)).toNat

/-- A crossing disarms the detector, ends the cycle in progress and begins the next (R12 to R15). -/
theorem FrontEnd.timed_crosses {f : FrontEnd} (hg : f.gate = .opened) {v : Int}
    (hc : f.armed = true ∧ f.previous < f.level ∧ (f.level : Int) ≤ v) :
    f.timed v = ({ f with armed := false, timing := .begun (f.ticksTo v) }, f.timing.finish v (f.ticksTo v)) := by
  simp only [FrontEnd.timed, hg, FrontEnd.examine, FrontEnd.crossing, if_pos hc, FrontEnd.ticksTo]

/-- A cycle whose period lies within the limits is reported (R14, R15). -/
theorem CycleTiming.finish_good {e ticks : Nat} (h : 2048 ≤ e + ticks ∧ e + ticks < 196608) (v : Int) (p : Nat) (o : Bool) :
    (CycleTiming.timing e p o).finish v ticks =
      some { period := e + ticks, peak := max p v.natAbs, overload := o || fullScale v } :=
  if_pos h

/-- A cycle whose period lies beyond them is not (R14). -/
theorem CycleTiming.finish_bad {e ticks : Nat} (h : ¬ (2048 ≤ e + ticks ∧ e + ticks < 196608)) (v : Int) (p : Nat)
    (o : Bool) : (CycleTiming.timing e p o).finish v ticks = none :=
  if_neg h

/-- What a noted sample leaves: the Front End, and the overload of a full-scale sample reported (R3). -/
theorem reportOverload_note (σ : State) (k : Str) (g : FrontEnd) (v : Int) :
    (σ.setFrontEnd k (g.note v)).reportOverload k v =
      { σ with
        frontEnds := σ.frontEnds.set k (g.note v)
        notices :=
          if decide (v.natAbs = 4095) then
            σ.notices.report σ.settings.noticeEnables .overload (BitVec.ofNat 8 (k.val + 1))
          else σ.notices } := by
  unfold State.reportOverload
  by_cases h : v.natAbs = 4095
  · simp only [fullScale, Config.fullScale, h, decide_true, if_true]; rfl
  · simp only [fullScale, Config.fullScale, h, decide_false, Bool.false_eq_true, if_false]; rfl

/-! ## The step SAMPLE -/

theorem exec_sample {s : State} (h : s.inReset = false) (k : Str) (v : Int) :
    exec (.sample k v) s = .next (s.sampleStep k v) :=
  whenRunning_running h

/-- A disabled string does not convert (R2). -/
theorem sampleStep_disabled {σ : State} {k : Str} (h : maskHas σ.settings.enableMask k = false) (v : Int) :
    σ.sampleStep k v = σ := by
  simp only [State.sampleStep, Settings.enabled, h, Bool.false_eq_true, if_false]

/-- A sample without a report is noted, and that is all. -/
theorem sampleStep_quiet {σ : State} {k : Str} {v : Int} {g : FrontEnd} (h : maskHas σ.settings.enableMask k = true)
    (h1 : -4095 ≤ v) (h2 : v ≤ 4095) (ht : (σ.frontEnds[k]).timed v = (g, none)) :
    σ.sampleStep k v = (σ.setFrontEnd k (g.note v)).reportOverload k v := by
  simp only [State.sampleStep, Settings.enabled, h, if_true, State.takeSample, sampleValue_of_range h1 h2, ht]

/-- A sample with a report is noted before the report is written. -/
theorem sampleStep_reports {σ : State} {k : Str} {v : Int} {g : FrontEnd} {r : CycleReport}
    (h : maskHas σ.settings.enableMask k = true) (h1 : -4095 ≤ v) (h2 : v ≤ 4095)
    (ht : (σ.frontEnds[k]).timed v = (g, some r)) :
    σ.sampleStep k v = ((σ.setFrontEnd k (g.note v)).reportOverload k v).writeReport k r := by
  simp only [State.sampleStep, Settings.enabled, h, if_true, State.takeSample, sampleValue_of_range h1 h2, ht]

/-- Settles O6: each of the four samples writes no report, so it is noted and no more. -/
theorem sampleThatEndsNoCycle : Obligations.SampleThatEndsNoCycle := by
  unfold Obligations.SampleThatEndsNoCycle
  intro s k v hr h1 h2
  dsimp only
  rw [exec_sample hr]
  refine ⟨fun he => ?_, fun he hg => ?_, fun he hg hc => ?_, fun he hg hc hw => ?_⟩
  · rw [sampleStep_disabled he]
  · rw [sampleStep_quiet he h1 h2 (FrontEnd.timed_closed hg v), reportOverload_note]
    rfl
  · rw [sampleStep_quiet he h1 h2 (FrontEnd.timed_passes hg hc), reportOverload_note]
    rfl
  · have ht := FrontEnd.timed_crosses hg hc
    rw [hw] at ht
    rw [sampleStep_quiet he h1 h2 ht, reportOverload_note]
    rfl

/-! ## The report at the queue and at the Pitch Unit -/

theorem grantIfFree_busy {σ : State} (h : σ.pitchUnit.computation.isSome) : σ.grantIfFree = σ := by
  unfold State.grantIfFree
  rw [if_neg (by simp [Option.isSome_iff_ne_none.1 h])]

theorem grantIfFree_free {σ : State} (h : σ.pitchUnit.computation = none) : σ.grantIfFree = σ.grant := by
  unfold State.grantIfFree
  rw [if_pos (by simp [h])]

/-- Where there is room the report joins the queue's tail (R16). -/
theorem FrontEnd.append_room {f : FrontEnd} (h : f.queue.length < 4) (r : CycleReport) :
    f.append r = { f with queue := f.queue ++ [r] } :=
  if_pos h

/-- On a full queue the oldest report is lost (R17). -/
theorem FrontEnd.append_full {f : FrontEnd} (h : 4 ≤ f.queue.length) (r : CycleReport) :
    f.append r = { f with queue := f.queue.drop 1 ++ [r], overrunMark := true } :=
  if_neg (Nat.not_lt.2 h)

/-- A report written with room in the queue (R16, R26). -/
theorem writeReport_room {σ : State} {k : Str} (hq : (σ.frontEnds[k]).queue.length < 4) (r : CycleReport) :
    σ.writeReport k r =
      (σ.setFrontEnd k { σ.frontEnds[k] with queue := (σ.frontEnds[k]).queue ++ [r] }).grantIfFree := by
  have hd : (σ.frontEnds[k]).queue.length < Config.cycleQueueDepth := hq
  simp only [State.writeReport, if_pos hd, FrontEnd.append_room hq]

/-- A report that overruns the queue (R17, R26). -/
theorem writeReport_full {σ : State} {k : Str} (hq : 4 ≤ (σ.frontEnds[k]).queue.length) (r : CycleReport) :
    σ.writeReport k r =
      ((σ.setFrontEnd k { σ.frontEnds[k] with queue := (σ.frontEnds[k]).queue.drop 1 ++ [r], overrunMark := true }).report
        .overrun (stringDetail k)).grantIfFree := by
  have hd : ¬ (σ.frontEnds[k]).queue.length < Config.cycleQueueDepth := Nat.not_lt.2 hq
  simp only [State.writeReport, if_neg hd, FrontEnd.append_full hq]

/-- The only requester is granted, whichever its class (R26). -/
theorem nextGranted_only {σ : State} {k : Str} (hk : (σ.frontEnds[k]).queue ≠ [])
    (h : ∀ j : Str, j ≠ k → (σ.frontEnds[j]).queue = []) : σ.nextGranted = some k := by
  cases hn : σ.nextGranted with
  | none => exact absurd (nextGranted_none hn k) hk
  | some j =>
    have hj := nextGranted_requester hn
    by_cases e : j = k
    · rw [e]
    · simp only [State.requester, h j e, List.isEmpty_nil, Bool.not_true, Bool.false_eq_true] at hj

/-- The inputs of a computation follow the Tracker's state (R28). -/
theorem smoothingInputs_eq (σ : State) (k : Str) :
    σ.smoothingInputs k =
      (if (σ.trackers[k]).state = .tracking then (σ.trackers[k]).committed.map (·.period) else none,
        if (σ.trackers[k]).state = .tracking ∧ (σ.trackers[k]).committed.isSome then σ.settings.smoothingShift else 0) := by
  unfold State.smoothingInputs
  split
  · next hs hc => simp [-Fin.getElem_fin, hs, hc]
  · next h =>
    cases hc : (σ.trackers[k]).committed with
    | none => simp [-Fin.getElem_fin]
    | some c =>
      have hs : (σ.trackers[k]).state ≠ .tracking := fun hs => h c hs hc
      simp [-Fin.getElem_fin, hs]

/-- A report written while no other waits is taken by the FREE Pitch Unit at once, and the queue is empty again (R26 to
R28). -/
theorem writeReport_free {σ : State} (hf : σ.pitchUnit.computation = none) (hq : ∀ j : Str, (σ.frontEnds[j]).queue = [])
    (k : Str) (r : CycleReport) :
    σ.writeReport k r =
      { σ with
        frontEnds := σ.frontEnds.set k { σ.frontEnds[k] with queue := [] }
        pitchUnit :=
          { σ.pitchUnit with computation := some (σ.computationOn k r), tenureUsed := 1, lastGranted := k } } := by
  have hw : σ.writeReport k r = (σ.setFrontEnd k { σ.frontEnds[k] with queue := [r] }).grantIfFree := by
    rw [writeReport_room (by rw [hq k]; decide) r, hq k, List.nil_append]
  have hk := bank_get_set_self σ.frontEnds k { σ.frontEnds[k] with queue := [r] }
  have hn : (σ.setFrontEnd k { σ.frontEnds[k] with queue := [r] }).nextGranted = some k := by
    refine nextGranted_only ?_ fun j hj => ?_
    · rw [setFrontEnd_frontEnds, hk]; exact List.cons_ne_nil _ _
    · rw [setFrontEnd_frontEnds, bank_get_set_ne _ _ (Ne.symm hj)]; exact hq j
  rw [hw, grantIfFree_free (by exact hf)]
  unfold State.grant State.beginComputation
  simp only [hn, setFrontEnd_frontEnds, hk]
  unfold State.setFrontEnd State.setPitchUnit
  simp only [bank_set_set]
  rfl


/-- The Front End of a noted sample replaced again. -/
theorem setFrontEnd_afterNote (σ : State) (k : Str) (v : Bank FrontEnd) (g h : FrontEnd) (u : NoticeUnit) :
    ({ σ with frontEnds := v.set k g, notices := u } : State).setFrontEnd k h =
      { σ with frontEnds := v.set k h, notices := u } := by
  simp only [State.setFrontEnd, bank_set_set]

/-- Settles O7: the cycle that the crossing ends is finished with a report or without one, and the report is written
beside a BUSY unit, with room or on a full queue, or taken by a FREE one. -/
theorem crossingEndsACycle : Obligations.CrossingEndsACycle := by
  unfold Obligations.CrossingEndsACycle
  intro s k v e p o hr h1 h2 he hg ha hp hl ht f full ticks report detail noted told good
  have hx := FrontEnd.timed_crosses hg ⟨ha, hp, hl⟩
  rw [ht] at hx
  have reported (h : good) : exec (.sample k v) s =
      .next (({ s with frontEnds := s.frontEnds.set k noted, notices := told } : State).writeReport k report) := by
    have hy := hx.trans (congrArg (Prod.mk _) (CycleTiming.finish_good h v p o))
    rw [exec_sample hr, sampleStep_reports he h1 h2 hy, reportOverload_note]
    rfl
  have hk : (s.frontEnds.set k noted)[k] = noted := bank_get_set_self _ _ _
  refine ⟨fun hb => ?_, fun h hb hq => ?_, fun h hb hq => ?_, fun h hf hq => ?_⟩
  · have hy := hx.trans (congrArg (Prod.mk _) (CycleTiming.finish_bad hb v p o))
    rw [exec_sample hr, sampleStep_quiet he h1 h2 hy, reportOverload_note]
    rfl
  · rw [reported h, writeReport_room (by rw [hk]; exact hq), grantIfFree_busy (by exact hb), setFrontEnd_afterNote, hk]
  · rw [reported h, writeReport_full (by rw [hk]; exact hq), grantIfFree_busy (by exact hb), setFrontEnd_afterNote, hk]
    rfl
  · rw [reported h, writeReport_free (by exact hf) fun j => ?_]
    · simp only [bank_set_set, hk, State.computationOn, smoothingInputs_eq]
    · rw [bank_get_set]
      split
      · exact hq k
      · exact hq j

end Sys2Proof.Machine

/-! SUPPORT. O8 to O10: what a millisecond tick does at one Front End, gate CLOSED or OPEN, at its Tracker, and at the
Note Table's timers. -/

namespace Sys2Proof.Machine

/-! ## The tick at one string -/

theorem exec_millisecondTick {s : State} (h : s.inReset = false) : exec .millisecondTick s = .next s.millisecond :=
  whenRunning_running h

theorem millisecond_frontEnd (σ : State) (k : Str) : σ.millisecond.frontEnds[k] = (σ.tickFrontEnd k).1 :=
  bank_get_ofFn _ _

theorem millisecond_tracker (σ : State) (k : Str) :
    σ.millisecond.trackers[k] = (σ.trackers[k]).tick (σ.tickFrontEnd k).2 :=
  bank_get_ofFn _ _

/-- A disabled string's Front End computes nothing and tells nothing (R11, R20). -/
theorem tickFrontEnd_disabled {σ : State} {k : Str} (h : maskHas σ.settings.enableMask k = false) :
    σ.tickFrontEnd k = (σ.frontEnds[k], none) := by
  simp only [State.tickFrontEnd, Settings.enabled, h, Bool.false_eq_true, if_false]

/-- What the tick of an enabled string's Front End yields stands in the Front End and in the Tracker's events (R5,
R11). -/
theorem millisecond_enabled {σ : State} {k : Str} (h : maskHas σ.settings.enableMask k = true) {f : FrontEnd}
    {e : Option FrontEndEvent} (ht : (σ.frontEnds[k]).tick (σ.settings.gateOf k) = (f, e)) :
    σ.millisecond.frontEnds[k] = f
      ∧ (σ.millisecond.trackers[k]).events = (σ.trackers[k]).events ++ e.toList := by
  have hk : σ.tickFrontEnd k = (f, e) := by
    simp only [State.tickFrontEnd, Settings.enabled, h, if_true, ht]
  rw [millisecond_frontEnd, millisecond_tracker, hk]
  exact ⟨rfl, rfl⟩

/-! ## A CLOSED gate (R6) -/

theorem FrontEnd.tick_closed {f : FrontEnd} (hg : f.gate = .closed) (g : GateSettings) :
    f.tick g = f.updateEnvelope.onsetRule g := by
  simp only [FrontEnd.tick, hg]

theorem FrontEnd.onsetRule_opens {g : GateSettings} {f : FrontEnd}
    (h : g.onsetConfirm ≤ if g.onset ≤ f.env then f.onsetCount + 1 else 0) :
    f.onsetRule g =
      ({ f with
          gate := .opened, onsetCount := 0, releaseCount := 0, envHi := f.env, envLo := f.env, armed := false
          timing := .waiting }, some .onset) :=
  if_pos h

theorem FrontEnd.onsetRule_counts {g : GateSettings} {f : FrontEnd}
    (h : (if g.onset ≤ f.env then f.onsetCount + 1 else 0) < g.onsetConfirm) :
    f.onsetRule g = ({ f with onsetCount := if g.onset ≤ f.env then f.onsetCount + 1 else 0 }, none) :=
  if_neg (Nat.not_le.2 h)

/-- Settles O8: the onset rule acts on the updated envelope, and opens the gate or counts. -/
theorem onsetOpensTheGate : Obligations.OnsetOpensTheGate := by
  unfold Obligations.OnsetOpensTheGate
  intro s k hr he hg f env count
  have ht := FrontEnd.tick_closed hg (s.settings.gateOf k)
  refine ⟨s.millisecond, exec_millisecondTick hr, fun ho => ?_, fun hc => ?_⟩
  · exact millisecond_enabled he (ht.trans (FrontEnd.onsetRule_opens ho))
  · obtain ⟨hf, hev⟩ := millisecond_enabled he (ht.trans (FrontEnd.onsetRule_counts hc))
    exact ⟨hf, hev.trans (List.append_nil _)⟩

/-! ## An OPEN gate (R7, R9, R10) -/

theorem FrontEnd.tick_opened {f : FrontEnd} (hg : f.gate = .opened) (g : GateSettings) :
    f.tick g = f.updateEnvelope.releaseRule g := by
  simp only [FrontEnd.tick, hg]

theorem FrontEnd.releaseRule_closes {g : GateSettings} {f : FrontEnd}
    (h : g.releaseConfirm ≤ if f.env < g.effectiveRelease then f.releaseCount + 1 else 0) :
    f.releaseRule g = (f.close, some .release) :=
  if_pos h

theorem FrontEnd.releaseRule_stays {g : GateSettings} {f : FrontEnd}
    (h : (if f.env < g.effectiveRelease then f.releaseCount + 1 else 0) < g.releaseConfirm) :
    f.releaseRule g =
      FrontEnd.restrikeRule g { f with releaseCount := if f.env < g.effectiveRelease then f.releaseCount + 1 else 0 } :=
  if_neg (Nat.not_le.2 h)

/-- The detector takes the envelope: the greatest since the last strike, and the least since that (R9). -/
theorem FrontEnd.trackRestrike_eq (f : FrontEnd) :
    f.trackRestrike =
      { f with
        envHi := max f.envHi f.env
        envLo := if f.envHi < f.env then f.env else min f.envLo f.env } := by
  unfold FrontEnd.trackRestrike
  split
  · next h => rw [max_eq_right h.le]
  · next h => rw [max_eq_left (Nat.not_lt.1 h)]

theorem FrontEnd.restrikeRule_strikes {g : GateSettings} {f : FrontEnd}
    (h : g.onset ≤ f.env ∧ (if f.envHi < f.env then f.env else min f.envLo f.env) * g.restrikeRatio ≤ f.env * 8) :
    FrontEnd.restrikeRule g f = ({ f with envHi := f.env, envLo := f.env }, some .restrike) := by
  simp only [FrontEnd.restrikeRule, FrontEnd.trackRestrike_eq, FrontEnd.restrikes, h.1, h.2, decide_true, Bool.and_self,
    if_true]

theorem FrontEnd.restrikeRule_waits {g : GateSettings} {f : FrontEnd}
    (h : ¬ (g.onset ≤ f.env
      ∧ (if f.envHi < f.env then f.env else min f.envLo f.env) * g.restrikeRatio ≤ f.env * 8)) :
    FrontEnd.restrikeRule g f =
      ({ f with
          envHi := max f.envHi f.env
          envLo := if f.envHi < f.env then f.env else min f.envLo f.env }, none) := by
  simp only [FrontEnd.restrikeRule, FrontEnd.trackRestrike_eq, FrontEnd.restrikes, ← Bool.decide_and, decide_eq_true_eq,
    if_neg h]

/-- The restrike detector leaves the gate, the envelope and the release count. -/
theorem FrontEnd.restrikeRule_keeps (g : GateSettings) (f : FrontEnd) :
    (FrontEnd.restrikeRule g f).1.gate = f.gate ∧ (FrontEnd.restrikeRule g f).1.env = f.env
      ∧ (FrontEnd.restrikeRule g f).1.releaseCount = f.releaseCount := by
  by_cases h : g.onset ≤ f.env
      ∧ (if f.envHi < f.env then f.env else min f.envLo f.env) * g.restrikeRatio ≤ f.env * 8
  · rw [FrontEnd.restrikeRule_strikes h]; exact ⟨rfl, rfl, rfl⟩
  · rw [FrontEnd.restrikeRule_waits h]; exact ⟨rfl, rfl, rfl⟩

/-- With a ratio above 8 a new greatest envelope is no restrike (R9, R10). -/
theorem newGreatest_noRestrike {env ratio : Nat} (hr : 9 ≤ ratio) (hpos : 0 < env) : ¬ env * ratio ≤ env * 8 :=
  fun h => absurd (Nat.le_of_mul_le_mul_left h hpos) (by omega)

/-- Settles O9: the release rule acts on the updated envelope, and closes the gate or leaves it to the restrike
detector. -/
theorem openGateClosesOrRestrikes : Obligations.OpenGateClosesOrRestrikes := by
  unfold Obligations.OpenGateClosesOrRestrikes
  constructor
  · intro s k hr he hg f g env count
    have ht := FrontEnd.tick_opened hg (s.settings.gateOf k)
    refine ⟨s.millisecond, exec_millisecondTick hr, fun ho => ?_, fun hc => ?_⟩
    · exact millisecond_enabled he (ht.trans (FrontEnd.releaseRule_closes ho))
    · obtain ⟨hf, -⟩ := millisecond_enabled he (ht.trans (FrontEnd.releaseRule_stays hc))
      obtain ⟨kg, ke, kc⟩ := FrontEnd.restrikeRule_keeps (s.settings.gateOf k)
        { f.updateEnvelope with releaseCount := count }
      rw [hf]
      exact ⟨kg.trans hg, ke, kc⟩
  · intro s k hr he hg f g env count hi lo base hc
    have ht := (FrontEnd.tick_opened hg (s.settings.gateOf k)).trans (FrontEnd.releaseRule_stays hc)
    refine ⟨s.millisecond, exec_millisecondTick hr, fun hs => ?_, fun hn => ?_, fun h9 hgt => ?_⟩
    · exact millisecond_enabled he (ht.trans (FrontEnd.restrikeRule_strikes hs))
    · obtain ⟨hf, hev⟩ := millisecond_enabled he (ht.trans (FrontEnd.restrikeRule_waits hn))
      exact ⟨hf, hev.trans (List.append_nil _)⟩
    · have hlo : lo = env := if_pos hgt
      rw [hlo]
      exact newGreatest_noRestrike h9 (Nat.zero_lt_of_lt hgt)

/-! ## The timers (R73, R92, R116) -/

/-- A stale timer runs down by one and stays at its expiry (R73). -/
theorem StaleTimer.tick_eq (t : StaleTimer) :
    t.tick = match t with
      | .running n => .running (n - 1)
      | .taken => .taken
      | .stopped => .stopped := by
  rcases t with _ | (_ | n) | _ <;> rfl

/-- A tick at a Tracker: the event joins its channel, and the stale timer advances (R11, R73). -/
theorem Tracker.tick_eq (e : Option FrontEndEvent) (t : Tracker) :
    t.tick e =
      { t with
        events := t.events ++ e.toList
        staleTimer := match t.staleTimer with
          | .running n => .running (n - 1)
          | .taken => .taken
          | .stopped => .stopped } :=
  congrArg (fun x => ({ t with events := t.events ++ e.toList, staleTimer := x } : Tracker)) (StaleTimer.tick_eq _)

/-- A tick at a record: the age grows to its stop, and the linger timer runs down to its expiry (R92, R116). -/
theorem Record.tick_eq (r : Record) :
    r.tick =
      { r with
        image := { r.image with age := min (r.image.age + 1) 65535 }
        linger := match r.linger with
          | .running n => .running (n - 1)
          | .stopped => .stopped } := by
  rcases r with ⟨image, changed, _ | (_ | n), serial⟩ <;> rfl

/-- Settles O10: the tick maps every Front End, Tracker and record, and touches no other block. -/
theorem tickAdvancesEveryTimer : Obligations.TickAdvancesEveryTimer := by
  unfold Obligations.TickAdvancesEveryTimer
  intro s hr
  refine ⟨s.millisecond, exec_millisecondTick hr, rfl, fun k => ?_, fun k hd => ?_, ?_⟩
  · rw [millisecond_tracker]
    exact Tracker.tick_eq _ _
  · rw [millisecond_frontEnd, millisecond_tracker, tickFrontEnd_disabled hd]
    exact ⟨rfl, List.append_nil _⟩
  · exact congrArg (fun rs => { s.table with records := rs }) (List.map_congr_left fun r _ => Record.tick_eq r)

end Sys2Proof.Machine

/-! SUPPORT. O4: the state after a reset, block by block, and the default of every setting by its number. -/

namespace Sys2Proof.Machine

/-- A Tracker after a hard reset: QUIET on the strings that the default enable mask enables, and OFF on the others
(R80). -/
theorem reset_tracker (k : Str) :
    State.reset.trackers[k] = { state := if k.val < 6 then .quiet else .off } := by
  rw [State.reset, resetTrackers, bank_get_ofFn]
  split <;> rfl

/-- The numbers of the physical settings (R126). -/
theorem ofNumber_physical : ∀ (k : Str) (j : Fin 4),
    SettingId.ofNumber (BitVec.ofNat 8 (0x40 + j.val + 4 * k.val)) = some (.physical k (physicalItemAt j.val)) := by
  decide +kernel

/-- The numbers of the musical settings (R127). -/
theorem ofNumber_musical : ∀ (k : Str) (j : Fin 4),
    SettingId.ofNumber (BitVec.ofNat 8 (0x80 + j.val + 4 * k.val)) = some (.musical .A k (musicalItemAt j.val))
      ∧ SettingId.ofNumber (BitVec.ofNat 8 (0xA0 + j.val + 4 * k.val)) = some (.musical .B k (musicalItemAt j.val)) := by
  decide +kernel

/-- After a reset a physical setting's number reads the default of its item (R126). -/
theorem reset_reads_physical (k : Str) (j : Fin 4) :
    (SettingId.ofNumber (BitVec.ofNat 8 (0x40 + j.val + 4 * k.val))).map State.reset.settings.read =
      some (({} : Physical).read (physicalItemAt j.val)) := by
  have hd : State.reset.settings.physical[k] = {} := bank_get_replicate _ _
  rw [ofNumber_physical k j]
  exact congrArg (fun p : Physical => some (p.read _)) hd

/-- After a reset a musical setting's number reads the default of its item, in either profile (R127). -/
theorem reset_reads_musical (k : Str) (j : Fin 4) :
    (SettingId.ofNumber (BitVec.ofNat 8 (0x80 + j.val + 4 * k.val))).map State.reset.settings.read =
        some (({} : Musical).read (musicalItemAt j.val))
      ∧ (SettingId.ofNumber (BitVec.ofNat 8 (0xA0 + j.val + 4 * k.val))).map State.reset.settings.read =
        some (({} : Musical).read (musicalItemAt j.val)) := by
  have hd (p : Profile) : State.reset.settings.musical p k = {} := by
    cases p <;> exact bank_get_replicate _ _
  obtain ⟨hA, hB⟩ := ofNumber_musical k j
  rw [hA, hB]
  exact ⟨congrArg (fun m : Musical => some (m.read _)) (hd .A),
    congrArg (fun m : Musical => some (m.read _)) (hd .B)⟩

/-- Every block after a reset (R22, R32, R80, R122, R157, R174, R185). -/
theorem reset_blocks :
    (∀ k : Str, State.reset.frontEnds[k] = {}) ∧ State.reset.pitchUnit = {} ∧ State.reset.table = {}
      ∧ State.reset.probe = {} ∧ State.reset.link = {} ∧ State.reset.notices = {} ∧ State.reset.attn = false :=
  ⟨fun _ => bank_get_replicate _ _, rfl, rfl, rfl, rfl, rfl, rfl⟩

/-- Settles O4: the blocks hold the defaults of their structures, and each number reads the default of its setting. -/
theorem resetLeavesTheNamedValues : Obligations.ResetLeavesTheNamedValues := by
  unfold Obligations.ResetLeavesTheNamedValues
  obtain ⟨hf, hp, ht, hpr, hl, hn, ha⟩ := reset_blocks
  refine ⟨⟨hf, hp, reset_tracker, ht, hpr, hl, hn, rfl, rfl, rfl, ha⟩, ?_⟩
  intro holds
  have phys (k : Str) (j : Fin 4) := reset_reads_physical k j
  have mus (k : Str) (j : Fin 4) := reset_reads_musical k j
  refine ⟨?_, fun k => ⟨phys k 0, phys k 1, phys k 2, phys k 3⟩, fun k base hb => ?_, rfl⟩
  · decide +kernel
  · simp only [List.mem_cons, List.not_mem_nil, or_false] at hb
    rcases hb with rfl | rfl
    · exact ⟨(mus k 0).1, (mus k 1).1, (mus k 2).1, (mus k 3).1⟩
    · exact ⟨(mus k 0).2, (mus k 1).2, (mus k 2).2, (mus k 3).2⟩

end Sys2Proof.Machine

/-! SUPPORT. O11: the table G entry by entry, the interpolation between two of its entries, and the logarithm over its
domain: its bounds, its octaves and its order. -/

namespace Sys2Proof.Machine

/-! ## The table -/

/-- The entries are 768 × log2(1 + j / 256) rounded half up, both sides raised to whole numbers (R34). -/
theorem logEntry_rounds : ∀ j : Fin 257, j.val ≠ 181 →
    2 ^ (2 * logEntry j.val) * 256 ^ 1536 ≤ 2 * (256 + j.val) ^ 1536
      ∧ (256 + j.val) ^ 1536 < 2 ^ (2 * logEntry j.val + 1) * 256 ^ 1536 := by
  decide +kernel

theorem logEntry_step : ∀ j : Fin 256,
    logEntry j.val + 2 ≤ logEntry (j.val + 1) ∧ logEntry (j.val + 1) ≤ logEntry j.val + 5 := by
  decide +kernel

theorem logEntry_mono {i j : Nat} (h : i ≤ j) (hj : j ≤ 256) : logEntry i ≤ logEntry j := by
  induction j, h using Nat.le_induction with
  | base => exact le_rfl
  | succ j _ ih =>
    have hstep : logEntry j + 2 ≤ logEntry (j + 1) := (logEntry_step ⟨j, hj⟩).1
    have hprev := ih (Nat.le_of_succ_le hj)
    omega

/-! ## The interpolation -/

/-- The rounded share of a step, for a remainder of r in 128. -/
def logShare (d r : Nat) : Nat := (d * r + 64) / 128

theorem logShare_le (d : Nat) {r : Nat} (h : r ≤ 127) : logShare d r ≤ d := by
  have hd : d * r ≤ d * 127 := Nat.mul_le_mul_left d h
  unfold logShare
  omega

theorem logShare_mono (d : Nat) {r r' : Nat} (h : r ≤ r') : logShare d r ≤ logShare d r' :=
  Nat.div_le_div_right (Nat.add_le_add_right (Nat.mul_le_mul_left d h) 64)

/-- F at remainder r past entry i (R35). -/
theorem logFraction_eq (m : Nat) :
    logFraction m = logEntry ((m - 32768) / 128)
      + logShare (logEntry ((m - 32768) / 128 + 1) - logEntry ((m - 32768) / 128)) ((m - 32768) % 128) := rfl

/-- F lies between the two entries it is interpolated from. -/
theorem logFraction_between {m : Nat} (h : m ≤ 65535) :
    logEntry ((m - 32768) / 128) ≤ logFraction m ∧ logFraction m ≤ logEntry ((m - 32768) / 128 + 1) := by
  have hstep : logEntry ((m - 32768) / 128) ≤ logEntry ((m - 32768) / 128 + 1) := logEntry_mono (by omega) (by omega)
  have hshare := logShare_le (logEntry ((m - 32768) / 128 + 1) - logEntry ((m - 32768) / 128))
    (r := (m - 32768) % 128) (by omega)
  rw [logFraction_eq]
  omega

theorem logFraction_le {m : Nat} (h : m ≤ 65535) : logFraction m ≤ 768 :=
  (logFraction_between h).2.trans (logEntry_mono (j := 256) (by omega) le_rfl)

theorem logFraction_mono {m n : Nat} (h : m ≤ n) (hn : n ≤ 65535) : logFraction m ≤ logFraction n := by
  rcases Nat.lt_or_eq_of_le (Nat.div_le_div_right (c := 128) (Nat.sub_le_sub_right h 32768)) with hi | hi
  · calc logFraction m ≤ logEntry ((m - 32768) / 128 + 1) := (logFraction_between (h.trans hn)).2
      _ ≤ logEntry ((n - 32768) / 128) := logEntry_mono hi (by omega)
      _ ≤ logFraction n := (logFraction_between hn).1
  · rw [logFraction_eq, logFraction_eq, hi]
    exact Nat.add_le_add_left (logShare_mono _ (by omega)) _

/-! ## The mantissa -/

/-- A number and its highest set bit. -/
theorem log2_bounds {V : Nat} (h : 2048 ≤ V) : 2 ^ Nat.log2 V ≤ V ∧ V < 2 ^ (Nat.log2 V + 1) :=
  ⟨Nat.log2_self_le (by omega), Nat.lt_log2_self⟩

theorem log2_range {V : Nat} (h1 : 2048 ≤ V) (h2 : V ≤ 4194303) : 11 ≤ Nat.log2 V ∧ Nat.log2 V ≤ 21 := by
  have hlow : 11 ≤ Nat.log2 V := (Nat.le_log2 (by omega)).2 h1
  have hhigh : Nat.log2 V < 22 := (Nat.log2_lt (by omega)).2 (by omega)
  omega

/-- The highest set bit moves to place 15 (R33). -/
theorem logMantissa_range {V b : Nat} (h1 : 2 ^ b ≤ V) (h2 : V < 2 ^ (b + 1)) :
    32768 ≤ logMantissa V b ∧ logMantissa V b ≤ 65535 := by
  unfold logMantissa
  split
  · next hb =>
    have hpow : 2 ^ b * 2 ^ (15 - b) = 32768 := by rw [← pow_add, Nat.add_sub_cancel' hb]; rfl
    have hlow := Nat.mul_le_mul_right (2 ^ (15 - b)) h1
    have hhigh := Nat.mul_lt_mul_of_pos_right h2 (Nat.two_pow_pos (15 - b))
    rw [pow_succ, Nat.mul_right_comm] at hhigh
    omega
  · next hb =>
    have hpow : 2 ^ b = 32768 * 2 ^ (b - 15) := by
      rw [show (32768 : Nat) = 2 ^ 15 from rfl, ← pow_add, Nat.add_sub_cancel' (by omega)]
    constructor
    · rw [Nat.le_div_iff_mul_le (Nat.two_pow_pos _)]
      omega
    · refine Nat.le_of_lt_succ ((Nat.div_lt_iff_lt_mul (Nat.two_pow_pos _)).2 ?_)
      rw [pow_succ] at h2
      omega

theorem logMantissa_mono {V W : Nat} (h : V ≤ W) (b : Nat) : logMantissa V b ≤ logMantissa W b := by
  unfold logMantissa
  split
  · exact Nat.mul_le_mul_right _ h
  · exact Nat.div_le_div_right h

/-- A number and its double have the same mantissa. -/
theorem logMantissa_double (V b : Nat) : logMantissa (2 * V) (b + 1) = logMantissa V b := by
  unfold logMantissa
  rcases Nat.lt_trichotomy b 15 with hb | rfl | hb
  · have hs : 15 - b = (15 - (b + 1)) + 1 := by omega
    rw [if_pos (by omega), if_pos hb.le, hs, pow_succ]
    ring
  · simp
  · have hs : b + 1 - 15 = (b - 15) + 1 := by omega
    rw [if_neg (by omega), if_neg (by omega), hs, pow_succ, Nat.mul_comm 2 V,
      Nat.mul_div_mul_right _ _ (Nat.zero_lt_two)]

/-! ## The logarithm -/

theorem log768_eq (V : Nat) : log768 V = 768 * Nat.log2 V + logFraction (logMantissa V (Nat.log2 V)) := rfl

/-- The logarithm lies in the octave of its highest set bit. -/
theorem log768_octave {V : Nat} (h : 2048 ≤ V) :
    768 * Nat.log2 V ≤ log768 V ∧ log768 V ≤ 768 * (Nat.log2 V + 1) := by
  obtain ⟨hlow, hhigh⟩ := log2_bounds h
  have hfrac := logFraction_le (logMantissa_range hlow hhigh).2
  rw [log768_eq]
  omega

/-- Each doubling adds 768 (R35). -/
theorem log768_double {V : Nat} (h : V ≠ 0) : log768 (2 * V) = log768 V + 768 := by
  rw [log768_eq, log768_eq, Nat.log2_two_mul h, logMantissa_double]
  omega

theorem log768_mono {V W : Nat} (h1 : 2048 ≤ V) (h : V ≤ W) : log768 V ≤ log768 W := by
  have hb : Nat.log2 V ≤ Nat.log2 W := (Nat.le_log2 (by omega)).2 ((log2_bounds h1).1.trans h)
  rcases Nat.lt_or_eq_of_le hb with hb | hb
  · have hV := (log768_octave h1).2
    have hW := (log768_octave (h1.trans h)).1
    omega
  · obtain ⟨hlow, hhigh⟩ := log2_bounds (h1.trans h)
    rw [log768_eq, log768_eq, hb]
    exact Nat.add_le_add_left (logFraction_mono (logMantissa_mono h _) (logMantissa_range hlow hhigh).2) _

/-- Settles O11: the table's facts are checked entry by entry, and the logarithm's follow from them and the mantissa. -/
theorem logarithmFollowsItsTable : Obligations.LogarithmFollowsItsTable := by
  unfold Obligations.LogarithmFollowsItsTable
  refine ⟨⟨by decide +kernel, logEntry_rounds, by decide +kernel, logEntry_step⟩, fun V h1 h2 => ?_, fun V h1 _ => ?_,
    fun V W h1 h _ => log768_mono h1 h⟩
  · intro b m i r
    obtain ⟨hb1, hb2⟩ := log2_range h1 h2
    obtain ⟨hlow, hhigh⟩ := log2_bounds h1
    obtain ⟨hm1, hm2⟩ : 32768 ≤ m ∧ m ≤ 65535 := logMantissa_range hlow hhigh
    obtain ⟨ho1, ho2⟩ := log768_octave h1
    have hr : r = (m - 32768) % 128 := by omega
    refine ⟨hm1, hm2, by omega, by omega, ?_, by omega, by omega⟩
    rw [hr]
    rfl
  · exact log768_double (by omega)

end Sys2Proof.Machine

/-! SUPPORT. O12 to O14: what the arithmetic of a cycle yields, and the ranges of its results. -/

namespace Sys2Proof.Machine

/-! ## The raw pitch and the reference term -/

/-- A shorter cycle has a raw pitch no lower (R37). -/
theorem rawPitchOf_anti (R : Int) {T T' : Nat} (h1 : 128 ≤ T) (h : T ≤ T') : rawPitchOf R T' ≤ rawPitchOf R T := by
  have hlog := log768_mono (V := 16 * T) (W := 16 * T') (by omega) (by omega)
  unfold rawPitchOf
  omega

/-- A period and its double lie an octave apart (R37). -/
theorem rawPitchOf_octave (R : Int) {T : Nat} (h : T ≠ 0) : rawPitchOf R T = rawPitchOf R (2 * T) + 768 := by
  have hlog := log768_double (V := 16 * T) (by omega)
  rw [Nat.mul_left_comm] at hlog
  unfold rawPitchOf
  omega

/-- A higher reference has a reference term no higher (R36). -/
theorem referenceTerm_anti {a a' : Nat} (h1 : 2048 ≤ a) (h : a ≤ a') : referenceTerm a' ≤ referenceTerm a := by
  have hlog := log768_mono h1 h
  unfold referenceTerm
  omega

theorem log768_longestCycle : log768 (16 * 196607) = 16577 := by decide +kernel

theorem log768_shortestCycle : log768 (16 * 2048) = 11520 := by decide +kernel

theorem referenceTerm_at_4800 : referenceTerm 4800 = 17966 := by decide +kernel

theorem referenceTerm_at_4000 : referenceTerm 4000 = 18168 := by decide +kernel

/-- Settles O12: the ranges lie between the values at their two ends, as the logarithm keeps the order. -/
theorem rawPitchOfACycle : Obligations.RawPitchOfACycle := by
  unfold Obligations.RawPitchOfACycle
  have hlong (R : Int) : rawPitchOf R 196607 = R - 16577 := by rw [rawPitchOf, log768_longestCycle]; rfl
  have hshort (R : Int) : rawPitchOf R 2048 = R - 11520 := by rw [rawPitchOf, log768_shortestCycle]; rfl
  refine ⟨⟨fun _ _ => rfl, fun T h1 h2 => by omega, fun R T hR1 hR2 h1 h2 => ?_, log768_longestCycle, hlong _,
    log768_shortestCycle, hshort _, fun R T h1 _ => rawPitchOf_octave R (by omega)⟩,
    fun _ => rfl, referenceTerm_at_4000, by decide +kernel, by decide +kernel, referenceTerm_at_4800, fun a h1 h2 => ?_⟩
  · have hlow := rawPitchOf_anti R (by omega) h2
    have hhigh := rawPitchOf_anti R (by omega) h1
    rw [hlong] at hlow
    rw [hshort] at hhigh
    omega
  · have hlow := referenceTerm_anti (by omega) h2
    have hhigh := referenceTerm_anti (by omega) h1
    rw [referenceTerm_at_4800] at hlow
    rw [referenceTerm_at_4000] at hhigh
    exact ⟨hlow, hhigh⟩

/-! ## The smoothing filter -/

/-- The adjustment has the sign of the difference and does not exceed it (R38). -/
theorem smoothingStep_between {k : Nat} (hk : k ≤ 3) (d : Int) :
    (0 ≤ d → 0 ≤ smoothingStep d k ∧ smoothingStep d k ≤ d) ∧ (d ≤ 0 → d ≤ smoothingStep d k ∧ smoothingStep d k ≤ 0) := by
  unfold smoothingStep
  interval_cases k <;> omega

/-- The candidate of a committed period, without the cut at 0: the adjustment never takes it below 16 × T. -/
theorem candidatePeriodOf_some {k : Nat} (hk : k ≤ 3) (c T : Nat) :
    (candidatePeriodOf (some c) k T : Int) = c + smoothingStep (16 * (T : Int) - c) k := by
  have hstep := smoothingStep_between hk (16 * (T : Int) - c)
  show ((((c : Int) + smoothingStep (16 * (T : Int) - c) k).toNat : Nat) : Int) = _
  omega

/-- Settles O13: the adjustment lies between 0 and the difference, and so the candidate between its two periods. -/
theorem smoothingFilterMovesTowardTheCycle : Obligations.SmoothingFilterMovesTowardTheCycle := by
  unfold Obligations.SmoothingFilterMovesTowardTheCycle
  refine ⟨fun _ _ => rfl, fun c k T hc1 hc2 hk hT1 hT2 => ?_⟩
  intro d adj
  have hcand : (candidatePeriodOf (some c) k T : Int) = c + adj := candidatePeriodOf_some hk c T
  obtain ⟨hup, hdown⟩ : (0 ≤ d → 0 ≤ adj ∧ adj ≤ d) ∧ (d ≤ 0 → d ≤ adj ∧ adj ≤ 0) := smoothingStep_between hk d
  have hd : d = 16 * (T : Int) - c := rfl
  clear_value d adj
  refine ⟨hcand, hup, hdown, ?_, ?_, ?_, ?_⟩ <;> omega

/-! ## From pitch to note -/

/-- The nearest note of an output pitch, as the rounded quotient with its cap (R41). -/
theorem nearestNote_eq {p : Int} (h : 0 ≤ p) : (nearestNote p : Int) = min 127 ((p + 32) / 64) := by
  unfold nearestNote
  omega

/-- The bend against the nearest note: below the cap it lies within half a note, and above it grows to 63 (R42). -/
theorem bendFrom_nearest {p : Int} (h1 : 0 ≤ p) (h2 : p ≤ 8191) :
    -32 ≤ bendFrom p (nearestNote p) ∧ bendFrom p (nearestNote p) ≤ 63
      ∧ (32 ≤ bendFrom p (nearestNote p) → nearestNote p = 127) := by
  have hn := nearestNote_eq h1
  unfold bendFrom
  omega

/-- Half way between two notes the nearest is the upper one (R41). -/
theorem nearestNote_tie {n : Nat} (h : n < 127) : nearestNote (64 * (n : Int) + 32) = n + 1 := by
  unfold nearestNote
  omega

/-! ## Clamps -/

/-- A clamp whose lower end is not above its upper one (R1). -/
theorem clampNat_eq {lo hi : Nat} (h : lo ≤ hi) (x : Nat) : clampNat lo hi x = max lo (min hi x) := by
  unfold clampNat
  split
  · omega
  · split <;> omega

theorem velocityOf_eq (A gain : Nat) :
    velocityOf A gain = if A * gain / 1024 < 1 then 1 else min 127 (A * gain / 1024) := by
  rw [velocityOf, clampNat_eq (by decide)]
  split <;> omega

theorem levelOf_eq (a gain : Nat) (o : Bool) : levelOf a gain o = if o then 127 else min 127 (a * gain / 1024) := by
  rw [levelOf, clampNat_eq (by decide), Nat.zero_max]

/-! ## Comparisons -/

theorem foldedDistance_le (p q : Int) : foldedDistance p q ≤ 384 := by
  rw [foldedDistance]
  omega

theorem foldedDistance_comm (p q : Int) : foldedDistance p q = foldedDistance q p := by
  rw [foldedDistance, foldedDistance, ← Int.natAbs_neg (p - q), Int.neg_sub]

/-- The folded distance vanishes exactly on whole octaves (R45). -/
theorem foldedDistance_eq_zero (p q : Int) : foldedDistance p q = 0 ↔ (768 : Int) ∣ p - q := by
  have hdvd : (768 : Int) ∣ p - q ↔ (p - q).natAbs % 768 = 0 :=
    Int.natCast_dvd.trans (Nat.dvd_iff_mod_eq_zero)
  rw [foldedDistance, hdvd]
  omega

/-- What is left of a pitch without its deviation is a whole number of semitones (R46). -/
theorem dvd_sub_deviationOf (p : Int) : (64 : Int) ∣ p - deviationOf p := by
  rw [deviationOf, Int.sub_sub_self]
  exact Int.dvd_mul_right 64 _

/-- Settles O14: each figure by its formula, and the ranges of the bend, the folded distance and the deviation. -/
theorem figuresDerivedFromPitchAndPeak : Obligations.FiguresDerivedFromPitchAndPeak := by
  unfold Obligations.FiguresDerivedFromPitchAndPeak
  refine ⟨⟨fun _ _ _ => rfl, fun p h1 h2 => ?_, fun n h => nearestNote_tie h, velocityOf_eq,
    fun a gain => ⟨rfl, levelOf_eq a gain false⟩⟩,
    fun p q => ⟨rfl, foldedDistance_le p q, foldedDistance_comm p q, foldedDistance_eq_zero p q⟩,
    fun p => ?_⟩
  · exact ⟨nearestNote_eq h1, Nat.min_le_left _ _, rfl, bendFrom_nearest h1 h2⟩
  · obtain ⟨hlow, hhigh⟩ := deviationOf_range p
    exact ⟨rfl, hlow, hhigh, dvd_sub_deviationOf p⟩

end Sys2Proof.Machine

/-! SUPPORT. O15 to O17: which string a grant goes to, what the result in flight brings its Tracker, and what the
Pitch Unit decides once it has been handed over. -/

namespace Sys2Proof.Machine

/-! ## The order of the grants -/

/-- The strings' places in the round-robin order (R26). -/
theorem roundRobin_eq : ∀ s : Str, roundRobin s = List.ofFn fun i : Fin 8 => s + 1 + i := by decide +kernel

/-- A search in round-robin order finds the string of the least place among those looked for. -/
theorem find?_roundRobin (s t : Str) (p : Str → Bool) :
    (roundRobin s).find? p = some t ↔ p t ∧ ∀ u, p u → (t - s - 1).val ≤ (u - s - 1).val := by
  have hplace (u : Str) : s + 1 + (u - s - 1) = u := by abel
  have hfind := List.find?_ofFn_eq_some_of_injective (p := p) (i := t - s - 1) (add_right_injective (s + 1))
  rw [hplace] at hfind
  rw [roundRobin_eq, hfind]
  refine and_congr_right fun _ => ⟨fun h u hu => not_lt.1 fun hlt => ?_, fun h j hj hp => ?_⟩
  · exact h (u - s - 1) hlt (by rwa [hplace])
  · have hj' : s + 1 + j - s - 1 = j := by abel
    have hle := h (s + 1 + j) hp
    rw [hj'] at hle
    exact not_le.2 hj hle

/-- The class of a string by the names of its states (R25). -/
theorem urgent_iff (σ : State) (u : Str) :
    σ.urgent u ↔
      (σ.trackers[u]).state = .attack ∨ (σ.trackers[u]).state = .bleed ∨ (σ.trackers[u]).state = .forming := by
  unfold State.urgent
  cases (σ.trackers[u]).state <;> simp [ChannelState.urgent]

theorem requester_iff (σ : State) (u : Str) : σ.requester u ↔ (σ.frontEnds[u]).queue ≠ [] := by
  simp [State.requester]

/-- The next grant goes to the first requester of the first class that has one (R26). -/
theorem nextGranted_iff (σ : State) (t : Str) :
    σ.nextGranted = some t ↔
      σ.requester t ∧ (σ.urgent t ∨ ∀ u, σ.requester u → ¬ σ.urgent u)
        ∧ ∀ u, σ.requester u → (σ.urgent u ↔ σ.urgent t) →
            (t - σ.pitchUnit.lastGranted - 1).val ≤ (u - σ.pitchUnit.lastGranted - 1).val := by
  have hnone : ((roundRobin σ.pitchUnit.lastGranted).find? fun u => σ.requester u && σ.urgent u) = none ↔
      ∀ u, σ.requester u → ¬ σ.urgent u := by
    simp [List.find?_eq_none, mem_roundRobin]
  rw [State.nextGranted, Option.or_eq_some_iff, hnone, find?_roundRobin, find?_roundRobin]
  simp only [Bool.and_eq_true]
  constructor
  · rintro (⟨⟨hr, hu⟩, hfirst⟩ | ⟨hnormal, hr, hfirst⟩)
    · exact ⟨hr, .inl hu, fun u hru hiff => hfirst u ⟨hru, hiff.2 hu⟩⟩
    · exact ⟨hr, .inr hnormal, fun u hru _ => hfirst u hru⟩
  · rintro ⟨hr, hclass, hfirst⟩
    by_cases hu : σ.urgent t = true
    · exact .inl ⟨⟨hr, hu⟩, fun u ⟨hru, huu⟩ => hfirst u hru (iff_of_true huu hu)⟩
    · have hnormal := hclass.resolve_left hu
      exact .inr ⟨hnormal, hr, fun u hru => hfirst u hru (iff_of_false (hnormal u hru) hu)⟩

/-- Settles O15: the two searches of the grant, in the order of the places. -/
theorem grantGoesToTheFirstUrgentRequester : Obligations.GrantGoesToTheFirstUrgentRequester := by
  unfold Obligations.GrantGoesToTheFirstUrgentRequester
  intro s t asks urgent place
  rw [nextGranted_iff]
  simp only [requester_iff, urgent_iff]
  rfl

/-! ## The result in flight -/

theorem exec_trackerResult {s : State} (h : s.inReset = false) (k : Str) :
    exec (.trackerResult k) s = .next (s.resultStep k) :=
  whenRunning_running h

/-- The result is handed to the Tracker of its string, once (R29). -/
theorem resultStep_hands {σ : State} {c : Computation} (hc : σ.pitchUnit.computation = some c) (hh : c.handed = false) :
    σ.resultStep c.string = σ.handResult c := by
  simp only [State.resultStep, hc, hh, and_self, if_true]

/-- No other Tracker receives it. -/
theorem resultStep_other {σ : State} {c : Computation} (hc : σ.pitchUnit.computation = some c) {k : Str}
    (hk : k ≠ c.string) : σ.resultStep k = σ := by
  simp only [State.resultStep, hc, hk.symm, false_and, if_false]

/-- A Tracker that awaits an answer defers its input (R49). -/
theorem deliver_awaiting {σ : State} {k : Str} (h : (σ.trackers[k]).awaited.isSome) (i : TrackerInput) :
    σ.deliver k i = σ.setTracker k { σ.trackers[k] with deferred := (σ.trackers[k]).deferred ++ [i] } := by
  simp only [State.deliver, State.receive, h, if_true, State.putTaken, Bool.false_eq_true, if_false]

/-- An input that a Tracker ignores leaves the part as it is. -/
theorem deliver_ignored {σ : State} {k : Str} {i : TrackerInput} (ha : (σ.trackers[k]).awaited = none)
    (h : σ.takeInput k i σ.trackers[k] = .ignored σ.trackers[k]) : σ.deliver k i = σ := by
  have hput : σ.setTracker k σ.trackers[k] = σ := by
    rw [State.setTracker, bank_set_get]
  simp only [State.deliver, State.receive, ha, Option.isSome_none, Bool.false_eq_true, if_false, h, Taken.ignored,
    State.putTaken, hput]

/-- A result is discarded in OFF, QUIET and MUTED (R52, R53, R75). -/
theorem takeInput_result_ignored (σ : State) (k : Str) (r : PitchResult) {t : Tracker}
    (h : t.state = .off ∨ t.state = .quiet ∨ t.state = .muted) : σ.takeInput k (.result r) t = .ignored t := by
  unfold State.takeInput State.takeResult
  rcases h with h | h | h <;> rw [h]

/-- Settles O16: the result as its formulas have it, deferred or discarded, and received by no other Tracker. -/
theorem resultReachesItsTracker : Obligations.ResultReachesItsTracker := by
  unfold Obligations.ResultReachesItsTracker
  intro s c hr hc hh t candidate result unit
  have hresult : c.result = result := by
    simp only [Computation.result, levelOf_eq]
    rfl
  have hhand : exec (.trackerResult c.string) s = .next ((s.setPitchUnit unit).deliver c.string (.result result)) := by
    rw [exec_trackerResult hr, resultStep_hands hc hh, State.handResult, hresult]
  refine ⟨fun ha => ?_, fun ha hstate => ?_, fun k hk => ?_⟩
  · rw [hhand, deliver_awaiting (σ := s.setPitchUnit unit) ha]
    rfl
  · rw [hhand, deliver_ignored (σ := s.setPitchUnit unit) ha (takeInput_result_ignored _ _ _ hstate)]
    rfl
  · rw [exec_trackerResult hr, resultStep_other hc hk]

/-! ## The decision -/

theorem exec_computationComplete {s : State} (h : s.inReset = false) :
    exec .computationComplete s = .next s.completeComputation :=
  whenRunning_running h

/-- After the result has been handed over the unit decides (R30). -/
theorem completeComputation_handed {σ : State} {c : Computation} (hc : σ.pitchUnit.computation = some c)
    (hh : c.handed = true) : σ.completeComputation = σ.decideContinuation c.string := by
  simp only [State.completeComputation, hc, hh, if_true]

/-- An input reaching a Tracker leaves the Pitch Unit alone. -/
theorem deliver_pitchUnit (σ : State) (k : Str) (i : TrackerInput) : (σ.deliver k i).pitchUnit = σ.pitchUnit := by
  unfold State.deliver State.putTaken
  split <;> rfl

/-- A result not handed over yet is handed over first (log 10). -/
theorem completeComputation_unhanded {σ : State} {c : Computation} (hc : σ.pitchUnit.computation = some c)
    (hh : c.handed = false) : σ.completeComputation = (σ.handResult c).completeComputation := by
  have hunit : (σ.handResult c).pitchUnit.computation = some { c with handed := true } := by
    rw [State.handResult, deliver_pitchUnit]
    rfl
  rw [completeComputation_handed hunit rfl]
  simp only [State.completeComputation, hc, hh, Bool.false_eq_true, if_false]

/-- When the holder continues (R30). -/
theorem continues_iff (σ : State) (k : Str) :
    σ.continues k ↔
      σ.requester k ∧ σ.pitchUnit.tenureUsed < σ.settings.tenure ∧ (σ.urgent k ∨ ∀ u, σ.requester u → ¬ σ.urgent u) := by
  simp [State.continues, mem_allStrings, and_assoc]

/-- A computation begins on the head report of the string granted (R27, R28). -/
theorem beginComputation_cons {σ : State} {k : Str} {r : CycleReport} {rest : List CycleReport}
    (h : (σ.frontEnds[k]).queue = r :: rest) (n : Nat) :
    σ.beginComputation k n =
      { σ with
        frontEnds := σ.frontEnds.set k { σ.frontEnds[k] with queue := rest }
        pitchUnit :=
          { σ.pitchUnit with computation := some (σ.computationOn k r), tenureUsed := n, lastGranted := k } } := by
  simp only [State.beginComputation, h]
  rfl

/-- Nothing is granted where nothing is asked for (R26). -/
theorem grant_idle {σ : State} (h : ∀ u, ¬ σ.requester u) : σ.grant = σ := by
  unfold State.grant
  split
  · rfl
  · next u hu => exact absurd (nextGranted_requester hu) (h u)

/-- The grant decided with no computation in flight begins one on the string granted (R26, R27). -/
theorem grant_cons {σ : State} {k : Str} {r : CycleReport} {rest : List CycleReport} (hn : σ.nextGranted = some k)
    (hq : (σ.frontEnds[k]).queue = r :: rest) :
    σ.grant =
      { σ with
        frontEnds := σ.frontEnds.set k { σ.frontEnds[k] with queue := rest }
        pitchUnit :=
          { σ.pitchUnit with computation := some (σ.computationOn k r), tenureUsed := 1, lastGranted := k } } := by
  rw [State.grant, hn]
  exact beginComputation_cons hq 1

/-- The unit released: FREE, with no tenure used (R30). -/
abbrev State.released (σ : State) : State :=
  σ.setPitchUnit { σ.pitchUnit with computation := none, tenureUsed := 0 }

/-- A holder that does not continue releases the unit, and the grant is decided anew (R30). -/
theorem decideContinuation_releases {σ : State} {k : Str} (h : ¬ σ.continues k) :
    σ.decideContinuation k = σ.released.grant :=
  if_neg h

/-- Settles O17: the result handed over first, or the decision in its three outcomes. -/
theorem completionContinuesOrGrantsAnew : Obligations.CompletionContinuesOrGrantsAnew := by
  unfold Obligations.CompletionContinuesOrGrantsAnew
  intro s c hr hc asks urgent continues begun
  have hcont : s.continues c.string ↔ continues := by
    rw [continues_iff]
    simp only [requester_iff, urgent_iff]
    rfl
  have hdecide (hh : c.handed = true) : exec .computationComplete s = .next (s.decideContinuation c.string) := by
    rw [exec_computationComplete hr, completeComputation_handed hc hh]
  refine ⟨fun hh t ht => ?_, fun hh hgo r rest hq => ?_, fun hh hstop hidle => ?_, fun hh hstop u r rest hu hq => ?_⟩
  · rw [exec_trackerResult hr, resultStep_hands hc hh] at ht
    obtain rfl : s.handResult c = t := by injection ht
    have hrun : (s.handResult c).inReset = false := by
      rw [handResult_frame s c]
      exact hr
    rw [exec_computationComplete hr, completeComputation_unhanded hc hh, exec_computationComplete hrun]
  · rw [hdecide hh, State.decideContinuation, if_pos (hcont.2 hgo), beginComputation_cons hq]
    simp only [State.computationOn, smoothingInputs_eq]
    rfl
  · rw [hdecide hh, decideContinuation_releases (mt hcont.1 hstop),
      grant_idle (σ := s.released) fun v hv => hidle v ((requester_iff s v).1 hv)]
    rfl
  · have hgrant := grant_cons (σ := s.released) hu hq
    rw [hdecide hh, decideContinuation_releases (mt hcont.1 hstop), hgrant]
    simp only [State.computationOn, smoothingInputs_eq]
    rfl

end Sys2Proof.Machine

/-! SUPPORT. O54: every operation of the blocks keeps each Tracker coherent. What changes at a Tracker outside its own
steps is a message on its way to it or from it, which is no part of its coherence. -/

namespace Sys2Proof.Machine

/-- A Tracker whose channels of messages alone are changed. -/
theorem trackersWf_messages {σ : State} (w : σ.trackersWf) (s : Str) (f : List Nat) (n : List Bool) (p : List Int) :
    (σ.setTracker s { σ.trackers[s] with forced := f, enables := n, passed := p }).trackersWf :=
  State.trackersWf_set w s (wf_channels (w s) (σ.trackers[s]).events f n p)

/-! ## The Note Table's commands -/

theorem lingerExpiry_trackersWf {σ : State} (w : σ.trackersWf) (h : Nat) : (σ.lingerExpiry h).trackersWf := by
  unfold State.lingerExpiry
  split
  · exact w
  · split
    · split <;> exact w
    · exact w

theorem holdNote_trackersWf {σ : State} (w : σ.trackersWf) (h v : Byte) : (σ.holdNote h v).trackersWf := by
  unfold State.holdNote
  split
  · exact w
  · split <;> exact w

/-- A record released by the controller: its string's Tracker is sent a message (R113). -/
theorem forceRelease_trackersWf {σ : State} (w : σ.trackersWf) (r : Record) : (σ.forceRelease r).trackersWf :=
  trackersWf_messages w r.image.string _ _ _

theorem releaseNote_trackersWf {σ : State} (w : σ.trackersWf) (h : Byte) : (σ.releaseNote h).trackersWf := by
  unfold State.releaseNote
  split
  · exact w
  · split
    · exact forceRelease_trackersWf w _
    · exact w

theorem forceReleaseAll_trackersWf (rs : List Record) {σ : State} (w : σ.trackersWf) :
    (rs.foldl State.forceRelease σ).trackersWf := by
  induction rs generalizing σ with
  | nil => exact w
  | cons r rs ih => exact ih (forceRelease_trackersWf w r)

theorem retireNote_trackersWf {σ : State} (w : σ.trackersWf) (h : Byte) : (σ.retireNote h).trackersWf := by
  unfold State.retireNote
  split
  · exact w
  · split <;> exact w

/-! ## The probe and the Settings Store -/

/-- A PROBE START answered OK drops the pitches on their way (R146); no other snapshot touches a Tracker. -/
theorem probeStart_trackersWf {σ : State} (w : σ.trackersWf) (a : ProbeStart) : (σ.probeStart a).trackersWf := by
  unfold State.probeStart
  split
  · next s _ _ => exact trackersWf_messages w s _ _ []
  · exact w

theorem countPitch_trackers (σ : State) (s : Str) (plan : Plan) (pr : Int) :
    (σ.countPitch s plan pr).trackers = σ.trackers := by
  unfold State.countPitch State.finishRun
  dsimp only
  split
  · split
    · split <;> rfl
    · rfl
  · rfl

theorem probePitch_trackersWf {σ : State} (w : σ.trackersWf) (s : Str) : (σ.probePitch s).trackersWf := by
  unfold State.probePitch
  split
  · exact w
  · next pr rest _ =>
    have taken := trackersWf_messages w s (σ.trackers[s]).forced (σ.trackers[s]).enables rest
    unfold State.takePitch
    split
    · unfold State.trackersWf
      rw [countPitch_trackers]
      exact taken
    · exact taken

theorem abortRun_trackers (σ : State) (tell : Notice → NoticeUnit → NoticeUnit) (r : AbortReason) :
    (σ.abortRun tell r).trackers = σ.trackers := by
  unfold State.abortRun
  split
  · dsimp only
    split <;> rfl
  · rfl

/-- A string enabled or disabled: its Tracker is sent a message (R134). -/
theorem tellEnable_trackersWf {σ : State} (w : σ.trackersWf) (old new : BitVec 8) (s : Str) :
    (σ.tellEnable old new s).trackersWf := by
  have told (f : FrontEnd) (on : Bool) : ((σ.setFrontEnd s f).sendEnable s on).trackersWf :=
    trackersWf_messages w s _ _ _
  unfold State.tellEnable
  split
  · unfold State.disableString
    dsimp only
    split
    · unfold State.trackersWf
      rw [abortRun_trackers]
      exact told _ _
    · exact told _ _
  · split
    · exact told _ _
    · exact w

theorem tellAll_trackersWf (old new : BitVec 8) (ks : List Str) {σ : State} (w : σ.trackersWf) :
    (ks.foldl (State.tellEnable old new) σ).trackersWf := by
  induction ks generalizing σ with
  | nil => exact w
  | cons k ks ih => exact ih (tellEnable_trackersWf w old new k)

theorem storeSetting_trackersWf {σ : State} (w : σ.trackersWf) (i : SettingId) (v : Int) :
    (σ.storeSetting i v).trackersWf := by
  unfold State.storeSetting
  split
  · exact tellAll_trackersWf _ _ _ (σ := σ.setSettings _) w
  · unfold State.setReference State.abortProbe State.trackersWf
    rw [abortRun_trackers, setPitchUnit_trackers, setSettings_trackers]
    exact w
  · exact w

theorem set_trackersWf {σ : State} (w : σ.trackersWf) (n : Byte) (v : BitVec 16) : (σ.set n v).trackersWf := by
  unfold State.set
  split
  · exact w
  · split
    · exact w
    · exact storeSetting_trackersWf w _ _

theorem selectProfile_trackersWf {σ : State} (w : σ.trackersWf) (v : Byte) : (σ.selectProfile v).trackersWf := by
  unfold State.selectProfile
  split
  · exact w
  · split <;> exact w

/-! ## The two resets -/

/-- A Tracker as a reset leaves it, whether its string is enabled or not (R80). -/
theorem wf_afterReset (st : ChannelState) (p : Profile) (h : st = .quiet ∨ st = .off) :
    ({ state := st, adopted := p } : Tracker).wf := by
  rw [Tracker.wf_idle rfl]
  rcases h with rfl | rfl <;> simp [Tracker.roomWf]

theorem hardReset_trackersWf (σ : State) : σ.hardReset.trackersWf := by
  intro k
  simp only [State.hardReset, State.reset, resetTrackers, bank_get_ofFn]
  split
  · exact wf_afterReset .quiet .A (.inl rfl)
  · exact wf_afterReset .off .A (.inr rfl)

theorem restart_trackersWf (σ : State) : σ.restart.trackersWf := by
  intro k
  simp only [State.restart, bank_get_ofFn]
  refine wf_afterReset _ _ ?_
  split
  · exact .inl rfl
  · exact .inr rfl

/-! ## Snapshots, posted commands and the step -/

theorem snapshot_trackersWf {σ : State} (w : σ.trackersWf) (q : Query) : (σ.snapshot q).trackersWf := by
  cases q with
  | getNote h => unfold State.snapshot State.snapGetNote; dsimp only; split <;> exact w
  | getString b =>
    unfold State.snapshot State.snapGetString
    dsimp only
    split
    · exact w
    · split <;> exact w
  | getSetting n => unfold State.snapshot State.snapGetSetting; dsimp only; split <;> exact w
  | probeStart a => exact probeStart_trackersWf w a
  | _ => exact w

theorem applyPosted_trackersWf {σ : State} (w : σ.trackersWf) (p : Posted) : (σ.applyPosted p).trackersWf := by
  cases p with
  | tagNote h t => unfold State.applyPosted State.tagNote; dsimp only; split <;> exact w
  | untagNote h => unfold State.applyPosted State.untagNote; dsimp only; split <;> exact w
  | holdNote h v => exact holdNote_trackersWf w h v
  | releaseNote h => exact releaseNote_trackersWf w h
  | retireNote h => exact retireNote_trackersWf w h
  | allRelease => exact forceReleaseAll_trackersWf _ w
  | set n v => exact set_trackersWf w n v
  | selectProfile v => exact selectProfile_trackersWf w v
  | probeStop =>
    unfold State.trackersWf
    rw [show (σ.applyPosted .probeStop).trackers = σ.trackers from abortRun_trackers σ _ _]
    exact w
  | clearFaults m => exact w
  | restart => exact restart_trackersWf σ

theorem sampleStep_trackersWf {σ : State} (w : σ.trackersWf) (k : Str) (v : Int) : (σ.sampleStep k v).trackersWf := by
  unfold State.trackersWf
  rw [sampleStep_trackers]
  exact w

/-- Every operation of the blocks keeps every Tracker coherent. -/
theorem trackersWf_kept : Kept State.trackersWf where
  pending _ _ w := w
  hardReset σ _ := hardReset_trackersWf σ
  hardResetEnd _ w := w
  sample k v _ w := sampleStep_trackersWf w k v
  tick _ w := tick_trackersWf w
  stale k _ w := staleStep_trackersWf w k
  linger h _ w := lingerExpiry_trackersWf w h
  complete _ w := completeComputation_trackersWf w
  result k _ w := resultStep_trackersWf w k
  event e k _ w := eventStep_trackersWf w e k
  answer k _ w := trackerAnswer_trackersWf w k
  forced k _ w := forcedStep_trackersWf w k
  enable k _ w := enableStep_trackersWf w k
  disable k _ w := disableStep_trackersWf w k
  update k _ w := applyUpdate_trackersWf w k
  confirm k _ w := applyConfirm_trackersWf w k
  release k _ w := applyRelease_trackersWf w k
  create k _ w := applyCreate_trackersWf w k
  succeed k _ w := applySucceed_trackersWf w k
  pitch k _ w := probePitch_trackersWf w k
  posted p _ w := applyPosted_trackersWf w p
  snapshot q _ w := snapshot_trackersWf w q
  link _ _ w := w
  arrive _ w := w
  report _ _ _ w := w
  refuse _ _ _ _ w := w
  drop _ w := w
  reflag _ _ w := w

/-- Settles O54: coherence is kept by every operation of the blocks, and so by every step. -/
theorem stepKeepsTrackersCoherent : Obligations.StepKeepsTrackersCoherent := by
  unfold Obligations.StepKeepsTrackersCoherent
  intro s t w he
  exact step_kept trackersWf_kept w he

end Sys2Proof.Machine

/-! SUPPORT. O22, O23, O25 and O26: what an input that reaches a Tracker does. First what holds of every input: it leaves
its channel, and is then deferred, or taken with one change of the Tracker and of its string's cycle queue. -/

namespace Sys2Proof.Machine

/-! ## A Tracker's step put into the state -/

/-- The Tracker changes, and its string's cycle queue is emptied if the step says so (R19). -/
theorem putTaken_eq (σ : State) (k : Str) (x : Taken) :
    σ.putTaken k x =
      { σ with
        trackers := σ.trackers.set k x.tracker
        frontEnds := if x.flush then σ.frontEnds.set k { σ.frontEnds[k] with queue := [] } else σ.frontEnds } := by
  unfold State.putTaken
  split <;> rfl

/-- A step that keeps the cycle queue. -/
theorem putTaken_keeps (σ : State) (k : Str) (t : Tracker) :
    σ.putTaken k { tracker := t } = { σ with trackers := σ.trackers.set k t } := rfl

/-- A step that empties the cycle queue (R19). -/
theorem putTaken_empties (σ : State) (k : Str) (t : Tracker) :
    σ.putTaken k { tracker := t, flush := true } =
      { σ with
        trackers := σ.trackers.set k t
        frontEnds := σ.frontEnds.set k { σ.frontEnds[k] with queue := [] } } := rfl

/-- The step of a Tracker goes in the place of what it held. -/
theorem setTracker_putTaken (σ : State) (k : Str) (t : Tracker) (x : Taken) :
    (σ.setTracker k t).putTaken k x = σ.putTaken k x := by
  simp only [State.putTaken, State.setTracker, bank_set_set]

/-! ## An input off its channel -/

/-- While an answer is awaited it is deferred (R49). -/
theorem setTracker_deliver_awaiting (σ : State) (k : Str) {t : Tracker} (h : t.awaited.isSome) (i : TrackerInput) :
    (σ.setTracker k t).deliver k i =
      { σ with trackers := σ.trackers.set k { t with deferred := t.deferred ++ [i] } } := by
  have hself : (σ.setTracker k t).trackers[k] = t := bank_get_set_self _ _ _
  rw [deliver_awaiting (by rwa [hself]), hself]
  simp only [State.setTracker, bank_set_set]

/-- While none is awaited it is taken. -/
theorem setTracker_deliver_idle (σ : State) (k : Str) {t : Tracker} (h : t.awaited = none) (i : TrackerInput) :
    (σ.setTracker k t).deliver k i = σ.putTaken k ((σ.setTracker k t).takeInput k i t) := by
  have hself : (σ.setTracker k t).trackers[k] = t := bank_get_set_self _ _ _
  rw [State.deliver, setTracker_putTaken, hself, State.receive, h]
  rfl

/-- The event at the head of its channel (R11). -/
theorem eventStep_cons {σ : State} {k : Str} {e : FrontEndEvent} {rest : List FrontEndEvent}
    (h : (σ.trackers[k]).events = e :: rest) :
    σ.eventStep e k = (σ.setTracker k { σ.trackers[k] with events := rest }).deliver k (.frontEnd e) := by
  simp only [State.eventStep, h, if_true]

/-- The forced-release message at the head of its channel (R77). -/
theorem forcedStep_cons {σ : State} {k : Str} {h : Nat} {rest : List Nat} (he : (σ.trackers[k]).forced = h :: rest) :
    σ.forcedStep k = (σ.setTracker k { σ.trackers[k] with forced := rest }).deliver k (.forcedRelease h) := by
  simp only [State.forcedStep, he]

/-- The enable at the head of its channel (R52). -/
theorem enableStep_cons {σ : State} {k : Str} {rest : List Bool} (h : (σ.trackers[k]).enables = true :: rest) :
    σ.enableStep k = (σ.setTracker k { σ.trackers[k] with enables := rest }).deliver k .enable := by
  simp only [State.enableStep, h]

/-- The disable at the head of its channel (R78). -/
theorem disableStep_cons {σ : State} {k : Str} {rest : List Bool} (h : (σ.trackers[k]).enables = false :: rest) :
    σ.disableStep k = (σ.setTracker k { σ.trackers[k] with enables := rest }).deliver k .disable := by
  simp only [State.disableStep, h]

/-- The stale timer at its expiry (R73). -/
theorem staleStep_expired {σ : State} {k : Str} (h : (σ.trackers[k]).staleTimer = .running 0) :
    σ.staleStep k =
      (σ.setTracker k { σ.trackers[k] with staleTimer := .taken }).deliver k
        (.staleExpiry (σ.trackers[k]).staleRun) := by
  simp only [State.staleStep, h, if_true]

theorem staleStep_running {σ : State} {k : Str} (h : (σ.trackers[k]).staleTimer ≠ .running 0) : σ.staleStep k = σ :=
  if_neg h

/-! ## Front End events -/

/-- ONSET starts an attack on a string that is silent or muted (R53, R75). -/
theorem takeOnset_attacks {t : Tracker} (h : t.state = .quiet ∨ t.state = .muted) :
    t.takeOnset = { tracker := t.enterAttack } := by
  unfold Tracker.takeOnset
  rcases h with h | h <;> rw [h]

theorem takeOnset_ignored {t : Tracker} (h : ¬ (t.state = .quiet ∨ t.state = .muted)) :
    t.takeOnset = { tracker := t } := by
  unfold Tracker.takeOnset
  split
  · next hq => exact absurd (.inl hq) h
  · next hm => exact absurd (.inr hm) h
  all_goals rfl

/-- RELEASE without a record (R57, R58, R75). -/
theorem takeRelease_quiets {t : Tracker} (h : t.state = .attack ∨ t.state = .bleed ∨ t.state = .muted) :
    t.takeRelease = { tracker := t.enterQuiet, flush := true } := by
  unfold Tracker.takeRelease
  rcases h with h | h | h <;> rw [h]

/-- RELEASE ends the record followed (R70). -/
theorem takeRelease_releases {t : Tracker} (h : t.state = .forming ∨ t.state = .tracking) :
    t.takeRelease = { tracker := (t.sendRelease .decay).enterQuiet, flush := true } := by
  unfold Tracker.takeRelease
  rcases h with h | h <;> rw [h]

theorem takeRelease_ignored {t : Tracker} (h : t.state = .off ∨ t.state = .quiet) :
    t.takeRelease = { tracker := t } := by
  unfold Tracker.takeRelease
  rcases h with h | h <;> rw [h] <;> rfl

/-- RESTRIKE without a record (R58, R75). -/
theorem takeRestrike_attacks {t : Tracker} (h : t.state = .bleed ∨ t.state = .muted) :
    t.takeRestrike = { tracker := t.enterAttack } := by
  unfold Tracker.takeRestrike
  rcases h with h | h <;> rw [h]

/-- RESTRIKE ends the record followed, which becomes the pending predecessor (R71). -/
theorem takeRestrike_releases {t : Tracker} (h : t.state = .forming ∨ t.state = .tracking) :
    t.takeRestrike = { tracker := { t.sendRelease .restrike with predecessor := t.live }.enterAttack } := by
  unfold Tracker.takeRestrike
  rcases h with h | h <;> rw [h]

theorem takeRestrike_ignored {t : Tracker} (h : t.state = .off ∨ t.state = .quiet ∨ t.state = .attack) :
    t.takeRestrike = { tracker := t } := by
  unfold Tracker.takeRestrike
  rcases h with h | h | h <;> rw [h] <;> rfl

theorem exec_trackerOnset {s : State} (h : s.inReset = false) (k : Str) :
    exec (.trackerOnset k) s = .next (s.eventStep .onset k) :=
  whenRunning_running h

theorem exec_trackerReleaseEvent {s : State} (h : s.inReset = false) (k : Str) :
    exec (.trackerReleaseEvent k) s = .next (s.eventStep .release k) :=
  whenRunning_running h

theorem exec_trackerRestrike {s : State} (h : s.inReset = false) (k : Str) :
    exec (.trackerRestrike k) s = .next (s.eventStep .restrike k) :=
  whenRunning_running h

/-- Settles O22: the event leaves its channel, and each of the three is taken state by state. -/
theorem frontEndEventsMoveTheTracker : Obligations.FrontEndEventsMoveTheTracker := by
  unfold Obligations.FrontEndEventsMoveTheTracker
  intro s k e rest hr he ha t after emptied attack quiet releases follows
  have taken : s.eventStep e k = s.putTaken k ((s.setTracker k t).takeInput k (.frontEnd e) t) := by
    rw [eventStep_cons he, setTracker_deliver_idle s k (t := t) ha]
  have hreleases (reason : ReleaseReason) : t.sendRelease reason = releases reason t := rfl
  refine ⟨?_, ?_, ?_⟩ <;> rintro rfl
  · rw [exec_trackerOnset hr, taken, State.takeInput]
    refine ⟨fun h => ?_, fun h => ?_⟩
    · rw [takeOnset_attacks h]
      rfl
    · rw [takeOnset_ignored h]
      rfl
  · rw [exec_trackerReleaseEvent hr, taken, State.takeInput]
    refine ⟨fun h => ?_, fun h => ?_, fun h => ?_⟩
    · rw [takeRelease_quiets h]
      rfl
    · rw [takeRelease_releases h, hreleases]
      rfl
    · rw [takeRelease_ignored h]
      rfl
  · rw [exec_trackerRestrike hr, taken, State.takeInput]
    refine ⟨fun h => ?_, fun h => ?_, fun h => ?_⟩
    · rw [takeRestrike_attacks h]
      rfl
    · rw [takeRestrike_releases h, hreleases]
      rfl
    · rw [takeRestrike_ignored h]
      rfl

/-! ## Deferred inputs -/

theorem exec_forcedReleaseMessage {s : State} (h : s.inReset = false) (k : Str) :
    exec (.forcedReleaseMessage k) s = .next (s.forcedStep k) :=
  whenRunning_running h

theorem exec_trackerEnable {s : State} (h : s.inReset = false) (k : Str) :
    exec (.trackerEnable k) s = .next (s.enableStep k) :=
  whenRunning_running h

theorem exec_trackerDisable {s : State} (h : s.inReset = false) (k : Str) :
    exec (.trackerDisable k) s = .next (s.disableStep k) :=
  whenRunning_running h

theorem exec_staleTimerExpiry {s : State} (h : s.inReset = false) (k : Str) :
    exec (.staleTimerExpiry k) s = .next (s.staleStep k) :=
  whenRunning_running h

/-- With no deferred input left, the Tracker stands as the last one left it. -/
theorem drain_nil (σ : State) (k : Str) (x : Taken) :
    σ.drain k [] x = { x with tracker := { x.tracker with deferred := [] } } := rfl

/-- Once a request is sent, the inputs still deferred wait for its answer (R49). -/
theorem drain_awaiting (σ : State) (k : Str) {x : Taken} (h : x.tracker.awaited.isSome) (i : TrackerInput)
    (rest : List TrackerInput) :
    σ.drain k (i :: rest) x = { x with tracker := { x.tracker with deferred := i :: rest } } := by
  rw [State.drain, if_pos h]

/-- Otherwise the oldest one is taken (R49). -/
theorem drain_idle (σ : State) (k : Str) {x : Taken} (h : x.tracker.awaited = none) (i : TrackerInput)
    (rest : List TrackerInput) :
    σ.drain k (i :: rest) x =
      σ.drain k rest
        { tracker := (σ.takeInput k i x.tracker).tracker, flush := x.flush || (σ.takeInput k i x.tracker).flush } := by
  rw [State.drain, if_neg (by rw [h]; decide)]

/-- Settles O23: each kind of input off its channel and deferred; then the deferred inputs in their order. -/
theorem inputsWaitForTheAnswer : Obligations.InputsWaitForTheAnswer := by
  unfold Obligations.InputsWaitForTheAnswer
  constructor
  · intro s k a hr ha t after
    have deferred (u : Tracker) (hu : u.awaited = t.awaited) (i : TrackerInput) :
        (s.setTracker k u).deliver k i = after { u with deferred := u.deferred ++ [i] } :=
      setTracker_deliver_awaiting s k (by rw [hu, ha]; rfl) i
    refine ⟨fun rest h => ?_, fun rest h => ?_, fun rest h => ?_, fun x rest h => ?_, fun rest h => ?_,
      fun rest h => ?_, fun h => ?_⟩
    · rw [exec_trackerOnset hr, eventStep_cons h, deferred { t with events := rest } rfl]
    · rw [exec_trackerReleaseEvent hr, eventStep_cons h, deferred { t with events := rest } rfl]
    · rw [exec_trackerRestrike hr, eventStep_cons h, deferred { t with events := rest } rfl]
    · rw [exec_forcedReleaseMessage hr, forcedStep_cons h, deferred { t with forced := rest } rfl]
    · rw [exec_trackerEnable hr, enableStep_cons h, deferred { t with enables := rest } rfl]
    · rw [exec_trackerDisable hr, disableStep_cons h, deferred { t with enables := rest } rfl]
    · rw [exec_staleTimerExpiry hr, staleStep_expired h, deferred { t with staleTimer := .taken } rfl]
  · intro s k t flush i rest
    exact ⟨drain_nil s k _, fun h => drain_awaiting s k h i rest, fun h => drain_idle s k h i rest⟩

/-! ## Standing down -/

/-- A Tracker that stands down holds nothing of a record any more; it is MUTED over an OPEN gate, where it keeps the
pending predecessor, and QUIET over a CLOSED one (R50, R51). -/
theorem standDown_leaves {t : Tracker} (h : t.state ≠ .off) (gate : Gate) :
    t.standDown gate =
      { tracker :=
          { t with
            state := if gate = .opened then .muted else .quiet
            live := none, lastSent := none, committed := none, firstPair := none, held := none
            staleTimer := .stopped, staleExpiries := 0
            predecessor := if gate = .opened then t.predecessor else none }
        flush := true } := by
  unfold Tracker.standDown
  rw [if_neg h]
  cases gate <;> rfl

/-! ## The stale guard -/

theorem takeStale_discarded {t : Tracker} {run : Nat}
    (h : run ≠ t.staleRun ∨ t.staleTimer ≠ .taken ∨ ¬ (t.state = .forming ∨ t.state = .tracking))
    (stale : Nat) (gate : Gate) : t.takeStale stale gate run = { tracker := t } := by
  rw [Tracker.takeStale, if_neg]
  · rfl
  · rintro ⟨hstate, htimer, hrun⟩
    rcases h with h | h | h
    · exact h hrun.symm
    · exact h htimer
    · exact h hstate

/-- The first expiry sends a stale UPDATE (R74). -/
theorem takeStale_warns {t : Tracker} {h : Nat} {sent : LastSent} (htimer : t.staleTimer = .taken)
    (hstate : t.state = .forming ∨ t.state = .tracking) (hlive : t.live = some h) (hsent : t.lastSent = some sent)
    (hfirst : t.staleExpiries = 0) (stale : Nat) (gate : Gate) :
    t.takeStale stale gate t.staleRun = { tracker := t.staleUpdate stale h sent } := by
  rw [Tracker.takeStale, if_pos ⟨hstate, htimer, rfl⟩, if_pos hfirst, hlive, hsent]

/-- The second expiry sends RELEASE, and the Tracker stands down (R74). -/
theorem takeStale_releases {t : Tracker} {h : Nat} (htimer : t.staleTimer = .taken)
    (hstate : t.state = .forming ∨ t.state = .tracking) (hlive : t.live = some h) (hsecond : t.staleExpiries ≠ 0)
    (stale : Nat) (gate : Gate) :
    t.takeStale stale gate t.staleRun =
      Tracker.standDown gate
        { t with awaited := some { request := .release h .stale, counted := none, answer := none } } := by
  rw [Tracker.takeStale, if_pos ⟨hstate, htimer, rfl⟩, if_neg hsecond, Tracker.staleRelease, sendRelease_awaited hlive]

/-- A Tracker told of its stale timer's expiry (R73). -/
abbrev Tracker.told (t : Tracker) : Tracker := { t with staleTimer := .taken }

/-- The step of a timer at its expiry: a Tracker that awaits no answer is told, and takes it (R73). -/
theorem exec_staleTimerExpiry_taken {s : State} {k : Str} (h : s.inReset = false)
    (hexpired : (s.trackers[k]).staleTimer = .running 0) (ha : (s.trackers[k]).awaited = none) :
    exec (.staleTimerExpiry k) s = .next
      (s.putTaken k
        ((s.trackers[k]).told.takeStale s.settings.stale (s.frontEnds[k]).gate (s.trackers[k]).told.staleRun)) := by
  rw [exec_staleTimerExpiry h, staleStep_expired hexpired, setTracker_deliver_idle s k (by exact ha)]
  rfl

/-- A Tracker that follows a record is not OFF. -/
theorem following_ne_off {t : Tracker} (h : t.state = .forming ∨ t.state = .tracking) : t.state ≠ .off := by
  rcases h with h | h <;> rw [h] <;> decide

/-- Settles O25: an expiry as it is taken, deferred or not, and the step of a timer that has reached its expiry. -/
theorem staleGuardWarnsThenReleases : Obligations.StaleGuardWarnsThenReleases := by
  unfold Obligations.StaleGuardWarnsThenReleases
  constructor
  · intro s k t run
    refine ⟨fun h => takeStale_discarded h _ _, ?_⟩
    rintro h sent rfl htimer hstate hlive hsent
    refine ⟨fun hfirst => takeStale_warns htimer hstate hlive hsent hfirst _ _, fun hsecond => ?_⟩
    rw [State.takeInput, takeStale_releases htimer hstate hlive hsecond,
      standDown_leaves (by exact following_ne_off hstate)]
  · intro s k hr t
    refine ⟨fun h => ?_, fun h sent hexpired ha hstate hlive hsent => ?_⟩
    · rw [exec_staleTimerExpiry hr, staleStep_running h]
    · have step := exec_staleTimerExpiry_taken hr hexpired ha
      refine ⟨fun hfirst => ?_, fun hsecond => ?_⟩
      · rw [step, takeStale_warns (t := t.told) rfl hstate hlive hsent hfirst]
        rfl
      · intro u
        rw [step, takeStale_releases (t := t.told) rfl hstate hlive hsecond,
          standDown_leaves (by exact following_ne_off hstate)]
        rfl

/-! ## Forced release, enable and disable -/

/-- A forced-release message that names the live record makes the Tracker stand down (R77). -/
theorem takeForced_standsDown {t : Tracker} {h : Nat}
    (hl : (t.state = .forming ∨ t.state = .tracking) ∧ t.live = some h) (gate : Gate) :
    t.takeForced gate h = t.standDown gate :=
  if_pos hl

theorem takeForced_ignored {t : Tracker} {h : Nat}
    (hl : ¬ ((t.state = .forming ∨ t.state = .tracking) ∧ t.live = some h)) (gate : Gate) :
    t.takeForced gate h = { tracker := t } :=
  if_neg hl

/-- An enabled string becomes QUIET (R52). -/
theorem takeEnable_quiets {t : Tracker} (h : t.state = .off) :
    t.takeEnable = { tracker := t.enterQuiet, flush := true } :=
  if_pos h

theorem takeEnable_ignored {t : Tracker} (h : t.state ≠ .off) : t.takeEnable = { tracker := t } := if_neg h

/-- A disabled string becomes OFF, and the record it followed is released (R78). -/
theorem takeDisable_rests {t : Tracker} (h : t.state ≠ .off) :
    t.takeDisable = { tracker := (t.sendRelease .disabled).enterOff, flush := true } :=
  if_neg h

theorem takeDisable_ignored {t : Tracker} (h : t.state = .off) : t.takeDisable = { tracker := t } := if_pos h

theorem sendRelease_idle {t : Tracker} (h : t.live = none) (reason : ReleaseReason) : t.sendRelease reason = t := by
  simp only [Tracker.sendRelease, h]

/-- Settles O26: each message off its channel, and what the Tracker does with it. -/
theorem forcedReleaseEnableAndDisable : Obligations.ForcedReleaseEnableAndDisable := by
  unfold Obligations.ForcedReleaseEnableAndDisable
  intro s k hr ha after emptied rested isOpen
  refine ⟨fun h rest he => ?_, fun rest he => ?_, fun rest he => ?_⟩ <;> intro t
  · have step : exec (.forcedReleaseMessage k) s = .next (s.putTaken k (t.takeForced (s.frontEnds[k]).gate h)) := by
      rw [exec_forcedReleaseMessage hr, forcedStep_cons he, setTracker_deliver_idle s k (t := t) ha]
      rfl
    refine ⟨fun hl => ?_, fun hl => ?_⟩
    · rw [step, takeForced_standsDown hl, standDown_leaves (following_ne_off hl.1), putTaken_empties]
    · rw [step, takeForced_ignored hl, putTaken_keeps]
  · have step : exec (.trackerEnable k) s = .next (s.putTaken k t.takeEnable) := by
      rw [exec_trackerEnable hr, enableStep_cons he, setTracker_deliver_idle s k (t := t) ha]
      rfl
    refine ⟨fun hs => ?_, fun hs => ?_⟩
    · rw [step, takeEnable_quiets hs, putTaken_empties]
      rfl
    · rw [step, takeEnable_ignored hs, putTaken_keeps]
  · have step : exec (.trackerDisable k) s = .next (s.putTaken k t.takeDisable) := by
      rw [exec_trackerDisable hr, disableStep_cons he, setTracker_deliver_idle s k (t := t) ha]
      rfl
    refine ⟨fun hs => ?_, fun hs hl => ?_, fun h hs hl => ?_⟩
    · rw [step, takeDisable_ignored hs, putTaken_keeps]
    · rw [step, takeDisable_rests hs, sendRelease_idle hl, putTaken_empties]
      rfl
    · rw [step, takeDisable_rests hs, sendRelease_awaited hl, putTaken_empties]
      rfl

end Sys2Proof.Machine

/-! SUPPORT. O18, O20 and O21: what a result does in the states that take one: the pair search of ATTACK and BLEED, and
the step check of FORMING and TRACKING with what each of its outcomes sends. -/

namespace Sys2Proof.Machine

/-- The part with the result of the computation handed over (R29). -/
abbrev State.handedOver (σ : State) (c : Computation) : State :=
  σ.setPitchUnit { σ.pitchUnit with computation := some { c with handed := true } }

/-- The result in flight, handed to a Tracker that awaits no answer, which takes it (R29, R54, R59). -/
theorem exec_trackerResult_taken {s : State} {c : Computation} (hr : s.inReset = false)
    (hc : s.pitchUnit.computation = some c) (hh : c.handed = false) (ha : (s.trackers[c.string]).awaited = none) :
    exec (.trackerResult c.string) s = .next
      ((s.handedOver c).putTaken c.string ((s.handedOver c).takeResult c.string c.result s.trackers[c.string])) := by
  rw [exec_trackerResult hr, resultStep_hands hc hh, State.handResult, State.deliver, setPitchUnit_trackers,
    State.receive, ha]
  rfl

/-! ## The pair search -/

theorem takeResult_searches (σ : State) (k : Str) (r : PitchResult) {t : Tracker}
    (h : t.state = .attack ∨ t.state = .bleed) : σ.takeResult k r t = σ.pairSearch k r t := by
  unfold State.takeResult
  rcases h with h | h <;> rw [h]

/-- The first raw pitch is held (R54). -/
theorem pairSearch_first (σ : State) (k : Str) (r : PitchResult) {t : Tracker} (h : t.firstPair = none) :
    σ.pairSearch k r t =
      { tracker := { t with peakMax := max t.peakMax r.peak, firstPair := some r.rawPitch } } := by
  simp only [State.pairSearch, h]

/-- A raw pitch that disagrees replaces the one held (R54). -/
theorem pairSearch_disagrees {σ : State} (k : Str) {r : PitchResult} {t : Tracker} {held : Int}
    (h : t.firstPair = some held) (hd : σ.settings.onsetTolerance < (r.rawPitch - held).natAbs) :
    σ.pairSearch k r t =
      { tracker := { t with peakMax := max t.peakMax r.peak, firstPair := some r.rawPitch } } := by
  simp only [State.pairSearch, h, if_neg (not_le.2 hd)]

/-- A raw pitch that agrees makes a consistent pair (R54). -/
theorem pairSearch_agrees {σ : State} (k : Str) {r : PitchResult} {t : Tracker} {held : Int}
    (h : t.firstPair = some held) (hd : (r.rawPitch - held).natAbs ≤ σ.settings.onsetTolerance) :
    σ.pairSearch k r t = σ.consistentPair k r { t with peakMax := max t.peakMax r.peak } := by
  simp only [State.pairSearch, h, if_pos hd]

/-- A consistent pair where the test finds bleed (R55). -/
theorem consistentPair_bleeds {σ : State} {k : Str} {r : PitchResult} {t : Tracker}
    (h : σ.bleedTest k t r.rawPitch = true) :
    σ.consistentPair k r t =
      { tracker :=
          { t with
            state := .bleed, committed := some { period := 16 * r.period, pitch := r.rawPitch }
            firstPair := some r.rawPitch
            tests := t.tests + 1 } } := by
  rw [State.consistentPair, if_pos h]

/-- A consistent pair where the test is clear (R55, R56). -/
theorem consistentPair_creates {σ : State} {k : Str} {r : PitchResult} {t : Tracker}
    (h : σ.bleedTest k t r.rawPitch = false) :
    σ.consistentPair k r t =
      σ.createFrom k r
        { t with committed := some { period := 16 * r.period, pitch := r.rawPitch }, tests := t.tests + 1 } := by
  rw [State.consistentPair, if_neg (by rw [h]; decide)]

/-- Settles O18: the pair search, and the two outcomes of the bleed test at a consistent pair. -/
theorem pairSearchLeadsToBleedOrCreate : Obligations.PairSearchLeadsToBleedOrCreate := by
  unfold Obligations.PairSearchLeadsToBleedOrCreate
  intro s c hr hc hh ha hstate k r t after musical pout note handedOver
  have step : exec (.trackerResult k) s = .next (handedOver.putTaken k (handedOver.pairSearch k r s.trackers[k])) := by
    rw [exec_trackerResult_taken hr hc hh ha, takeResult_searches _ _ _ hstate]
    rfl
  refine ⟨fun h => ?_, fun held h => ?_⟩
  · rw [step, pairSearch_first handedOver k r (t := s.trackers[k]) h, putTaken_keeps]
  · have agreed (hd : (r.rawPitch - held).natAbs ≤ s.settings.onsetTolerance) :
        handedOver.pairSearch k r s.trackers[k] = handedOver.consistentPair k r t :=
      pairSearch_agrees (σ := handedOver) k h hd
    refine ⟨fun hd => ?_, fun hd hb => ?_, fun hd hb => ?_⟩
    · rw [step, pairSearch_disagrees (σ := handedOver) k (t := s.trackers[k]) h hd, putTaken_keeps]
    · rw [step, agreed hd, consistentPair_bleeds hb, putTaken_keeps]
    · rw [step, agreed hd, consistentPair_creates hb]
      rfl

/-! ## The step check -/

/-- A result near the committed pitch is accepted, whatever is held (R59). -/
theorem stepCheck_accepted {threshold tolerance : Nat} {committed pr : Int} {held : Option Int}
    (h : ¬ threshold < (pr - committed).natAbs) : stepCheck threshold tolerance committed held pr = .accepted :=
  if_pos (not_lt.1 h)

/-- A candidate that agrees with the one held confirms a step (R59). -/
theorem stepCheck_confirmed {threshold tolerance : Nat} {committed pr : Int} {held : Option Int}
    (h : threshold < (pr - committed).natAbs) (ha : ∃ p, held = some p ∧ (pr - p).natAbs ≤ tolerance) :
    stepCheck threshold tolerance committed held pr = .confirmed := by
  obtain ⟨p, rfl, hp⟩ := ha
  rw [stepCheck, if_neg (not_le.2 h)]
  exact if_pos hp

/-- A candidate that agrees with none held is held (R59). -/
theorem stepCheck_hold {threshold tolerance : Nat} {committed pr : Int} {held : Option Int}
    (h : threshold < (pr - committed).natAbs) (ha : ¬ ∃ p, held = some p ∧ (pr - p).natAbs ≤ tolerance) :
    stepCheck threshold tolerance committed held pr = .hold pr := by
  unfold stepCheck
  rw [if_neg (not_le.2 h)]
  cases held with
  | none => rfl
  | some p => exact if_neg fun hp => ha ⟨p, rfl, hp⟩

/-! ## FORMING -/

/-- FORMING takes a result with its items held (R47, R59). -/
theorem takeResult_forming (σ : State) (k : Str) (r : PitchResult) {t : Tracker} {held : Committed} {h : Nat}
    {sent : LastSent} (hs : t.state = .forming) (hc : t.committed = some held) (hl : t.live = some h)
    (hf : t.lastSent = some sent) :
    σ.takeResult k r t = { tracker := σ.formingResult r t held h sent } := by
  simp only [State.takeResult, hs, hc, hl, hf]

/-- Settles O20: the three outcomes of the step check in FORMING. -/
theorem formingFollowsTheNearestNote : Obligations.FormingFollowsTheNearestNote := by
  unfold Obligations.FormingFollowsTheNearestNote
  intro s c held h sent hr hc hh ha hs hcom hl hf k r t after candidate agrees counted
  have step : exec (.trackerResult k) s = .next (after (s.formingResult r t held h sent)) := by
    rw [exec_trackerResult_taken hr hc hh ha, takeResult_forming _ _ _ hs hcom hl hf, putTaken_keeps]
    rfl
  rw [step]
  unfold State.formingResult
  refine ⟨fun hcand hagree => ?_, fun hcand hagree => ?_, fun hcand => ?_⟩
  · rw [stepCheck_hold hcand hagree]
  · rw [stepCheck_confirmed hcand hagree]
    rfl
  · rw [stepCheck_accepted hcand]
    rfl

/-! ## TRACKING -/

/-- TRACKING takes a result with its items held (R47, R59). -/
theorem takeResult_tracking (σ : State) (k : Str) (r : PitchResult) {t : Tracker} {held : Committed} {h : Nat}
    {sent : LastSent} (hs : t.state = .tracking) (hc : t.committed = some held) (hl : t.live = some h)
    (hf : t.lastSent = some sent) :
    σ.takeResult k r t = { tracker := σ.trackingResult k r t held h sent } := by
  simp only [State.takeResult, hs, hc, hl, hf]

/-- The bend range is passed outside its two ends (R65). -/
theorem beyondRange_iff (bend : Int) (range : Nat) :
    beyondRange bend range = true ↔ ¬ (-(64 * (range : Int)) ≤ bend ∧ bend ≤ 64 * (range : Int)) := by
  rw [beyondRange, decide_eq_true_iff]
  omega

/-- A bend past the range is taken to the end on its side (R65). -/
theorem clampBend_beyond {bend : Int} {range : Nat}
    (h : ¬ (-(64 * (range : Int)) ≤ bend ∧ bend ≤ 64 * (range : Int))) :
    clampBend bend range = if bend < 0 then -(64 * (range : Int)) else 64 * (range : Int) := by
  unfold clampBend clampInt
  split_ifs <;> omega

/-- A cycle reported in TRACKING: as an UPDATE within the bend range, and past it as the overflow policy says (R64 to
R66). -/
theorem reportTracking_eq (policy : Overflow) (r : PitchResult) (pitch : Int) (h : Nat) (sent : LastSent)
    (t : Tracker) :
    t.reportTracking policy r pitch h sent =
      let pout := outputPitch pitch r.offset sent.transpose
      let bend := bendFrom pout sent.note
      let limit : Int := 64 * (sent.bendRange : Int)
      if -limit ≤ bend ∧ bend ≤ limit then t.sendUpdate h sent.note bend r.level false sent r.rawPitch
      else if policy = .renote then
        t.sendSucceed h .overbend (nearestNote pout) (bendFrom pout (nearestNote pout)) r.level sent r.rawPitch
      else t.sendUpdate h sent.note (if bend < 0 then -limit else limit) r.level true sent r.rawPitch := by
  unfold Tracker.reportTracking
  dsimp only
  split
  · next hb =>
    have hout := (beyondRange_iff _ _).1 hb
    rw [if_neg hout]
    cases policy with
    | clamp => rw [if_neg (show Overflow.clamp ≠ .renote by decide), clampBend_beyond hout]
    | renote => rw [if_pos rfl]
  · next hb => rw [if_pos (not_not.1 (mt (beyondRange_iff _ _).2 hb))]

/-- A confirmed step that keeps its note, or any under BEND, is reported as a cycle is (R67, R68). -/
theorem reportStep_reports {legato : Legato} {r : PitchResult} {sent : LastSent}
    (hk : legato = .bend ∨ nearestNote (outputPitch r.rawPitch r.offset sent.transpose) = sent.note)
    (policy : Overflow) (h : Nat) (t : Tracker) :
    t.reportStep legato policy r h sent = t.reportTracking policy r r.rawPitch h sent := by
  unfold Tracker.reportStep
  cases legato with
  | bend => rfl
  | newNote => exact if_pos (hk.resolve_left (by decide))

/-- A confirmed step to another note under NEW NOTE is a succession (R67). -/
theorem reportStep_succeeds {r : PitchResult} {sent : LastSent}
    (hn : nearestNote (outputPitch r.rawPitch r.offset sent.transpose) ≠ sent.note) (policy : Overflow) (h : Nat)
    (t : Tracker) :
    t.reportStep .newNote policy r h sent =
      let pout := outputPitch r.rawPitch r.offset sent.transpose
      t.sendSucceed h .legato (nearestNote pout) (bendFrom pout (nearestNote pout)) r.level sent r.rawPitch :=
  if_neg hn

/-- Settles O21: the three outcomes of the step check in TRACKING, the confirmed step by the legato policy. -/
theorem trackingFollowsItsPolicies : Obligations.TrackingFollowsItsPolicies := by
  unfold Obligations.TrackingFollowsItsPolicies
  intro s c held h sent hr hc hh ha hs hcom hl hf k r t policy after candidate agrees sends updates succeeds reports
    newNote
  have step : exec (.trackerResult k) s = .next (after (s.trackingResult k r t held h sent)) := by
    rw [exec_trackerResult_taken hr hc hh ha, takeResult_tracking _ _ _ hs hcom hl hf, putTaken_keeps]
    rfl
  rw [step]
  unfold State.trackingResult
  refine ⟨fun hcand hagree => ?_, fun hcand => ?_, fun hcand hagree hkeeps => ?_, fun hcand hagree hlegato hnote => ?_⟩
  · rw [stepCheck_hold hcand hagree]
  · rw [stepCheck_accepted hcand]
    dsimp only
    rw [reportTracking_eq]
    rfl
  · rw [stepCheck_confirmed hcand hagree]
    dsimp only
    rw [reportStep_reports hkeeps, reportTracking_eq]
    rfl
  · rw [stepCheck_confirmed hcand hagree]
    dsimp only
    rw [show (s.settings.musical t.adopted k).legato = .newNote from hlegato, reportStep_succeeds hnote]
    rfl

end Sys2Proof.Machine

/-! SUPPORT. O24: what each answer does, what passes to the probe, and the confirmation; then standing down. -/

namespace Sys2Proof.Machine

/-! ## Pitches passed to the probe -/

theorem runsOn_iff (p : Probe) (k : Str) : p.runsOn k = true ↔ p.running = true ∧ p.string = some k := by
  rw [Probe.runsOn, Bool.and_eq_true, decide_eq_true_iff]

/-- A counted cycle's raw pitch is passed on while the probe is RUNNING on the string (R79). -/
theorem passPitch_runsOn (p : Probe) (k : Str) (counted : Option Int) (t : Tracker) :
    t.passPitch (p.runsOn k) counted =
      { t with
        passed := if p.running = true ∧ p.string = some k then t.passed ++ counted.toList else t.passed } := by
  simp only [← runsOn_iff]
  cases counted with
  | none =>
    rw [Option.toList_none, List.append_nil, ite_self]
    rfl
  | some pr => cases p.runsOn k <;> rfl

/-! ## Confirmation -/

/-- Short of the confirm count the cycle is counted (R61). -/
theorem checkConfirm_counts {setting : Nat} {t : Tracker} (h : t.confirmCount + 1 < setting) :
    t.checkConfirm setting = { t with confirmCount := t.confirmCount + 1 } :=
  if_neg (not_le.2 h)

/-- At the confirm count CONFIRM is sent and the Tracker enters TRACKING (R62). -/
theorem checkConfirm_confirms {setting h : Nat} {t : Tracker} (hc : setting ≤ t.confirmCount + 1)
    (hl : t.live = some h) :
    t.checkConfirm setting =
      { t with
        confirmCount := t.confirmCount + 1, state := .tracking
        awaited := some { request := .confirm h, counted := none, answer := none } } := by
  unfold Tracker.checkConfirm
  dsimp only
  rw [if_pos hc, hl]
  rfl

/-- Outside FORMING, and for a stale UPDATE, no cycle is counted (R61, R74). -/
theorem updateAnswered_passes {counted : Option Int} {t : Tracker} (h : t.state ≠ .forming ∨ counted = none)
    (setting : Nat) (runs : Bool) : t.updateAnswered setting runs counted = t.passPitch runs counted := by
  refine if_neg ?_
  rintro ⟨hs, hc⟩
  rcases h with h | rfl
  · exact h hs
  · exact absurd hc (by decide)

/-- In FORMING a cycle is counted towards confirmation (R61). -/
theorem updateAnswered_checks {counted : Option Int} {t : Tracker} (hs : t.state = .forming) (hc : counted.isSome)
    (setting : Nat) (runs : Bool) :
    t.updateAnswered setting runs counted = (t.passPitch runs counted).checkConfirm setting :=
  if_pos ⟨hs, hc⟩

/-! ## The answer -/

/-- NOT LIVE makes a Tracker stand down, but to a RELEASE with the reason STALE (R74, R76). -/
theorem takeNotLive_standsDown {q : Request} (h : ∀ x, q ≠ .release x .stale) (gate : Gate) (t : Tracker) :
    t.takeNotLive gate q = t.standDown gate := by
  rcases takeNotLive_cases gate q t with ⟨⟨x, hx⟩, _⟩ | ⟨_, e⟩
  · exact absurd hx (h x)
  · exact e

/-- OK to a request other than UPDATE needs no action (R48). -/
theorem actOnAnswer_ok_ignored {a : Awaited} (h : ∀ u, a.request ≠ .update u) (σ : State) (k : Str) (t : Tracker) :
    σ.actOnAnswer k a .ok t = { tracker := t } := by
  unfold State.actOnAnswer
  dsimp only
  split
  · next u hu => exact absurd hu (h u)
  all_goals rfl

/-- OK to an UPDATE (R61, R64, R74). -/
theorem actOnAnswer_ok_update {a : Awaited} (h : ∃ u, a.request = .update u) (σ : State) (k : Str) (t : Tracker) :
    σ.actOnAnswer k a .ok t =
      { tracker := t.updateAnswered σ.settings.confirmCount (σ.probe.runsOn k) a.counted } := by
  obtain ⟨u, hu⟩ := h
  simp only [State.actOnAnswer, hu]

/-- The answer is acted on, and then the deferred inputs are taken (R49). -/
theorem exec_trackerAnswer {s : State} {k : Str} {a : Awaited} {answer : Answer} (h : s.inReset = false)
    (ha : (s.trackers[k]).awaited = some a) (hx : a.answer = some answer) :
    exec (.trackerAnswer k) s = .next
      (s.putTaken k
        (s.drain k (s.trackers[k]).deferred
          (s.actOnAnswer k a answer { s.trackers[k] with awaited := none, deferred := [] }))) := by
  have hexec : exec (.trackerAnswer k) s = .next (s.trackerAnswer k) := whenRunning_running h
  rw [hexec]
  simp only [State.trackerAnswer, ha, hx]

/-- Settles O24: the three answers, the OK to an UPDATE by the state and the count; then standing down. -/
theorem answersAreActedOn : Obligations.AnswersAreActedOn := by
  unfold Obligations.AnswersAreActedOn
  constructor
  · intro s k q counted answer hr ha t runs passed after count
    have step : exec (.trackerAnswer k) s =
        .next (after (s.actOnAnswer k { request := q, counted := counted, answer := some answer } answer t)) := by
      rw [exec_trackerAnswer hr ha rfl, putTaken_eq]
    have passes (u : Tracker) (hu : u.passed = t.passed) :
        u.passPitch (s.probe.runsOn k) counted = { u with passed := passed } := by
      rw [passPitch_runsOn, hu]
    rw [step]
    refine ⟨?_, ?_, ?_, ?_, ?_, ?_, ?_⟩
    · rintro rfl hq
      rw [State.actOnAnswer, takeNotLive_standsDown hq]
    · rintro h rfl rfl
      rfl
    · rintro h rfl
      rw [State.actOnAnswer, passes { t with live := some h } rfl]
    · rintro rfl hq
      rw [actOnAnswer_ok_ignored hq]
    · rintro rfl hq hcase
      rw [actOnAnswer_ok_update hq, updateAnswered_passes hcase, passes t rfl]
    · rintro rfl hq hs hc hcount
      rw [actOnAnswer_ok_update hq, updateAnswered_checks hs hc, passes t rfl, checkConfirm_counts (by exact hcount)]
    · rintro h rfl hq hs hc hcount hl
      rw [actOnAnswer_ok_update hq, updateAnswered_checks hs hc, passes t rfl,
        checkConfirm_confirms (by exact hcount) (by exact hl)]
  · intro t gate muted
    refine ⟨fun h => if_pos h, ?_, ?_⟩
    · rintro h rfl
      rw [standDown_leaves h]
      rfl
    · rintro h rfl
      rw [standDown_leaves h]
      rfl

end Sys2Proof.Machine

/-! SUPPORT. O19: the bleed test by its conditions, a reference that a string may be, and what an entry to FORMING notes. -/

namespace Sys2Proof.Machine

/-! ## What an entry notes -/

/-- A scene holds each Front End with its cycle queue empty. -/
theorem scene_frontEnds_get (σ : State) (u : Str) : σ.scene.frontEnds[u] = { σ.frontEnds[u] with queue := [] } :=
  bank_get_ofFn _ u

/-- A scene holds of each Tracker what a glance does. -/
theorem scene_trackers_get (σ : State) (u : Str) : σ.scene.trackers[u] = (σ.trackers[u]).glance :=
  bank_get_ofFn _ u

/-- What stood at the Front Ends stands again, whatever their cycle queues hold now (R86). -/
theorem scene_frontEnds_eq_iff (σ : State) (b : Bank FrontEnd) :
    σ.scene.frontEnds = b ↔ ∀ u : Str, b[u] = { σ.frontEnds[u] with queue := [] } := by
  constructor
  · rintro rfl u
    exact scene_frontEnds_get σ u
  · intro h
    exact bank_ext fun u => (scene_frontEnds_get σ u).trans (h u).symm

/-! ## The conditions (R82 to R84) -/

theorem reference_iff (σ : State) (k u : Str) :
    σ.reference k u = true ↔
      1 ≤ stringDistance k u ∧ stringDistance k u ≤ σ.settings.bleedDistance
        ∧ ((σ.trackers[u]).state = .forming ∨ (σ.trackers[u]).state = .tracking)
        ∧ (σ.frontEnds[u]).gate = .opened := by
  simp only [State.reference, Bool.and_eq_true, decide_eq_true_eq, and_assoc]

theorem pitchCondition_iff (σ : State) (u : Str) (pitch : Int) :
    σ.pitchCondition u pitch = true ↔
      ∃ c, (σ.trackers[u]).committed = some c ∧ foldedDistance pitch c.pitch ≤ σ.settings.bleedThreshold := by
  unfold State.pitchCondition
  cases (σ.trackers[u]).committed <;> simp

/-- Bleed is found exactly where one string meets every condition and is seen as a reference (R85, R86). -/
theorem bleedTest_iff (σ : State) (k : Str) (t : Tracker) (pitch : Int) :
    σ.bleedTest k t pitch = true ↔
      σ.settings.bleedThreshold ≠ 0
        ∧ ∃ u : Str, σ.reference k u = true ∧ σ.pitchCondition u pitch = true ∧ σ.envelopeCondition k u = true
          ∧ σ.entersFirst k t u = true := by
  simp only [State.bleedTest, Bool.and_eq_true, decide_eq_true_eq, List.any_eq_true, mem_allStrings, true_and, and_assoc]

/-- Settles O19: the bleed test by its conditions at one reference, and what a new entry to FORMING notes. -/
theorem bleedTestNeedsBothConditionsOfOneReference : Obligations.BleedTestNeedsBothConditionsOfOneReference := by
  unfold Obligations.BleedTestNeedsBothConditionsOfOneReference
  constructor
  · intro s k t pitch creating glanced undisturbed
    have hcreating (u : Str) : (s.trackers[u]).creating = true ↔ creating u := creating_iff _
    have hundisturbed (e : Entry) : s.undisturbed e = true ↔ undisturbed e := by
      rw [undisturbed_iff, scene_frontEnds_eq_iff]
      refine and_congr_right' (and_congr eq_comm (and_congr eq_comm (forall_congr' fun u => ?_)))
      rw [enteredSince_iff, hcreating]
      exact or_congr_left eq_comm
    have hseen (u : Str) : s.entersFirst k t u = true ↔ ∀ e, (s.trackers[u]).entry = some e →
        t.state = .attack → t.tests = (s.trackers[k]).tests → creating u →
        (s.trackers[u]).staleTimer = .running (s.settings.stale * 5) → undisturbed e →
        e.number < Config.entriesSeen s.resets t.tests k := by
      simp only [entersFirst_iff, hcreating, hundisturbed]
    rw [bleedTest_iff]
    refine and_congr_right' (exists_congr fun u => ?_)
    rw [reference_iff, pitchCondition_iff, hseen]
    exact and_congr_right' (and_congr_right' (and_congr_left' decide_eq_true_iff))
  · intro s
    exact ⟨fun u => ⟨scene_frontEnds_get s u, scene_trackers_get s u, fun _ he => newEntry_number s u he⟩, rfl, rfl⟩

end Sys2Proof.Machine

/-! SUPPORT. O55: every operation of the blocks keeps the Note Table coherent. The operations that do not touch the
table are carried over by their frame equations, and a snapshot does no more to it than deliver records. -/

namespace Sys2Proof.Machine

/-! ## Steps that leave the table -/

/-- A step of the string channels leaves the table. -/
theorem State.playedTo.table_eq {σ τ : State} (h : σ.playedTo τ) : τ.table = σ.table := by rw [h]

/-- A step of the probe and a command to the Settings Store leave the table. -/
theorem State.tunedTo.table_eq {σ τ : State} (h : σ.tunedTo τ) : τ.table = σ.table := by rw [h]

/-- The Note Table is coherent and so are its records. -/
abbrev State.tableOk (σ : State) : Prop := σ.table.ok

theorem State.playedTo.tableOk {σ τ : State} (h : σ.playedTo τ) (w : σ.tableOk) : τ.tableOk := by
  rw [State.tableOk, h.table_eq]; exact w

theorem State.tunedTo.tableOk {σ τ : State} (h : σ.tunedTo τ) (w : σ.tableOk) : τ.tableOk := by
  rw [State.tableOk, h.table_eq]; exact w

/-! ## Snapshots and posted commands -/

/-- One image in a response: its record is delivered (R167). -/
theorem respondImage_table (σ : State) (q : Query) (r : Record) :
    (σ.respondImage q r).table = σ.table.deliverAll [r] := rfl

/-- All that a snapshot does to the table is deliver records of it: those whose images the response holds (R121). -/
theorem snapshot_table (σ : State) (q : Query) :
    ∃ rs : List Record, (∀ r ∈ rs, r ∈ σ.table.records) ∧ (σ.snapshot q).table = σ.table.deliverAll rs := by
  have same {τ : State} (h : τ.table = σ.table) :
      ∃ rs : List Record, (∀ r ∈ rs, r ∈ σ.table.records) ∧ τ.table = σ.table.deliverAll rs :=
    ⟨[], fun _ hr => absurd hr List.not_mem_nil, h⟩
  have one {τ : State} {r : Record} (hr : r ∈ σ.table.records) (h : τ.table = σ.table.deliverAll [r]) :
      ∃ rs : List Record, (∀ r ∈ rs, r ∈ σ.table.records) ∧ τ.table = σ.table.deliverAll rs :=
    ⟨[r], fun _ hq => List.mem_singleton.1 hq ▸ hr, h⟩
  cases q with
  | getNote h =>
    unfold State.snapshot State.snapGetNote
    dsimp only
    split
    · next r hf => exact one (NoteTable.find_some hf).1 (respondImage_table σ _ r)
    · exact same rfl
  | getString b =>
    unfold State.snapshot State.snapGetString
    dsimp only
    split
    · exact same rfl
    · split
      · next r hf => exact one (List.mem_of_find?_eq_some hf) (respondImage_table σ _ r)
      · exact same rfl
  | getChanged => exact ⟨σ.table.changedRecords, fun _ hr => List.mem_of_mem_filter hr, rfl⟩
  | getSetting n => unfold State.snapshot State.snapGetSetting; dsimp only; split <;> exact same rfl
  | probeStart a =>
    have unchanged : (σ.probeStart a).table = σ.table := by unfold State.probeStart; split <;> rfl
    exact same unchanged
  | _ => exact same rfl

theorem snapshot_tableOk {σ : State} (w : σ.tableOk) (q : Query) : (σ.snapshot q).tableOk := by
  obtain ⟨rs, hrs, he⟩ := snapshot_table σ q
  rw [State.tableOk, he]
  exact NoteTable.ok_deliverAll w fun r hr => List.mem_map_of_mem (hrs r hr)

theorem applyPosted_tableOk {σ : State} (w : σ.tableOk) (p : Posted) : (σ.applyPosted p).tableOk := by
  cases p with
  | tagNote h t => exact tagNote_table_ok w h t
  | untagNote h => exact untagNote_table_ok w h
  | holdNote h v => exact holdNote_table_ok w h v
  | releaseNote h => exact releaseNote_table_ok w h
  | retireNote h => exact retireNote_table_ok w h
  | allRelease => exact allRelease_table_ok w
  | set n v => exact (set_frame σ n v).tableOk w
  | selectProfile v => exact (selectProfile_frame σ v).tableOk w
  | probeStop => exact (abortRun_frame σ _ _).tableOk w
  | clearFaults m => exact w
  | restart => exact NoteTable.ok_empty

/-! ## The step -/

/-- Every operation of the blocks keeps the Note Table coherent. -/
theorem tableOk_kept : Kept State.tableOk where
  pending _ _ w := w
  hardReset _ _ := NoteTable.ok_empty
  hardResetEnd _ w := w
  sample k v σ w := (sampleStep_frame σ k v).tableOk w
  tick _ w := NoteTable.ok_tick w
  stale k σ w := (staleStep_frame σ k).tableOk w
  linger h _ w := lingerExpiry_table_ok w h
  complete σ w := (completeComputation_frame σ).tableOk w
  result k σ w := (resultStep_frame σ k).tableOk w
  event e k σ w := (eventStep_frame σ e k).tableOk w
  answer k σ w := (trackerAnswer_frame σ k).tableOk w
  forced k σ w := (forcedStep_frame σ k).tableOk w
  enable k σ w := (enableStep_frame σ k).tableOk w
  disable k σ w := (disableStep_frame σ k).tableOk w
  update k _ w := applyUpdate_table_ok w k
  confirm k _ w := applyConfirm_table_ok w k
  release k _ w := applyRelease_table_ok w k
  create k _ w := applyCreate_table_ok w k
  succeed k _ w := applySucceed_table_ok w k
  pitch k σ w := (probePitch_frame σ k).tableOk w
  posted p _ w := applyPosted_tableOk w p
  snapshot q _ w := snapshot_tableOk w q
  link _ _ w := w
  arrive _ w := w
  report _ _ _ w := w
  refuse _ _ _ _ w := w
  drop _ w := w
  reflag _ is w := NoteTable.ok_reflagAll w is

/-- Settles O55: coherence of the table and of its records is kept by every operation of the blocks, and so by every
step. -/
theorem stepKeepsTheTableCoherent : Obligations.StepKeepsTheTableCoherent := by
  unfold Obligations.StepKeepsTheTableCoherent
  intro s t w wr he
  exact step_kept tableOk_kept ⟨w, wr⟩ he

end Sys2Proof.Machine

/-! SUPPORT. O57: every operation of the blocks keeps every value on its way into a record within its range, given the
transpose and bend range of every string within theirs; and with the other invariants it keeps every bend within its
record's bend range. -/

namespace Sys2Proof.Machine

/-! ## Values within their ranges (R91) -/

/-- The settings that a record captures, the records' fields and the Trackers' values lie within their ranges. -/
abbrev State.valuesOk (σ : State) : Prop := σ.settings.musicalWf ∧ σ.valuesInRange

/-- A step of the string channels changes neither a record nor a setting. -/
theorem State.playedTo.valuesOk {σ τ : State} (h : σ.playedTo τ) (w : σ.valuesOk) (ht : τ.trackersInRange) :
    τ.valuesOk := by
  obtain ⟨hk, hr, _⟩ := w
  exact ⟨by rw [h]; exact hk, by rw [h.table_eq]; exact hr, ht⟩

/-- A step at the Note Table changes no setting. -/
theorem State.tabledTo.valuesOk {σ τ : State} (h : σ.tabledTo τ) (w : σ.valuesOk) (hv : τ.valuesInRange) :
    τ.valuesOk := by
  refine ⟨?_, hv⟩
  rw [h]
  exact w.1

/-- A Tracker's channels of messages hold no value on its way into a record. -/
theorem valuesOk_messages {σ : State} (w : σ.valuesOk) (s : Str) (f : List Nat) (n : List Bool) (p : List Int) :
    (σ.setTracker s { σ.trackers[s] with forced := f, enables := n, passed := p }).valuesOk :=
  ⟨w.1, w.2.1, trackersInRange_set w.2.2 s (w.2.2 s)⟩

/-! ### The string channels -/

theorem resultStep_valuesOk {σ : State} (w : σ.valuesOk) (s : Str) : (σ.resultStep s).valuesOk := by
  unfold State.resultStep
  split
  · exact w
  · split
    · exact (handResult_frame σ _).valuesOk w (trackersInRange_handResult w.1 w.2.2 _)
    · exact w

theorem completeComputation_valuesOk {σ : State} (w : σ.valuesOk) : σ.completeComputation.valuesOk := by
  unfold State.completeComputation
  split
  · exact w
  · next c _ =>
    have handed : (if c.handed then σ else σ.handResult c).valuesOk := by
      split
      · exact w
      · exact (handResult_frame σ c).valuesOk w (trackersInRange_handResult w.1 w.2.2 c)
    refine (decideContinuation_frame _ c.string).valuesOk handed ?_
    rw [State.trackersInRange, decideContinuation_trackers]
    exact handed.2.2

theorem sampleStep_valuesOk {σ : State} (w : σ.valuesOk) (s : Str) (v : Int) : (σ.sampleStep s v).valuesOk := by
  refine (sampleStep_frame σ s v).valuesOk w ?_
  rw [State.trackersInRange, sampleStep_trackers]
  exact w.2.2

/-! ### The controller's commands at the Note Table -/

/-- One record changed in fields that have no range. -/
theorem valuesOk_modify {σ : State} (w : σ.valuesOk) (h : Nat) (f : Record → Record)
    (hf : ∀ r, r.image.inRange → (f r).image.inRange) : (σ.setTable (σ.table.modify h f)).valuesOk :=
  ⟨w.1, NoteTable.inRange_modify w.2.1 h f hf, w.2.2⟩

theorem valuesOk_free {σ : State} (w : σ.valuesOk) (h : Nat) : (σ.setTable (σ.table.free h)).valuesOk :=
  ⟨w.1, NoteTable.inRange_free w.2.1 h, w.2.2⟩

theorem tagNote_valuesOk {σ : State} (w : σ.valuesOk) (h tag : Byte) : (σ.tagNote h tag).valuesOk := by
  unfold State.tagNote
  split
  · exact w
  · exact valuesOk_modify w h.toNat _ fun _ hr => hr

theorem untagNote_valuesOk {σ : State} (w : σ.valuesOk) (h : Byte) : (σ.untagNote h).valuesOk := by
  unfold State.untagNote
  split
  · exact w
  · exact valuesOk_modify w h.toNat _ fun _ hr => hr

theorem holdNote_valuesOk {σ : State} (w : σ.valuesOk) (h v : Byte) : (σ.holdNote h v).valuesOk := by
  unfold State.holdNote
  split
  · exact w
  · split
    · exact w
    · refine valuesOk_modify w h.toNat _ fun _ hr => ?_
      split <;> exact hr

theorem releaseNote_valuesOk {σ : State} (w : σ.valuesOk) (h : Byte) : (σ.releaseNote h).valuesOk := by
  unfold State.releaseNote
  split
  · exact w
  · split
    · exact ⟨w.1, forceRelease_valuesInRange w.2 _⟩
    · exact w

theorem retireNote_valuesOk {σ : State} (w : σ.valuesOk) (h : Byte) : (σ.retireNote h).valuesOk := by
  unfold State.retireNote
  split
  · exact w
  · split
    · exact w
    · exact valuesOk_free w h.toNat

theorem lingerExpiry_valuesOk {σ : State} (w : σ.valuesOk) (h : Nat) : (σ.lingerExpiry h).valuesOk := by
  unfold State.lingerExpiry
  split
  · exact w
  · split
    · split
      · exact valuesOk_modify w h _ fun _ hr => hr
      · exact valuesOk_free w h
    · exact w

/-! ### The probe and the Settings Store -/

theorem finishRun_valuesOk {σ : State} (w : σ.valuesOk) (s : Str) (plan : Plan) : (σ.finishRun s plan).valuesOk := by
  unfold State.finishRun
  dsimp only
  split <;> exact w

theorem countPitch_valuesOk {σ : State} (w : σ.valuesOk) (s : Str) (plan : Plan) (pr : Int) :
    (σ.countPitch s plan pr).valuesOk := by
  unfold State.countPitch
  dsimp only
  split
  · split
    · refine finishRun_valuesOk ?_ s plan
      exact w
    · exact w
  · exact w

theorem probePitch_valuesOk {σ : State} (w : σ.valuesOk) (s : Str) : (σ.probePitch s).valuesOk := by
  unfold State.probePitch
  split
  · exact w
  · next pr rest _ =>
    have taken := valuesOk_messages w s (σ.trackers[s]).forced (σ.trackers[s]).enables rest
    unfold State.takePitch
    split
    · exact countPitch_valuesOk taken _ _ _
    · exact taken

theorem abortRun_valuesOk {σ : State} (w : σ.valuesOk) (tell : Notice → NoticeUnit → NoticeUnit) (r : AbortReason) :
    (σ.abortRun tell r).valuesOk := by
  unfold State.abortRun
  split
  · dsimp only
    split <;> exact w
  · exact w

theorem tellEnable_valuesOk {σ : State} (w : σ.valuesOk) (old new : BitVec 8) (s : Str) :
    (σ.tellEnable old new s).valuesOk := by
  have told (f : FrontEnd) (on : Bool) : ((σ.setFrontEnd s f).sendEnable s on).valuesOk := valuesOk_messages w s _ _ _
  unfold State.tellEnable
  split
  · unfold State.disableString
    dsimp only
    split
    · exact abortRun_valuesOk (told _ _) _ _
    · exact told _ _
  · split
    · exact told _ _
    · exact w

theorem tellAll_valuesOk (old new : BitVec 8) (ks : List Str) {σ : State} (w : σ.valuesOk) :
    (ks.foldl (State.tellEnable old new) σ).valuesOk := by
  induction ks generalizing σ with
  | nil => exact w
  | cons k ks ih => exact ih (tellEnable_valuesOk w old new k)

/-- Another reference, and another reference term, whichever it is (R136). -/
theorem retune_valuesOk {σ : State} (w : σ.valuesOk) (n : Nat) (R : Int) :
    ((σ.setSettings { σ.settings with reference := n }).setPitchUnit { σ.pitchUnit with refTerm := R }).valuesOk := w

/-- A value that a setting's kind admits is stored, and the blocks concerned are told (R128). -/
theorem storeSetting_valuesOk {σ : State} (w : σ.valuesOk) {i : SettingId} {v : Int} (h : i.kind.admits v) :
    (σ.storeSetting i v).valuesOk := by
  unfold State.storeSetting
  split
  · exact tellAll_valuesOk _ _ _ (σ := σ.setSettings { σ.settings with enableMask := BitVec.ofInt 8 v }) w
  · unfold State.setReference State.abortProbe
    exact abortRun_valuesOk (retune_valuesOk w v.toNat (referenceTerm v.toNat)) _ _
  · exact ⟨Settings.musicalWf_write w.1 h, w.2⟩

theorem set_valuesOk {σ : State} (w : σ.valuesOk) (n : Byte) (v : BitVec 16) : (σ.set n v).valuesOk := by
  unfold State.set
  split
  · exact w
  · split
    · exact w
    · next x hx => exact storeSetting_valuesOk w (fitValue_admits hx)

theorem selectProfile_valuesOk {σ : State} (w : σ.valuesOk) (v : Byte) : (σ.selectProfile v).valuesOk := by
  unfold State.selectProfile
  split
  · exact w
  · split <;> exact w

/-! ### Resets, snapshots and posted commands -/

/-- A Tracker that holds nothing is within range. -/
theorem inRange_empty {t : Tracker} (hs : t.lastSent = none) (ha : t.awaited = none) (hd : t.deferred = []) :
    t.inRange := by
  simp [Tracker.inRange, hs, ha, hd]

/-- With no record, and Trackers that hold nothing, there is no value to be out of range. -/
theorem valuesInRange_empty {σ : State} (h : σ.table = {})
    (ht : ∀ k : Str, (σ.trackers[k]).lastSent = none ∧ (σ.trackers[k]).awaited = none
      ∧ (σ.trackers[k]).deferred = []) : σ.valuesInRange := by
  refine ⟨fun r hr => ?_, fun k => ?_⟩
  · rw [h] at hr
    exact absurd hr List.not_mem_nil
  · obtain ⟨hs, ha, hd⟩ := ht k
    exact inRange_empty hs ha hd

theorem restart_valuesOk {σ : State} (w : σ.valuesOk) : σ.restart.valuesOk := by
  refine ⟨w.1, valuesInRange_empty rfl fun k => ?_⟩
  simp only [State.restart, bank_get_ofFn]
  exact ⟨rfl, rfl, rfl⟩

/-- The default settings are within their ranges (R127). -/
theorem Settings.musicalWf_default : ({} : Settings).musicalWf := by
  intro p s
  have default : ({} : Settings).musical p s = {} := by
    cases p <;> exact bank_get_replicate _ _
  rw [default]
  decide

theorem hardReset_valuesOk (σ : State) : σ.hardReset.valuesOk := by
  refine ⟨Settings.musicalWf_default, valuesInRange_empty rfl fun k => ?_⟩
  simp only [State.hardReset, State.reset, resetTrackers, bank_get_ofFn]
  split <;> exact ⟨rfl, rfl, rfl⟩

/-- A PROBE START answered OK drops the pitches on their way (R146); no other snapshot touches a Tracker. -/
theorem snapshot_trackersInRange {σ : State} (w : σ.valuesOk) (q : Query) : (σ.snapshot q).trackersInRange := by
  cases q with
  | getNote h => unfold State.snapshot State.snapGetNote; dsimp only; split <;> exact w.2.2
  | getString b =>
    unfold State.snapshot State.snapGetString
    dsimp only
    split
    · exact w.2.2
    · split <;> exact w.2.2
  | getSetting n => unfold State.snapshot State.snapGetSetting; dsimp only; split <;> exact w.2.2
  | probeStart a =>
    have started : (σ.probeStart a).valuesOk := by
      unfold State.probeStart
      split
      · next s _ _ => exact valuesOk_messages w s _ _ []
      · exact w
    exact started.2.2
  | _ => exact w.2.2

theorem snapshot_valuesOk {σ : State} (w : σ.valuesOk) (q : Query) : (σ.snapshot q).valuesOk := by
  obtain ⟨rs, -, ht⟩ := snapshot_table σ q
  refine ⟨?_, ?_, snapshot_trackersInRange w q⟩
  · rw [snapshot_frame σ q]
    exact w.1
  · rw [ht]
    exact NoteTable.inRange_deliverAll w.2.1 rs

theorem applyPosted_valuesOk {σ : State} (w : σ.valuesOk) (p : Posted) : (σ.applyPosted p).valuesOk := by
  cases p with
  | tagNote h t => exact tagNote_valuesOk w h t
  | untagNote h => exact untagNote_valuesOk w h
  | holdNote h v => exact holdNote_valuesOk w h v
  | releaseNote h => exact releaseNote_valuesOk w h
  | retireNote h => exact retireNote_valuesOk w h
  | allRelease => exact (allRelease_frame σ).valuesOk w (allRelease_valuesInRange w.2)
  | set n v => exact set_valuesOk w n v
  | selectProfile v => exact selectProfile_valuesOk w v
  | probeStop => exact abortRun_valuesOk w _ _
  | clearFaults m => exact w
  | restart => exact restart_valuesOk w

/-- Every operation of the blocks keeps every value within its range. -/
theorem valuesOk_kept : Kept State.valuesOk where
  pending _ _ w := w
  hardReset σ _ := hardReset_valuesOk σ
  hardResetEnd _ w := w
  sample k v _ w := sampleStep_valuesOk w k v
  tick _ w := ⟨w.1, tick_valuesInRange w.2⟩
  stale k σ w := (staleStep_frame σ k).valuesOk w (trackersInRange_staleStep w.1 w.2.2 k)
  linger h _ w := lingerExpiry_valuesOk w h
  complete _ w := completeComputation_valuesOk w
  result k _ w := resultStep_valuesOk w k
  event e k σ w := (eventStep_frame σ e k).valuesOk w (trackersInRange_eventStep w.1 w.2.2 e k)
  answer k σ w := (trackerAnswer_frame σ k).valuesOk w (trackersInRange_trackerAnswer w.1 w.2.2 k)
  forced k σ w := (forcedStep_frame σ k).valuesOk w (trackersInRange_forcedStep w.1 w.2.2 k)
  enable k σ w := (enableStep_frame σ k).valuesOk w (trackersInRange_enableStep w.1 w.2.2 k)
  disable k σ w := (disableStep_frame σ k).valuesOk w (trackersInRange_disableStep w.1 w.2.2 k)
  update k σ w := (serve_frame σ k _).valuesOk w (applyUpdate_valuesInRange w.2 k)
  confirm k σ w := (serve_frame σ k _).valuesOk w (applyConfirm_valuesInRange w.2 k)
  release k σ w := (serve_frame σ k _).valuesOk w (applyRelease_valuesInRange w.2 k)
  create k σ w := (serve_frame σ k _).valuesOk w (applyCreate_valuesInRange w.2 k)
  succeed k σ w := (serve_frame σ k _).valuesOk w (applySucceed_valuesInRange w.2 k)
  pitch k _ w := probePitch_valuesOk w k
  posted p _ w := applyPosted_valuesOk w p
  snapshot q _ w := snapshot_valuesOk w q
  link _ _ w := w
  arrive _ w := w
  report _ _ _ w := w
  refuse _ _ _ _ w := w
  drop _ w := w
  reflag _ is w := ⟨w.1, NoteTable.inRange_reflagAll w.2.1 is, w.2.2⟩

end Sys2Proof.Machine

/-! SUPPORT. O27 and O28: the handle and the zone of a new record, and which record an eviction takes. -/

namespace Sys2Proof.Machine

/-! ## Zones (R99) -/

/-- A zone matches where its mask includes the string and its notes enclose the note (R99). -/
theorem Zone.matches_iff (z : Zone) (s : Str) (note : Nat) :
    z.matches s note = true ↔ maskHas z.strings s = true ∧ z.base ≤ note ∧ note ≤ z.limit := by
  simp only [Zone.matches, Bool.and_eq_true, decide_eq_true_eq, and_assoc]

/-- The first of the four zones that meets a condition is the lowest-numbered that does. -/
theorem find_zone_eq_some_iff (p : Fin 4 → Bool) (z : Fin 4) :
    ([0, 1, 2, 3] : List (Fin 4)).find? p = some z ↔ p z = true ∧ ∀ y : Fin 4, y < z → p y = false := by
  revert p z
  decide

/-- Settles O27: the search for a free handle by its trials, and the zones in their order. -/
theorem handleAndZoneOfANewRecord : Obligations.HandleAndZoneOfANewRecord := by
  unfold Obligations.HandleAndZoneOfANewRecord
  constructor
  · intro t hw
    obtain ⟨hlength, -, -, -, hlow, hhigh, -⟩ := hw
    obtain ⟨htrials, hfree, hone, hmost⟩ := NoteTable.nextGiven_spec hlength hlow hhigh
    exact ⟨htrials, hfree, hone, hmost, fun _ => rfl, fun _ => rfl⟩
  · intro c k note fits
    have hfits (z : Fin 4) : (c.zones[z]).matches k note = true ↔ fits z := Zone.matches_iff _ _ _
    refine ⟨fun z => ?_, ?_⟩
    · simp only [Settings.zoneOf, find_zone_eq_some_iff, hfits, ← Bool.not_eq_true]
    · simp only [Settings.zoneOf, List.find?_eq_none, hfits]
      exact ⟨fun h z => h z (by fin_cases z <;> simp), fun h z _ => h z⟩

/-! ## Eviction (R118) -/

/-- What eviction may take: a RELEASED record with the hold given that is not the one kept (R118). -/
theorem NoteTable.evictable_iff {t : NoteTable} (hn : t.handles.Nodup) (keep : Option Nat) (hold : Bool) (h : Nat) :
    t.evictable keep hold h = true ↔
      ∃ r ∈ t.records, r.image.handle = h ∧ r.image.state = .released ∧ r.image.hold = hold ∧ keep ≠ some h := by
  unfold NoteTable.evictable
  cases hf : t.find h with
  | none =>
    simp only [Bool.false_eq_true, false_iff, not_exists, not_and]
    rintro r hr rfl
    rw [NoteTable.find_of_mem hn hr] at hf
    exact absurd hf (by simp)
  | some r =>
    obtain ⟨hr, rfl⟩ := NoteTable.find_some hf
    simp only [Record.live, ne_eq, decide_not, Bool.not_not, Bool.and_eq_true, decide_eq_true_eq, beq_iff_eq,
      Bool.not_eq_true', decide_eq_false_iff_not, and_assoc]
    constructor
    · rintro ⟨hs, hh, hk⟩
      exact ⟨r, hr, rfl, hs, hh, hk⟩
    · rintro ⟨q, hq, he, hs, hh, hk⟩
      obtain rfl := NoteTable.eq_of_handle hn hq hr he
      exact ⟨hs, hh, hk⟩

/-- A record that eviction may take. -/
theorem NoteTable.evictable_of_mem {t : NoteTable} (hn : t.handles.Nodup) {keep : Option Nat} {r : Record}
    (hr : r ∈ t.records) (hs : r.image.state = .released) (hk : keep ≠ some r.image.handle) :
    t.evictable keep r.image.hold r.image.handle = true :=
  (NoteTable.evictable_iff hn _ _ _).2 ⟨r, hr, rfl, hs, rfl, hk⟩

/-- An occupied record stands in the recency list (R94). -/
theorem NoteTable.mem_recency {t : NoteTable} (hw : t.wf) {r : Record} (hr : r ∈ t.records) :
    r.image.handle ∈ t.recency := by
  obtain ⟨-, -, -, hperm, -⟩ := hw
  exact hperm.mem_iff.2 (List.mem_map_of_mem hr)

/-- The victim is the first unheld record that eviction may take, or, where there is none, the first held one. -/
theorem NoteTable.victim_eq_some {t : NoteTable} {keep : Option Nat} {v : Nat} (hv : t.victim keep = some v) :
    ∃ hold, t.recency.find? (t.evictable keep hold) = some v
      ∧ (hold = true → t.recency.find? (t.evictable keep false) = none) := by
  unfold NoteTable.victim at hv
  cases hu : t.recency.find? (t.evictable keep false) with
  | some w =>
    rw [hu, Option.some_or] at hv
    exact ⟨false, hu.trans hv, fun h => absurd h (by decide)⟩
  | none =>
    rw [hu, Option.none_or] at hv
    exact ⟨true, hv, fun _ => rfl⟩

/-- What a search finds stands no later in the list than anything else that meets its condition. -/
theorem idxOf_le_of_find {l : List Nat} {p : Nat → Bool} {v w : Nat} (hf : l.find? p = some v) (hw : p w = true) :
    l.idxOf v ≤ l.idxOf w := by
  obtain ⟨hv, before, after, rfl, hb⟩ := List.find?_eq_some_iff_append.1 hf
  have absent {x : Nat} (hx : p x = true) : x ∉ before := fun hm => by simpa [hx] using hb x hm
  rw [List.idxOf_append_of_notMem (absent hv), List.idxOf_append_of_notMem (absent hw), List.idxOf_cons_self]
  omega

/-- Where more than one record is RELEASED, one of them is not the record kept. -/
theorem NoteTable.exists_released_not_kept {t : NoteTable} (hn : t.handles.Nodup) (keep : Option Nat)
    (h : 1 < (t.records.filter fun r => decide (r.image.state = .released)).length) :
    ∃ r ∈ t.records, r.image.state = .released ∧ keep ≠ some r.image.handle := by
  by_contra hall
  push Not at hall
  have kept {r : Record} (hr : r ∈ t.records.filter fun r => decide (r.image.state = .released)) :
      keep = some r.image.handle := by
    rw [List.mem_filter, decide_eq_true_eq] at hr
    exact hall r hr.1 hr.2
  have hnd : ((t.records.filter fun r => decide (r.image.state = .released)).map (·.image.handle)).Nodup :=
    hn.sublist (List.filter_sublist.map _)
  match hl : t.records.filter fun r => decide (r.image.state = .released) with
  | [] | [_] => simp [hl] at h
  | a :: b :: rest =>
    have ha : keep = some a.image.handle := kept (by simp [hl])
    have hb : keep = some b.image.handle := kept (by simp [hl])
    simp [hl, Option.some.inj (ha.symm.trans hb)] at hnd

/-- A full table with at most eight live records has a victim (R118). -/
theorem NoteTable.victim_isSome {t : NoteTable} (hw : t.wf) (keep : Option Nat) (hfull : t.records.length = 16)
    (hlive : (t.records.filter fun r => decide (r.image.state ≠ .released)).length ≤ 8) :
    (t.victim keep).isSome := by
  have hn : t.handles.Nodup := hw.2.1
  have hreleased : 1 < (t.records.filter fun r => decide (r.image.state = .released)).length := by
    have hsplit := List.length_eq_length_filter_add (l := t.records) fun r => decide (r.image.state = .released)
    simp only [ne_eq, decide_not] at hlive
    omega
  obtain ⟨r, hr, hs, hk⟩ := NoteTable.exists_released_not_kept hn keep hreleased
  have hfound : (t.recency.find? (t.evictable keep r.image.hold)).isSome :=
    List.find?_isSome.2 ⟨_, NoteTable.mem_recency hw hr, NoteTable.evictable_of_mem hn hr hs hk⟩
  rw [NoteTable.victim, Option.isSome_or, Bool.or_eq_true]
  cases hh : r.image.hold with
  | false => exact .inl (hh ▸ hfound)
  | true => exact .inr (hh ▸ hfound)

/-- Settles O28: what the victim's search finds is the first of its kind, and it is unheld if there is such a record. -/
theorem evictionTakesTheLeastRecentlyUsed : Obligations.EvictionTakesTheLeastRecentlyUsed := by
  unfold Obligations.EvictionTakesTheLeastRecentlyUsed
  intro t keep hw
  have hn : t.handles.Nodup := hw.2.1
  refine ⟨fun v hv => ?_, NoteTable.victim_isSome hw keep⟩
  obtain ⟨hold, hfind, hnone⟩ := NoteTable.victim_eq_some hv
  obtain ⟨r, hr, hrv, hs, rfl, hk⟩ := (NoteTable.evictable_iff hn _ _ _).1 (List.find?_some hfind)
  refine ⟨r, hr, hrv, hs, hk, fun hheld q hq hqs hqk => ?_, fun q hq hqs hqk hqh => ?_⟩
  · by_contra hunheld
    have hq' := NoteTable.evictable_of_mem hn hq hqs hqk
    rw [Bool.eq_false_of_not_eq_true hunheld] at hq'
    exact List.find?_eq_none.1 (hnone hheld) _ (NoteTable.mem_recency hw hq) hq'
  · exact idxOf_le_of_find hfind (hqh ▸ NoteTable.evictable_of_mem hn hq hqs hqk)

end Sys2Proof.Machine

/-! SUPPORT. O60: every operation of the blocks but the two that create a record keeps the Trackers in agreement with
the table; the two keep it given that the handle given is in no forced-release message on its way. -/

namespace Sys2Proof.Machine

/-! ## The table's own coherence, whatever its records hold (R90, R93, R94)

The bends and the live records rest on the table's handles and lists, not on the reasons and timers in its records, so
their steps ask for `NoteTable.wf` alone. -/

/-- The Note Table is coherent. -/
abbrev State.tableWf (σ : State) : Prop := σ.table.wf

theorem State.playedTo.tableWf {σ τ : State} (h : σ.playedTo τ) (w : σ.tableWf) : τ.tableWf := by
  rw [State.tableWf, h.table_eq]; exact w

theorem State.tunedTo.tableWf {σ τ : State} (h : σ.tunedTo τ) (w : σ.tableWf) : τ.tableWf := by
  rw [State.tableWf, h.table_eq]; exact w

/-- A record found is changed and moved to the recency tail (R95). -/
theorem NoteTable.wf_modifyTouch {t : NoteTable} (hw : t.wf) {h : Nat} (hm : h ∈ t.handles) {f : Record → Record}
    (hh : ∀ r, (f r).image.handle = r.image.handle) (hs : ∀ r, (f r).serial = r.serial) :
    ((t.modify h f).touch h).wf := by
  refine NoteTable.wf_touch (NoteTable.wf_modify hw h f hh hs) ?_
  rw [NoteTable.handles_modify t h f hh]
  exact hm

/-- A record released keeps its handle and its serial number (R104, R110). -/
theorem NoteTable.wf_modifyRelease {t : NoteTable} (hw : t.wf) (h linger : Nat) (reason : ReleaseReason) :
    (t.modify h (Record.release linger reason)).wf :=
  NoteTable.wf_modify hw h _ (fun _ => rfl) fun _ => rfl

theorem NoteTable.wf_update {t : NoteTable} (hw : t.wf) (s : Str) (u : UpdateRequest) : (t.update s u).table.wf := by
  unfold NoteTable.update
  split
  · exact hw
  · exact NoteTable.wf_modify hw _ _ (fun _ => rfl) fun _ => rfl

theorem NoteTable.wf_confirm {t : NoteTable} (hw : t.wf) (s : Str) (h : Nat) : (t.confirm s h).table.wf := by
  unfold NoteTable.confirm
  split
  · exact hw
  · split
    · exact NoteTable.wf_modify hw _ _ (fun _ => rfl) fun _ => rfl
    · exact hw

theorem NoteTable.wf_release {t : NoteTable} (hw : t.wf) (linger : Nat) (s : Str) (h : Nat) (reason : ReleaseReason) :
    (t.release linger s h reason).table.wf := by
  unfold NoteTable.release
  split
  · exact hw
  · exact NoteTable.wf_modifyRelease hw h linger reason

/-- A delivery of a record of the table (R121). -/
theorem NoteTable.wf_deliverAll {t : NoteTable} (hw : t.wf) {rs : List Record}
    (hr : ∀ r ∈ rs, r.image.handle ∈ t.handles) : (t.deliverAll rs).wf := by
  induction rs generalizing t with
  | nil => exact hw
  | cons r rs ih =>
    refine ih (NoteTable.wf_modifyTouch hw (hr r List.mem_cons_self) (fun _ => rfl) fun _ => rfl) fun q hq => ?_
    rw [NoteTable.handles_deliver]
    exact hr q (List.mem_cons_of_mem r hq)

theorem NoteTable.wf_reflagAll {t : NoteTable} (hw : t.wf) (is : List Included) : (is.foldl NoteTable.reflag t).wf := by
  induction is generalizing t with
  | nil => exact hw
  | cons i is ih => exact ih (NoteTable.wf_map hw _ (fun r _ => by split <;> rfl) fun r _ => by split <;> rfl)

/-- An application of a Tracker's request keeps the table coherent if the reply's table is. -/
theorem serve_tableWf {σ : State} (w : σ.tableWf) (s : Str) (f : Request → Option Reply)
    (hf : ∀ q p, f q = some p → p.table.wf) : (σ.serve s f).tableWf := by
  unfold State.serve
  split
  · exact w
  · split
    · exact w
    · split
      · exact w
      · next p hp => exact hf _ p hp

theorem applyUpdate_tableWf {σ : State} (w : σ.tableWf) (s : Str) : (σ.applyUpdate s).tableWf :=
  serve_tableWf w s _ fun q p h => by
    cases q with
    | update u => exact Option.some.inj h ▸ NoteTable.wf_update w s u
    | _ => exact absurd h (by simp)

theorem applyConfirm_tableWf {σ : State} (w : σ.tableWf) (s : Str) : (σ.applyConfirm s).tableWf :=
  serve_tableWf w s _ fun q p h => by
    cases q with
    | confirm x => exact Option.some.inj h ▸ NoteTable.wf_confirm w s x
    | _ => exact absurd h (by simp)

theorem applyRelease_tableWf {σ : State} (w : σ.tableWf) (s : Str) : (σ.applyRelease s).tableWf :=
  serve_tableWf w s _ fun q p h => by
    cases q with
    | release x reason => exact Option.some.inj h ▸ NoteTable.wf_release w σ.settings.linger s x reason
    | _ => exact absurd h (by simp)

theorem tagNote_tableWf {σ : State} (w : σ.tableWf) (h tag : Byte) : (σ.tagNote h tag).tableWf := by
  unfold State.tagNote
  split
  · exact w
  · next hf => exact NoteTable.wf_modifyTouch w (NoteTable.find_handles hf) (fun _ => rfl) fun _ => rfl

theorem untagNote_tableWf {σ : State} (w : σ.tableWf) (h : Byte) : (σ.untagNote h).tableWf := by
  unfold State.untagNote
  split
  · exact w
  · next hf => exact NoteTable.wf_modifyTouch w (NoteTable.find_handles hf) (fun _ => rfl) fun _ => rfl

theorem holdNote_tableWf {σ : State} (w : σ.tableWf) (h v : Byte) : (σ.holdNote h v).tableWf := by
  unfold State.holdNote
  split
  · exact w
  · split
    · exact w
    · next hf =>
      exact NoteTable.wf_modifyTouch w (NoteTable.find_handles hf) (fun _ => by split <;> rfl)
        fun _ => by split <;> rfl

theorem forceReleaseAll_tableWf (rs : List Record) {σ : State} (w : σ.tableWf) :
    (rs.foldl State.forceRelease σ).tableWf := by
  induction rs generalizing σ with
  | nil => exact w
  | cons r rs ih => exact ih (NoteTable.wf_modifyRelease w r.image.handle _ _)

theorem releaseNote_tableWf {σ : State} (w : σ.tableWf) (h : Byte) : (σ.releaseNote h).tableWf := by
  unfold State.releaseNote
  split
  · exact w
  · split
    · exact forceReleaseAll_tableWf [_] w
    · exact w

theorem retireNote_tableWf {σ : State} (w : σ.tableWf) (h : Byte) : (σ.retireNote h).tableWf := by
  unfold State.retireNote
  split
  · exact w
  · split
    · exact w
    · exact NoteTable.wf_free w h.toNat

theorem lingerExpiry_tableWf {σ : State} (w : σ.tableWf) (h : Nat) : (σ.lingerExpiry h).tableWf := by
  unfold State.lingerExpiry
  split
  · exact w
  · split
    · split
      · exact NoteTable.wf_modify w h _ (fun _ => rfl) fun _ => rfl
      · exact NoteTable.wf_free w h
    · exact w

theorem snapshot_tableWf {σ : State} (w : σ.tableWf) (q : Query) : (σ.snapshot q).tableWf := by
  obtain ⟨rs, hrs, he⟩ := snapshot_table σ q
  rw [State.tableWf, he]
  exact NoteTable.wf_deliverAll w fun r hr => List.mem_map_of_mem (hrs r hr)

theorem applyPosted_tableWf {σ : State} (w : σ.tableWf) (p : Posted) : (σ.applyPosted p).tableWf := by
  cases p with
  | tagNote h t => exact tagNote_tableWf w h t
  | untagNote h => exact untagNote_tableWf w h
  | holdNote h v => exact holdNote_tableWf w h v
  | releaseNote h => exact releaseNote_tableWf w h
  | retireNote h => exact retireNote_tableWf w h
  | allRelease => exact forceReleaseAll_tableWf _ w
  | set n v => exact (set_frame σ n v).tableWf w
  | selectProfile v => exact (selectProfile_frame σ v).tableWf w
  | probeStop => exact (abortRun_frame σ _ _).tableWf w
  | clearFaults m => exact w
  | restart => exact NoteTable.ok_empty.1

/-- Every operation of the blocks that creates no record keeps the table coherent. -/
theorem tableWf_keptApart : KeptApart State.tableWf where
  pending _ _ w := w
  hardReset _ _ := NoteTable.ok_empty.1
  hardResetEnd _ w := w
  sample k v σ w := (sampleStep_frame σ k v).tableWf w
  tick _ w := NoteTable.wf_map w Record.tick (fun _ _ => rfl) fun _ _ => rfl
  stale k σ w := (staleStep_frame σ k).tableWf w
  linger h _ w := lingerExpiry_tableWf w h
  complete σ w := (completeComputation_frame σ).tableWf w
  result k σ w := (resultStep_frame σ k).tableWf w
  event e k σ w := (eventStep_frame σ e k).tableWf w
  answer k σ w := (trackerAnswer_frame σ k).tableWf w
  forced k σ w := (forcedStep_frame σ k).tableWf w
  enable k σ w := (enableStep_frame σ k).tableWf w
  disable k σ w := (disableStep_frame σ k).tableWf w
  update k _ w := applyUpdate_tableWf w k
  confirm k _ w := applyConfirm_tableWf w k
  release k _ w := applyRelease_tableWf w k
  pitch k σ w := (probePitch_frame σ k).tableWf w
  posted p _ w := applyPosted_tableWf w p
  snapshot q _ w := snapshot_tableWf w q
  link _ _ w := w
  arrive _ w := w
  report _ _ _ w := w
  refuse _ _ _ _ w := w
  drop _ w := w
  reflag _ is w := NoteTable.wf_reflagAll w is

/-! ## The agreement about live records (R90, R100) -/

/-- The Trackers and the table are coherent, and agree about the live records. -/
abbrev State.livesOk (σ : State) : Prop := σ.trackersWf ∧ σ.tableWf ∧ σ.livesWf

/-- Every operation of the blocks that creates no record keeps the agreement about live records. -/
theorem livesOk_keptApart : KeptApart State.livesOk where
  pending _ _ w := w
  hardReset σ _ := ⟨hardReset_trackersWf σ, NoteTable.ok_empty.1, hardReset_livesWf σ⟩
  hardResetEnd _ w := w
  sample k v σ
    | ⟨t, o, w⟩ => ⟨trackersWf_kept.sample k v σ t, tableWf_keptApart.sample k v σ o, sampleStep_livesWf w k v⟩
  tick σ | ⟨t, o, w⟩ => ⟨trackersWf_kept.tick σ t, tableWf_keptApart.tick σ o, tick_livesWf w⟩
  stale k σ | ⟨t, o, w⟩ => ⟨trackersWf_kept.stale k σ t, tableWf_keptApart.stale k σ o, staleStep_livesWf t w k⟩
  linger h σ | ⟨t, o, w⟩ => ⟨trackersWf_kept.linger h σ t, tableWf_keptApart.linger h σ o, lingerExpiry_livesWf w h⟩
  complete σ
    | ⟨t, o, w⟩ => ⟨trackersWf_kept.complete σ t, tableWf_keptApart.complete σ o, completeComputation_livesWf t w⟩
  result k σ | ⟨t, o, w⟩ => ⟨trackersWf_kept.result k σ t, tableWf_keptApart.result k σ o, resultStep_livesWf t w k⟩
  event e k σ | ⟨t, o, w⟩ => ⟨trackersWf_kept.event e k σ t, tableWf_keptApart.event e k σ o, eventStep_livesWf t w e k⟩
  answer k σ | ⟨t, o, w⟩ => ⟨trackersWf_kept.answer k σ t, tableWf_keptApart.answer k σ o, trackerAnswer_livesWf t w k⟩
  forced k σ | ⟨t, o, w⟩ => ⟨trackersWf_kept.forced k σ t, tableWf_keptApart.forced k σ o, forcedStep_livesWf t w k⟩
  enable k σ | ⟨t, o, w⟩ => ⟨trackersWf_kept.enable k σ t, tableWf_keptApart.enable k σ o, enableStep_livesWf t w k⟩
  disable k σ | ⟨t, o, w⟩ => ⟨trackersWf_kept.disable k σ t, tableWf_keptApart.disable k σ o, disableStep_livesWf t w k⟩
  update k σ | ⟨t, o, w⟩ => ⟨trackersWf_kept.update k σ t, tableWf_keptApart.update k σ o, applyUpdate_livesWf w k⟩
  confirm k σ
    | ⟨t, o, w⟩ => ⟨trackersWf_kept.confirm k σ t, tableWf_keptApart.confirm k σ o, applyConfirm_livesWf o w k⟩
  release k σ | ⟨t, o, w⟩ => ⟨trackersWf_kept.release k σ t, tableWf_keptApart.release k σ o, applyRelease_livesWf w k⟩
  pitch k σ | ⟨t, o, w⟩ => ⟨trackersWf_kept.pitch k σ t, tableWf_keptApart.pitch k σ o, probePitch_livesWf w k⟩
  posted p σ | ⟨t, o, w⟩ => ⟨trackersWf_kept.posted p σ t, tableWf_keptApart.posted p σ o, applyPosted_livesWf w p⟩
  snapshot q σ | ⟨t, o, w⟩ => ⟨trackersWf_kept.snapshot q σ t, tableWf_keptApart.snapshot q σ o, snapshot_livesWf w q⟩
  link _ _ w := w
  arrive _ w := w
  report _ _ _ w := w
  refuse _ _ _ _ w := w
  drop _ w := w
  reflag σ is | ⟨t, o, w⟩ => ⟨t, tableWf_keptApart.reflag σ is o, reflag_livesWf w is⟩

/-- A step that is taken outside hard reset leaves what it does, and otherwise the state as it was (R186). -/
theorem whenRunning_next {f : State → State} {s t : State} (he : whenRunning f s = .next t) : t = s ∨ t = f s := by
  obtain rfl := Host.Outcome.next.inj he
  split
  · exact .inl rfl
  · exact .inr rfl

/-- A record that the state has and an earlier state had not created has a handle that no forced-release message on its
way to its string's Tracker named in the earlier state (assumption log 33). -/
abbrev State.givesFresh (σ τ : State) : Prop :=
  ∀ r ∈ τ.table.records, σ.table.created ≤ r.serial → ¬ (σ.trackers[r.image.string]).toldOf r.image.handle

/-- Every command keeps the agreement about live records, where a record it creates has a fresh handle. -/
theorem exec_livesWf (c : Instr) {s t : State} (w : s.livesOk) (he : exec c s = .next t) (hfresh : s.givesFresh t) :
    t.livesWf := by
  have kept (hc : ∀ k, c ≠ .create k) (hq : ∀ k, c ≠ .succeed k) : t.livesOk :=
    exec_keptApart livesOk_keptApart c w he (fun k h => absurd h (hc k)) fun k h => absurd h (hq k)
  obtain ⟨wt, wo, wl⟩ := w
  cases c with
  | create k =>
    rcases whenRunning_next he with rfl | rfl
    · exact wl
    · exact applyCreate_livesWf wt wo wl k hfresh
  | succeed k =>
    rcases whenRunning_next he with rfl | rfl
    · exact wl
    · exact applySucceed_livesWf wo wl k hfresh
  | _ => exact (kept (by simp) (by simp)).2.2

/-- Every step keeps the agreement about live records, where a record it creates has a fresh handle. -/
theorem step_livesWf {s t : State} (w : s.livesOk) (he : step s = .next t) (hfresh : s.givesFresh t) : t.livesWf := by
  unfold step at he
  split at he
  · obtain rfl := Host.Outcome.next.inj he
    exact w.2.2
  · refine exec_livesWf _ ?_ he hfresh
    exact w

/-- Settles O60: the agreement is kept by every step, and gives that a string has at most one live record, that at most
eight are live, and so that a full table has a victim. -/
theorem stepKeepsOneLiveRecordOnAString : Obligations.StepKeepsOneLiveRecordOnAString := by
  unfold Obligations.StepKeepsOneLiveRecordOnAString
  constructor
  · intro s t wt wo _ wl he hfresh
    exact step_livesWf ⟨wt, wo, wl⟩ he hfresh
  · intro s wo wl
    refine ⟨fun q hq r hr => live_unique wo wl hq hr, live_atMostEight wo wl,
      fun hfull => NoteTable.victim_isSome wo none hfull (live_atMostEight wo wl), fun r hr => ?_⟩
    obtain ⟨hpred, hsucc, -⟩ := wl.2 r hr
    exact ⟨hpred, hsucc⟩

end Sys2Proof.Machine

/-! SUPPORT. O57, the bends: with the other invariants every operation of the blocks keeps every bend within its
record's bend range. The two that create a record stand apart, since they keep the agreement about live records only where the
handle given is fresh; what they do to the bends rests on the state before them alone. -/

namespace Sys2Proof.Machine

/-- Every value is within its range, the Trackers and the table agree, and every bend is within its bend range. -/
abbrev State.bendsOk (σ : State) : Prop := σ.valuesOk ∧ σ.livesOk ∧ σ.bendsWf

/-- What the steps at the Trackers ask of the state (R50, R91). -/
theorem State.bendsOk.ready {σ : State} (w : σ.bendsOk) : σ.bendReady := by
  obtain ⟨⟨hk, -, hr⟩, ⟨ht, -, hl⟩, hb⟩ := w
  exact ⟨hk, ht, hr, hl.1, hb⟩

/-- Every operation of the blocks that creates no record keeps every bend within its record's bend range. -/
theorem bendsOk_keptApart : KeptApart State.bendsOk where
  pending _ _ w := w
  hardReset σ | ⟨v, l, _⟩ => ⟨valuesOk_kept.hardReset σ v, livesOk_keptApart.hardReset σ l, hardReset_bendsWf σ⟩
  hardResetEnd _ w := w
  sample k x σ | ⟨v, l, w⟩ => ⟨valuesOk_kept.sample k x σ v, livesOk_keptApart.sample k x σ l, sampleStep_bendsWf w k x⟩
  tick σ | ⟨v, l, w⟩ => ⟨valuesOk_kept.tick σ v, livesOk_keptApart.tick σ l, tick_bendsWf w⟩
  stale k σ w := ⟨valuesOk_kept.stale k σ w.1, livesOk_keptApart.stale k σ w.2.1, staleStep_bendsWf w.ready k⟩
  linger h σ | ⟨v, l, w⟩ => ⟨valuesOk_kept.linger h σ v, livesOk_keptApart.linger h σ l, lingerExpiry_bendsWf w h⟩
  complete σ w :=
    ⟨valuesOk_kept.complete σ w.1, livesOk_keptApart.complete σ w.2.1, completeComputation_bendsWf w.ready⟩
  result k σ w := ⟨valuesOk_kept.result k σ w.1, livesOk_keptApart.result k σ w.2.1, resultStep_bendsWf w.ready k⟩
  event e k σ w := ⟨valuesOk_kept.event e k σ w.1, livesOk_keptApart.event e k σ w.2.1, eventStep_bendsWf w.ready e k⟩
  answer k σ w := ⟨valuesOk_kept.answer k σ w.1, livesOk_keptApart.answer k σ w.2.1, trackerAnswer_bendsWf w.ready k⟩
  forced k σ w := ⟨valuesOk_kept.forced k σ w.1, livesOk_keptApart.forced k σ w.2.1, forcedStep_bendsWf w.ready k⟩
  enable k σ w := ⟨valuesOk_kept.enable k σ w.1, livesOk_keptApart.enable k σ w.2.1, enableStep_bendsWf w.ready k⟩
  disable k σ w := ⟨valuesOk_kept.disable k σ w.1, livesOk_keptApart.disable k σ w.2.1, disableStep_bendsWf w.ready k⟩
  update k σ
    | ⟨v, ⟨t, o, l⟩, w⟩ =>
      ⟨valuesOk_kept.update k σ v, livesOk_keptApart.update k σ ⟨t, o, l⟩, applyUpdate_bendsWf t o l w k⟩
  confirm k σ
    | ⟨v, ⟨t, o, l⟩, w⟩ =>
      ⟨valuesOk_kept.confirm k σ v, livesOk_keptApart.confirm k σ ⟨t, o, l⟩, applyConfirm_bendsWf o w k⟩
  release k σ | ⟨v, l, w⟩ => ⟨valuesOk_kept.release k σ v, livesOk_keptApart.release k σ l, applyRelease_bendsWf w k⟩
  pitch k σ | ⟨v, l, w⟩ => ⟨valuesOk_kept.pitch k σ v, livesOk_keptApart.pitch k σ l, probePitch_bendsWf w k⟩
  posted p σ | ⟨v, l, w⟩ => ⟨valuesOk_kept.posted p σ v, livesOk_keptApart.posted p σ l, applyPosted_bendsWf w p⟩
  snapshot q σ | ⟨v, l, w⟩ => ⟨valuesOk_kept.snapshot q σ v, livesOk_keptApart.snapshot q σ l, snapshot_bendsWf w q⟩
  link _ _ w := w
  arrive _ w := w
  report _ _ _ w := w
  refuse _ _ _ _ w := w
  drop _ w := w
  reflag σ is
    | ⟨v, l, w⟩ =>
      ⟨valuesOk_kept.reflag σ is v, livesOk_keptApart.reflag σ is l,
        bendsWf_sameTrackers w (NoteTable.bendsOf_reflagAll σ.table is) rfl⟩

/-- Every command keeps every bend within its record's bend range. -/
theorem exec_bendsWf (c : Instr) {s t : State} (w : s.bendsOk) (he : exec c s = .next t) : t.bendsWf := by
  have kept (hc : ∀ k, c ≠ .create k) (hq : ∀ k, c ≠ .succeed k) : t.bendsOk :=
    exec_keptApart bendsOk_keptApart c w he (fun k h => absurd h (hc k)) fun k h => absurd h (hq k)
  obtain ⟨hv, -, hb⟩ := w
  cases c with
  | create k => exact whenRunning_kept hb (applyCreate_bendsWf hb k) he
  | succeed k => exact whenRunning_kept hb (applySucceed_bendsWf hv.2 hb k) he
  | _ => exact (kept (by simp) (by simp)).2.2

/-- Every step keeps every bend within its record's bend range. -/
theorem step_bendsWf {s t : State} (w : s.bendsOk) (he : step s = .next t) : t.bendsWf := by
  unfold step at he
  split at he
  · obtain rfl := Host.Outcome.next.inj he
    exact w.2.2
  · refine exec_bendsWf _ ?_ he
    exact w

/-- Settles O57: the values by the operations of the blocks one by one, the bends with the other invariants. -/
theorem stepKeepsRecordFieldsWithinRange : Obligations.StepKeepsRecordFieldsWithinRange := by
  unfold Obligations.StepKeepsRecordFieldsWithinRange
  refine ⟨fun s t hk hv he => ?_, fun s t hk hv ht ho hl hb he => ?_, fun s hv hb r hr => ?_⟩
  · exact (step_kept valuesOk_kept ⟨Settings.wf_musical hk, hv⟩ he).2
  · exact step_bendsWf ⟨⟨Settings.wf_musical hk, hv⟩, ⟨ht, ho, hl⟩, hb⟩ he
  · obtain ⟨⟨hnote, -, -, hvlow, hvhigh, hlevel⟩, htlow, hthigh, hrlow, hrhigh⟩ := hv.1 r hr
    have hbend : bendWithin r.image.bend r.image.bendRange := hb.1 r hr
    unfold bendWithin at hbend
    exact ⟨⟨hnote, hvlow, hvhigh, hlevel⟩, by omega, by omega, hrlow, hrhigh, htlow, hthigh⟩

end Sys2Proof.Machine

/-! SUPPORT. What each change of one record leaves, written out field by field, and what the command at the head of the
posted buffer does in its row: the rules that O29 to O36 rest on. -/

namespace Sys2Proof.Machine

/-! ## One record changed (R96) -/

/-- The changed flag is set where a condition says that the image changed. -/
theorem Record.edit_of_iff {r : Record} {f : Image → Image} {p : Prop} [Decidable p] (h : f r.image ≠ r.image ↔ p) :
    r.edit f = { r with image := f r.image, changed := r.changed || decide p } := by
  simp only [Record.edit, h]

/-- The changed flag is set where the image changed. -/
theorem Record.edit_of_ne {r : Record} {f : Image → Image} (h : f r.image ≠ r.image) :
    r.edit f = { r with image := f r.image, changed := true } := by
  rw [Record.edit, decide_eq_true h, Bool.or_true]

/-- A record once flagged stays flagged. -/
theorem Record.edit_of_changed {r : Record} (f : Image → Image) (h : r.changed = true) :
    r.edit f = { r with image := f r.image, changed := true } := by
  simp only [Record.edit, h, Bool.true_or]

/-- A record in another state than the one it is put into has changed. -/
theorem Image.ne_of_state {i j : Image} (h : i.state ≠ j.state) : i ≠ j := fun e => h (e ▸ rfl)

/-- A live record released (R104, R105, R110). -/
theorem Record.release_live {r : Record} (hl : r.image.state ≠ .released) (linger : Nat) (reason : ReleaseReason) :
    r.release linger reason =
      { r with
        image := { r.image with state := .released, reason := some reason }
        changed := true
        linger := if linger = 0 then .stopped else .running (linger * 10) } := by
  have hne : ({ r.image with state := .released, reason := some reason } : Image) ≠ r.image :=
    Image.ne_of_state fun e => hl e.symm
  rw [Record.release, Record.edit_of_ne hne]
  rfl

/-- A record's tag set or cleared (R108). -/
theorem Record.edit_tag (r : Record) (tag : Option Byte) :
    (r.edit fun i => { i with tag := tag }) =
      { r with image := { r.image with tag := tag }, changed := r.changed || decide (r.image.tag ≠ tag) } := by
  refine Record.edit_of_iff (not_congr ⟨fun e => ?_, fun e => ?_⟩)
  · exact (congrArg Image.tag e).symm
  · rw [← e]

/-- A record's hold set or cleared (R109). -/
theorem Record.edit_hold (r : Record) (on : Bool) :
    (r.edit fun i => { i with hold := on }) =
      { r with image := { r.image with hold := on }, changed := r.changed || decide (r.image.hold ≠ on) } := by
  refine Record.edit_of_iff (not_congr ⟨fun e => ?_, fun e => ?_⟩)
  · exact (congrArg Image.hold e).symm
  · rw [← e]

/-- A record's links to a freed handle cleared (R119). -/
theorem Record.unlink_eq (r : Record) (h : Nat) :
    r.unlink h =
      { r with
        image :=
          { r.image with
            predecessor := if r.image.predecessor = some h then none else r.image.predecessor
            successor := if r.image.successor = some h then none else r.image.successor }
        changed := r.changed || decide (r.image.predecessor = some h ∨ r.image.successor = some h) } := by
  refine Record.edit_of_iff ?_
  rw [← not_iff_not, not_not, not_or]
  constructor
  · intro e
    have hp := congrArg Image.predecessor e
    have hs := congrArg Image.successor e
    refine ⟨fun h' => ?_, fun h' => ?_⟩
    · simp [h'] at hp
    · simp [h'] at hs
  · rintro ⟨hp, hs⟩
    simp only [hp, hs, if_false]

/-! ## The table after a change -/

/-- A change of the record that holds a handle is a change of that one record. -/
theorem NoteTable.modify_eq {t : NoteTable} (hn : t.handles.Nodup) {r : Record} (hr : r ∈ t.records)
    (f : Record → Record) {u : Record} (hu : f r = u) :
    t.modify r.image.handle f =
      { t with records := t.records.map fun q => if q.image.handle = r.image.handle then u else q } :=
  congrArg (fun rs => { t with records := rs }) (NoteTable.modify_records hn hr f u hu)

/-- Two changes that agree on the one record that holds a handle are the same change of the table. -/
theorem NoteTable.modify_congr {t : NoteTable} (hn : t.handles.Nodup) {r : Record} (hr : r ∈ t.records) {h : Nat}
    (hh : r.image.handle = h) {f g : Record → Record} (he : f r = g r) : t.modify h f = t.modify h g := by
  refine congrArg (fun rs => ({ t with records := rs } : NoteTable)) (List.map_congr_left fun q hq => ?_)
  split
  · next hqh =>
    obtain rfl := NoteTable.eq_of_handle hn hq hr (hqh.trans hh.symm)
    exact he
  · rfl

/-- A record's slot becomes FREE (R119). -/
theorem NoteTable.free_eq (t : NoteTable) (h : Nat) :
    t.free h =
      { t with
        records := (t.records.filter fun q => q.image.handle ≠ h).map fun q =>
          { q with
            image :=
              { q.image with
                predecessor := if q.image.predecessor = some h then none else q.image.predecessor
                successor := if q.image.successor = some h then none else q.image.successor }
            changed := q.changed || decide (q.image.predecessor = some h ∨ q.image.successor = some h) }
        recency := t.recency.filter (· ≠ h) } := by
  have hu : Record.unlink h = fun q => _ := funext fun q => Record.unlink_eq q h
  simp only [NoteTable.free, hu]

/-! ## A posted command in its row (R163) -/

/-- The oldest posted command is applied where it is of the kind named and its effects are not in place. -/
theorem applyWhen_head {σ : State} {p : Posted} {rest : List Posted} (ha : σ.link.applied = false)
    (hb : σ.link.buffer = p :: rest) {kind : Posted → Bool} (hk : kind p = true) :
    σ.applyWhen kind = (σ.applyPosted p).markApplied := by
  simp only [State.applyWhen, Link.head, ha, hb, List.head?_cons, Bool.false_eq_true, if_false, hk, if_true]

/-- The row of a posted command, but for a RESTART, puts its effects in place. -/
theorem exec_command {s : State} {p : Posted} {rest : List Posted} (hr : s.inReset = false)
    (ha : s.link.applied = false) (hb : s.link.buffer = p :: rest) (hp : p ≠ .restart) :
    exec p.command s = .next (s.applyPosted p).markApplied := by
  have row {kind : Posted → Bool} (hk : kind p = true) :
      whenRunning (State.applyWhen kind) s = .next (s.applyPosted p).markApplied := by
    rw [whenRunning_running hr, applyWhen_head ha hb hk]
  cases p with
  | restart => exact absurd rfl hp
  | _ => exact row (by rfl)

end Sys2Proof.Machine

/-! SUPPORT. O33 to O36: the controller's commands at the Note Table, and the expiry of a linger timer. -/

namespace Sys2Proof.Machine

/-! ## TAG NOTE and UNTAG NOTE (R108) -/

/-- The row of a TAG NOTE or UNTAG NOTE, by the tag it leaves. -/
theorem command_of_tag {p : Posted} {h : Byte} {tag : Option Byte}
    (hp : (∃ b, p = .tagNote h b ∧ tag = some b) ∨ (p = .untagNote h ∧ tag = none)) :
    p.command = (if tag.isSome then .tagNote else .untagNote) ∧ p ≠ .restart := by
  rcases hp with ⟨b, rfl, rfl⟩ | ⟨rfl, rfl⟩ <;> exact ⟨rfl, by simp⟩

/-- A TAG NOTE or UNTAG NOTE of an occupied record. -/
theorem applyPosted_tag {σ : State} {p : Posted} {h : Byte} {tag : Option Byte} {r : Record}
    (hp : (∃ b, p = .tagNote h b ∧ tag = some b) ∨ (p = .untagNote h ∧ tag = none))
    (hf : σ.table.find h.toNat = some r) :
    σ.applyPosted p =
      σ.setTable ((σ.table.modify h.toNat fun q => q.edit fun i => { i with tag := tag }).touch h.toNat) := by
  rcases hp with ⟨b, rfl, rfl⟩ | ⟨rfl, rfl⟩
  · simp only [State.applyPosted, State.tagNote, hf]
  · simp only [State.applyPosted, State.untagNote, hf]

/-- A TAG NOTE or UNTAG NOTE that names no record. -/
theorem applyPosted_tag_missing {σ : State} {p : Posted} {h : Byte} {tag : Option Byte}
    (hp : (∃ b, p = .tagNote h b ∧ tag = some b) ∨ (p = .untagNote h ∧ tag = none))
    (hf : σ.table.find h.toNat = none) : σ.applyPosted p = σ.refuse p.code h .notFound := by
  rcases hp with ⟨b, rfl, rfl⟩ | ⟨rfl, rfl⟩
  · simp only [State.applyPosted, State.tagNote, hf]; rfl
  · simp only [State.applyPosted, State.untagNote, hf]; rfl

/-- Settles O34: both commands are one change of the tag, at a record found or at none. -/
theorem tagAndUntagMoveToTheTail : Obligations.TagAndUntagMoveToTheTail := by
  unfold Obligations.TagAndUntagMoveToTheTail
  intro s p rest h tag hr ha hb hw hp command
  obtain ⟨hcommand, hrestart⟩ := command_of_tag hp
  have row : exec command s = .next (s.applyPosted p).markApplied := by
    rw [← exec_command hr ha hb hrestart, hcommand]
  refine ⟨fun r hmem hh => ?_, fun hmissing => ?_⟩
  · have hf : s.table.find h.toNat = some r := hh ▸ NoteTable.find_of_mem hw.2.1 hmem
    rw [row, applyPosted_tag hp hf]
    simp only [Record.edit_tag]
    rfl
  · rw [row, applyPosted_tag_missing hp (NoteTable.find_none hmissing)]
    rfl

/-! ## HOLD NOTE (R109, R115) -/

/-- Holding off leaves the linger timer, but on a RELEASED record that was held (R115). -/
theorem Record.holdOff_eq (r : Record) (linger : Nat) :
    r.holdOff linger =
      { r with
        image := { r.image with hold := false }
        changed := r.changed || decide (r.image.hold ≠ false)
        linger := if !r.live && r.image.hold then startLinger linger else r.linger } := by
  rw [Record.holdOff, Record.edit_hold]

/-- A HOLD NOTE with a setting of 0 or 1 for an occupied record. -/
theorem holdNote_found {σ : State} {h setting : Byte} {r : Record} (hs : setting = 0#8 ∨ setting = 1#8)
    (hf : σ.table.find h.toNat = some r) :
    σ.holdNote h setting =
      σ.setTable ((σ.table.modify h.toNat fun q =>
        if setting = 1#8 then q.holdOn else q.holdOff σ.settings.linger).touch h.toNat) := by
  have hvalue : ¬ (setting ≠ 0#8 ∧ setting ≠ 1#8) := by tauto
  simp only [State.holdNote, if_neg hvalue, hf]

/-- Settles O35: the refusals in their order; then the hold set, or cleared with the linger timer as it stands or
started afresh. -/
theorem holdDefersAndRestartsLinger : Obligations.HoldDefersAndRestartsLinger := by
  unfold Obligations.HoldDefersAndRestartsLinger
  intro s rest h setting hr ha hb hw refused held
  have row : exec .holdNote s = .next (s.holdNote h setting).markApplied := exec_command hr ha hb (by simp)
  refine ⟨fun h0 h1 => ?_, fun hs hmissing => ?_, fun r hmem hh => ?_⟩
  · rw [row, State.holdNote, if_pos ⟨h0, h1⟩]
    rfl
  · have hvalue : ¬ (setting ≠ 0#8 ∧ setting ≠ 1#8) := by tauto
    simp only [row, State.holdNote, if_neg hvalue, NoteTable.find_none hmissing]
    rfl
  · have hf : s.table.find h.toNat = some r := hh ▸ NoteTable.find_of_mem hw.2.1 hmem
    have changed (hs : setting = 0#8 ∨ setting = 1#8) {linger : Record → Timer} {on : Bool}
        (he : (if setting = 1#8 then r.holdOn else r.holdOff s.settings.linger) =
          { r with
            image := { r.image with hold := on }
            changed := r.changed || decide (r.image.hold ≠ on)
            linger := linger r }) : exec .holdNote s = .next (held linger on) := by
      rw [row, holdNote_found hs hf, NoteTable.modify_congr hw.2.1 hmem hh (g := fun q =>
        { q with
          image := { q.image with hold := on }
          changed := q.changed || decide (q.image.hold ≠ on)
          linger := linger q }) he]
      rfl
    refine ⟨fun hon => ?_, fun hoff hreleased hheld => ?_, fun hoff hcase => ?_⟩
    · refine changed (.inr hon) ?_
      rw [if_pos hon, Record.holdOn, Record.edit_hold]
    · refine changed (.inl hoff) ?_
      rw [if_neg (by simp [hoff]), Record.holdOff_eq]
      simp [Record.live, hreleased, hheld, startLinger]
    · refine changed (.inl hoff) ?_
      have hkeeps : (!r.live && r.image.hold) = false := by
        rcases hcase with hl | hunheld
        · simp [Record.live, hl]
        · simp [hunheld]
      simp [hoff, Record.holdOff_eq, hkeeps]

/-! ## LINGER_TIMER_EXPIRY and RETIRE NOTE (R112, R117, R119) -/

theorem exec_lingerTimerExpiry {s : State} (hr : s.inReset = false) (h : Nat) :
    exec (.lingerTimerExpiry h) s = .next (s.lingerExpiry h) := whenRunning_running hr

/-- An expiry that no RELEASED record's timer has reached does nothing (R117). -/
theorem lingerExpiry_early {σ : State} {h : Nat}
    (hearly : ∀ r ∈ σ.table.records, r.image.handle = h → r.image.state ≠ .released ∨ r.linger ≠ .running 0) :
    σ.lingerExpiry h = σ := by
  unfold State.lingerExpiry
  split
  · rfl
  · next r hf =>
    obtain ⟨hmem, hh⟩ := NoteTable.find_some hf
    rw [if_neg]
    rintro ⟨hdue, hreleased⟩
    rcases hearly r hmem hh with hl | hl
    · exact hl hreleased
    · exact hl hdue

/-- Settles O33: an expiry by the record it finds, its timer and its hold; a RETIRE NOTE by the record's state. -/
theorem expiryAndRetireFreeReleasedRecords : Obligations.ExpiryAndRetireFreeReleasedRecords := by
  unfold Obligations.ExpiryAndRetireFreeReleasedRecords
  constructor
  · intro s h hr hw
    rw [exec_lingerTimerExpiry hr]
    refine ⟨?_, fun hearly => by rw [lingerExpiry_early hearly]⟩
    rintro r hmem rfl hreleased hdue
    have hf := NoteTable.find_of_mem hw.2.1 hmem
    refine ⟨fun hhold => ?_, fun hhold => ?_⟩
    · simp only [State.lingerExpiry, hf, hdue, hreleased, hhold, and_self, if_true, Bool.false_eq_true, if_false,
        NoteTable.free_eq]
      rfl
    · simp only [State.lingerExpiry, hf, hdue, hreleased, hhold, and_self, if_true]
      rfl
  · intro s rest h hr ha hb hw refused
    have row : exec .retireNote s = .next (s.retireNote h).markApplied := exec_command hr ha hb (by simp)
    refine ⟨fun r hmem hh => ?_, fun hmissing => ?_⟩
    · have hf : s.table.find h.toNat = some r := hh ▸ NoteTable.find_of_mem hw.2.1 hmem
      refine ⟨fun hreleased => ?_, fun hl => ?_⟩
      · have hdead : r.live = false := by simp [Record.live, hreleased]
        simp only [row, State.retireNote, hf, hdead, Bool.false_eq_true, if_false, NoteTable.free_eq]
        rfl
      · have hlive : r.live = true := by simp [Record.live, hl]
        simp only [row, State.retireNote, hf, hlive, if_true]
        rfl
    · simp only [row, State.retireNote, NoteTable.find_none hmissing]
      rfl

end Sys2Proof.Machine

/-! SUPPORT. O36: RELEASE NOTE and ALL RELEASE, the second as one change of every live record and of every Tracker. -/

namespace Sys2Proof.Machine

/-! ## RELEASE NOTE (R110, R113) -/

/-- A RELEASE NOTE of a live record releases it. -/
theorem releaseNote_live {σ : State} {h : Byte} {r : Record} (hf : σ.table.find h.toNat = some r)
    (hl : r.image.state ≠ .released) : σ.releaseNote h = σ.forceRelease r := by
  have hlive : r.live = true := by simp [Record.live, hl]
  simp only [State.releaseNote, hf, hlive, if_true]

/-- A RELEASE NOTE of a RELEASED record changes nothing. -/
theorem releaseNote_released {σ : State} {h : Byte} {r : Record} (hf : σ.table.find h.toNat = some r)
    (hs : r.image.state = .released) : σ.releaseNote h = σ := by
  have hdead : r.live = false := by simp [Record.live, hs]
  simp only [State.releaseNote, hf, hdead, Bool.false_eq_true, if_false]

/-! ## ALL RELEASE (R111, R113) -/

/-- The records after the release of several, each of which is released once. -/
theorem forceReleaseAll_records (rs : List Record) (σ : State) (hn : (rs.map (·.image.handle)).Nodup) :
    (rs.foldl State.forceRelease σ).table =
      { σ.table with
        records := σ.table.records.map fun q =>
          if q.image.handle ∈ rs.map (·.image.handle) then q.release σ.settings.linger .forced else q } := by
  induction rs generalizing σ with
  | nil => simp
  | cons r rs ih =>
    rw [List.map_cons, List.nodup_cons] at hn
    obtain ⟨hr, hrs⟩ := hn
    rw [List.foldl_cons, ih (σ.forceRelease r) hrs]
    have twice (q : Record) :
        (let q' := if q.image.handle = r.image.handle then q.release σ.settings.linger .forced else q
          if q'.image.handle ∈ rs.map (·.image.handle) then q'.release σ.settings.linger .forced else q') =
        if q.image.handle ∈ (r :: rs).map (·.image.handle) then q.release σ.settings.linger .forced else q := by
      dsimp only
      by_cases hq : q.image.handle = r.image.handle
      · have kept : (q.release σ.settings.linger .forced).image.handle = r.image.handle := hq
        rw [if_pos hq, kept, if_neg hr, if_pos (by simp [hq])]
      · rw [if_neg hq]
        simp only [List.map_cons, List.mem_cons, hq, false_or]
    refine congrArg (fun l => ({ σ.table with records := l } : NoteTable)) ?_
    exact (List.map_map ..).trans (List.map_congr_left fun q _ => twice q)

/-- The notices of the records released, in their order. -/
theorem forceReleaseAll_notices (rs : List Record) (σ : State) :
    (rs.foldl State.forceRelease σ).notices =
      σ.notices.handAll σ.settings.noticeEnables (rs.map fun r => .released r.image.handle .forced 0) := by
  induction rs generalizing σ with
  | nil => rfl
  | cons r rs ih => exact ih (σ.forceRelease r)

/-- Each Tracker is sent a message for each record of its string, in their order. -/
theorem forceReleaseAll_trackers (rs : List Record) (σ : State) (k : Str) :
    (rs.foldl State.forceRelease σ).trackers[k] =
      { σ.trackers[k] with
        forced := (σ.trackers[k]).forced
          ++ (rs.filter fun r => decide (r.image.string = k)).map fun r => r.image.handle } := by
  induction rs generalizing σ with
  | nil => simp
  | cons r rs ih =>
    rw [List.foldl_cons, ih (σ.forceRelease r)]
    have sent : (σ.forceRelease r).trackers = (σ.sendForced r.image.string r.image.handle).trackers := rfl
    rw [sent, sendForced_trackers, bank_get_set]
    split
    · next hk => simp [hk]
    · next hk => simp [hk]

/-- The handles of the live records name the live records alone. -/
theorem NoteTable.handle_mem_live_iff {t : NoteTable} (hn : t.handles.Nodup) {q : Record} (hq : q ∈ t.records) :
    q.image.handle ∈ (t.records.filter (·.live)).map (·.image.handle) ↔ q.image.state ≠ .released := by
  rw [List.mem_map]
  constructor
  · rintro ⟨r, hr, he⟩
    obtain ⟨hmem, hlive⟩ := List.mem_filter.1 hr
    obtain rfl := NoteTable.eq_of_handle hn hmem hq he
    exact of_decide_eq_true hlive
  · intro hl
    exact ⟨q, List.mem_filter.2 ⟨hq, decide_eq_true hl⟩, rfl⟩

/-- Settles O36: a RELEASE NOTE by the record found; an ALL RELEASE by what it leaves in the table, in the notices and
at each Tracker. -/
theorem controllerReleasesForceLiveRecords : Obligations.ControllerReleasesForceLiveRecords := by
  unfold Obligations.ControllerReleasesForceLiveRecords
  constructor
  · intro s rest h hr ha hb hw
    have row : exec .releaseNote s = .next (s.releaseNote h).markApplied := exec_command hr ha hb (by simp)
    rw [row]
    refine ⟨fun r hmem hh => ?_, fun hmissing => ?_⟩
    · have hf : s.table.find h.toNat = some r := hh ▸ NoteTable.find_of_mem hw.2.1 hmem
      refine ⟨fun hl => ?_, fun hreleased => by rw [releaseNote_released hf hreleased]; rfl⟩
      rw [releaseNote_live hf hl, State.forceRelease, hh, NoteTable.modify_congr hw.2.1 hmem hh (g := fun q =>
        { q with
          image := { q.image with state := .released, reason := some .forced }
          changed := true
          linger := if s.settings.linger = 0 then .stopped else .running (s.settings.linger * 10) })
        (Record.release_live hl _ _)]
      rfl
    · simp only [State.releaseNote, NoteTable.find_none hmissing]
      rfl
  · intro s rest hr ha hb hw live
    have row : exec .allRelease s = .next s.allRelease.markApplied := exec_command hr ha hb (by simp)
    have hn : (live.map (·.image.handle)).Nodup := hw.2.1.sublist (List.filter_sublist.map _)
    have table : s.allRelease.table = { s.table with
        records := s.table.records.map fun q =>
          if q.image.state = .released then q
          else
            { q with
              image := { q.image with state := .released, reason := some .forced }
              changed := true
              linger := if s.settings.linger = 0 then .stopped else .running (s.settings.linger * 10) } } := by
      refine (forceReleaseAll_records live s hn).trans ?_
      refine congrArg (fun l => ({ s.table with records := l } : NoteTable)) (List.map_congr_left fun q hq => ?_)
      have hmem := NoteTable.handle_mem_live_iff hw.2.1 hq
      split
      · next hin => rw [if_neg (hmem.1 hin), Record.release_live (hmem.1 hin)]
      · next hout => rw [if_pos (not_not.1 fun hl => hout (hmem.2 hl))]
    have trackers : s.allRelease.trackers = Vector.ofFn fun k =>
        { s.trackers[k] with
          forced := (s.trackers[k]).forced
            ++ (live.filter fun r => decide (r.image.string = k)).map fun r => r.image.handle } :=
      bank_ext fun k => by
        rw [bank_get_ofFn]
        exact forceReleaseAll_trackers live s k
    rw [row, allRelease_frame s, table, trackers, show s.allRelease.notices = _ from forceReleaseAll_notices live s]
    rfl

end Sys2Proof.Machine

/-! SUPPORT. O29 to O32: a Tracker's request applied at the Note Table. First what every application leaves: the reply's
table, its notices handed on, and the answer put to the request. -/

namespace Sys2Proof.Machine

/-! ## A request served (R97) -/

/-- The state that a reply to a Tracker's request leaves (R97). -/
def State.served (σ : State) (k : Str) (q : Request) (counted : Option Int) (p : Reply) : State :=
  { σ with
    table := p.table
    notices := σ.notices.handAll σ.settings.noticeEnables p.notices
    trackers := σ.trackers.set k
      { σ.trackers[k] with awaited := some { request := q, counted := counted, answer := some p.answer } } }

/-- A request awaited and not answered is applied: the table, the notices and the answer are in place together (R97). -/
theorem serve_awaited {σ : State} {k : Str} {q : Request} {counted : Option Int}
    (ha : (σ.trackers[k]).awaited = some { request := q, counted := counted, answer := none })
    {f : Request → Option Reply} {p : Reply} (hf : f q = some p) : σ.serve k f = σ.served k q counted p := by
  simp only [State.serve, ha, Option.isSome_none, Bool.false_eq_true, if_false, hf]
  rfl

/-- A request applied in its row, outside hard reset. -/
theorem whenRunning_serves {s : State} {k : Str} {q : Request} {counted : Option Int} (hr : s.inReset = false)
    (ha : (s.trackers[k]).awaited = some { request := q, counted := counted, answer := none })
    {f : Request → Option Reply} {p : Reply} (hf : f q = some p) {apply : State → State}
    (happly : apply s = s.serve k f) :
    whenRunning apply s = .next (s.served k q counted p) := by
  rw [whenRunning_running hr, happly, serve_awaited ha hf]

theorem exec_update {s : State} {k : Str} {u : UpdateRequest} {counted : Option Int} (hr : s.inReset = false)
    (ha : (s.trackers[k]).awaited = some { request := .update u, counted := counted, answer := none }) :
    exec (.update k) s = .next (s.served k (.update u) counted (s.table.update k u)) :=
  whenRunning_serves hr ha rfl rfl

theorem exec_confirm {s : State} {k : Str} {h : Nat} {counted : Option Int} (hr : s.inReset = false)
    (ha : (s.trackers[k]).awaited = some { request := .confirm h, counted := counted, answer := none }) :
    exec (.confirm k) s = .next (s.served k (.confirm h) counted (s.table.confirm k h)) :=
  whenRunning_serves hr ha rfl rfl

theorem exec_release {s : State} {k : Str} {h : Nat} {reason : ReleaseReason} {counted : Option Int}
    (hr : s.inReset = false)
    (ha : (s.trackers[k]).awaited = some { request := .release h reason, counted := counted, answer := none }) :
    exec (.release k) s =
      .next (s.served k (.release h reason) counted (s.table.release s.settings.linger k h reason)) :=
  whenRunning_serves hr ha rfl rfl

theorem exec_create {s : State} {k : Str} {c : CreateRequest} {counted : Option Int} (hr : s.inReset = false)
    (ha : (s.trackers[k]).awaited = some { request := .create c, counted := counted, answer := none }) {p : Reply}
    (hp : s.table.create s.settings k c = some p) :
    exec (.create k) s = .next (s.served k (.create c) counted p) :=
  whenRunning_serves hr ha hp rfl

theorem exec_succeed {s : State} {k : Str} {q : SucceedRequest} {counted : Option Int} (hr : s.inReset = false)
    (ha : (s.trackers[k]).awaited = some { request := .succeed q, counted := counted, answer := none }) {p : Reply}
    (hp : s.table.succeed s.settings k q = some p) :
    exec (.succeed k) s = .next (s.served k (.succeed q) counted p) :=
  whenRunning_serves hr ha hp rfl

/-! ## UPDATE (R101, R102) -/

/-- An UPDATE corrects a PROVISIONAL record whose note it changes (R101). -/
theorem UpdateRequest.corrects_eq (u : UpdateRequest) (i : Image) :
    u.corrects i = decide (i.state = .provisional ∧ u.note ≠ i.note) := (Bool.decide_and _ _).symm

/-- An UPDATE of a live record of the string (R101, R102). -/
theorem NoteTable.update_live {t : NoteTable} (hn : t.handles.Nodup) {r : Record} (hr : r ∈ t.records)
    (hl : r.image.state ≠ .released) {u : UpdateRequest} (hh : r.image.handle = u.handle) :
    t.update r.image.string u =
      { table := { t with
          records := t.records.map fun q => if q.image.handle = u.handle then r.edit fun i => i.updated u else q }
        notices := if u.corrects r.image then [.corrected u.handle u.note] else []
        answer := .ok } := by
  simp only [NoteTable.update, ← hh, NoteTable.findLive_of_mem hn hr hl, NoteTable.modify_eq hn hr _ rfl]

/-- Settles O30: the UPDATE of a live record, and the answer where there is none. -/
theorem updateSetsALiveRecord : Obligations.UpdateSetsALiveRecord := by
  unfold Obligations.UpdateSetsALiveRecord
  intro s k u counted hr ha hw answered
  rw [exec_update hr ha]
  refine ⟨fun r hmem hh hk hl => ?_, fun hnone => ?_⟩
  · subst hk
    intro corrects image
    have hcorrects : u.corrects r.image = corrects := u.corrects_eq r.image
    rw [NoteTable.update_live hw.2.1 hmem hl hh]
    have himage : r.image.updated u = image := by
      rw [Image.updated, hcorrects]
    rw [Record.edit, himage, hcorrects]
    cases corrects <;> rfl
  · rw [NoteTable.update, NoteTable.findLive_none hnone]
    rfl

/-! ## CONFIRM and RELEASE (R103, R104) -/

/-- A request that names a RELEASED record finds no live one (R97). -/
theorem NoteTable.findLive_released {t : NoteTable} (hn : t.handles.Nodup) {r : Record} (hr : r ∈ t.records)
    (hs : r.image.state = .released) (k : Str) : t.findLive k r.image.handle = none :=
  NoteTable.findLive_none fun q hq hqh _ => by rw [NoteTable.eq_of_handle hn hq hr hqh]; exact hs

/-- A PROVISIONAL record confirmed (R103). -/
theorem Record.edit_sounding {r : Record} (hs : r.image.state = .provisional) :
    (r.edit fun i => { i with state := .sounding }) =
      { r with image := { r.image with state := .sounding }, changed := true } :=
  Record.edit_of_ne (Image.ne_of_state (by simp [hs]))

/-- A CONFIRM of a PROVISIONAL record of the string (R103). -/
theorem NoteTable.confirm_provisional {t : NoteTable} (hn : t.handles.Nodup) {r : Record} (hr : r ∈ t.records)
    (hs : r.image.state = .provisional) :
    t.confirm r.image.string r.image.handle =
      { table := { t with
          records := t.records.map fun q =>
            if q.image.handle = r.image.handle then
              { r with image := { r.image with state := .sounding }, changed := true } else q }
        notices := [.confirmed r.image.handle r.image.string r.image.note]
        answer := .ok } := by
  have hmodify := NoteTable.modify_eq hn hr (fun q => q.edit fun i => { i with state := .sounding })
    (Record.edit_sounding hs)
  simp only [NoteTable.confirm, NoteTable.findLive_of_mem hn hr (by simp [hs]), hs, if_true, hmodify]

/-- Settles O31: a CONFIRM by the state of the record it names, and a RELEASE of a live record or of none. -/
theorem confirmAndReleaseFromATracker : Obligations.ConfirmAndReleaseFromATracker := by
  unfold Obligations.ConfirmAndReleaseFromATracker
  constructor
  · intro s k h counted hr ha hw answered
    have hn : s.table.handles.Nodup := hw.2.1
    rw [exec_confirm hr ha]
    refine ⟨fun r hmem hh hk => ⟨fun hs => ?_, fun hs => ?_, fun hs => ?_⟩, fun hnone => ?_⟩
    · subst hh hk
      rw [NoteTable.confirm_provisional hn hmem hs]
      rfl
    · subst hh hk
      simp only [NoteTable.confirm, NoteTable.findLive_of_mem hn hmem (by simp [hs]), hs, reduceCtorEq, if_false]
      rfl
    · subst hh
      rw [NoteTable.confirm, NoteTable.findLive_released hn hmem hs]
      rfl
    · rw [NoteTable.confirm, NoteTable.findLive_none fun q hq hqh hqk => absurd hqk (hnone q hq hqh)]
      rfl
  · intro s k h reason counted hr ha hw answered
    rw [exec_release hr ha]
    refine ⟨fun r hmem hh hk hl => ?_, fun hnone => ?_⟩
    · subst hh hk
      simp only [NoteTable.release, NoteTable.findLive_of_mem hw.2.1 hmem hl,
        NoteTable.modify_eq hw.2.1 hmem _ (Record.release_live hl _ _)]
      rfl
    · rw [NoteTable.release, NoteTable.findLive_none hnone]
      rfl

end Sys2Proof.Machine

/-! SUPPORT. O29 and O32: the two requests that create a record, with a slot FREE or one freed by an eviction. -/

namespace Sys2Proof.Machine

/-! ## Room for a new record (R98, R105, R118) -/

/-- The two ways to a FREE slot: there is one, or a victim is freed. -/
theorem NoteTable.makeRoom_eq {t room : NoteTable} {keep : Option Nat} {evicted : List Notice}
    (h : (t.records.length < 16 ∧ room = t ∧ evicted = [])
      ∨ (t.records.length = 16 ∧ ∃ v, t.victim keep = some v ∧ room = t.free v ∧ evicted = [.evicted v])) :
    t.makeRoom keep = some (room, evicted) := by
  unfold NoteTable.makeRoom
  rcases h with ⟨hlt, rfl, rfl⟩ | ⟨hfull, v, hv, rfl, rfl⟩
  · rw [if_pos hlt]
  · rw [if_neg (by simp [hfull]), hv, Option.map_some]

/-! ## The link to a pending predecessor (R100) -/

/-- The record that a CREATE on a string links: the pending predecessor names it, it is on the string, and it has no
successor (R100). -/
def Record.isLinked (p : Option Nat) (k : Str) (r : Record) : Bool :=
  decide (p = some r.image.handle ∧ r.image.string = k ∧ r.image.successor = none)

theorem Record.isLinked_iff {p : Option Nat} {k : Str} {r : Record} :
    r.isLinked p k = true ↔ p = some r.image.handle ∧ r.image.string = k ∧ r.image.successor = none :=
  decide_eq_true_iff

/-- A record with a new successor (R100, R105). -/
theorem Record.edit_successor {r : Record} {n : Nat} (h : r.changed = true ∨ r.image.successor = none) :
    (r.edit fun i => { i with successor := some n }) =
      { r with image := { r.image with successor := some n }, changed := true } := by
  rcases h with h | h
  · exact Record.edit_of_changed _ h
  · refine Record.edit_of_ne fun e => ?_
    have hs := congrArg Image.successor e
    simp [h] at hs

/-- The table finds the record that a CREATE links. -/
theorem NoteTable.linkable_of_linked {t : NoteTable} (hn : t.handles.Nodup) {p : Option Nat} {k : Str} {r : Record}
    (hr : r ∈ t.records) (hl : r.isLinked p k = true) : t.linkable k p = some r.image.handle := by
  obtain ⟨rfl, hk, hs⟩ := Record.isLinked_iff.1 hl
  simp only [NoteTable.linkable, NoteTable.find_of_mem hn hr, hk, hs, and_self, if_true]

/-- With no record to link a CREATE links none. -/
theorem NoteTable.linkable_of_none {t : NoteTable} {p : Option Nat} {k : Str}
    (hl : ∀ r ∈ t.records, r.isLinked p k = false) : t.linkable k p = none := by
  cases p with
  | none => rfl
  | some h =>
    unfold NoteTable.linkable
    dsimp only
    cases hf : t.find h with
    | none => rfl
    | some r =>
      obtain ⟨hr, rfl⟩ := NoteTable.find_some hf
      refine if_neg fun hrk => ?_
      have := Record.isLinked_iff.2 ⟨rfl, hrk⟩
      rw [hl r hr] at this
      exact absurd this (by decide)

/-- The predecessor linked is the pending one where a record answers to it (R100). -/
theorem NoteTable.linkable_eq {t : NoteTable} (hn : t.handles.Nodup) (k : Str) (p : Option Nat) :
    t.linkable k p = if t.records.any (Record.isLinked p k) then p else none := by
  cases ha : t.records.any (Record.isLinked p k) with
  | true =>
    obtain ⟨r, hr, hl⟩ := List.any_eq_true.1 ha
    rw [if_pos rfl, NoteTable.linkable_of_linked hn hr hl, (Record.isLinked_iff.1 hl).1]
  | false =>
    rw [if_neg (by decide)]
    exact NoteTable.linkable_of_none fun r hr => Bool.eq_false_of_not_eq_true (List.any_eq_false.1 ha r hr)

/-- The record linked, if there is one, names the new record as its successor; every other stands (R100). -/
theorem NoteTable.linkSuccessor_linkable {t : NoteTable} (hn : t.handles.Nodup) (k : Str) (p : Option Nat) (n : Nat) :
    t.linkSuccessor (t.linkable k p) n =
      { t with
        records := t.records.map fun r =>
          if r.isLinked p k then { r with image := { r.image with successor := some n }, changed := true }
          else r } := by
  cases ha : t.records.any (Record.isLinked p k) with
  | true =>
    obtain ⟨r, hr, hl⟩ := List.any_eq_true.1 ha
    obtain ⟨hp, -, hs⟩ := Record.isLinked_iff.1 hl
    rw [NoteTable.linkable_of_linked hn hr hl]
    refine congrArg (fun l => ({ t with records := l } : NoteTable)) (List.map_congr_left fun q hq => ?_)
    by_cases hqr : q.image.handle = r.image.handle
    · obtain rfl := NoteTable.eq_of_handle hn hq hr hqr
      rw [if_pos rfl, if_pos hl]
      exact Record.edit_successor (.inr hs)
    · rw [if_neg hqr, if_neg]
      intro hlq
      obtain ⟨hpq, -, -⟩ := Record.isLinked_iff.1 hlq
      exact hqr (Option.some.inj (hpq.symm.trans hp))
  | false =>
    have hnone (r : Record) (hr : r ∈ t.records) : r.isLinked p k = false :=
      Bool.eq_false_of_not_eq_true (List.any_eq_false.1 ha r hr)
    rw [NoteTable.linkable_of_none hnone]
    refine congrArg (fun l => ({ t with records := l } : NoteTable)) ?_
    refine (List.map_id t.records).symm.trans (List.map_congr_left fun r hr => ?_)
    rw [hnone r hr]
    rfl

/-! ## CREATE (R98) -/

/-- Settles O29: the room, the link, and the record added. -/
theorem createMakesAProvisionalRecord : Obligations.CreateMakesAProvisionalRecord := by
  unfold Obligations.CreateMakesAProvisionalRecord
  intro s k c counted room evicted hr ha hw hroom h linked image
  have hmade := NoteTable.makeRoom_eq hroom
  have hn : room.handles.Nodup := (NoteTable.makeRoom_spec hw hmade).1.2.1
  have hreply : s.table.create s.settings k c = some
      { table := (room.createIn s.settings k c).1
        notices := evicted ++ [.new h .provisional k c.note]
        answer := .handle h } := by
    rw [NoteTable.create, hmade]
    rfl
  rw [exec_create hr ha hreply, NoteTable.createIn, NoteTable.linkSuccessor_linkable hn, NoteTable.linkable_eq hn]
  rfl

/-! ## SUCCEED (R105, R106) -/

/-- Freeing a record clears no changed flag (R119). -/
theorem NoteTable.changed_free {t : NoteTable} {h v : Nat}
    (hc : ∀ r ∈ t.records, r.image.handle = h → r.changed = true) :
    ∀ r ∈ (t.free v).records, r.image.handle = h → r.changed = true := by
  intro r hr hh
  obtain ⟨q, hq, rfl⟩ := List.mem_map.1 hr
  have hqc := hc q (List.mem_of_mem_filter hq) hh
  rw [Record.unlink_eq, hqc, Bool.true_or]

/-- A record already flagged names the new record as its successor (R105). -/
theorem NoteTable.linkSuccessor_flagged {t : NoteTable} {h : Nat}
    (hc : ∀ r ∈ t.records, r.image.handle = h → r.changed = true) (n : Nat) :
    t.linkSuccessor (some h) n =
      { t with
        records := t.records.map fun r =>
          if r.image.handle = h then
            { r with image := { r.image with successor := some n }, changed := true } else r } := by
  refine congrArg (fun l => ({ t with records := l } : NoteTable)) (List.map_congr_left fun r hr => ?_)
  split
  · next hrh => exact Record.edit_successor (.inl (hc r hr hrh))
  · rfl

/-- Settles O32: the old record released, the room, the link, and the record added; or the answer NOT LIVE. -/
theorem succeedReleasesAndLinks : Obligations.SucceedReleasesAndLinks := by
  unfold Obligations.SucceedReleasesAndLinks
  intro s k q counted hr ha hw answered
  refine ⟨fun old hmem hh hk hl => ?_, fun hnone => ?_⟩
  · subst hk
    intro ended room evicted hroom h image
    have hended : s.table.modify q.handle (Record.release s.settings.linger q.reason) = ended := by
      rw [← hh, NoteTable.modify_eq hw.2.1 hmem _ (Record.release_live hl _ _), hh]
    have hlength : ended.records.length = s.table.records.length := List.length_map ..
    have hmade : ended.makeRoom (some q.handle) = some (room, evicted) := NoteTable.makeRoom_eq (hlength ▸ hroom)
    have hflagged : ∀ r ∈ ended.records, r.image.handle = q.handle → r.changed = true := by
      intro r hr' hrh
      obtain ⟨x, -, rfl⟩ := List.mem_map.1 hr'
      split
      · rfl
      · next hx => rw [if_neg hx] at hrh; exact absurd hrh hx
    have hchanged : ∀ r ∈ room.records, r.image.handle = q.handle → r.changed = true := by
      rcases hroom with ⟨-, rfl, -⟩ | ⟨-, v, -, rfl, -⟩
      · exact hflagged
      · exact NoteTable.changed_free hflagged
    have hfound : s.table.findLive old.image.string q.handle = some old :=
      hh ▸ NoteTable.findLive_of_mem hw.2.1 hmem hl
    have hreply : s.table.succeed s.settings old.image.string q = some
        { table := (room.succeedIn s.settings old.image q).1
          notices := [.released q.handle q.reason h] ++ evicted ++ [.new h .sounding old.image.string q.note]
          answer := .handle h } := by
      simp only [NoteTable.succeed, hfound, hended, hmade]
      rfl
    rw [exec_succeed hr ha hreply, NoteTable.succeedIn, NoteTable.linkSuccessor_flagged hchanged]
    rfl
  · have hreply : s.table.succeed s.settings k q = some { table := s.table, notices := [], answer := .notLive } := by
      rw [NoteTable.succeed, NoteTable.findLive_none hnone]
    rw [exec_succeed hr ha hreply]
    rfl

end Sys2Proof.Machine

/-! SUPPORT. O56: every operation of the blocks keeps the settings within their ranges and the probe's context coherent. -/

namespace Sys2Proof.Machine

/-! ## Steps that leave the settings and the probe -/

theorem State.playedTo.measureOk {σ τ : State} (h : σ.playedTo τ) (w : σ.measureOk) : τ.measureOk := by
  rw [h]; exact w

theorem State.tabledTo.measureOk {σ τ : State} (h : σ.tabledTo τ) (w : σ.measureOk) : τ.measureOk := by
  rw [h]; exact w

/-! ## Resets, snapshots and posted commands -/

/-- The defaults lie within their ranges (R124 to R127). -/
theorem Settings.wf_default : ({} : Settings).wf := by
  rw [Settings.wf_iff]
  intro i
  cases i with
  | global g => cases g <;> exact And.intro (by decide) (by decide)
  | zone z x =>
    have hd : ({} : Settings).zones[z] = ⟨0, 127, 0xFF#8⟩ ∨ ({} : Settings).zones[z] = ⟨127, 0, 0xFF#8⟩ := by
      revert z; decide
    rw [Settings.read]
    rcases hd with hd | hd <;> rw [hd] <;> cases x <;> exact And.intro (by decide) (by decide)
  | physical s x =>
    have hd : ({} : Settings).physical[s] = {} := bank_get_replicate _ _
    rw [Settings.read, hd]
    cases x <;> exact And.intro (by decide) (by decide)
  | musical p s x =>
    have hd : ({} : Settings).musical p s = {} := by cases p <;> exact bank_get_replicate _ _
    rw [Settings.read, hd]
    cases x <;> exact And.intro (by decide) (by decide)

/-- Only a PROBE START's snapshot touches the probe, and none touches the settings (R146, R165). -/
theorem snapshot_measureOk {σ : State} (w : σ.measureOk) (q : Query) : (σ.snapshot q).measureOk := by
  cases q with
  | getNote h => unfold State.snapshot State.snapGetNote; dsimp only; split <;> exact w
  | getString b =>
    unfold State.snapshot State.snapGetString
    dsimp only
    split
    · exact w
    · split <;> exact w
  | getSetting n => unfold State.snapshot State.snapGetSetting; dsimp only; split <;> exact w
  | probeStart a => exact probeStart_measureOk w a
  | _ => exact w

theorem applyPosted_measureOk {σ : State} (w : σ.measureOk) (p : Posted) : (σ.applyPosted p).measureOk := by
  cases p with
  | tagNote h t => exact (tagNote_frame σ h t).measureOk w
  | untagNote h => exact (untagNote_frame σ h).measureOk w
  | holdNote h v => exact (holdNote_frame σ h v).measureOk w
  | releaseNote h => exact (releaseNote_frame σ h).measureOk w
  | retireNote h => exact (retireNote_frame σ h).measureOk w
  | allRelease => exact (allRelease_frame σ).measureOk w
  | set n v => exact set_measureOk w n v
  | selectProfile v => exact selectProfile_measureOk w v
  | probeStop => exact abortRun_measureOk w _ _
  | clearFaults m => exact w
  | restart => exact ⟨w.1, Probe.wf_empty⟩

/-! ## The step -/

/-- Every operation of the blocks keeps the settings within their ranges and the probe's context coherent. -/
theorem measureOk_kept : Kept State.measureOk where
  pending _ _ w := w
  hardReset _ _ := ⟨Settings.wf_default, Probe.wf_empty⟩
  hardResetEnd _ w := w
  sample k v σ w := (sampleStep_frame σ k v).measureOk w
  tick _ w := w
  stale k σ w := (staleStep_frame σ k).measureOk w
  linger h σ w := (lingerExpiry_frame σ h).measureOk w
  complete σ w := (completeComputation_frame σ).measureOk w
  result k σ w := (resultStep_frame σ k).measureOk w
  event e k σ w := (eventStep_frame σ e k).measureOk w
  answer k σ w := (trackerAnswer_frame σ k).measureOk w
  forced k σ w := (forcedStep_frame σ k).measureOk w
  enable k σ w := (enableStep_frame σ k).measureOk w
  disable k σ w := (disableStep_frame σ k).measureOk w
  update k σ w := (serve_frame σ k _).measureOk w
  confirm k σ w := (serve_frame σ k _).measureOk w
  release k σ w := (serve_frame σ k _).measureOk w
  create k σ w := (serve_frame σ k _).measureOk w
  succeed k σ w := (serve_frame σ k _).measureOk w
  pitch k _ w := probePitch_measureOk w k
  posted p _ w := applyPosted_measureOk w p
  snapshot q _ w := snapshot_measureOk w q
  link _ _ w := w
  arrive _ w := w
  report _ _ _ w := w
  refuse _ _ _ _ w := w
  drop _ w := w
  reflag _ _ w := w

/-- Settles O56: ranges and context together are kept by every operation of the blocks, and so by every step. Only
auto-apply writes a setting without fitting it, and `Probe.correction_range` bounds what it writes by the run's totals. -/
theorem stepKeepsSettingsWithinRange : Obligations.StepKeepsSettingsWithinRange := by
  unfold Obligations.StepKeepsSettingsWithinRange
  intro s t ws wp he
  exact step_kept measureOk_kept ⟨ws, wp⟩ he

end Sys2Proof.Machine

/-! SUPPORT. O38: what each string's blocks are told when the enable mask is written, and the run that it aborts. First a run
aborted, and a notice on its way that reaches the unit. -/

namespace Sys2Proof.Machine

/-! ## A run aborted (R155) -/

/-- An IDLE probe is unchanged (R152 to R154). -/
theorem abortRun_idle {σ : State} (h : σ.probe.running = false) (tell : Notice → NoticeUnit → NoticeUnit)
    (r : AbortReason) : σ.abortRun tell r = σ := by
  simp only [State.abortRun, h, Bool.false_eq_true, if_false]

/-- A probe RUNNING on a string empties its accumulators, becomes IDLE and tells the unit. -/
theorem abortRun_running {σ : State} {k : Str} (h : σ.probe.running = true) (hk : σ.probe.string = some k)
    (tell : Notice → NoticeUnit → NoticeUnit) (r : AbortReason) :
    σ.abortRun tell r =
      (σ.setProbe { σ.probe.emptySlot with running := false }).setNotices (tell (.probeAborted k r) σ.notices) := by
  simp only [State.abortRun, h, hk, if_true]

/-! ## A notice on its way (R134) -/

/-- The unit as it stands where no notice is on its way. -/
theorem NoticeUnit.arrive_none {u : NoticeUnit} (h : u.coming = []) (enables : BitVec 9) : u.arrive enables = u := by
  simp only [NoticeUnit.arrive, h]
  exact congrArg (fun c => ({ u with coming := c } : NoticeUnit)) h.symm

/-- One notice sent, and then on its way alone, is handed on as it arrives. -/
theorem NoticeUnit.arrive_send {u : NoticeUnit} (h : u.coming = []) (enables : BitVec 9) (n : Notice) :
    (u.send n).arrive enables = u.hand enables n := by
  simp only [NoticeUnit.arrive, NoticeUnit.send, h]
  exact congrArg (fun c => NoticeUnit.hand enables n { u with coming := c }) h.symm

/-! ## One string told (R134) -/

/-- What a write of the enable mask tells the Tracker of a string: that it is disabled, that it is enabled, or nothing. -/
def enableNews (old new : BitVec 8) (k : Str) : List Bool :=
  if maskHas old k = true ∧ maskHas new k = false then [false]
  else if maskHas old k = false ∧ maskHas new k = true then [true]
  else []

/-- Messages on their way to a Tracker about its string's enable bit (R134). -/
def Tracker.hearEnables (news : List Bool) (t : Tracker) : Tracker := { t with enables := t.enables ++ news }

theorem Tracker.hearEnables_nil (t : Tracker) : t.hearEnables [] = t := by
  simp only [Tracker.hearEnables, List.append_nil]

/-- A write of the enable mask disables the string that the probe is RUNNING on (R153). -/
abbrev State.losesRun (σ : State) (old new : BitVec 8) (k : Str) : Prop :=
  σ.probe.running = true ∧ σ.probe.string = some k ∧ maskHas old k = true ∧ maskHas new k = false

theorem tellEnable_trackers (old new : BitVec 8) (σ : State) (s : Str) :
    (σ.tellEnable old new s).trackers =
      σ.trackers.set s ((σ.trackers[s]).hearEnables (enableNews old new s)) := by
  unfold State.tellEnable enableNews
  split
  · unfold State.disableString
    dsimp only
    split
    · rw [abortRun_trackers]; rfl
    · rfl
  · split
    · rfl
    · rw [Tracker.hearEnables_nil, bank_set_get]

/-- The probe and the notices stand where the string told is not the one whose run is lost. -/
theorem tellEnable_spares {old new : BitVec 8} {σ : State} {s : Str} (h : ¬ σ.losesRun old new s) :
    (σ.tellEnable old new s).probe = σ.probe ∧ (σ.tellEnable old new s).notices = σ.notices := by
  unfold State.tellEnable
  split
  · next hcleared =>
    unfold State.disableString
    dsimp only
    rw [if_neg fun hrun => h ⟨hrun.1, hrun.2, hcleared⟩]
    exact ⟨rfl, rfl⟩
  · split <;> exact ⟨rfl, rfl⟩

/-- The run lost becomes IDLE, and PROBE ABORTED sets out (R153). -/
theorem tellEnable_aborts {old new : BitVec 8} {σ : State} {s : Str} (h : σ.losesRun old new s) :
    (σ.tellEnable old new s).probe = { σ.probe.emptySlot with running := false }
      ∧ (σ.tellEnable old new s).notices = σ.notices.send (.probeAborted s .disabled) := by
  obtain ⟨hrun, hstring, hcleared⟩ := h
  unfold State.tellEnable State.disableString
  dsimp only
  rw [if_pos hcleared, if_pos ⟨hrun, hstring⟩,
    abortRun_running (σ := (σ.setFrontEnd s (σ.frontEnds[s]).disable).sendEnable s false) hrun hstring]
  exact ⟨rfl, rfl⟩

/-! ## All strings told -/

theorem tellAll_trackers (old new : BitVec 8) {ks : List Str} (hn : ks.Nodup) (σ : State) (k : Str) :
    (ks.foldl (State.tellEnable old new) σ).trackers[k] =
      if k ∈ ks then (σ.trackers[k]).hearEnables (enableNews old new k) else σ.trackers[k] := by
  induction ks generalizing σ with
  | nil => rfl
  | cons s ks ih =>
    obtain ⟨hs, hks⟩ := List.nodup_cons.1 hn
    rw [List.foldl_cons, ih hks]
    simp only [tellEnable_trackers, bank_get_set]
    by_cases h : s = k
    · subst h
      simp only [hs, if_false, if_true, List.mem_cons_self]
    · simp only [h, if_false, List.mem_cons, Ne.symm h, false_or]

theorem tellAll_spares {old new : BitVec 8} {ks : List Str} {σ : State} (h : ∀ k ∈ ks, ¬ σ.losesRun old new k) :
    (ks.foldl (State.tellEnable old new) σ).probe = σ.probe
      ∧ (ks.foldl (State.tellEnable old new) σ).notices = σ.notices := by
  induction ks generalizing σ with
  | nil => exact ⟨rfl, rfl⟩
  | cons s ks ih =>
    obtain ⟨hp, hn⟩ := tellEnable_spares (h s List.mem_cons_self)
    have rest := ih (σ := σ.tellEnable old new s) fun k hk => by
      unfold State.losesRun
      rw [hp]
      exact h k (List.mem_cons_of_mem _ hk)
    rw [List.foldl_cons, rest.1, rest.2]
    exact ⟨hp, hn⟩

/-- The run is lost as its string is told; the strings told before it and after it leave it alone. -/
theorem tellAll_aborts {old new : BitVec 8} {ks : List Str} {σ : State} {k : Str} (hk : k ∈ ks)
    (h : σ.losesRun old new k) :
    (ks.foldl (State.tellEnable old new) σ).probe = { σ.probe.emptySlot with running := false }
      ∧ (ks.foldl (State.tellEnable old new) σ).notices = σ.notices.send (.probeAborted k .disabled) := by
  induction ks generalizing σ with
  | nil => exact absurd hk List.not_mem_nil
  | cons s ks ih =>
    rw [List.foldl_cons]
    by_cases hs : s = k
    · subst hs
      obtain ⟨hp, hn⟩ := tellEnable_aborts h
      have idle : ∀ j ∈ ks, ¬ (σ.tellEnable old new s).losesRun old new j := by
        rintro j - ⟨hrun, -⟩
        rw [hp] at hrun
        exact Bool.noConfusion hrun
      obtain ⟨hp', hn'⟩ := tellAll_spares idle
      exact ⟨hp'.trans hp, hn'.trans hn⟩
    · have other : ¬ σ.losesRun old new s := fun h' => hs (Option.some.inj (h'.2.1.symm.trans h.2.1))
      obtain ⟨hp, hn⟩ := tellEnable_spares other
      have rest := ih (σ := σ.tellEnable old new s) ((List.mem_cons.1 hk).resolve_left (Ne.symm hs)) (by
        unfold State.losesRun
        rw [hp]
        exact h)
      rw [rest.1, rest.2, hp, hn]
      exact ⟨rfl, rfl⟩

/-! ## The enable mask written -/

/-- The mask is stored; beside it only Front Ends, Trackers, the probe and the notices change. -/
theorem setEnableMask_eq (σ : State) (new : BitVec 8) :
    σ.setEnableMask new =
      { σ with
        settings := { σ.settings with enableMask := new }
        frontEnds := (σ.setEnableMask new).frontEnds
        trackers := (σ.setEnableMask new).trackers
        probe := (σ.setEnableMask new).probe
        notices := (σ.setEnableMask new).notices } := by
  have hs : (σ.setEnableMask new).settings = { σ.settings with enableMask := new } := (tellAll_kept _ _ _ _).1
  have hp : (σ.setEnableMask new).pitchUnit = σ.pitchUnit := (tellAll_kept _ _ _ _).2
  conv_lhs => rw [setEnableMask_frame σ new]
  rw [hs, hp]

theorem setEnableMask_trackers (σ : State) (new : BitVec 8) (k : Str) :
    (σ.setEnableMask new).trackers[k] =
      (σ.trackers[k]).hearEnables (enableNews σ.settings.enableMask new k) := by
  simp only [State.setEnableMask, tellAll_trackers _ _ (show allStrings.Nodup by decide), mem_allStrings, if_true]
  rfl

theorem setEnableMask_spares {σ : State} {new : BitVec 8}
    (h : ∀ k : Str, ¬ σ.losesRun σ.settings.enableMask new k) :
    (σ.setEnableMask new).probe = σ.probe ∧ (σ.setEnableMask new).notices = σ.notices :=
  tellAll_spares fun k _ => h k

theorem setEnableMask_aborts {σ : State} {new : BitVec 8} {k : Str}
    (h : σ.losesRun σ.settings.enableMask new k) :
    (σ.setEnableMask new).probe = { σ.probe.emptySlot with running := false }
      ∧ (σ.setEnableMask new).notices = σ.notices.send (.probeAborted k .disabled) :=
  tellAll_aborts (σ := σ.setSettings { σ.settings with enableMask := new }) (mem_allStrings k) h

/-! ## SET_ENABLE_MASK -/

/-- The eight defined bits of a sixteen-bit value are the new mask (R124, R128). -/
theorem ofInt_maskBits (v : BitVec 16) : BitVec.ofInt 8 ((v.toNat % 2 ^ 8 : Nat) : Int) = v.setWidth 8 := by
  apply BitVec.eq_of_toNat_eq
  simp only [BitVec.ofInt_natCast, BitVec.toNat_ofNat, BitVec.toNat_setWidth, Nat.mod_mod]

/-- A SET of setting 0x00 is a write of the enable mask (R134). -/
theorem applyPosted_setEnableMask (σ : State) (v : BitVec 16) :
    σ.applyPosted (.set 0x00#8 v) = σ.setEnableMask (v.setWidth 8) :=
  congrArg σ.setEnableMask (ofInt_maskBits v)

/-- The row SET_ENABLE_MASK: the effects in place, and the notice on its way arrived. -/
theorem exec_setEnableMask {s : State} {v : BitVec 16} {rest : List Posted} (hr : s.inReset = false)
    (ha : s.link.applied = false) (hb : s.link.buffer = .set 0x00#8 v :: rest) :
    exec .setEnableMask s = .next (s.setEnableMask (v.setWidth 8)).markApplied.noticesArrive := by
  have hhead : s.link.head.any Posted.setsEnableMask = true := by
    simp only [Link.head, ha, hb, Bool.false_eq_true, if_false, List.head?_cons, Option.any_some]
    rfl
  have row : exec .setEnableMask s = .next s.applyEnableMask := whenRunning_running hr
  rw [row, State.applyEnableMask, if_pos hhead, applyWhen_head ha hb rfl, applyPosted_setEnableMask]

/-- The frame of the row: where it is written, and the mark that its effects are in place. -/
theorem setEnableMask_applied (σ : State) (new : BitVec 8) :
    (σ.setEnableMask new).markApplied.noticesArrive =
      { σ with
        settings := { σ.settings with enableMask := new }
        frontEnds := (σ.setEnableMask new).markApplied.noticesArrive.frontEnds
        trackers := (σ.setEnableMask new).markApplied.noticesArrive.trackers
        probe := (σ.setEnableMask new).markApplied.noticesArrive.probe
        notices := (σ.setEnableMask new).markApplied.noticesArrive.notices
        link := { σ.link with applied := true } } := by
  have frame := setEnableMask_eq σ new
  generalize σ.setEnableMask new = τ at frame
  rw [frame]
  rfl

/-- Settles O38: the frame of the write; each string's Front End and Tracker by its two bits; and the run, lost or not. -/
theorem enableMaskTellsEachChangedString : Obligations.EnableMaskTellsEachChangedString := by
  unfold Obligations.EnableMaskTellsEachChangedString
  intro s rest v hr ha hb hcoming new old cleared raised
  have frontEnd (k : Str) : (s.setEnableMask new).frontEnds[k] = _ := setEnableMask_frontEnds s new k
  have tracker (k : Str) : (s.setEnableMask new).trackers[k] = _ := setEnableMask_trackers s new k
  have noticeEnables : (s.setEnableMask new).settings.noticeEnables = s.settings.noticeEnables := by
    rw [setEnableMask_eq]
  have arrived : ((s.setEnableMask new).markApplied.noticesArrive).notices =
      (s.setEnableMask new).notices.arrive s.settings.noticeEnables := by rw [← noticeEnables]; rfl
  refine ⟨_, exec_setEnableMask hr ha hb, ?_, fun k hk => ?_, fun k hk => ?_, fun k hclear hraise => ?_,
    fun k hrun hstring hk => ?_, fun hspared => ?_⟩
  · exact setEnableMask_applied s new
  · constructor
    · exact (frontEnd k).trans (if_pos hk)
    · exact (tracker k).trans (congrArg (fun n => (s.trackers[k]).hearEnables n) (if_pos hk))
  · have hc : ¬ cleared k := fun hc => Bool.noConfusion (hc.1.symm.trans hk.1)
    constructor
    · exact (frontEnd k).trans ((if_neg hc).trans (if_pos hk))
    · exact (tracker k).trans (congrArg (fun n => (s.trackers[k]).hearEnables n) ((if_neg hc).trans (if_pos hk)))
  · constructor
    · exact (frontEnd k).trans ((if_neg hclear).trans (if_neg hraise))
    · refine (tracker k).trans ?_
      rw [enableNews, if_neg hclear, if_neg hraise, Tracker.hearEnables_nil]
  · obtain ⟨hp, hn⟩ := setEnableMask_aborts (σ := s) (new := new) ⟨hrun, hstring, hk⟩
    exact ⟨hp, by rw [arrived, hn, NoticeUnit.arrive_send hcoming]⟩
  · obtain ⟨hp, hn⟩ := setEnableMask_spares (σ := s) (new := new) fun k hk => hspared k hk.1 hk.2.1 hk.2.2
    exact ⟨hp, by rw [arrived, hn, NoticeUnit.arrive_none hcoming]⟩

end Sys2Proof.Machine

/-! SUPPORT. O39: a SET of the reference, and SELECT PROFILE with the two places that report the profile selected. -/

namespace Sys2Proof.Machine

/-! ## SET_REFERENCE (R136) -/

/-- A run aborted at once, RUNNING or IDLE, written out field by field (R152, R155). -/
theorem abortProbe_eq (σ : State) (r : AbortReason) :
    σ.abortProbe r =
      { σ with
        probe := if σ.probe.running then
            { σ.probe with running := false, sum := 0, count := 0, least := none, greatest := none }
          else σ.probe
        notices := if σ.probe.running then
            σ.notices.handAll σ.settings.noticeEnables (σ.probe.string.toList.map fun k => .probeAborted k r)
          else σ.notices } := by
  unfold State.abortProbe State.abortRun
  split
  · cases σ.probe.string <;> rfl
  · rfl

/-- A value fitted to the reference's range (R124, R128). -/
theorem fitValue_reference (v : BitVec 16) :
    fitValue v (.numeric 4000 4800) = some ((min 4800 (max 4000 v.toNat) : Nat) : Int) := by
  rw [fitValue, Option.some.injEq]
  split_ifs <;> omega

/-- A SET of setting 0x01 is a SET of the reference, clamped. -/
theorem applyPosted_setReference (σ : State) (v : BitVec 16) :
    σ.applyPosted (.set 0x01#8 v) = σ.setReference (min 4800 (max 4000 v.toNat)) := by
  have hid : SettingId.ofNumber 0x01#8 = some (.global .reference) := rfl
  simp only [State.applyPosted, State.set, hid, SettingId.kind, fitValue_reference, State.storeSetting, Int.toNat_natCast]

/-- What a SET of the reference leaves, with its effects in place; `R` is the reference term of the new reference (R36). -/
theorem setReference_applied (σ : State) {reference : Nat} {R : Int} (hR : referenceTerm reference = R) :
    (σ.setReference reference).markApplied =
      { σ with
        settings := { σ.settings with reference := reference }
        pitchUnit := { σ.pitchUnit with refTerm := R }
        probe := if σ.probe.running then
            { σ.probe with running := false, sum := 0, count := 0, least := none, greatest := none }
          else σ.probe
        notices := if σ.probe.running then
            σ.notices.handAll σ.settings.noticeEnables (σ.probe.string.toList.map fun k => .probeAborted k .reference)
          else σ.notices
        link := { σ.link with applied := true } } := by
  rw [State.setReference, hR, abortProbe_eq]
  rfl

/-- The row SET_REFERENCE. -/
theorem exec_setReference {s : State} {v : BitVec 16} {rest : List Posted} (hr : s.inReset = false)
    (ha : s.link.applied = false) (hb : s.link.buffer = .set 0x01#8 v :: rest) :
    exec .setReference s = .next (s.applyPosted (.set 0x01#8 v)).markApplied := by
  have row : exec .setReference s = .next (s.applyWhen Posted.setsReference) := whenRunning_running hr
  rw [row, applyWhen_head ha hb rfl]

/-! ## SELECT PROFILE (R137) -/

/-- Bit 0 of eight bits put together. -/
theorem byteOfBits_bit0 (b7 b6 b5 b4 b3 b2 b1 b0 : Bool) : (byteOfBits b7 b6 b5 b4 b3 b2 b1 b0).getLsbD 0 = b0 := by
  revert b7 b6 b5 b4 b3 b2 b1 b0
  decide

/-- The thirteenth byte of GET STATUS's response is the profile's code (R178). -/
theorem statusResponse_last (σ : State) : σ.statusResponse[12]? = some σ.settings.selected.byte := by
  unfold State.statusResponse NoticeUnit.refusalBytes
  split <;> rfl

theorem Profile.byte_eq (p : Profile) : p.byte = if p = .B then 1#8 else 0#8 := by cases p <;> rfl

/-- Settles O39: each row's command is applied as its kind says; what the status reports is read off its layout. -/
theorem referenceAndProfileTakeEffect : Obligations.ReferenceAndProfileTakeEffect := by
  unfold Obligations.ReferenceAndProfileTakeEffect
  constructor
  · intro s rest v hr ha hb reference
    have term : referenceTerm reference = 27358 - (log768 reference : Int) := rfl
    rw [exec_setReference hr ha hb, applyPosted_setReference, setReference_applied s term]
  · intro s rest v hr ha hb selects
    have row : exec .selectProfile s = .next (s.selectProfile v).markApplied := exec_command hr ha hb (by simp)
    refine ⟨?_, ?_, fun h0 h1 => ?_, fun t => ⟨byteOfBits_bit0 .., ?_⟩⟩
    · rintro rfl
      rw [row]
      rfl
    · rintro rfl
      rw [row]
      rfl
    · rw [row, State.selectProfile, if_neg h0, if_neg h1]
      rfl
    · rw [statusResponse_last, Profile.byte_eq]

end Sys2Proof.Machine

/-! SUPPORT. O37: what a SET does by the number and the kind it names, and the setting that each number names. -/

namespace Sys2Proof.Machine

/-! ## A SET by its number and its value (R128) -/

/-- An undefined number is refused. -/
theorem set_undefined {σ : State} {n : Byte} (h : SettingId.ofNumber n = none) (v : BitVec 16) :
    σ.set n v = σ.refuse .set n .badSetting := by
  simp only [State.set, h]

/-- A value that no code of the setting's kind has is refused. -/
theorem set_unfit {σ : State} {n : Byte} {v : BitVec 16} {i : SettingId} (h : SettingId.ofNumber n = some i)
    (hv : fitValue v i.kind = none) : σ.set n v = σ.refuse .set n .badValue := by
  simp only [State.set, h, hv]

/-- A fitted value is stored. -/
theorem set_fitted {σ : State} {n : Byte} {v : BitVec 16} {i : SettingId} {w : Int}
    (h : SettingId.ofNumber n = some i) (hv : fitValue v i.kind = some w) : σ.set n v = σ.storeSetting i w := by
  simp only [State.set, h, hv]

/-- No block but the Settings Store is told of a setting other than the enable mask and the reference. -/
theorem storeSetting_other {i : SettingId} (hm : i ≠ .global .enableMask) (hf : i ≠ .global .reference) (w : Int)
    (σ : State) : σ.storeSetting i w = σ.setSettings (σ.settings.write w i) := by
  unfold State.storeSetting
  split
  · exact absurd rfl hm
  · exact absurd rfl hf
  · rfl

/-- Storing a setting selects no profile. -/
theorem Settings.write_selected (k : Settings) (w : Int) (i : SettingId) : (k.write w i).selected = k.selected := by
  cases i with
  | global g => cases g <;> rfl
  | zone z x => rfl
  | physical s x => rfl
  | musical p s x => cases p <;> rfl

/-! ## A SET of the enable mask in the row SET (R134) -/

/-- Where the mask is written PROBE ABORTED is on its way exactly if a RUNNING probe has become IDLE. -/
theorem setEnableMask_notices (σ : State) (new : BitVec 8) :
    (σ.setEnableMask new).notices =
      { σ.notices with
        coming := σ.notices.coming ++
          if σ.probe.running = true ∧ (σ.setEnableMask new).probe.running = false
          then σ.probe.string.toList.map fun k => .probeAborted k .disabled else [] } := by
  by_cases hlost : ∃ k, σ.losesRun σ.settings.enableMask new k
  · obtain ⟨k, hk⟩ := hlost
    obtain ⟨hp, hn⟩ := setEnableMask_aborts hk
    obtain ⟨hrun, hstring, -⟩ := hk
    rw [hn, if_pos ⟨hrun, by rw [hp]⟩, hstring]
    rfl
  · obtain ⟨hp, hn⟩ := setEnableMask_spares (not_exists.1 hlost)
    have running : ¬ (σ.probe.running = true ∧ (σ.setEnableMask new).probe.running = false) := by
      rw [hp]
      rintro ⟨hrun, hidle⟩
      exact Bool.noConfusion (hrun.symm.trans hidle)
    rw [hn, if_neg running, List.append_nil]

/-- With its effects in place the row SET differs from the row SET_ENABLE_MASK in the notice on its way alone. -/
theorem setEnableMask_sent (σ : State) (new : BitVec 8) :
    (σ.setEnableMask new).markApplied =
      { (σ.setEnableMask new).markApplied.noticesArrive with
        notices := { σ.notices with
          coming := σ.notices.coming ++
            if σ.probe.running = true ∧ (σ.setEnableMask new).markApplied.noticesArrive.probe.running = false
            then σ.probe.string.toList.map fun k => .probeAborted k .disabled else [] } } := by
  have sent := setEnableMask_notices σ new
  generalize σ.setEnableMask new = τ at sent
  exact congrArg (fun u => ({ τ.markApplied with notices := u } : State)) sent

/-! ## Numbers (R123 to R127) -/

/-- Setting 0x00 alone is the enable mask, and 0x01 alone the reference. -/
theorem ofNumber_told : ∀ n : Byte, (SettingId.ofNumber n = some (.global .enableMask) → n = 0x00#8)
    ∧ (SettingId.ofNumber n = some (.global .reference) → n = 0x01#8) := by
  decide +kernel

/-- The numbers between the groups and after the last are undefined (R123). -/
theorem ofNumber_undefined : ∀ n : Byte, 0x10 < n.toNat ∧ n.toNat < 0x20 ∨ 0x2B < n.toNat ∧ n.toNat < 0x40
    ∨ 0x5F < n.toNat ∧ n.toNat < 0x80 ∨ 0xBF < n.toNat → SettingId.ofNumber n = none := by
  decide +kernel

/-- The numbers of the zone settings (R125). -/
theorem ofNumber_zone : ∀ (z : Fin 4) (j : Fin 3),
    SettingId.ofNumber (BitVec.ofNat 8 (0x20 + j.val + 3 * z.val)) = some (.zone z (zoneItemAt j.val)) := by
  decide +kernel

theorem Legato.code_eq (l : Legato) : l.code = if l = .newNote then 0 else 1 := by cases l <;> rfl

theorem Overflow.code_eq (o : Overflow) : o.code = if o = .clamp then 0 else 1 := by cases o <;> rfl

/-- Settles O37: a SET by its number, with the two numbers whose own rows do the same; then the numbers and kinds. -/
theorem setStoresAFittedValue : Obligations.SetStoresAFittedValue := by
  unfold Obligations.SetStoresAFittedValue
  refine ⟨?_, ofNumber_undefined, ?_⟩
  · intro s rest number v hr ha hb refused fits
    have row : exec .set s = .next (s.set number v).markApplied := exec_command hr ha hb (by simp)
    have fitted {kind : SettingKind} {w : Int} (h : fits kind w) : fitValue v kind = some w := by
      cases kind with
      | numeric lo hi =>
        obtain rfl : w = _ := h
        simp only [fitValue, Nat.cast_lt]
      | signed lo hi => exact congrArg some h.symm
      | mask bits => exact congrArg some h.symm
      | enumeration codes =>
        obtain ⟨hcode, rfl⟩ := h
        exact if_pos hcode
    refine ⟨fun hnone => ?_, ?_, ?_, fun i hi => ⟨fun codes hkind hcode => ?_, fun w hw => ?_⟩⟩
    · rw [row, set_undefined hnone]
      rfl
    · rintro rfl
      refine ⟨_, exec_setEnableMask hr ha hb, ?_⟩
      have written : s.set 0x00#8 v = s.setEnableMask (v.setWidth 8) := applyPosted_setEnableMask s v
      rw [row, written]
      exact congrArg Host.Outcome.next (setEnableMask_sent s _)
    · rintro rfl
      rw [exec_setReference hr ha hb, row]
      rfl
    · rw [row, set_unfit hi (by rw [hkind]; exact if_neg (Nat.not_lt.2 hcode))]
      rfl
    · have admitted : i.kind.admits w := fitValue_admits (fitted hw)
      refine ⟨fun h0 h1 => ?_, Settings.read_write_self _ _ admitted, admitted,
        fun j hj => Settings.read_write_ne _ hj w, Settings.write_selected ..⟩
      have hmask : i ≠ .global .enableMask := fun h => h0 ((ofNumber_told number).1 (h ▸ hi))
      have href : i ≠ .global .reference := fun h => h1 ((ofNumber_told number).2 (h ▸ hi))
      rw [row, set_fitted hi (fitted hw), storeSetting_other hmask href]
      rfl
  · intro k holds
    refine ⟨?_, fun z => ⟨?_, ?_, ?_⟩, fun s => ⟨?_, ?_, ?_, ?_⟩, ?_⟩
    · intro x hx
      simp only [List.mem_cons, List.not_mem_nil, or_false] at hx
      rcases hx with rfl | rfl | rfl | rfl | rfl | rfl | rfl | rfl | rfl | rfl | rfl | rfl | rfl | rfl | rfl | rfl | rfl <;>
        exact ⟨_, rfl, rfl, rfl⟩
    · exact ⟨_, ofNumber_zone z 0, rfl, rfl⟩
    · exact ⟨_, ofNumber_zone z 1, rfl, rfl⟩
    · exact ⟨_, ofNumber_zone z 2, rfl, rfl⟩
    · exact ⟨_, ofNumber_physical s 0, rfl, rfl⟩
    · exact ⟨_, ofNumber_physical s 1, rfl, rfl⟩
    · exact ⟨_, ofNumber_physical s 2, rfl, rfl⟩
    · exact ⟨_, ofNumber_physical s 3, rfl, rfl⟩
    · intro s x hx
      have items (p : Profile) (base : Nat) (number : ∀ j : Fin 4,
          SettingId.ofNumber (BitVec.ofNat 8 (base + j.val + 4 * s.val)) = some (.musical p s (musicalItemAt j.val))) :
          holds (base + 4 * s.val) (k.musical p s).transpose (.signed (-24) 24)
            ∧ holds (base + 1 + 4 * s.val) (k.musical p s).bendRange (.numeric 1 24)
            ∧ holds (base + 2 + 4 * s.val) (if (k.musical p s).legato = .newNote then 0 else 1) (.enumeration 2)
            ∧ holds (base + 3 + 4 * s.val) (if (k.musical p s).overflow = .clamp then 0 else 1) (.enumeration 2) :=
        ⟨⟨_, number 0, rfl, rfl⟩, ⟨_, number 1, rfl, rfl⟩, ⟨_, number 2, Legato.code_eq _, rfl⟩,
          ⟨_, number 3, Overflow.code_eq _, rfl⟩⟩
      simp only [List.mem_cons, List.not_mem_nil, or_false] at hx
      rcases hx with rfl | rfl
      · exact items .A 0x80 fun j => (ofNumber_musical s j).1
      · exact items .B 0xA0 fun j => (ofNumber_musical s j).2

end Sys2Proof.Machine

/-! SUPPORT. O40: which string a number names, how a PROBE START is judged case by case, and what its row leaves. -/

namespace Sys2Proof.Machine

/-! ## Strings by number (spec/00_scope.md, "Strings") -/

/-- The number of a string is one more than its place. -/
theorem stringOfNumber_eq_some {n : Nat} {k : Str} : stringOfNumber n = some k ↔ n = k.val + 1 := by
  unfold stringOfNumber
  split
  · next h => rw [Option.some.injEq, Fin.ext_iff, Fin.val_ofNat]; omega
  · next h => simp only [reduceCtorEq, false_iff]; omega

/-- No string has the number 0, or a number above 8. -/
theorem stringOfNumber_eq_none {n : Nat} : stringOfNumber n = none ↔ n = 0 ∨ 8 < n := by
  simp only [stringOfNumber, ite_eq_right_iff, reduceCtorEq, imp_false]
  omega

/-! ## The judgement (R145) -/

/-- A parameter of the PROBE START is out of its range (R145). -/
def ProbeStart.bad (a : ProbeStart) : Prop :=
  a.string.toNat = 0 ∨ 8 < a.string.toNat ∨ 8 < a.slot.toNat ∨ 1 < a.auto.toNat

theorem judgeProbeStart_busy {σ : State} (h : σ.probe.running = true) (a : ProbeStart) :
    σ.judgeProbeStart a = .busy := by
  rw [State.judgeProbeStart, if_pos h]

theorem judgeProbeStart_badValue {σ : State} {a : ProbeStart} (h : σ.probe.running = false) (hb : a.bad) :
    σ.judgeProbeStart a = .badValue := by
  rw [State.judgeProbeStart, if_neg (by rw [h]; decide)]
  split
  · rfl
  · next k hk =>
    have hn := stringOfNumber_eq_some.1 hk
    have hk8 := k.isLt
    rw [if_pos (by unfold ProbeStart.bad at hb; omega)]

/-- An IDLE probe judges good parameters by the string's enable (R145). -/
theorem judgeProbeStart_good {σ : State} {a : ProbeStart} {k : Str} (h : σ.probe.running = false) (hb : ¬ a.bad)
    (hk : a.string.toNat = k.val + 1) :
    σ.judgeProbeStart a = if maskHas σ.settings.enableMask k then .ok else .disabled := by
  have inRange : ¬ (8 < a.slot.toNat ∨ 1 < a.auto.toNat) := fun e => hb (.inr (.inr e))
  rw [State.judgeProbeStart, if_neg (by rw [h]; decide), stringOfNumber_eq_some.2 hk]
  exact if_neg inRange

/-! ## The plan (R144, R171) -/

theorem fitSize_eq (v : Nat) : fitSize v = min 1024 (max 4 v) / 4 * 4 := by
  rw [fitSize, clampNat_eq (by decide)]
  omega

/-- The plan that the nine parameter bytes give: words most significant byte first, sizes fitted, nine mask bits. -/
theorem plan_ofBytes (string slot : Byte) (size0 size1 mask : BytePair) (auto : Byte) :
    (ProbeStart.ofBytes string slot size0 size1 mask auto).plan =
      { size0 := min 1024 (max 4 (size0.1.toNat * 256 + size0.2.toNat)) / 4 * 4
        size1 := min 1024 (max 4 (size1.1.toNat * 256 + size1.2.toNat)) / 4 * 4
        select := BitVec.ofNat 9 (mask.1.toNat * 256 + mask.2.toNat)
        auto := decide (auto = 1#8) } := by
  have fit (p : BytePair) : fitSize (wordOfBytes p).toNat = min 1024 (max 4 (p.1.toNat * 256 + p.2.toNat)) / 4 * 4 := by
    rw [fitSize_eq, wordOfBytes_toNat]
  have nineBits : (wordOfBytes mask).setWidth 9 = BitVec.ofNat 9 (mask.1.toNat * 256 + mask.2.toNat) := by
    rw [← wordOfBytes_toNat]
    rfl
  rw [← fit, ← fit, ← nineBits]
  rfl

/-! ## The row PROBE_START -/

/-- The phase that a PROBE START is judged in plays no part, and stays. -/
theorem probeStart_setPhase (σ : State) (p : Phase) (a : ProbeStart) :
    (σ.setPhase p).probeStart a = (σ.probeStart a).setPhase p := by
  have judged : (σ.setPhase p).judgeProbeStart a = σ.judgeProbeStart a := rfl
  unfold State.probeStart
  rw [judged]
  split <;> rfl

/-- The snapshot prepares the run, if any, and fixes the response by the judgement (R145, R165). -/
theorem snapshot_probeStart (σ : State) (a : ProbeStart) :
    (σ.setPhase (.waiting (.probeStart a))).snapshot (.probeStart a) =
      (σ.probeStart a).setPhase (.responding { params := 9, result := σ.judgeProbeStart a }) := by
  rw [State.snapshot, State.snapProbeStart, probeStart_setPhase]
  rfl

theorem exec_probeStart {s : State} {string slot : Byte} {size0 size1 mask : BytePair} {auto : Byte} {a : ProbeStart}
    (hr : s.inReset = false) (ha : ProbeStart.ofBytes string slot size0 size1 mask auto = a)
    (hp : s.link.phase = .params .probeStart ∨ s.link.phase = .waiting (.probeStart a)) (hb : s.link.buffer = []) :
    exec (.probeStart string slot size0 size1 mask auto) s =
      .next ((s.probeStart a).setPhase (.responding { params := 9, result := s.judgeProbeStart a })) := by
  have row : exec (.probeStart string slot size0 size1 mask auto) s = .next (s.completeQuery (.probeStart a)) := by
    rw [← ha]
    exact whenRunning_running hr
  rw [row, completeQuery_due hp hb, snapshot_probeStart]

/-- Settles O40: the row's answer is the judgement, and only OK starts a run. -/
theorem probeStartIsJudgedInOrder : Obligations.ProbeStartIsJudgedInOrder := by
  unfold Obligations.ProbeStartIsJudgedInOrder
  intro s string slot size0 size1 mask auto hr number hp hb command answers bad fitted
  obtain ⟨a, ha⟩ : ∃ a, ProbeStart.ofBytes string slot size0 size1 mask auto = a := ⟨_, rfl⟩
  have spelled : a = { string, slot, size0 := BitVec.ofNat 16 (number size0), size1 := BitVec.ofNat 16 (number size1)
                       mask := BitVec.ofNat 16 (number mask), auto } := by
    simp only [← ha, ProbeStart.ofBytes, wordOfBytes_eq, number]
  rw [← spelled] at hp
  have row := exec_probeStart hr ha hp hb
  have hbad : a.bad ↔ bad := by rw [← ha]; exact Iff.rfl
  have refused {r : ResultCode} (hj : s.judgeProbeStart a = r) (hne : r ≠ .ok) : exec command s = .next (answers r) := by
    rw [row, probeStart_refused (hj ▸ hne), hj]
    rfl
  refine ⟨fun hrun => ?_, fun hidle hout => ?_, fun k hidle hgood hk => ?_⟩
  · exact refused (judgeProbeStart_busy hrun a) (by decide)
  · exact refused (judgeProbeStart_badValue hidle (hbad.2 hout)) (by decide)
  · have hstring : a.string.toNat = k.val + 1 := by rw [← ha]; exact hk
    have judged := judgeProbeStart_good hidle (mt hbad.1 hgood) hstring
    refine ⟨fun hoff => ?_, fun hon => ?_⟩
    · exact refused (by rw [judged, hoff]; rfl) (by decide)
    · rw [hon, if_pos rfl] at judged
      rw [row, probeStart_ok judged (stringOfNumber_eq_some.2 hstring), judged, State.startRun, Probe.prepared, ← ha,
        plan_ofBytes]
      rfl

end Sys2Proof.Machine

/-! SUPPORT. O41: what a pitch that reaches the probe does, by whether the probe takes it, whether it fills the slot, and
whether that slot is the last. -/

namespace Sys2Proof.Machine

/-! ## A pitch taken or discarded (R147) -/

theorem takePitch_discarded {σ : State} {k : Str} (h : ¬ (σ.probe.running = true ∧ σ.probe.string = some k))
    (pr : Int) : σ.takePitch k pr = σ := by
  unfold State.takePitch
  split
  · next hrun hstring _ => exact absurd ⟨hrun, of_decide_eq_true hstring⟩ h
  · rfl

theorem takePitch_taken {σ : State} {k : Str} {plan : Plan} (hr : σ.probe.running = true)
    (hk : σ.probe.string = some k) (hp : σ.probe.plan = some plan) (pr : Int) :
    σ.takePitch k pr = σ.countPitch k plan pr := by
  simp only [State.takePitch, hr, hk, hp, decide_true]

/-- The oldest pitch that a Tracker passed leaves its queue and reaches the probe. -/
theorem exec_probePitch {s : State} {k : Str} {pr : Int} {rest : List Int} (hr : s.inReset = false)
    (h : (s.trackers[k]).passed = pr :: rest) :
    exec (.probePitch k) s = .next ((s.setTracker k { s.trackers[k] with passed := rest }).takePitch k pr) := by
  have row : exec (.probePitch k) s = .next (s.probePitch k) := whenRunning_running hr
  rw [row, State.probePitch, h]

/-! ## A pitch counted (R148 to R150) -/

section
variable {σ : State} {plan : Plan}

/-- A pitch that does not fill the slot enters the accumulators alone (R148). -/
theorem countPitch_accumulates (h : σ.probe.count + 1 ≠ plan.sizeOf σ.probe.pointer) (k : Str) (pr : Int) :
    σ.countPitch k plan pr = σ.setProbe (σ.probe.accumulate (deviationOf pr)) := by
  rw [State.countPitch]
  exact if_neg h

/-- A pitch that fills a slot before slot 8 completes it, and the run goes on (R149). -/
theorem countPitch_completes (h : σ.probe.count + 1 = plan.sizeOf σ.probe.pointer) (h8 : σ.probe.pointer < 8) (k : Str)
    (pr : Int) :
    σ.countPitch k plan pr = σ.setProbe (σ.probe.accumulate (deviationOf pr)).completeSlot := by
  have more : ¬ 9 ≤ σ.probe.pointer + 1 := by omega
  rw [State.countPitch]
  exact (if_pos h).trans (if_neg more)

/-- A pitch that fills slot 8 completes it and finishes the run (R149, R150). -/
theorem countPitch_finishes (h : σ.probe.count + 1 = plan.sizeOf σ.probe.pointer) (h8 : 8 ≤ σ.probe.pointer) (k : Str)
    (pr : Int) :
    σ.countPitch k plan pr = (σ.setProbe (σ.probe.accumulate (deviationOf pr)).completeSlot).finishRun k plan := by
  have last : 9 ≤ σ.probe.pointer + 1 := by omega
  rw [State.countPitch]
  exact (if_pos h).trans (if_pos last)

end

/-! ## The end of a run (R150, R151) -/

theorem Probe.correction_eq (p : Probe) :
    p.correction = -((p.totalSum + (p.totalCount / 2 : Nat)) / (p.totalCount : Int)) := by
  rw [Probe.correction, roundedMean, one_mul]

/-- What a finished run leaves, field by field. -/
theorem finishRun_eq (σ : State) (k : Str) (plan : Plan) :
    σ.finishRun k plan =
      { σ with
        probe := { σ.probe with running := false }
        settings := if plan.auto then
            { σ.settings with
              physical := σ.settings.physical.set k
                { σ.settings.physical[k] with
                  offset := -((σ.probe.totalSum + (σ.probe.totalCount / 2 : Nat)) / (σ.probe.totalCount : Int)) } }
          else σ.settings
        notices := σ.notices.hand σ.settings.noticeEnables (.probeDone k (9 - σ.probe.start)) } := by
  rw [State.finishRun, Probe.correction_eq]
  cases plan.auto <;> rfl

/-- Settles O41: a pitch taken is counted, and the count decides between the three cases. -/
theorem probeCountsPitchesIntoItsSlots : Obligations.ProbeCountsPitchesIntoItsSlots := by
  unfold Obligations.ProbeCountsPitchesIntoItsSlots
  intro s k pr rest hr hpassed popped
  have row : exec (.probePitch k) s = .next (popped.takePitch k pr) := exec_probePitch hr hpassed
  refine ⟨fun h => ?_, fun plan hrun hk hplan => ?_⟩
  · rw [row, takePitch_discarded (σ := popped) h]
  · rw [row, takePitch_taken (σ := popped) hrun hk hplan]
    refine ⟨fun hmore => ?_, fun hfull hnext => ?_, fun hfull hlast => ?_⟩
    · rw [countPitch_accumulates (σ := popped) hmore]
      rfl
    · rw [countPitch_completes (σ := popped) hfull hnext]
      rfl
    · rw [countPitch_finishes (σ := popped) hfull hlast, finishRun_eq]
      rfl

end Sys2Proof.Machine

/-! SUPPORT. O42: PROBE STOP, on a probe RUNNING or IDLE. -/

namespace Sys2Proof.Machine

/-- Settles O42: PROBE STOP is a run aborted with the reason STOPPED. -/
theorem probeStopAbortsARun : Obligations.ProbeStopAbortsARun := by
  unfold Obligations.ProbeStopAbortsARun
  intro s rest hr ha hb
  have row : exec .probeStop s = .next (s.abortProbe .stopped).markApplied := exec_command hr ha hb (by simp)
  refine ⟨fun k hrun hk => ?_, fun hidle => ?_⟩
  · rw [row, State.abortProbe, abortRun_running hrun hk]
    rfl
  · rw [row, State.abortProbe, abortRun_idle hidle]
    rfl

end Sys2Proof.Machine

/-! SUPPORT. The Control Link's part of a step: when a waiting snapshot is taken, the rows of the non-posted commands, and
what a snapshot and the application of a posted command leave of the link. -/

namespace Sys2Proof.Machine

/-! ## The link that a step of another block leaves -/

/-- A step at the Note Table leaves the link. -/
theorem State.tabledTo.link_eq {σ τ : State} (h : σ.tabledTo τ) : τ.link = σ.link := by rw [h]

/-- A step of the probe and a command to the Settings Store leave the link. -/
theorem State.tunedTo.link_eq {σ τ : State} (h : σ.tunedTo τ) : τ.link = σ.link := by rw [h]

/-- Only a hard reset and its end change whether the part is held in one. -/
theorem State.tabledTo.inReset_eq {σ τ : State} (h : σ.tabledTo τ) : τ.inReset = σ.inReset := by rw [h]

theorem State.tunedTo.inReset_eq {σ τ : State} (h : σ.tunedTo τ) : τ.inReset = σ.inReset := by rw [h]

theorem State.linkedTo.inReset_eq {σ τ : State} (h : σ.linkedTo τ) : τ.inReset = σ.inReset := by rw [h]

/-- The application of a posted command leaves the posted buffer and the frame in progress (R163). -/
theorem applyPosted_link (σ : State) (p : Posted) :
    (σ.applyPosted p).link = σ.link ∧ (σ.applyPosted p).inReset = σ.inReset := by
  have tabled {τ : State} (h : σ.tabledTo τ) : τ.link = σ.link ∧ τ.inReset = σ.inReset := ⟨h.link_eq, h.inReset_eq⟩
  have tuned {τ : State} (h : σ.tunedTo τ) : τ.link = σ.link ∧ τ.inReset = σ.inReset := ⟨h.link_eq, h.inReset_eq⟩
  cases p with
  | tagNote h t => exact tabled (tagNote_frame σ h t)
  | untagNote h => exact tabled (untagNote_frame σ h)
  | holdNote h v => exact tabled (holdNote_frame σ h v)
  | releaseNote h => exact tabled (releaseNote_frame σ h)
  | retireNote h => exact tabled (retireNote_frame σ h)
  | allRelease => exact tabled (allRelease_frame σ)
  | set n v => exact tuned (set_frame σ n v)
  | selectProfile v => exact tuned (selectProfile_frame σ v)
  | probeStop => exact tuned (abortRun_frame σ _ _)
  | clearFaults m => exact ⟨rfl, rfl⟩
  | restart => exact ⟨rfl, rfl⟩

/-- A snapshot fixes the response of the frame, and leaves the rest of the link and the Notice and Fault Unit (R165). -/
theorem snapshot_link (σ : State) (q : Query) :
    ∃ r : Response, (σ.snapshot q).link = { σ.link with phase := .responding r }
      ∧ (σ.snapshot q).notices = σ.notices := by
  cases q with
  | getNote h => unfold State.snapshot State.snapGetNote; dsimp only; split <;> exact ⟨_, rfl, rfl⟩
  | getString b =>
    unfold State.snapshot State.snapGetString
    dsimp only
    split
    · exact ⟨_, rfl, rfl⟩
    · split <;> exact ⟨_, rfl, rfl⟩
  | getSetting n => unfold State.snapshot State.snapGetSetting; dsimp only; split <;> exact ⟨_, rfl, rfl⟩
  | probeStart a =>
    have untouched : (σ.probeStart a).link = σ.link ∧ (σ.probeStart a).notices = σ.notices := by
      unfold State.probeStart; split <;> exact ⟨rfl, rfl⟩
    refine ⟨(Query.probeStart a).answer (σ.judgeProbeStart a), ?_, untouched.2⟩
    rw [← untouched.1]
    rfl
  | _ => exact ⟨_, rfl, rfl⟩

/-! ## A snapshot that is due (R165) -/

/-- A snapshot that waits is taken where the posted buffer is empty. -/
theorem takeDue_due {σ : State} {q : Query} (hp : σ.link.phase = .waiting q) (hb : σ.link.buffer = []) :
    σ.takeDue = σ.snapshot q := by
  simp only [State.takeDue, hp, hb, List.isEmpty_nil, if_true]

/-- It waits on where the posted buffer is not empty. -/
theorem takeDue_waits {σ : State} (hb : σ.link.buffer ≠ []) : σ.takeDue = σ := by
  unfold State.takeDue
  split
  · exact if_neg (mt List.isEmpty_iff.1 hb)
  all_goals rfl

/-- No snapshot is due in a frame that waits for none. -/
theorem takeDue_none {σ : State} (hp : ∀ q, σ.link.phase ≠ .waiting q) : σ.takeDue = σ := by
  unfold State.takeDue
  split
  · next q hq => exact absurd hq (hp q)
  all_goals rfl

/-- The row of a command whose snapshot waits takes the snapshot that is due. -/
theorem completeQuery_waiting {σ : State} {q : Query} (hp : σ.link.phase = .waiting q) :
    σ.completeQuery q = σ.takeDue := by
  have same : σ.setPhase (.waiting q) = σ := by rw [← hp]; rfl
  rw [State.completeQuery, if_pos (.inr hp), same]

/-- The row of a non-posted command completes it. -/
theorem exec_query {s : State} (hr : s.inReset = false) (q : Query) : exec q.command s = .next (s.completeQuery q) := by
  cases q with
  | probeStart a =>
    have row : exec (Query.probeStart a).command s = .next (s.completeQuery (.probeStart (.ofBytes a.string a.slot
        (bytesOfWord a.size0) (bytesOfWord a.size1) (bytesOfWord a.mask) a.auto))) := whenRunning_running hr
    rw [row, probeStart_ofBytes]
  | _ => exact whenRunning_running hr

/-- The phase that a snapshot is taken in plays no part, for the snapshot fixes it (R165). -/
theorem snapshot_setPhase (σ : State) (p : Phase) (q : Query) : (σ.setPhase p).snapshot q = σ.snapshot q := by
  cases q with
  | getNote h =>
    unfold State.snapshot State.snapGetNote
    simp only [setPhase_table]
    split <;> rfl
  | getString b =>
    unfold State.snapshot State.snapGetString
    simp only [setPhase_table]
    split
    · rfl
    · split <;> rfl
  | getSetting n => unfold State.snapshot State.snapGetSetting; dsimp only; split <;> rfl
  | probeStart a => simp only [State.snapshot, State.snapProbeStart, probeStart_setPhase]; rfl
  | _ => rfl

/-- The row of a query with the posted buffer empty: its snapshot is taken (R165). -/
theorem exec_query_snapshot {s : State} {q : Query} (hr : s.inReset = false)
    (hp : s.link.phase = .params q.code ∨ s.link.phase = .waiting q) (hb : s.link.buffer = []) :
    exec q.command s = .next (s.snapshot q) := by
  rw [exec_query hr, completeQuery_due hp hb, snapshot_setPhase]

/-! ## The completion of a posted command (R163) -/

/-- With nothing in the posted buffer no application completes. -/
theorem postedComplete_empty {σ : State} (hb : σ.link.buffer = []) : σ.postedComplete = σ := by
  rw [State.postedComplete, hb]
  rfl

/-- The oldest command is applied, leaves the buffer, and a snapshot that waited for it is taken. -/
theorem postedComplete_cons {σ : State} {p : Posted} {rest : List Posted} (hb : σ.link.buffer = p :: rest) :
    σ.postedComplete = σ.applyHead.popPosted.takeDue := by
  rw [State.postedComplete, hb]
  rfl

/-- A command whose effects are in place is not applied again. -/
theorem applyWhen_applied {σ : State} (ha : σ.link.applied = true) (kind : Posted → Bool) : σ.applyWhen kind = σ := by
  simp only [State.applyWhen, Link.head, ha, if_true]

/-- The oldest command leaves the buffer, and the notices on their way are handed on. -/
theorem popPosted_cons {σ : State} {p : Posted} {rest : List Posted} (hb : σ.link.buffer = p :: rest) :
    σ.popPosted =
      { σ with
        notices := { σ.notices with coming := [] }.handAll σ.settings.noticeEnables σ.notices.coming
        link := { σ.link with buffer := rest, applied := false } } := by
  rw [State.popPosted, hb]
  rfl

end Sys2Proof.Machine

/-! SUPPORT. O58: every step keeps the posted buffer and the notice queue within their capacities, and a held part at its
hard-reset values. A part that is held takes four commands and no other; one that runs keeps its queues by what each
operation does to the Notice and Fault Unit and to the link. -/

namespace Sys2Proof.Machine

/-! ## The Notice and Fault Unit (R179, R181) -/

/-- A change of the unit that keeps its queue within capacity, and the notices on their way as they are. -/
abbrev NoticeUnit.fillsTo (u v : NoticeUnit) : Prop :=
  v.coming = u.coming ∧ (u.queue.length ≤ 32 → v.queue.length ≤ 32)

theorem NoticeUnit.fillsTo_of_eq {u v : NoticeUnit} (h : v = u) : u.fillsTo v := by
  rw [h]; exact ⟨rfl, id⟩

theorem NoticeUnit.fillsTo.trans {u v w : NoticeUnit} (h : u.fillsTo v) (h' : v.fillsTo w) : u.fillsTo w :=
  ⟨h'.1.trans h.1, h'.2 ∘ h.2⟩

/-- A notice handed on joins the queue only where there is room (R179). -/
theorem NoticeUnit.fillsTo_hand (u : NoticeUnit) (e : BitVec 9) (n : Notice) : u.fillsTo (u.hand e n) := by
  unfold NoticeUnit.hand
  split
  · split
    · next room => exact ⟨rfl, fun _ => by simpa using room⟩
    · exact ⟨rfl, id⟩
  · exact ⟨rfl, id⟩

theorem NoticeUnit.fillsTo_handAll (e : BitVec 9) (ns : List Notice) (u : NoticeUnit) : u.fillsTo (u.handAll e ns) := by
  induction ns generalizing u with
  | nil => exact NoticeUnit.fillsTo_of_eq rfl
  | cons n ns ih => exact (u.fillsTo_hand e n).trans (ih (u.hand e n))

theorem NoticeUnit.fillsTo_report (u : NoticeUnit) (e : BitVec 9) (c : FaultCause) (d : Byte) :
    u.fillsTo (u.report e c d) := by
  have flagged : u.fillsTo (u.setFlag true c) := by cases c <;> exact ⟨rfl, id⟩
  unfold NoticeUnit.report
  split
  · exact NoticeUnit.fillsTo_of_eq rfl
  · split
    · exact flagged
    · exact flagged.trans (NoticeUnit.fillsTo_hand _ e _)

theorem NoticeUnit.fillsTo_refuse (u : NoticeUnit) (e : BitVec 9) (code param : Byte) (r : RefusalReason) :
    u.fillsTo (u.refuse e code param r) := u.fillsTo_report e .refused r.byte

/-- The notices on their way are handed on, and none is on its way any more (R134). -/
theorem NoticeUnit.arrive_empties (u : NoticeUnit) (e : BitVec 9) :
    (u.arrive e).coming = [] ∧ (u.queue.length ≤ 32 → (u.arrive e).queue.length ≤ 32) :=
  NoticeUnit.fillsTo_handAll e u.coming { u with coming := [] }

/-! ## A part that runs with its queues in order -/

/-- The part runs, and its queues are in order. -/
abbrev State.steady (σ : State) : Prop := σ.inReset = false ∧ σ.queuesWf

/-- The invariant reads the posted buffer, the mark of its oldest command and the unit's queues alone. -/
theorem steady_of {σ τ : State} (w : σ.steady) (hr : τ.inReset = σ.inReset) (hl : τ.link = σ.link)
    (hn : σ.notices.fillsTo τ.notices) : τ.steady := by
  obtain ⟨hrun, hbuf, hqueue, hne, hrestart, hcoming⟩ := w
  refine ⟨hr.trans hrun, hl ▸ hbuf, hn.2 hqueue, hl ▸ hne, hl ▸ hrestart, ?_⟩
  rw [hn.1, hl]
  exact hcoming

theorem State.playedTo.steady {σ τ : State} (h : σ.playedTo τ) (hn : σ.notices.fillsTo τ.notices) (w : σ.steady) :
    τ.steady := steady_of w (by rw [h]) (by rw [h]) hn

theorem State.tabledTo.steady {σ τ : State} (h : σ.tabledTo τ) (hn : σ.notices.fillsTo τ.notices) (w : σ.steady) :
    τ.steady := steady_of w h.inReset_eq h.link_eq hn

theorem State.tunedTo.steady {σ τ : State} (h : σ.tunedTo τ) (hn : σ.notices.fillsTo τ.notices) (w : σ.steady) :
    τ.steady := steady_of w h.inReset_eq h.link_eq hn

/-! ## What the string channels' steps do to the unit: nothing, or reports of a sample -/

theorem putTaken_notices (σ : State) (s : Str) (k : Taken) : (σ.putTaken s k).notices = σ.notices := by
  unfold State.putTaken; split <;> rfl

theorem deliver_notices (σ : State) (s : Str) (i : TrackerInput) : (σ.deliver s i).notices = σ.notices :=
  putTaken_notices σ s _

theorem eventStep_notices (σ : State) (e : FrontEndEvent) (s : Str) : (σ.eventStep e s).notices = σ.notices := by
  unfold State.eventStep
  split
  · rfl
  · split
    · exact deliver_notices _ _ _
    · rfl

theorem forcedStep_notices (σ : State) (s : Str) : (σ.forcedStep s).notices = σ.notices := by
  unfold State.forcedStep
  split
  · rfl
  · exact deliver_notices _ _ _

theorem enableStep_notices (σ : State) (s : Str) : (σ.enableStep s).notices = σ.notices := by
  unfold State.enableStep
  split
  · exact deliver_notices _ _ _
  all_goals rfl

theorem disableStep_notices (σ : State) (s : Str) : (σ.disableStep s).notices = σ.notices := by
  unfold State.disableStep
  split
  · exact deliver_notices _ _ _
  all_goals rfl

theorem staleStep_notices (σ : State) (s : Str) : (σ.staleStep s).notices = σ.notices := by
  unfold State.staleStep
  split
  · exact deliver_notices _ _ _
  · rfl

theorem trackerAnswer_notices (σ : State) (s : Str) : (σ.trackerAnswer s).notices = σ.notices := by
  unfold State.trackerAnswer
  split
  · rfl
  · split
    · rfl
    · exact putTaken_notices σ s _

theorem resultStep_notices (σ : State) (s : Str) : (σ.resultStep s).notices = σ.notices := by
  unfold State.resultStep
  split
  · rfl
  · split
    · exact deliver_notices _ _ _
    · rfl

theorem beginComputation_notices (σ : State) (s : Str) (n : Nat) : (σ.beginComputation s n).notices = σ.notices := by
  unfold State.beginComputation; split <;> rfl

theorem grant_notices (σ : State) : σ.grant.notices = σ.notices := by
  unfold State.grant
  split
  · rfl
  · exact beginComputation_notices _ _ _

theorem grantIfFree_notices (σ : State) : σ.grantIfFree.notices = σ.notices := by
  unfold State.grantIfFree
  split
  · exact grant_notices σ
  · rfl

theorem decideContinuation_notices (σ : State) (s : Str) : (σ.decideContinuation s).notices = σ.notices := by
  unfold State.decideContinuation
  split
  · exact beginComputation_notices _ _ _
  · exact grant_notices _

theorem completeComputation_notices (σ : State) : σ.completeComputation.notices = σ.notices := by
  unfold State.completeComputation
  split
  · rfl
  · rw [decideContinuation_notices]
    split
    · rfl
    · exact deliver_notices _ _ _

/-- A sample reports an overload, an overrun, both or neither (R3, R17). -/
theorem sampleStep_fills (σ : State) (s : Str) (v : Int) : σ.notices.fillsTo (σ.sampleStep s v).notices := by
  have written (τ : State) (r : CycleReport) : τ.notices.fillsTo (τ.writeReport s r).notices := by
    unfold State.writeReport
    dsimp only
    rw [grantIfFree_notices]
    split
    · exact NoticeUnit.fillsTo_of_eq rfl
    · exact NoticeUnit.fillsTo_report _ _ _ _
  have reported (f : FrontEnd) (x : Int) : σ.notices.fillsTo ((σ.setFrontEnd s f).reportOverload s x).notices := by
    unfold State.reportOverload
    split
    · exact NoticeUnit.fillsTo_report _ _ _ _
    · exact NoticeUnit.fillsTo_of_eq rfl
  unfold State.sampleStep
  split
  · unfold State.takeSample
    dsimp only
    split
    · exact reported _ _
    · exact (reported _ _).trans (written _ _)
  · exact NoticeUnit.fillsTo_of_eq rfl

/-! ## What the Note Table, the probe and the Settings Store hand on -/

/-- The notices of a request applied are handed on in order (R120). -/
theorem serve_fills (σ : State) (s : Str) (f : Request → Option Reply) : σ.notices.fillsTo (σ.serve s f).notices := by
  unfold State.serve
  split
  · exact NoticeUnit.fillsTo_of_eq rfl
  · split
    · exact NoticeUnit.fillsTo_of_eq rfl
    · split
      · exact NoticeUnit.fillsTo_of_eq rfl
      · exact NoticeUnit.fillsTo_handAll _ _ _

theorem lingerExpiry_fills (σ : State) (h : Nat) : σ.notices.fillsTo (σ.lingerExpiry h).notices := by
  unfold State.lingerExpiry
  split
  · exact NoticeUnit.fillsTo_of_eq rfl
  · split
    · split
      · exact NoticeUnit.fillsTo_of_eq rfl
      · exact NoticeUnit.fillsTo_hand _ _ _
    · exact NoticeUnit.fillsTo_of_eq rfl

theorem finishRun_fills (σ : State) (s : Str) (plan : Plan) : σ.notices.fillsTo (σ.finishRun s plan).notices := by
  rw [finishRun_eq]
  exact NoticeUnit.fillsTo_hand _ _ _

theorem countPitch_fills (σ : State) (s : Str) (plan : Plan) (pr : Int) :
    σ.notices.fillsTo (σ.countPitch s plan pr).notices := by
  unfold State.countPitch
  dsimp only
  split
  · split
    · exact finishRun_fills _ s plan
    · exact NoticeUnit.fillsTo_of_eq rfl
  · exact NoticeUnit.fillsTo_of_eq rfl

theorem probePitch_fills (σ : State) (s : Str) : σ.notices.fillsTo (σ.probePitch s).notices := by
  unfold State.probePitch
  split
  · exact NoticeUnit.fillsTo_of_eq rfl
  · unfold State.takePitch
    split
    · exact countPitch_fills _ s _ _
    · exact NoticeUnit.fillsTo_of_eq rfl

theorem abortProbe_fills (σ : State) (r : AbortReason) : σ.notices.fillsTo (σ.abortProbe r).notices := by
  rw [abortProbe_eq]
  dsimp only
  split
  · exact NoticeUnit.fillsTo_handAll _ _ _
  · exact NoticeUnit.fillsTo_of_eq rfl

/-- A run aborted beside a new reference and reference term, whichever term it is, hands on a PROBE ABORTED at most
(R136). -/
theorem retune_fills (σ : State) (n : Nat) (R : Int) (r : AbortReason) :
    σ.notices.fillsTo (((σ.setSettings { σ.settings with reference := n }).setPitchUnit
      { σ.pitchUnit with refTerm := R }).abortProbe r).notices := abortProbe_fills _ r

theorem setReference_fills (σ : State) (n : Nat) : σ.notices.fillsTo (σ.setReference n).notices :=
  retune_fills σ n (referenceTerm n) .reference

/-- A SET of the enable mask sends a notice on its way at most; the queue stays within its capacity (R128, R134). -/
theorem set_queue {σ : State} (h : σ.notices.queue.length ≤ 32) (n : Byte) (v : BitVec 16) :
    (σ.set n v).notices.queue.length ≤ 32 := by
  have refused (r : RefusalReason) := (σ.notices.fillsTo_refuse σ.settings.noticeEnables CommandCode.set.byte n r).2 h
  unfold State.set
  split
  · exact refused .badSetting
  · split
    · exact refused .badValue
    · unfold State.storeSetting
      split
      · rw [setEnableMask_notices]; exact h
      · exact (setReference_fills σ _).2 h
      · exact h

/-- Whatever a posted command hands on, the queue stays within its capacity. -/
theorem applyPosted_queue {σ : State} (h : σ.notices.queue.length ≤ 32) (p : Posted) :
    (σ.applyPosted p).notices.queue.length ≤ 32 := by
  have refused (c : CommandCode) (b : Byte) (r : RefusalReason) : (σ.refuse c b r).notices.queue.length ≤ 32 :=
    (σ.notices.fillsTo_refuse σ.settings.noticeEnables c.byte b r).2 h
  cases p with
  | tagNote x t =>
    unfold State.applyPosted State.tagNote
    dsimp only
    split
    · exact refused _ _ _
    · exact h
  | untagNote x =>
    unfold State.applyPosted State.untagNote
    dsimp only
    split
    · exact refused _ _ _
    · exact h
  | holdNote x v =>
    unfold State.applyPosted State.holdNote
    dsimp only
    split
    · exact refused _ _ _
    · split
      · exact refused _ _ _
      · exact h
  | releaseNote x =>
    unfold State.applyPosted State.releaseNote
    dsimp only
    split
    · exact refused _ _ _
    · split
      · exact (NoticeUnit.fillsTo_hand _ _ _).2 h
      · exact h
  | retireNote x =>
    unfold State.applyPosted State.retireNote
    dsimp only
    split
    · exact refused _ _ _
    · split
      · exact refused _ _ _
      · exact h
  | allRelease =>
    have handed := forceReleaseAll_notices (σ.table.records.filter (·.live)) σ
    unfold State.applyPosted State.allRelease
    dsimp only
    rw [handed]
    exact (NoticeUnit.fillsTo_handAll _ _ _).2 h
  | set n v => exact set_queue h n v
  | selectProfile v =>
    unfold State.applyPosted State.selectProfile
    dsimp only
    split
    · exact h
    · split
      · exact h
      · exact refused _ _ _
  | probeStop => exact (abortProbe_fills σ .stopped).2 h
  | clearFaults m => exact h
  | restart => exact Nat.zero_le 32

/-! ## The steps of the link -/

/-- A move to another phase of the frame leaves the posted buffer. -/
theorem steady_setPhase {σ : State} (w : σ.steady) (p : Phase) : (σ.setPhase p).steady := w

/-- A snapshot touches neither the posted buffer nor the unit. -/
theorem snapshot_steady {σ : State} (w : σ.steady) (q : Query) : (σ.snapshot q).steady := by
  obtain ⟨r, hl, hn⟩ := snapshot_link σ q
  exact steady_of (steady_setPhase w (.responding r)) (snapshot_frame σ q).inReset_eq hl (NoticeUnit.fillsTo_of_eq hn)

theorem takeDue_steady {σ : State} (w : σ.steady) : σ.takeDue.steady := by
  unfold State.takeDue
  split
  · split
    · exact snapshot_steady w _
    · exact w
  all_goals exact w

theorem completeQuery_steady {σ : State} (w : σ.steady) (q : Query) : (σ.completeQuery q).steady := by
  unfold State.completeQuery
  split
  · exact takeDue_steady (steady_setPhase w _)
  · exact w

theorem report_steady {σ : State} (w : σ.steady) (c : FaultCause) (d : Byte) : (σ.report c d).steady :=
  steady_of w rfl rfl (NoticeUnit.fillsTo_report _ _ _ _)

/-- A command joins the buffer only where there is room, and behind the one that is oldest (R162). -/
theorem arrive_steady {σ : State} (w : σ.steady) (p : Posted) : (σ.arrive p).steady := by
  unfold State.arrive
  split
  · next room =>
    obtain ⟨hrun, -, hqueue, hne, hrestart, hcoming⟩ := w
    have joined : σ.link.buffer ++ [p] ≠ [] := List.append_ne_nil_of_right_ne_nil _ (List.cons_ne_nil p [])
    refine ⟨hrun, ?_, hqueue, fun _ => joined, fun ha => ?_, hcoming⟩
    · simpa using room
    · rw [setLink_link, List.head?_append_of_ne_nil _ (hne ha)]
      exact hrestart ha
  · exact steady_of (steady_setPhase w .ignoring) rfl rfl (NoticeUnit.fillsTo_refuse _ _ _ _ _)

/-- The row of a posted command other than RESTART puts its effects in place and leaves it at the head of the buffer
(R163). -/
theorem applyWhen_steady {σ : State} (w : σ.steady) {kind : Posted → Bool} (hk : kind .restart = false) :
    (σ.applyWhen kind).steady := by
  unfold State.applyWhen
  split
  · next p hp =>
    split
    · next hkp =>
      obtain ⟨hl, hr⟩ := applyPosted_link σ p
      obtain ⟨hrun, hbuf, hqueue, -, -, -⟩ := w
      have hhead : σ.link.buffer.head? = some p := by
        unfold Link.head at hp
        split at hp
        · exact absurd hp (by simp)
        · exact hp
      have hne : p ≠ .restart := by rintro rfl; rw [hk] at hkp; exact Bool.noConfusion hkp
      refine ⟨hr.trans hrun, ?_, applyPosted_queue hqueue p, fun _ => ?_, fun _ => ?_, fun _ => rfl⟩
      all_goals simp only [State.markApplied, setLink_link, hl]
      · exact hbuf
      · intro he
        simp [he] at hhead
      · rw [hhead]
        exact fun e => hne (Option.some.inj e)
    · exact w
  · exact w

/-- The notices on their way arrive, and none is on its way any more. -/
theorem noticesArrive_steady {σ : State} (w : σ.steady) : σ.noticesArrive.steady := by
  obtain ⟨hrun, hbuf, hqueue, hne, hrestart, -⟩ := w
  obtain ⟨hnone, hle⟩ := σ.notices.arrive_empties σ.settings.noticeEnables
  exact ⟨hrun, hbuf, hle hqueue, hne, hrestart, fun h => absurd hnone h⟩

/-- The oldest command leaves the buffer, and no effects are in place any more (R163). -/
theorem popPosted_steady {σ : State} (hr : σ.inReset = false) (hb : σ.link.buffer.length ≤ 8)
    (hq : σ.notices.queue.length ≤ 32) : σ.popPosted.steady := by
  obtain ⟨hnone, hle⟩ := σ.notices.arrive_empties σ.settings.noticeEnables
  refine ⟨hr, ?_, hle hq, fun h => Bool.noConfusion h, fun h => Bool.noConfusion h, fun h => absurd hnone h⟩
  have shorter := List.length_drop (i := 1) (l := σ.link.buffer)
  simp only [State.popPosted, setLink_link]
  omega

/-- The head's effects put in place, whichever command it is, leave the buffer and keep the queue in order. -/
theorem applyHead_leaves {σ : State} (h : σ.notices.queue.length ≤ 32) :
    σ.applyHead.inReset = σ.inReset ∧ σ.applyHead.link.buffer = σ.link.buffer
      ∧ σ.applyHead.notices.queue.length ≤ 32 := by
  unfold State.applyHead State.applyWhen
  split
  · next p _ =>
    obtain ⟨hl, hr⟩ := applyPosted_link σ p
    have hb : (σ.applyPosted p).link.buffer = σ.link.buffer := by rw [hl]
    exact ⟨hr, hb, applyPosted_queue h p⟩
  · exact ⟨rfl, rfl, h⟩

theorem postedComplete_steady {σ : State} (w : σ.steady) : σ.postedComplete.steady := by
  unfold State.postedComplete
  split
  · exact w
  · obtain ⟨hrun, hbuf, hqueue, -, -, -⟩ := w
    obtain ⟨hr, hb, hq⟩ := applyHead_leaves hqueue
    exact takeDue_steady (popPosted_steady (hr.trans hrun) (hb ▸ hbuf) hq)

theorem frameStart_steady {σ : State} (w : σ.steady) : σ.frameStart.steady := by
  unfold State.frameStart State.startFrame
  split
  · exact w
  · split <;> exact w

theorem commandByte_steady {σ : State} (w : σ.steady) (b : Byte) : (σ.commandByte b).steady := by
  unfold State.commandByte
  split
  · split
    · exact w
    · exact report_steady (steady_setPhase w .ignoring) .frame b
  · exact w

theorem postedArrival_steady {σ : State} (w : σ.steady) (params : List Byte) : (σ.postedArrival params).steady := by
  unfold State.postedArrival
  split
  · split
    · exact arrive_steady w _
    · exact w
  all_goals exact w

theorem turnaround_steady {σ : State} (w : σ.steady) : σ.turnaround.steady := by
  have due := takeDue_steady w
  unfold State.turnaround
  dsimp only
  split <;> exact due

theorem noticeDelivered_steady {σ : State} (w : σ.steady) : σ.noticeDelivered.steady := by
  have shorter : σ.notices.fillsTo { σ.notices with queue := σ.notices.queue.drop 1 } :=
    ⟨rfl, fun h => by rw [List.length_drop]; omega⟩
  have dropped : (σ.setNotices { σ.notices with queue := σ.notices.queue.drop 1 }).steady := steady_of w rfl rfl shorter
  unfold State.noticeDelivered
  split
  · split
    · exact steady_setPhase dropped _
    · exact w
  all_goals exact w

theorem frameEnd_steady {σ : State} (w : σ.steady) (n : Nat) : (σ.frameEnd n).steady := by
  have due := takeDue_steady w
  have ended : (σ.endPhase n).steady := by
    unfold State.endPhase
    dsimp only
    split
    · exact due
    · unfold State.endIncomplete
      split
      · exact arrive_steady due _
      · exact report_steady due .frame _
    all_goals exact due
  unfold State.frameEnd
  split
  · exact w
  · exact ended

/-! ## Every command -/

/-- A command other than HARD_RESET keeps a running part running, with its queues in order. -/
theorem exec_steady (c : Instr) {s t : State} (w : s.steady) (hc : c ≠ .hardReset) (he : exec c s = .next t) :
    t.steady := by
  have run {f : State → State} (hf : (f s).steady) (h : whenRunning f s = .next t) : t.steady :=
    whenRunning_kept (P := State.steady) w hf h
  cases c with
  | hardReset => exact absurd rfl hc
  | hardResetEnd => obtain rfl := Host.Outcome.next.inj he; exact ⟨rfl, w.2⟩
  | sample k v => exact run ((sampleStep_frame s k v).steady (sampleStep_fills s k v) w) he
  | millisecondTick => exact run (steady_of w rfl rfl (NoticeUnit.fillsTo_of_eq rfl)) he
  | staleTimerExpiry k =>
    exact run ((staleStep_frame s k).steady (NoticeUnit.fillsTo_of_eq (staleStep_notices s k)) w) he
  | lingerTimerExpiry h => exact run ((lingerExpiry_frame s h).steady (lingerExpiry_fills s h) w) he
  | computationComplete =>
    exact run ((completeComputation_frame s).steady (NoticeUnit.fillsTo_of_eq (completeComputation_notices s)) w) he
  | trackerResult k =>
    exact run ((resultStep_frame s k).steady (NoticeUnit.fillsTo_of_eq (resultStep_notices s k)) w) he
  | trackerOnset k | trackerReleaseEvent k | trackerRestrike k =>
    exact run ((eventStep_frame s _ k).steady (NoticeUnit.fillsTo_of_eq (eventStep_notices s _ k)) w) he
  | trackerAnswer k =>
    exact run ((trackerAnswer_frame s k).steady (NoticeUnit.fillsTo_of_eq (trackerAnswer_notices s k)) w) he
  | forcedReleaseMessage k =>
    exact run ((forcedStep_frame s k).steady (NoticeUnit.fillsTo_of_eq (forcedStep_notices s k)) w) he
  | trackerEnable k =>
    exact run ((enableStep_frame s k).steady (NoticeUnit.fillsTo_of_eq (enableStep_notices s k)) w) he
  | trackerDisable k =>
    exact run ((disableStep_frame s k).steady (NoticeUnit.fillsTo_of_eq (disableStep_notices s k)) w) he
  | create k | update k | confirm k | release k | succeed k =>
    exact run ((serve_frame s k _).steady (serve_fills s k _) w) he
  | probePitch k => exact run ((probePitch_frame s k).steady (probePitch_fills s k) w) he
  | frameStart => obtain rfl := Host.Outcome.next.inj he; exact frameStart_steady w
  | commandByte b => exact run (commandByte_steady w b) he
  | postedCommandArrival params => exact run (postedArrival_steady w params) he
  | postedApplicationComplete => exact run (postedComplete_steady w) he
  | turnaroundBusy => exact run (turnaround_steady w) he
  | noticeEntryDelivered => exact run (noticeDelivered_steady w) he
  | frameEnd n => obtain rfl := Host.Outcome.next.inj he; exact frameEnd_steady w n
  | getNote | getString | getChanged | listNotes | takeNotices | getStatus | getSetting | probeStart | probeResults =>
    exact run (completeQuery_steady w _) he
  | setEnableMask =>
    refine run ?_ he
    unfold State.applyEnableMask
    split
    · exact noticesArrive_steady (applyWhen_steady w rfl)
    · exact w
  | restart =>
    refine run ?_ he
    unfold State.restartComplete
    split
    · exact postedComplete_steady w
    · exact w
  | _ => exact run (applyWhen_steady w rfl) he

/-! ## A part held in hard reset (R186) -/

theorem whenRunning_held {f : State → State} {σ : State} (h : σ.inReset = true) : whenRunning f σ = .next σ := by
  rw [whenRunning, if_pos h]

/-- A held part takes the two edges of CSN, and the start and the end of a hard reset; every other command leaves it. -/
theorem exec_held (c : Instr) {s : State} (hr : s.inReset = true) (h1 : c ≠ .hardReset) (h2 : c ≠ .hardResetEnd)
    (h3 : c ≠ .frameStart) (h4 : ∀ n, c ≠ .frameEnd n) : exec c s = .next s := by
  cases c with
  | hardReset => exact absurd rfl h1
  | hardResetEnd => exact absurd rfl h2
  | frameStart => exact absurd rfl h3
  | frameEnd n => exact absurd rfl (h4 n)
  | _ => exact whenRunning_held hr

/-- The queues of a part after a hard reset are empty. -/
theorem hardReset_queuesWf (σ : State) : σ.hardReset.queuesWf :=
  ⟨Nat.zero_le 8, Nat.zero_le 32, fun h => Bool.noConfusion h, fun h => Bool.noConfusion h, fun h => absurd rfl h⟩

/-- The level of CSN moves at a held part; its queues stay empty, and its blocks at their hard-reset values. -/
theorem held_csn {s : State} (hr : s.inReset = true) (hq : s.queuesWf) (hh : s.heldWf) (low : Bool) :
    let t := s.setLink { s.link with csnLow := low, phase := if low then .awaitHigh else .idle }
    t.queuesWf ∧ t.heldWf := by
  refine ⟨hq, fun _ => ?_⟩
  have held := hh hr
  rw [held]
  rfl

/-- A held part takes the level of CSN alone until it is let go, and a running part keeps its queues in order. -/
theorem exec_queuesWf_heldWf (c : Instr) {s t : State} (hq : s.queuesWf) (hh : s.heldWf) (he : exec c s = .next t) :
    t.queuesWf ∧ t.heldWf := by
  by_cases h1 : c = .hardReset
  · subst h1
    obtain rfl := Host.Outcome.next.inj he
    exact ⟨hardReset_queuesWf s, fun _ => rfl⟩
  cases hr : s.inReset with
  | false =>
    obtain ⟨hrun, hqueues⟩ := exec_steady c ⟨hr, hq⟩ h1 he
    exact ⟨hqueues, fun h => absurd (hrun.symm.trans h) Bool.noConfusion⟩
  | true =>
    by_cases h2 : c = .hardResetEnd
    · subst h2
      obtain rfl := Host.Outcome.next.inj he
      exact ⟨hq, fun h => Bool.noConfusion h⟩
    by_cases h3 : c = .frameStart
    · subst h3
      obtain rfl := Host.Outcome.next.inj he
      rw [State.frameStart, if_pos hr]
      exact held_csn hr hq hh true
    by_cases h4 : ∃ n, c = .frameEnd n
    · obtain ⟨n, rfl⟩ := h4
      obtain rfl := Host.Outcome.next.inj he
      rw [State.frameEnd, if_pos hr]
      exact held_csn hr hq hh false
    · rw [exec_held c hr h1 h2 h3 (not_exists.1 h4)] at he
      obtain rfl := Host.Outcome.next.inj he
      exact ⟨hq, hh⟩

/-- Settles O58: the command at the front of the queue keeps both invariants, and neither reads that queue but to keep
it. -/
theorem stepKeepsQueuesAndHeldValues : Obligations.StepKeepsQueuesAndHeldValues := by
  unfold Obligations.StepKeepsQueuesAndHeldValues
  intro s t hq hh he
  unfold step at he
  split at he
  · obtain rfl := Host.Outcome.next.inj he
    exact ⟨hq, hh⟩
  · next c rest _ =>
    refine exec_queuesWf_heldWf c (s := { s with pending := rest }) hq (fun hr => ?_) he
    have held := hh hr
    rw [held]

end Sys2Proof.Machine

/-! SUPPORT. O5: RESTART applied and completed as one change. -/

namespace Sys2Proof.Machine

/-- A RESTART that is oldest is applied, and leaves the buffer with nothing on its way (R173). -/
theorem restart_popped {s : State} {rest : List Posted} (ha : s.link.applied = false)
    (hb : s.link.buffer = .restart :: rest) :
    s.applyHead.popPosted =
      { s.restart with link := { s.link with buffer := rest, applied := false } } := by
  have head : s.applyHead = s.restart.markApplied := applyWhen_head ha hb rfl
  have hb' : s.restart.markApplied.link.buffer = .restart :: rest := hb
  rw [head, popPosted_cons hb']
  rfl

/-- The row RESTART: the oldest command, if it is one, is applied and completed at once (R173). -/
theorem exec_restart {s : State} {rest : List Posted} (hr : s.inReset = false) (ha : s.link.applied = false)
    (hb : s.link.buffer = .restart :: rest) :
    exec .restart s =
      .next ({ s.restart with link := { s.link with buffer := rest, applied := false } } : State).takeDue := by
  have row : exec .restart s = .next s.restartComplete := whenRunning_running hr
  have oldest : s.link.head = some .restart := by
    simp only [Link.head, ha, hb, Bool.false_eq_true, if_false, List.head?_cons]
  rw [row, State.restartComplete, oldest]
  dsimp only
  rw [postedComplete_cons hb, restart_popped ha hb]

/-- Settles O5: the change is `State.restart` with the command gone from the buffer, and then a snapshot that is due. -/
theorem restartKeepsTheSettings : Obligations.RestartKeepsTheSettings := by
  unfold Obligations.RestartKeepsTheSettings
  intro s rest hr ha hb restarted
  have row : exec .restart s = .next restarted.takeDue := exec_restart hr ha hb
  refine ⟨fun hnone => ?_, fun q hrest hp => ?_⟩
  · rw [row]
    rcases hnone with hrest | hp
    · rw [takeDue_waits (σ := restarted) hrest]
    · rw [takeDue_none (σ := restarted) hp]
  · have hquery : exec q.command restarted = .next restarted.takeDue := by
      rw [exec_query (s := restarted) hr, completeQuery_waiting (σ := restarted) hp]
    exact ⟨row.trans hquery.symm, _, hquery⟩

end Sys2Proof.Machine

/-! SUPPORT. O43: the start of a frame, and the command that its first byte names. -/

namespace Sys2Proof.Machine

theorem exec_commandByte {s : State} (hr : s.inReset = false) (b : Byte) :
    exec (.commandByte b) s = .next (s.commandByte b) := whenRunning_running hr

/-- A defined command byte fixes the command (R160). -/
theorem commandByte_defined {σ : State} (hp : σ.link.phase = .begun) {b : Byte} {c : CommandCode}
    (hc : CommandCode.ofByte b = some c) : σ.commandByte b = σ.setPhase c.phase := by
  rw [State.commandByte, if_pos hp, hc]

/-- Any other byte reports FRAME, and the rest of the frame is ignored (R160). -/
theorem commandByte_undefined {σ : State} (hp : σ.link.phase = .begun) {b : Byte} (hc : CommandCode.ofByte b = none) :
    σ.commandByte b = (σ.setPhase .ignoring).report .frame b := by
  rw [State.commandByte, if_pos hp, hc]

/-- The bytes below, between and above the two groups of commands name none (R160). -/
theorem ofByte_undefined :
    ∀ b : Byte, b.toNat < 0x10 ∨ 0x18 < b.toNat ∧ b.toNat < 0x20 ∨ 0x2A < b.toNat → CommandCode.ofByte b = none := by
  decide +kernel

/-- Settles O43: each defined byte by its row of the command table, and every other byte. -/
theorem frameStartAndCommandByte : Obligations.FrameStartAndCommandByte := by
  unfold Obligations.FrameStartAndCommandByte
  intro s
  have start : exec .frameStart s = .next s.frameStart := rfl
  have running (hr : s.inReset = false) : s.frameStart = s.startFrame := if_neg (by rw [hr]; decide)
  refine ⟨fun hr hp => ?_, fun hr hp => ?_, fun hr => ?_, fun b hr hp => ?_, fun hr hp => ⟨?_, ?_, fun b hb => ?_⟩⟩
  · rw [start, running hr, State.startFrame, if_pos hp]
    rfl
  · rw [start, running hr, State.startFrame, if_neg hp]
  · rw [start, State.frameStart, if_pos hr]
    rfl
  · rw [exec_commandByte hr, State.commandByte, if_neg hp]
  · intro x hx
    have named : CommandCode.ofByte (BitVec.ofNat 8 x.1) = some x.2.1 ∧ x.2.1.phase = .params x.2.1
        ∧ x.2.1.params = x.2.2.1 ∧ x.2.1.posted = x.2.2.2 := by
      revert x
      decide
    obtain ⟨hcode, hphase, hparams, hposted⟩ := named
    rw [exec_commandByte hr, commandByte_defined hp hcode, hphase]
    exact ⟨rfl, hparams, hposted⟩
  · intro x hx
    have named : CommandCode.ofByte (BitVec.ofNat 8 x.1) = some x.2.code ∧ x.2.code.phase = .waiting x.2
        ∧ x.2.code.params = 0 ∧ x.2.code.posted = false := by
      revert x
      decide
    obtain ⟨hcode, hphase, hparams, hposted⟩ := named
    rw [exec_commandByte hr, commandByte_defined hp hcode, hphase]
    exact ⟨rfl, hparams, hposted⟩
  · rw [exec_commandByte hr, commandByte_undefined hp (ofByte_undefined b hb)]
    rfl

end Sys2Proof.Machine

/-! SUPPORT. O44: which bytes spell a posted command, its arrival, and its completion. -/

namespace Sys2Proof.Machine

/-! ## The bytes of a posted command (R161, R172, R173) -/

/-- With a parameter byte missing, or of a command that is not posted, nothing is spelled. -/
theorem Posted.ofBytes_none {c : CommandCode} {params : List Byte} (h : params.length < c.params ∨ c.posted = false) :
    Posted.ofBytes c params = none := by
  unfold Posted.ofBytes
  split
  case h_12 => rfl
  all_goals
    rcases h with h | h
    · simp only [List.length_cons, CommandCode.params] at h
      omega
    · exact Bool.noConfusion h

/-- The first parameter of a posted command is its first parameter byte, and 0 where it has none (R162). -/
theorem Posted.firstParam_ofBytes {c : CommandCode} {params : List Byte} {p : Posted}
    (h : Posted.ofBytes c params = some p) : p.firstParam = if c.params = 0 then 0#8 else params.headD 0#8 := by
  unfold Posted.ofBytes at h
  split at h
  case h_12 => cases h
  all_goals
    obtain rfl := Option.some.inj h
    rfl

/-- A posted command spelled by no byte is one without parameters. -/
theorem Posted.ofBytes_code_nil {p : Posted} (hp : p = .allRelease ∨ p = .probeStop ∨ p = .restart) :
    Posted.ofBytes p.code [] = some p ∧ p.firstParam = 0#8 := by
  rcases hp with rfl | rfl | rfl <;> exact ⟨rfl, rfl⟩

/-! ## The arrival (R162) -/

section
variable {σ : State} {p : Posted}

/-- Where there is room a command joins the tail. -/
theorem arrive_joins (h : σ.link.buffer.length < 8) :
    σ.arrive p = σ.setLink { σ.link with buffer := σ.link.buffer ++ [p], phase := .ignoring } := if_pos h

/-- Where there is none it is refused BUFFER FULL. -/
theorem arrive_full (h : 8 ≤ σ.link.buffer.length) :
    σ.arrive p = (σ.setPhase .ignoring).refuse p.code p.firstParam .bufferFull := if_neg (Nat.not_lt.2 h)

end

theorem exec_arrival {s : State} (hr : s.inReset = false) (params : List Byte) :
    exec (.postedCommandArrival params) s = .next (s.postedArrival params) := whenRunning_running hr

/-- The bytes after a posted command's code that spell it bring its arrival (R161). -/
theorem postedArrival_some {σ : State} {c : CommandCode} {params : List Byte} {p : Posted}
    (hp : σ.link.phase = .params c) (hb : Posted.ofBytes c params = some p) : σ.postedArrival params = σ.arrive p := by
  simp only [State.postedArrival, hp, hb]

/-- Where they spell none, nothing has arrived. -/
theorem postedArrival_none {σ : State} {c : CommandCode} {params : List Byte} (hp : σ.link.phase = .params c)
    (hb : Posted.ofBytes c params = none) : σ.postedArrival params = σ := by
  simp only [State.postedArrival, hp, hb]

/-- The row of a completion. -/
theorem exec_complete {s : State} (hr : s.inReset = false) :
    exec .postedApplicationComplete s = .next s.postedComplete := whenRunning_running hr

/-- Settles O44: the arrival by the room in the buffer, and the completion by whether the oldest command's effects are in
place. -/
theorem postedBufferIsFirstInFirstOut : Obligations.PostedBufferIsFirstInFirstOut := by
  unfold Obligations.PostedBufferIsFirstInFirstOut
  refine ⟨⟨fun s c params hr hp => ⟨fun p hb => ⟨fun room => ?_, fun full => ?_⟩, fun hmissing => ?_⟩,
    fun h b => ⟨rfl, rfl, rfl, rfl, rfl, rfl, rfl⟩, fun n hi lo => ?_, rfl, rfl, rfl⟩, fun s hr => ⟨fun hb => ?_, ?_⟩⟩
  · rw [exec_arrival hr, postedArrival_some hp hb, arrive_joins room]
    rfl
  · rw [exec_arrival hr, postedArrival_some hp hb, arrive_full full, ← Posted.firstParam_ofBytes hb]
    rfl
  · rw [exec_arrival hr, postedArrival_none hp (Posted.ofBytes_none hmissing)]
  · exact congrArg (fun w => some (Posted.set n w)) (wordOfBytes_eq (hi, lo))
  · rw [exec_complete hr, postedComplete_empty hb]
  · intro p rest hb popped
    refine ⟨fun ha hne => ?_, fun ha he => ?_, fun ha hnone => ?_, fun q ha hrest hp => ?_⟩
    · obtain ⟨hl, hin⟩ := applyPosted_link s p
      let t := (s.applyPosted p).markApplied
      have hbuf : t.link.buffer = p :: rest := (congrArg Link.buffer hl).trans hb
      refine ⟨t, exec_command hr ha hb hne, rfl, hbuf, ?_⟩
      have head : s.applyHead = t := applyWhen_head ha hb rfl
      have again : t.applyHead = t := applyWhen_applied rfl _
      rw [exec_complete hr, exec_complete (s := t) (hin.trans hr), postedComplete_cons hb, postedComplete_cons hbuf,
        head, again]
    · subst he
      rw [exec_complete hr, exec_restart hr ha hb, postedComplete_cons hb, restart_popped ha hb]
    all_goals
      have head : s.applyHead = s := applyWhen_applied ha _
      have row : exec .postedApplicationComplete s = .next popped.takeDue := by
        rw [exec_complete hr, postedComplete_cons hb, head, popPosted_cons hb]
      rw [row]
    · rcases hnone with hrest | hp
      · rw [takeDue_waits (σ := popped) hrest]
      · rw [takeDue_none (σ := popped) hp]
    · rw [exec_query (s := popped) hr, completeQuery_waiting (σ := popped) hp]

end Sys2Proof.Machine

/-! SUPPORT. O45: a snapshot that waits, one abandoned or taken at the turnaround, and what MISO carries. -/

namespace Sys2Proof.Machine

theorem exec_turnaroundBusy {s : State} (hr : s.inReset = false) : exec .turnaroundBusy s = .next s.turnaround :=
  whenRunning_running hr

/-- A snapshot that the turnaround finds waiting is abandoned (R165). -/
theorem turnaround_waiting {σ : State} {q : Query} (hp : σ.takeDue.link.phase = .waiting q) :
    σ.turnaround = σ.takeDue.respond (q.answer .busy) := by
  simp only [State.turnaround, hp]

/-- Where none waits any more, the turnaround leaves what was due. -/
theorem turnaround_none {σ : State} (hp : ∀ q, σ.takeDue.link.phase ≠ .waiting q) : σ.turnaround = σ.takeDue := by
  unfold State.turnaround
  dsimp only
  split
  · next q hq => exact absurd hq (hp q)
  all_goals rfl

/-- After a snapshot no snapshot waits. -/
theorem snapshot_phase (σ : State) (q : Query) : ∃ r, (σ.snapshot q).link.phase = .responding r := by
  obtain ⟨r, hl, -⟩ := snapshot_link σ q
  exact ⟨r, congrArg Link.phase hl⟩

/-- In a frame the part drives a byte on MISO (R158). -/
theorem miso_driven {σ : State} (hr : σ.inReset = false) (hi : σ.link.phase ≠ .idle) (hh : σ.link.phase ≠ .awaitHigh)
    (k : Nat) : σ.miso k = some (σ.link.misoByte k) := by
  refine if_neg ?_
  rw [hr]
  simp [hi, hh]

/-- The byte of a frame with no response fixed: 0x00 after the status byte (R160, R161). -/
theorem misoByte_unfilled {l : Link} (h : ∀ r, l.phase ≠ .responding r) {k : Nat} (hk : 1 ≤ k) :
    l.misoByte k = 0#8 := by
  rw [Link.misoByte, if_neg (Nat.one_le_iff_ne_zero.1 hk)]
  split
  · next r hr => exact absurd hr (h r)
  all_goals rfl

section
variable {l : Link} {r : Response} (hp : l.phase = .responding r)
include hp

/-- Before the result code a response reads 0x00 (R166). -/
theorem misoByte_before {k : Nat} (h1 : 1 ≤ k) (h2 : k ≤ r.params + 1) : l.misoByte k = 0#8 := by
  rw [Link.misoByte, if_neg (Nat.one_le_iff_ne_zero.1 h1), hp]
  exact if_pos (Nat.lt_succ_of_le h2)

/-- The result code follows the turnaround byte (R166). -/
theorem misoByte_result : l.misoByte (r.params + 2) = r.result.byte := by
  rw [Link.misoByte, if_neg (Nat.succ_ne_zero _), hp]
  exact (if_neg (lt_irrefl _)).trans (if_pos rfl)

/-- The data follow the result code, and 0x00 follows them (R166). -/
theorem misoByte_data (k : Nat) : l.misoByte (r.params + 3 + k) = r.data.getD k 0#8 := by
  have h0 : r.params + 3 + k ≠ 0 := by omega
  have h1 : ¬ r.params + 3 + k < r.params + 2 := by omega
  have h2 : r.params + 3 + k ≠ r.params + 2 := by omega
  rw [Link.misoByte, if_neg h0, hp]
  dsimp only
  rw [if_neg h1, if_neg h2, Nat.add_sub_cancel_left]

end

/-- Settles O45: the row of a query and the turnaround by the phase and the buffer, and MISO byte by byte. -/
theorem snapshotWaitsOrIsAbandoned : Obligations.SnapshotWaitsOrIsAbandoned := by
  unfold Obligations.SnapshotWaitsOrIsAbandoned
  refine ⟨fun s q hr hp hb => ?_, fun s q hr hp hw => ?_,
    fun s hr => ⟨fun q hp hb => ?_, fun q hp hb => ?_, fun hp => ?_⟩, fun s r hr hp => ?_, fun s hr hp => ?_, fun s k h => if_pos h⟩
  · rw [exec_query hr, completeQuery_waits hp hb]
    rfl
  · rw [exec_query hr, completeQuery_none hp hw]
  · have due : s.takeDue = s := takeDue_waits hb
    rw [exec_turnaroundBusy hr, turnaround_waiting (by rw [due]; exact hp), due]
    rfl
  · have due : s.takeDue = s.snapshot q := takeDue_due hp hb
    obtain ⟨r, hphase⟩ := snapshot_phase s q
    rw [exec_turnaroundBusy hr, turnaround_none (fun q' => by rw [due, hphase]; exact Phase.noConfusion), due,
      exec_query_snapshot hr (.inr hp) hb]
  · have due : s.takeDue = s := takeDue_none hp
    rw [exec_turnaroundBusy hr, turnaround_none (by rw [due]; exact hp), due]
  · have driven := miso_driven hr (by rw [hp]; exact Phase.noConfusion) (by rw [hp]; exact Phase.noConfusion)
    refine ⟨driven 0, fun k h1 h2 => ?_, ?_, fun k => ?_⟩
    · rw [driven, misoByte_before hp h1 h2]
    · rw [driven, misoByte_result hp]
    · rw [driven, misoByte_data hp]
  · have unfilled : s.link.phase ≠ .idle ∧ s.link.phase ≠ .awaitHigh ∧ ∀ r, s.link.phase ≠ .responding r := by
      rcases hp with h | ⟨c, h⟩ | ⟨q, h⟩ | h <;>
        exact ⟨h ▸ Phase.noConfusion, h ▸ Phase.noConfusion, fun r => h ▸ Phase.noConfusion⟩
    obtain ⟨hi, hh, hn⟩ := unfilled
    have driven := miso_driven hr hi hh
    refine ⟨driven 0, fun k hk => ?_⟩
    rw [driven, misoByte_unfilled hn hk]

end Sys2Proof.Machine

/-! SUPPORT. O46: what the end of a frame settles, by the phase that it finds. -/

namespace Sys2Proof.Machine

/-! ## Images cut short (R121) -/

/-- An image cut short: its record is flagged if it still holds the handle as the same record. -/
theorem NoteTable.reflag_eq (t : NoteTable) (i : Included) :
    t.reflag i =
      { t with
        records := t.records.map fun q =>
          { q with changed := q.changed || decide (i.handle = q.image.handle ∧ i.serial = q.serial) } } := by
  refine congrArg (fun rs => ({ t with records := rs } : NoteTable)) (List.map_congr_left fun q _ => ?_)
  split
  · next h => rw [decide_eq_true ⟨h.1.symm, h.2.symm⟩, Bool.or_true]
  · next h => rw [decide_eq_false fun e => h ⟨e.1.symm, e.2.symm⟩, Bool.or_false]

/-- The images cut short: the records flagged are those that one of them names. -/
theorem NoteTable.reflagAll_eq (t : NoteTable) (is : List Included) :
    is.foldl NoteTable.reflag t =
      { t with
        records := t.records.map fun q =>
          { q with
            changed := q.changed
              || is.any fun i => decide (i.handle = q.image.handle ∧ i.serial = q.serial) } } := by
  induction is generalizing t with
  | nil => simp only [List.foldl_nil, List.any_nil, Bool.or_false, List.map_id']
  | cons i is ih => simp only [List.foldl_cons, ih, NoteTable.reflag_eq, List.map_map, Function.comp_def, List.any_cons,
      Bool.or_assoc]

/-! ## What the end of a frame reports (R161, R165, R166) -/

section
variable {σ : State}

/-- The end of a frame acts on what a snapshot that was due leaves. -/
theorem endPhase_congr {τ : State} (h : σ.takeDue = τ.takeDue) (n : Nat) : σ.endPhase n = τ.endPhase n := by
  rw [State.endPhase, State.endPhase, h]

/-- A fixed response: the images that the frame's length cut short are flagged again. -/
theorem endPhase_responding {r : Response} (hp : σ.link.phase = .responding r) (n : Nat) :
    σ.endPhase n = σ.endResponse r n := by
  have due : σ.takeDue = σ := takeDue_none fun q => hp ▸ Phase.noConfusion
  simp only [State.endPhase, due, hp]

/-- A command that is not complete, or one without parameters that has not arrived. -/
theorem endPhase_params {c : CommandCode} (hp : σ.link.phase = .params c) (n : Nat) :
    σ.endPhase n = σ.endIncomplete c := by
  have due : σ.takeDue = σ := takeDue_none fun q => hp ▸ Phase.noConfusion
  simp only [State.endPhase, due, hp]

/-- In every other phase the end of the frame reports nothing. -/
theorem endPhase_silent (due : σ.takeDue = σ) (hc : ∀ c, σ.link.phase ≠ .params c)
    (hr : ∀ r, σ.link.phase ≠ .responding r) (n : Nat) : σ.endPhase n = σ := by
  unfold State.endPhase
  rw [due]
  dsimp only
  split
  · next r h => exact absurd h (hr r)
  · next c h => exact absurd h (hc c)
  all_goals rfl

/-- A command that its bytes do not complete is a short frame (R161). -/
theorem endIncomplete_short {c : CommandCode} (h : c.params ≠ 0 ∨ c.posted = false) :
    σ.endIncomplete c = σ.report .frame c.byte := by
  rw [State.endIncomplete, Posted.ofBytes_none (h.imp_left Nat.pos_of_ne_zero)]

/-- A posted command without parameters arrives (R161). -/
theorem endIncomplete_arrives {p : Posted} (hp : p = .allRelease ∨ p = .probeStop ∨ p = .restart) :
    σ.endIncomplete p.code = σ.arrive p := by
  rw [State.endIncomplete, (Posted.ofBytes_code_nil hp).1]

end

/-- The row of a frame's end, outside hard reset. -/
theorem exec_frameEnd {s : State} (hr : s.inReset = false) (n : Nat) :
    exec (.frameEnd n) s = .next (s.endPhase n).raiseCsn := by
  have row : exec (.frameEnd n) s = .next (s.frameEnd n) := rfl
  rw [row, State.frameEnd, if_neg (by rw [hr]; decide)]

/-- Settles O46: the end of a frame in each phase, and then CSN high. -/
theorem frameEndSettlesTheFrame : Obligations.FrameEndSettlesTheFrame := by
  unfold Obligations.FrameEndSettlesTheFrame
  intro s n ended
  refine ⟨fun hr => congrArg _ (if_pos hr),
    fun hr => ⟨fun c hp hc => ?_, fun p hp hnil => ⟨fun room => ?_, fun full => ?_⟩, fun q hp hb => ?_, fun q t hp hb ht => ?_, fun hp => ?_, fun r hp => ?_⟩⟩
  · rw [exec_frameEnd hr, endPhase_params hp, endIncomplete_short hc]
    rfl
  · rw [exec_frameEnd hr, endPhase_params hp, endIncomplete_arrives hnil, arrive_joins room]
    rfl
  · rw [exec_frameEnd hr, endPhase_params hp, endIncomplete_arrives hnil, arrive_full full,
      (Posted.ofBytes_code_nil hnil).2]
    rfl
  · rw [exec_frameEnd hr, endPhase_silent (takeDue_waits hb) (fun _ => hp ▸ Phase.noConfusion)
      (fun _ => hp ▸ Phase.noConfusion)]
    rfl
  · rw [exec_query_snapshot hr (.inr hp) hb] at ht
    obtain rfl := Host.Outcome.next.inj ht
    obtain ⟨r, hphase⟩ := snapshot_phase s q
    have taken : (s.snapshot q).takeDue = s.snapshot q := takeDue_none fun q' => hphase ▸ Phase.noConfusion
    have due : s.takeDue = (s.snapshot q).takeDue := (takeDue_due hp hb).trans taken.symm
    rw [exec_frameEnd hr, exec_frameEnd ((snapshot_frame s q).inReset_eq.trans hr), endPhase_congr due]
  · have silent : (∀ q, s.link.phase ≠ .waiting q) ∧ (∀ c, s.link.phase ≠ .params c)
        ∧ ∀ r, s.link.phase ≠ .responding r := by
      rcases hp with h | h | h | h <;>
        exact ⟨fun _ => h ▸ Phase.noConfusion, fun _ => h ▸ Phase.noConfusion, fun _ => h ▸ Phase.noConfusion⟩
    obtain ⟨hw, hc, hn⟩ := silent
    rw [exec_frameEnd hr, endPhase_silent (takeDue_none hw) hc hn]
    rfl
  · rw [exec_frameEnd hr, endPhase_responding hp, State.endResponse, NoteTable.reflagAll_eq]
    rfl

end Sys2Proof.Machine

/-! SUPPORT. What stands in the bytes of a response: words, flags and masks (R175, R178). -/

namespace Sys2Proof.Machine

/-- A signed quantity in two bytes, the more significant first (R175). -/
theorem signedWord_eq (v : Int) : signedWord v = [BitVec.ofInt 8 (v / 256), BitVec.ofInt 8 v] := by
  have high : (BitVec.ofInt 16 v).extractLsb' 8 8 = BitVec.ofInt 8 (v / 256) := by
    apply BitVec.eq_of_toNat_eq
    simp only [BitVec.extractLsb'_toNat, BitVec.toNat_ofInt, Nat.shiftRight_eq_div_pow]
    omega
  have low : (BitVec.ofInt 16 v).extractLsb' 0 8 = BitVec.ofInt 8 v := by
    apply BitVec.eq_of_toNat_eq
    simp only [BitVec.extractLsb'_toNat, BitVec.toNat_ofInt, Nat.shiftRight_zero]
    omega
  rw [signedWord, twoBytes, bytesOfWord, high, low]

end Sys2Proof.Machine

/-! SUPPORT. O47: the records that a read finds, their delivery, and the eighteen bytes of an image. -/

namespace Sys2Proof.Machine

/-! ## Look-ups (R167) -/

/-- The one live record of a string is the one that GET STRING finds. -/
theorem NoteTable.liveOf_of_mem {t : NoteTable} (hn : t.handles.Nodup) {r : Record} (hr : r ∈ t.records)
    (hl : r.image.state ≠ .released)
    (only : ∀ q ∈ t.records, q.image.string = r.image.string → q.image.state ≠ .released → q = r) :
    t.liveOf r.image.string = some r := by
  refine list_find_key hn hr (by simp [Record.live, hl]) fun q hq hp => ?_
  simp only [Record.live, Bool.and_eq_true, decide_eq_true_eq] at hp
  rw [only q hq hp.1 hp.2]

/-- A string without a live record. -/
theorem NoteTable.liveOf_none {t : NoteTable} {k : Str}
    (h : ∀ r ∈ t.records, r.image.string = k → r.image.state = .released) : t.liveOf k = none := by
  refine List.find?_eq_none.2 fun r hr hp => ?_
  simp only [Record.live, Bool.and_eq_true, decide_eq_true_eq] at hp
  exact hp.2 (h r hr hp.1)

/-! ## Deliveries (R121, R168) -/

/-- Records delivered in order lose their changed flags, and move to the recency tail in that order. -/
theorem NoteTable.deliverAll_eq (t : NoteTable) {rs : List Record} (hn : (rs.map fun r => r.image.handle).Nodup) :
    t.deliverAll rs =
      { t with
        records := t.records.map fun q =>
          if q.image.handle ∈ rs.map fun r => r.image.handle then { q with changed := false } else q
        recency := t.recency.filter (fun h => decide (h ∉ rs.map fun r => r.image.handle))
          ++ rs.map fun r => r.image.handle } := by
  induction rs generalizing t with
  | nil => simp [NoteTable.deliverAll]
  | cons r rs ih =>
    obtain ⟨hr, hn'⟩ := List.nodup_cons.1 hn
    refine (ih (t.deliver r.image.handle) hn').trans
      (congrArg₂ (fun l m => ({ t with records := l, recency := m } : NoteTable)) ?_ ?_)
    · refine (List.map_map ..).trans (List.map_congr_left fun q _ => ?_)
      by_cases hq : q.image.handle = r.image.handle
      · simp [hq]
      · simp only [Function.comp_apply, hq, if_false, List.map_cons, List.mem_cons, false_or]
    · have last : [r.image.handle].filter (fun h => decide (h ∉ rs.map fun r => r.image.handle)) = [r.image.handle] :=
        List.filter_eq_self.2 fun h hh => decide_eq_true (List.mem_singleton.1 hh ▸ hr)
      simp only [NoteTable.deliver, NoteTable.touch, NoteTable.modify, List.filter_append, List.filter_filter, last,
        List.append_assoc, List.singleton_append, List.map_cons, List.mem_cons, not_or, Bool.decide_and]
      congr 2
      funext h
      exact Bool.and_comm _ _

/-- GET CHANGED delivers every changed record, and so leaves none changed (R168). -/
theorem NoteTable.deliverChanged_eq {t : NoteTable} (hn : t.handles.Nodup) :
    t.deliverAll t.changedRecords =
      { t with
        records := t.records.map fun q => { q with changed := false }
        recency := t.recency.filter (fun h => decide (h ∉ t.changedRecords.map fun r => r.image.handle))
          ++ t.changedRecords.map fun r => r.image.handle } := by
  have distinct : (t.changedRecords.map fun r => r.image.handle).Nodup :=
    hn.sublist (List.filter_sublist.map _)
  rw [NoteTable.deliverAll_eq t distinct]
  refine congrArg (fun rs => ({ t with records := rs, recency := _ } : NoteTable)) (List.map_congr_left fun q hq => ?_)
  split
  · rfl
  · next hno =>
    have unchanged : q.changed = false := by
      by_contra hc
      exact hno (List.mem_map_of_mem (List.mem_filter.2 ⟨hq, Bool.eq_true_of_not_eq_false hc⟩))
    exact congrArg (fun b => ({ q with changed := b } : Record)) unchanged

/-! ## The image of a record (R176) -/

theorem image_bytes_eq (i : Image) :
    i.bytes =
      [byteOf i.handle, stateAndString i.state i.string, byteOf i.note] ++ signedWord i.bend
        ++ [byteOf i.velocity, byteOf i.level, i.tag.getD 0#8,
          BitVec.ofNat 8 (128 * i.tag.isSome.toNat + 64 * i.hold.toNat + 32 * i.stale.toNat
            + 16 * i.corrected.toNat + 8 * i.saturated.toNat + 4 * (decide (i.profile = .B)).toNat),
          (i.zone.map fun z => BitVec.ofNat 8 z.val).getD 0xFF#8,
          handleByte i.predecessor, handleByte i.successor,
          (i.reason.map ReleaseReason.byte).getD 0#8, signedByte i.transpose, byteOf i.bendRange, 0#8]
        ++ signedWord i.age := by
  rw [Image.bytes]
  cases i.zone <;> cases i.reason <;> rfl

/-! ## The rows of the three reads -/

/-- The row GET_NOTE. -/
theorem exec_getNote {s : State} {h : Byte} (hr : s.inReset = false)
    (hp : s.link.phase = .params .getNote ∨ s.link.phase = .waiting (.getNote h)) (hb : s.link.buffer = []) :
    exec (.getNote h) s = .next (s.snapGetNote h) :=
  exec_query_snapshot (q := .getNote h) hr hp hb

theorem snapGetNote_found {σ : State} {h : Byte} {r : Record} (hf : σ.table.find h.toNat = some r) :
    σ.snapGetNote h = σ.respondImage (.getNote h) r := by
  simp only [State.snapGetNote, hf]

theorem snapGetNote_missing {σ : State} {h : Byte} (hf : σ.table.find h.toNat = none) :
    σ.snapGetNote h = σ.respond ((Query.getNote h).answer .notFound) := by
  simp only [State.snapGetNote, hf]

/-- The row GET_STRING. -/
theorem exec_getString {s : State} {b : Byte} (hr : s.inReset = false)
    (hp : s.link.phase = .params .getString ∨ s.link.phase = .waiting (.getString b)) (hb : s.link.buffer = []) :
    exec (.getString b) s = .next (s.snapGetString b) :=
  exec_query_snapshot (q := .getString b) hr hp hb

theorem snapGetString_badValue {σ : State} {b : Byte} (hs : stringOfNumber b.toNat = none) :
    σ.snapGetString b = σ.respond ((Query.getString b).answer .badValue) := by
  simp only [State.snapGetString, hs]

theorem snapGetString_found {σ : State} {b : Byte} {k : Str} {r : Record} (hs : stringOfNumber b.toNat = some k)
    (hf : σ.table.liveOf k = some r) : σ.snapGetString b = σ.respondImage (.getString b) r := by
  simp only [State.snapGetString, hs, hf]

theorem snapGetString_missing {σ : State} {b : Byte} {k : Str} (hs : stringOfNumber b.toNat = some k)
    (hf : σ.table.liveOf k = none) : σ.snapGetString b = σ.respond ((Query.getString b).answer .notFound) := by
  simp only [State.snapGetString, hs, hf]

/-- The row GET_CHANGED, once its snapshot is due. -/
theorem exec_getChanged {s : State} (hr : s.inReset = false) (hp : s.link.phase = .waiting .getChanged)
    (hb : s.link.buffer = []) : exec .getChanged s = .next s.snapGetChanged :=
  exec_query_snapshot (q := .getChanged) hr (.inr hp) hb

/-- Settles O47: each read by what its look-up finds, and the image byte by byte. -/
theorem recordReadsDeliverImages : Obligations.RecordReadsDeliverImages := by
  unfold Obligations.RecordReadsDeliverImages
  intro s hr hb hw responds alone delivered one
  have hn : s.table.handles.Nodup := hw.2.1
  refine ⟨fun h hp => ⟨fun r hmem hh => ?_, fun hmissing => ?_⟩,
    fun b hp => ⟨fun hout => ?_, fun r hmem hk hl only => ?_, fun h1 h8 hmissing => ?_⟩, fun hp => ?_, fun i => ?_⟩
  · have hf : s.table.find h.toNat = some r := hh ▸ NoteTable.find_of_mem hn hmem
    rw [exec_getNote hr hp hb, snapGetNote_found hf, ← hh]
    rfl
  · rw [exec_getNote hr hp hb, snapGetNote_missing (NoteTable.find_none hmissing)]
    rfl
  · rw [exec_getString hr hp hb, snapGetString_badValue (stringOfNumber_eq_none.2 hout)]
    rfl
  · have hf : s.table.liveOf r.image.string = some r := NoteTable.liveOf_of_mem hn hmem hl only
    rw [exec_getString hr hp hb, snapGetString_found (stringOfNumber_eq_some.2 hk) hf]
    rfl
  · obtain ⟨k, hk⟩ : ∃ k : Str, b.toNat = k.val + 1 := ⟨⟨b.toNat - 1, by omega⟩, (Nat.sub_add_cancel h1).symm⟩
    have hf : s.table.liveOf k = none := NoteTable.liveOf_none fun r hmem hrk => hmissing r hmem (hrk ▸ hk)
    rw [exec_getString hr hp hb, snapGetString_missing (stringOfNumber_eq_some.2 hk) hf]
    rfl
  · intro rs
    rw [exec_getChanged hr hp hb, State.snapGetChanged, NoteTable.deliverChanged_eq hn]
    rfl
  · intro word
    rw [image_bytes_eq, signedWord_eq, signedWord_eq]
    rfl

end Sys2Proof.Machine

/-! SUPPORT. O48: the reads that change nothing but the response, and what their bytes say. -/

namespace Sys2Proof.Machine

/-! ## Bytes of single quantities (R178) -/

theorem byteOf_toNat (b : Bool) : byteOf b.toNat = if b then 1#8 else 0#8 := by cases b <;> rfl

theorem Probe.stringByte_eq (p : Probe) :
    p.stringByte = (p.string.map fun k => BitVec.ofNat 8 (k.val + 1)).getD 0#8 := by
  unfold Probe.stringByte
  cases p.string <;> rfl

theorem NoticeUnit.refusalBytes_eq (u : NoticeUnit) :
    u.refusalBytes = (u.lastRefusal.map fun r => [r.code, r.param, r.reason.byte]).getD [0#8, 0#8, 0#8] := by
  unfold NoticeUnit.refusalBytes
  cases u.lastRefusal <;> rfl

theorem slotBytes_eq (r : Option SlotResult) :
    slotBytes r = (r.map fun r => [BitVec.ofInt 8 (r.mean16 / 256), BitVec.ofInt 8 r.mean16]
      ++ [BitVec.ofInt 8 r.least, BitVec.ofInt 8 r.greatest]
      ++ [BitVec.ofInt 8 ((r.count : Int) / 256), BitVec.ofInt 8 r.count]).getD [0#8, 0#8, 0#8, 0#8, 0#8, 0#8] := by
  cases r with
  | none => rfl
  | some r =>
    simp only [slotBytes, signedWord_eq]
    rfl

/-! ## The valid mask (R178) -/

/-- A sum of distinct powers of two below 256 is below 256. -/
theorem mask_lt (f : Nat → Bool) : ((List.range 8).map fun j => if f j then 2 ^ j else 0).sum < 256 := by
  have each (j : Nat) : (if f j then 2 ^ j else 0) ≤ 2 ^ j := by split <;> simp
  calc ((List.range 8).map fun j => if f j then 2 ^ j else 0).sum
      ≤ ((List.range 8).map fun j => 2 ^ j).sum := List.sum_le_sum fun j _ => each j
    _ < 256 := by decide

/-- The bits of slots 0 to 7 stand in the second byte, and that of slot 8 in the first. -/
theorem twoBytes_validMask (p : Probe) :
    twoBytes p.validMask =
      [if (p.slots[8]).isSome then 1#8 else 0#8,
        BitVec.ofNat 8 (((List.range 8).map fun j => if (p.slots[j]?.join).isSome then 2 ^ j else 0).sum)] := by
  have small := mask_lt fun j => (p.slots[j]?.join).isSome
  have last : p.slots[8]?.join = p.slots[8] := rfl
  have split9 : List.range 9 = List.range 8 ++ [8] := rfl
  unfold twoBytes bytesOfWord Probe.validMask
  rw [split9, List.map_append, List.sum_append, List.map_singleton, List.sum_singleton, last]
  generalize ((List.range 8).map fun j => if (p.slots[j]?.join).isSome then 2 ^ j else 0).sum = n at small
  refine congrArg₂ (fun a b => [a, b]) (BitVec.eq_of_toNat_eq ?_) (BitVec.eq_of_toNat_eq ?_)
  all_goals
    simp only [BitVec.extractLsb'_toNat, BitVec.toNat_ofNat, Nat.shiftRight_eq_div_pow]
    cases (p.slots[8]).isSome <;> simp only [if_true, Bool.false_eq_true, if_false, BitVec.toNat_ofNat] <;> omega

/-! ## The four responses -/

theorem statusResponse_eq (σ : State) :
    σ.statusResponse =
      [BitVec.ofNat 8 (σ.notices.overload.toNat + 2 * σ.notices.overrun.toNat + 4 * σ.notices.noticeLoss.toNat
            + 8 * σ.notices.refused.toNat + 16 * σ.notices.frame.toNat),
          BitVec.ofNat 8
            ((List.finRange 8).map fun k : Str => if (σ.frontEnds[k]).overloadMark then 2 ^ k.val else 0).sum,
          BitVec.ofNat 8
            ((List.finRange 8).map fun k : Str => if (σ.frontEnds[k]).overrunMark then 2 ^ k.val else 0).sum]
        ++ (σ.notices.lastRefusal.map fun r => [r.code, r.param, r.reason.byte]).getD [0#8, 0#8, 0#8]
        ++ [BitVec.ofNat 8 σ.notices.queue.length, BitVec.ofNat 8 σ.table.records.length,
          BitVec.ofNat 8 (σ.table.records.filter fun r => decide (r.image.state ≠ .released)).length,
          if σ.probe.running then 1#8 else 0#8,
          (σ.probe.string.map fun k => BitVec.ofNat 8 (k.val + 1)).getD 0#8,
          BitVec.ofNat 8 σ.probe.pointer, if σ.settings.selected = .B then 1#8 else 0#8] := by
  rw [State.statusResponse, flagByte_eq, State.overloadMask, State.overrunMask, stringMask_eq, stringMask_eq,
    NoticeUnit.refusalBytes_eq, byteOf_toNat, Probe.stringByte_eq, Profile.byte_eq]
  rfl

theorem probeResponse_eq (p : Probe) :
    p.response =
      [if p.running then 1#8 else 0#8, (p.string.map fun k => BitVec.ofNat 8 (k.val + 1)).getD 0#8,
          BitVec.ofNat 8 p.start, BitVec.ofNat 8 p.pointer, if (p.slots[8]).isSome then 1#8 else 0#8,
          BitVec.ofNat 8 (((List.range 8).map fun j => if (p.slots[j]?.join).isSome then 2 ^ j else 0).sum)]
        ++ p.slots.toList.flatMap slotBytes := by
  rw [Probe.response, byteOf_toNat, Probe.stringByte_eq, twoBytes_validMask]
  rfl

theorem snapGetSetting_defined {σ : State} {n : Byte} {i : SettingId} (h : SettingId.ofNumber n = some i) :
    σ.snapGetSetting n =
      σ.respond { (Query.getSetting n).answer .ok with data := signedWord (σ.settings.read i) } := by
  simp only [State.snapGetSetting, h]

theorem snapGetSetting_undefined {σ : State} {n : Byte} (h : SettingId.ofNumber n = none) :
    σ.snapGetSetting n = σ.respond ((Query.getSetting n).answer .notFound) := by
  simp only [State.snapGetSetting, h]

theorem exec_listNotes {s : State} (hr : s.inReset = false) (hp : s.link.phase = .waiting .listNotes)
    (hb : s.link.buffer = []) : exec .listNotes s = .next s.snapListNotes :=
  exec_query_snapshot (q := .listNotes) hr (.inr hp) hb

theorem exec_getStatus {s : State} (hr : s.inReset = false) (hp : s.link.phase = .waiting .getStatus)
    (hb : s.link.buffer = []) : exec .getStatus s = .next s.snapGetStatus :=
  exec_query_snapshot (q := .getStatus) hr (.inr hp) hb

theorem exec_getSetting {s : State} {n : Byte} (hr : s.inReset = false)
    (hp : s.link.phase = .params .getSetting ∨ s.link.phase = .waiting (.getSetting n)) (hb : s.link.buffer = []) :
    exec (.getSetting n) s = .next (s.snapGetSetting n) :=
  exec_query_snapshot (q := .getSetting n) hr hp hb

theorem exec_probeResults {s : State} (hr : s.inReset = false) (hp : s.link.phase = .waiting .probeResults)
    (hb : s.link.buffer = []) : exec .probeResults s = .next s.snapProbeResults :=
  exec_query_snapshot (q := .probeResults) hr (.inr hp) hb

/-- Settles O48: the row of each read takes its snapshot, whose bytes say the state as it stands. -/
theorem plainReadsChangeNothing : Obligations.PlainReadsChangeNothing := by
  unfold Obligations.PlainReadsChangeNothing
  intro s hr hb answers word mask u
  refine ⟨fun hp => ?_, fun hp => ?_, fun number hp => ⟨fun i hi => ?_, fun hnone => ?_⟩, fun hp => ?_⟩
  · have count : s.table.handles.length = s.table.records.length := List.length_map _
    have listed : s.table.handles.map byteOf = s.table.records.map fun r => BitVec.ofNat 8 r.image.handle := List.map_map
    rw [exec_listNotes hr hp hb, State.snapListNotes, count, listed]
    rfl
  · rw [exec_getStatus hr hp hb, State.snapGetStatus, statusResponse_eq]
    cases s.notices.lastRefusal <;> cases s.probe.string <;> rfl
  · rw [exec_getSetting hr hp hb, snapGetSetting_defined hi, signedWord_eq]
    rfl
  · rw [exec_getSetting hr hp hb, snapGetSetting_undefined hnone]
    rfl
  · rw [exec_probeResults hr hp hb, State.snapProbeResults, probeResponse_eq]
    refine congrArg (fun data => Host.Outcome.next (answers 0 .ok data)) (congrArg₂ (· ++ ·) ?_
      (congrArg (List.flatMap · s.probe.slots.toList) (funext fun slot => ?_)))
    · cases s.probe.string <;> rfl
    · rw [slotBytes_eq]
      cases slot <;> rfl

end Sys2Proof.Machine

/-! SUPPORT. O49: the notices that a response includes, their delivery, and the bytes of each. -/

namespace Sys2Proof.Machine

theorem noticeMaximum_eq (max : Byte) : noticeMaximum max = if max.toNat = 0 then 1 else min 32 max.toNat := by
  rw [noticeMaximum, clampNat_eq (by decide)]
  split <;> omega

theorem exec_takeNotices {s : State} {max : Byte} (hr : s.inReset = false)
    (hp : s.link.phase = .params .takeNotices ∨ s.link.phase = .waiting (.takeNotices max)) (hb : s.link.buffer = []) :
    exec (.takeNotices max) s = .next (s.snapTakeNotices max) :=
  exec_query_snapshot (q := .takeNotices max) hr hp hb

theorem exec_noticeEntryDelivered {s : State} (hr : s.inReset = false) :
    exec .noticeEntryDelivered s = .next s.noticeDelivered := whenRunning_running hr

section
variable {σ : State}

/-- While included entries remain, the oldest notice leaves the queue (R170). -/
theorem noticeDelivered_included {r : Response} (hp : σ.link.phase = .responding r) (he : 0 < r.entries) :
    σ.noticeDelivered =
      (σ.setNotices { σ.notices with queue := σ.notices.queue.drop 1 }).respond
        { r with entries := r.entries - 1 } := by
  simp only [State.noticeDelivered, hp, he, if_true]

/-- With none included any more, nothing is delivered. -/
theorem noticeDelivered_exhausted {r : Response} (hp : σ.link.phase = .responding r) (he : r.entries = 0) :
    σ.noticeDelivered = σ := by
  simp only [State.noticeDelivered, hp, he, lt_irrefl, if_false]

/-- With no response fixed, nothing is delivered. -/
theorem noticeDelivered_none (hp : ∀ r, σ.link.phase ≠ .responding r) : σ.noticeDelivered = σ := by
  unfold State.noticeDelivered
  split
  · next r h => exact absurd h (hp r)
  all_goals rfl

end

/-- Settles O49: the snapshot includes notices, a delivery takes the oldest away, and each kind's bytes and codes. -/
theorem noticesLeaveAsTheyAreDelivered : Obligations.NoticesLeaveAsTheyAreDelivered := by
  unfold Obligations.NoticesLeaveAsTheyAreDelivered
  intro s hr
  refine ⟨fun max hb hp => ?_, fun r hp => ⟨fun he => ?_, fun he => ?_⟩, fun hp => ?_, fun n => ?_,
    rfl, rfl, rfl, rfl, rfl, rfl⟩
  · intro most ns
    rw [exec_takeNotices hr hp hb, State.snapTakeNotices, noticeMaximum_eq]
    rfl
  · rw [exec_noticeEntryDelivered hr, noticeDelivered_included hp he]
    rfl
  · rw [exec_noticeEntryDelivered hr, noticeDelivered_exhausted hp he]
  · rw [exec_noticeEntryDelivered hr, noticeDelivered_none hp]
  · cases n <;> rfl

end Sys2Proof.Machine

/-! SUPPORT. O50: what becomes of a notice handed on, and of a cause reported, case by case. -/

namespace Sys2Proof.Machine

section
variable {u : NoticeUnit} {enables : BitVec 9}

/-! ## A notice handed on (R179) -/

/-- A notice of a disabled kind is dropped. -/
theorem NoticeUnit.hand_disabled {n : Notice} (he : enables.getLsbD n.enableBit = false) : u.hand enables n = u := by
  rw [NoticeUnit.hand, he, if_neg Bool.false_ne_true]

/-- A notice of an enabled kind joins the tail where there is room. -/
theorem NoticeUnit.hand_queued {n : Notice} (he : enables.getLsbD n.enableBit = true) (hq : u.queue.length < 32) :
    u.hand enables n = { u with queue := u.queue ++ [n] } := by
  rw [NoticeUnit.hand, if_pos he, if_pos (show u.queue.length < Config.noticeDepth from hq)]

/-- A notice of an enabled kind is lost to a full queue. -/
theorem NoticeUnit.hand_lost {n : Notice} (he : enables.getLsbD n.enableBit = true) (hq : 32 ≤ u.queue.length) :
    u.hand enables n = { u with noticeLoss := true } := by
  rw [NoticeUnit.hand, if_pos he, if_neg (show ¬ u.queue.length < Config.noticeDepth from hq.not_gt)]

/-! ## A cause reported (R181) -/

/-- A cause whose flag is set already changes nothing. -/
theorem NoticeUnit.report_again {c : FaultCause} (hf : u.flag c = true) (detail : Byte) :
    u.report enables c detail = u := by
  rw [NoticeUnit.report, if_pos hf]

/-- The first report of any cause but NOTICE LOSS sets the flag and hands on a FAULT notice. -/
theorem NoticeUnit.report_first {c : FaultCause} (hf : u.flag c = false) (hc : c ≠ .noticeLoss) (detail : Byte) :
    u.report enables c detail = (u.setFlag true c).hand enables (.fault c detail) := by
  rw [NoticeUnit.report, hf, if_neg Bool.false_ne_true, if_neg hc]

/-- The first report of NOTICE LOSS sets its flag alone. -/
theorem NoticeUnit.report_noticeLoss (hf : u.flag .noticeLoss = false) (detail : Byte) :
    u.report enables .noticeLoss detail = { u with noticeLoss := true } := by
  rw [NoticeUnit.report, hf, if_neg Bool.false_ne_true, if_pos rfl]
  rfl

end

/-- Settles O50: the bits and the flags by their tables, then the cases of a notice and of a report. -/
theorem noticesAndCausesAreHandedOn : Obligations.NoticesAndCausesAreHandedOn := by
  unfold Obligations.NoticesAndCausesAreHandedOn
  refine ⟨fun n => ?_, fun u => ⟨⟨rfl, rfl, rfl, rfl, rfl⟩, rfl, rfl, rfl, rfl, rfl⟩, fun u enables => ⟨fun n => ?_,
    fun c detail => ?_, fun code param reason => rfl⟩⟩
  · cases n <;> rfl
  · exact ⟨NoticeUnit.hand_disabled, NoticeUnit.hand_queued, NoticeUnit.hand_lost⟩
  · refine ⟨fun hf => NoticeUnit.report_again hf detail, fun hf hc => NoticeUnit.report_first hf hc detail, ?_⟩
    rintro hf rfl
    exact NoticeUnit.report_noticeLoss hf detail

end Sys2Proof.Machine

/-! SUPPORT. O51: what CLEAR FAULTS leaves of the unit's flags and record, and of the Front Ends' marks. -/

namespace Sys2Proof.Machine

/-- A flag that a mask's bit clears reads clear under the bit, and as before without it. -/
theorem and_not_eq_ite (flag bit : Bool) : (flag && !bit) = if bit then false else flag := by
  cases bit <;> simp

/-- The unit after a clear, written out flag by flag. -/
theorem NoticeUnit.clear_eq (u : NoticeUnit) (m : Byte) :
    u.clear m =
      { queue := u.queue
        overload := if m.getLsbD 0 then false else u.overload
        overrun := if m.getLsbD 1 then false else u.overrun
        noticeLoss := if m.getLsbD 2 then false else u.noticeLoss
        refused := if m.getLsbD 3 then false else u.refused
        frame := if m.getLsbD 4 then false else u.frame
        lastRefusal := if m.getLsbD 3 then none else u.lastRefusal
        coming := u.coming } := by
  simp only [NoticeUnit.clear, and_not_eq_ite]

/-- Settles O51: the row puts the effects of the CLEAR FAULTS in place, at the unit and at the Front Ends. -/
theorem clearFaultsClearsWhatItNames : Obligations.ClearFaultsClearsWhatItNames := by
  unfold Obligations.ClearFaultsClearsWhatItNames
  intro s rest m hr ha hb
  have row : exec .clearFaults s = .next (s.clearFaults m).markApplied := exec_command hr ha hb (by simp)
  rw [row, State.clearFaults, NoticeUnit.clear_eq]
  simp only [and_not_eq_ite]
  rfl

end Sys2Proof.Machine

/-! SUPPORT. O52: the causes of ATTN as they stand in the state, and the bits of a byte put together. -/

namespace Sys2Proof.Machine

/-! ## The causes (R184) -/

theorem not_isEmpty_iff {α : Type} (l : List α) : (!l.isEmpty) = true ↔ l ≠ [] := by
  rw [Bool.not_eq_true', List.isEmpty_eq_false_iff]

theorem NoteTable.anyChanged_iff (t : NoteTable) : t.anyChanged = true ↔ ∃ r ∈ t.records, r.changed = true :=
  List.any_eq_true

theorem NoticeUnit.anyFault_iff (u : NoticeUnit) : u.anyFault = true ↔ ∃ c, u.flag c = true := by
  simp only [NoticeUnit.anyFault, Bool.or_eq_true]
  constructor
  · rintro ((((h | h) | h) | h) | h)
    exacts [⟨.overload, h⟩, ⟨.overrun, h⟩, ⟨.noticeLoss, h⟩, ⟨.refused, h⟩, ⟨.frame, h⟩]
  · rintro ⟨c, h⟩
    cases c with
    | overload => exact .inl (.inl (.inl (.inl h)))
    | overrun => exact .inl (.inl (.inl (.inr h)))
    | noticeLoss => exact .inl (.inl (.inr h))
    | refused => exact .inl (.inr h)
    | frame => exact .inr h

/-- ATTN is asserted while a cause holds with its enable set. -/
theorem State.attn_iff (σ : State) :
    σ.attn = true ↔
      σ.settings.attention.getLsbD 0 = true ∧ σ.notices.queue ≠ []
        ∨ σ.settings.attention.getLsbD 1 = true ∧ (∃ r ∈ σ.table.records, r.changed = true)
        ∨ σ.settings.attention.getLsbD 2 = true ∧ ∃ c, σ.notices.flag c = true := by
  simp only [State.attn, Bool.or_eq_true, Bool.and_eq_true, not_isEmpty_iff, NoteTable.anyChanged_iff,
    NoticeUnit.anyFault_iff, or_assoc]

/-! ## The status byte (R159, R175) -/

/-- Eight bits put together are a number written bit by bit, the least significant outermost. -/
theorem byteOfBits_eq_bit (b7 b6 b5 b4 b3 b2 b1 b0 : Bool) :
    byteOfBits b7 b6 b5 b4 b3 b2 b1 b0 =
      BitVec.ofNat 8
        (Nat.bit b0 (Nat.bit b1 (Nat.bit b2 (Nat.bit b3 (Nat.bit b4 (Nat.bit b5 (Nat.bit b6 (Nat.bit b7 0)))))))) := by
  unfold byteOfBits
  congr 1
  simp only [Nat.bit_val]
  omega

/-- Each of eight bits put together stands at its place, bit 7 first. -/
theorem byteOfBits_bits (b7 b6 b5 b4 b3 b2 b1 b0 : Bool) (i : Fin 8) :
    (byteOfBits b7 b6 b5 b4 b3 b2 b1 b0).getLsbD i = ![b0, b1, b2, b3, b4, b5, b6, b7] i := by
  rw [byteOfBits_eq_bit, BitVec.getLsbD_ofNat, decide_eq_true i.isLt, Bool.true_and]
  fin_cases i <;> simp [Nat.testBit_bit_succ]

/-- What the status byte reports in each bit. -/
theorem State.statusByte_bits (σ : State) (i : Fin 8) :
    σ.statusByte.getLsbD i =
      ![decide (σ.settings.selected = .B), σ.probe.running, decide (σ.link.buffer.length = 8), σ.link.buffer.isEmpty,
        σ.notices.anyFault, σ.table.anyChanged, !σ.notices.queue.isEmpty, σ.attn] i :=
  byteOfBits_bits ..

/-- Settles O52: ATTN by its three causes, and each bit of the status byte by its place. -/
theorem attentionAndStatusFollowTheCauses : Obligations.AttentionAndStatusFollowTheCauses := by
  unfold Obligations.AttentionAndStatusFollowTheCauses
  intro s notices changes faults
  have bit (i : Fin 8) := Bool.eq_iff_iff.1 (s.statusByte_bits i)
  refine ⟨s.attn_iff, s.statusByte_bits 7, ?_, ?_, ?_, ?_, ?_, bit 1, ?_⟩
  · exact (bit 6).trans (not_isEmpty_iff _)
  · exact (bit 5).trans (NoteTable.anyChanged_iff _)
  · exact (bit 4).trans (NoticeUnit.anyFault_iff _)
  · exact (bit 3).trans List.isEmpty_iff
  · exact (bit 2).trans decide_eq_true_iff
  · exact (bit 0).trans decide_eq_true_iff

end Sys2Proof.Machine

/-! SUPPORT. O3: the two ends of a hard reset as commands, and the part that is let go with CSN high. -/

namespace Sys2Proof.Machine

theorem exec_hardReset (s : State) : exec .hardReset s = .next s.hardReset := rfl

theorem exec_hardResetEnd (s : State) : exec .hardResetEnd s = .next s.hardResetEnd := rfl

/-- With CSN high the link has nothing to wait for after a hard reset (R174). -/
theorem Link.hardReset_of_csnHigh {l : Link} (h : l.csnLow = false) : l.hardReset = {} := by
  simp [Link.hardReset, h]

/-- A part let go with CSN high is as State.reset has it, one reset on, with the same commands waiting (R186). -/
theorem hardReset_hardResetEnd {s : State} (h : s.link.csnLow = false) :
    s.hardReset.hardResetEnd = { State.reset with pending := s.pending, resets := s.resets + 1 } := by
  rw [State.hardResetEnd, State.hardReset, Link.hardReset_of_csnHigh h]
  rfl

/-- Settles O3: the two ends of a hard reset, what they leave when CSN is high, and the part held between them. -/
theorem hardResetHoldsThePart : Obligations.HardResetHoldsThePart := by
  unfold Obligations.HardResetHoldsThePart
  refine ⟨⟨exec_hardReset, exec_hardResetEnd, fun s hcsn => ?_⟩, fun c s => exec_held c⟩
  refine ⟨s.hardReset, exec_hardReset s, ?_⟩
  rw [exec_hardResetEnd, hardReset_hardResetEnd hcsn]

end Sys2Proof.Machine

/-! SUPPORT. O1 and O2: the queue of commands. A step takes the command at its front, and no command touches it: what
the frame equations say of each operation, read at the queue. -/

namespace Sys2Proof.Machine

/-! ## The step (assumption logs 1 and 3) -/

/-- A step with a command waiting is that command's meaning, the queue's rest in place. -/
theorem step_cons {s : State} {c : Instr} {rest : List Instr} (h : s.pending = c :: rest) :
    step s = exec c { s with pending := rest } := by
  rw [step, h]

/-- With no command waiting a step answers the same state. -/
theorem step_idle {s : State} (h : s.pending = []) : step s = .next s := by
  rw [step, h]

/-- Settles O1: a step by whether a command waits. -/
theorem stepTakesTheFrontCommand : Obligations.StepTakesTheFrontCommand := by
  unfold Obligations.StepTakesTheFrontCommand
  exact ⟨fun c rest s => step_cons (s := { s with pending := c :: rest }) rfl, fun s => step_idle⟩

/-! ## The queue that an operation leaves -/

theorem State.playedTo.pending_eq {σ τ : State} (h : σ.playedTo τ) : τ.pending = σ.pending := by rw [h]

theorem State.tabledTo.pending_eq {σ τ : State} (h : σ.tabledTo τ) : τ.pending = σ.pending := by rw [h]

theorem State.tunedTo.pending_eq {σ τ : State} (h : σ.tunedTo τ) : τ.pending = σ.pending := by rw [h]

theorem State.linkedTo.pending_eq {σ τ : State} (h : σ.linkedTo τ) : τ.pending = σ.pending := by rw [h]

/-- The effects of a posted command leave the queue of commands, a restart's too (R173). -/
theorem applyPosted_pending (σ : State) (p : Posted) : (σ.applyPosted p).pending = σ.pending := by
  cases p with
  | tagNote h t => exact (tagNote_frame σ h t).pending_eq
  | untagNote h => exact (untagNote_frame σ h).pending_eq
  | holdNote h v => exact (holdNote_frame σ h v).pending_eq
  | releaseNote h => exact (releaseNote_frame σ h).pending_eq
  | retireNote h => exact (retireNote_frame σ h).pending_eq
  | allRelease => exact (allRelease_frame σ).pending_eq
  | set n v => exact (set_frame σ n v).pending_eq
  | selectProfile v => exact (selectProfile_frame σ v).pending_eq
  | probeStop => exact (abortRun_frame σ _ _).pending_eq
  | clearFaults | restart => rfl

/-- So does putting the oldest posted command's effects in place, where it is of the kind named (R163). -/
theorem applyWhen_pending (σ : State) (kind : Posted → Bool) : (σ.applyWhen kind).pending = σ.pending := by
  unfold State.applyWhen
  split
  · split
    · exact applyPosted_pending σ _
    · rfl
  · rfl

/-- And the completion of its application, with the snapshot that waited for it (R163, R165). -/
theorem postedComplete_pending (σ : State) : σ.postedComplete.pending = σ.pending := by
  unfold State.postedComplete
  split
  · rfl
  · calc σ.applyHead.popPosted.takeDue.pending
      _ = σ.applyHead.popPosted.pending := (takeDue_frame _).pending_eq
      _ = σ.applyHead.pending := rfl
      _ = σ.pending := applyWhen_pending σ _

/-! ## Every command -/

/-- A command completes, and leaves the queue of commands as it was. -/
abbrev State.completes (s : State) (o : Host.Outcome State Fault Refusal) : Prop :=
  ∃ t : State, o = .next t ∧ t.pending = s.pending

/-- A step of the part completes whether the part is held or not, and leaves the queue where what it does leaves it. -/
theorem whenRunning_completes {f : State → State} {s : State} (h : (f s).pending = s.pending) :
    s.completes (whenRunning f s) := by
  refine ⟨_, rfl, ?_⟩
  split
  · rfl
  · exact h

/-- Every command completes: the two ends of a hard reset and the two edges of CSN at once, and every other by what its
operation does. -/
theorem exec_completes (c : Instr) (s : State) : s.completes (exec c s) := by
  cases c with
  | hardReset | hardResetEnd => exact ⟨_, rfl, rfl⟩
  | frameStart => exact ⟨_, rfl, (frameStart_frame s).pending_eq⟩
  | frameEnd n => exact ⟨_, rfl, (frameEnd_frame s n).pending_eq⟩
  | sample k v => exact whenRunning_completes (sampleStep_frame s k v).pending_eq
  | millisecondTick => exact whenRunning_completes rfl
  | staleTimerExpiry k => exact whenRunning_completes (staleStep_frame s k).pending_eq
  | lingerTimerExpiry h => exact whenRunning_completes (lingerExpiry_frame s h).pending_eq
  | computationComplete => exact whenRunning_completes (completeComputation_frame s).pending_eq
  | trackerResult k => exact whenRunning_completes (resultStep_frame s k).pending_eq
  | trackerOnset k | trackerReleaseEvent k | trackerRestrike k =>
    exact whenRunning_completes (eventStep_frame s _ k).pending_eq
  | trackerAnswer k => exact whenRunning_completes (trackerAnswer_frame s k).pending_eq
  | forcedReleaseMessage k => exact whenRunning_completes (forcedStep_frame s k).pending_eq
  | trackerEnable k => exact whenRunning_completes (enableStep_frame s k).pending_eq
  | trackerDisable k => exact whenRunning_completes (disableStep_frame s k).pending_eq
  | create k | update k | confirm k | release k | succeed k =>
    exact whenRunning_completes (serve_frame s k _).pending_eq
  | probePitch k => exact whenRunning_completes (probePitch_frame s k).pending_eq
  | commandByte b => exact whenRunning_completes (commandByte_frame s b).pending_eq
  | postedCommandArrival params => exact whenRunning_completes (postedArrival_frame s params).pending_eq
  | postedApplicationComplete => exact whenRunning_completes (postedComplete_pending s)
  | turnaroundBusy => exact whenRunning_completes (turnaround_frame s).pending_eq
  | noticeEntryDelivered => exact whenRunning_completes (noticeDelivered_frame s).pending_eq
  | getNote | getString | getChanged | listNotes | takeNotices | getStatus | getSetting | probeStart | probeResults =>
    exact whenRunning_completes (completeQuery_frame s _).pending_eq
  | tagNote | untagNote | holdNote | releaseNote | retireNote | allRelease | set | setReference | selectProfile
  | probeStop | clearFaults => exact whenRunning_completes (applyWhen_pending s _)
  | setEnableMask =>
    refine whenRunning_completes ?_
    unfold State.applyEnableMask
    split
    · exact applyWhen_pending s _
    · rfl
  | restart =>
    refine whenRunning_completes ?_
    unfold State.restartComplete
    split
    · exact postedComplete_pending s
    · rfl

/-- Settles O2, by the frame equation of each command's operation. -/
theorem everyCommandCompletes : Obligations.EveryCommandCompletes := by
  unfold Obligations.EveryCommandCompletes
  exact exec_completes

end Sys2Proof.Machine

/-! SUPPORT. O59: the invariants of the part after a reset. It differs from the part that a hard reset leaves in the end
of the reset and the count of resets alone, and no invariant but that of a held part reads either. -/

namespace Sys2Proof.Machine

/-- Settles O59: each block is as a hard reset leaves it, so what a hard reset leaves of an invariant holds; and the
part is not held. -/
theorem invariantsHoldAtReset : Obligations.InvariantsHoldAtReset := by
  unfold Obligations.InvariantsHoldAtReset
  obtain ⟨hfront, hfree⟩ := hardReset_channelsOk State.reset
  obtain ⟨htable, hrecords⟩ := NoteTable.ok_empty
  obtain ⟨-, hvalues⟩ := hardReset_valuesOk State.reset
  have htrackers := hardReset_trackersWf State.reset
  have hbends := hardReset_bendsWf State.reset
  have hqueues := hardReset_queuesWf State.reset
  have hlives := hardReset_livesWf State.reset
  have hheld : State.reset.heldWf := fun held => Bool.noConfusion held
  exact ⟨hfront, hfree, htrackers, htable, hrecords, Settings.wf_default, Probe.wf_empty, hvalues, hbends, hqueues,
    hheld, hlives⟩

end Sys2Proof.Machine
